-- ==== Sys2Proof/Word.lean ====
section
/-! DEFINITION. The word types of the register window and of the field line. -/

namespace Sys2Proof

/-- One word of the register window (R168). -/
abbrev Word := BitVec 16

/-- One data byte of a character, of a payload or of the staging buffer. -/
abbrev Byte := BitVec 8

/-- A line address: 0 is broadcast, 1 to 126 a station, 127 not assigned (R5). -/
abbrev Address := BitVec 7

end Sys2Proof
end

