-- ==== Sys2Proof/Syntax.lean ====
section
/-! DEFINITION. The commands of the block: one constructor per row of spec/opcode_table.json. -/

namespace Sys2Proof

/-- Samples 7, 8 and 9 of the eleven bits of one received character (R2): bit 0 is the start bit, bits 1 to 8 data
bits 0 to 7, bit 9 the mark, bit 10 the stop bit. -/
structure CharSamples where
  s7 : BitVec 11
  s8 : BitVec 11
  s9 : BitVec 11
  deriving DecidableEq, Repr

/-- What the part meets at sample 9 of the stop bit of a received character: its samples, and how many characters of the
frame in SEND have begun on TXD by then, which is a matter of time alone (R3, R69; log 11). -/
structure Delivery where
  samples : CharSamples
  begun : Nat
  deriving DecidableEq, Repr

/-- The two ways SETTLE ends in time (R68): the TURN bit times of quiet have passed, or the settle limit has. -/
inductive SettleCause
  | quiet
  | limit
  deriving DecidableEq, Repr

/-- The commands. The 19 commands of the register window carry no operand: their arguments stand in ARG0 to ARG3
when the code is written to CMD (R175). -/
inductive Instr
  /-- ENROL (address, skip, ceiling), R30. -/
  | enrol
  /-- REMOVE (address), R31. -/
  | remove
  /-- PARK (address), R33. -/
  | park
  /-- UNPARK (address), R34. -/
  | unpark
  /-- ZERO (address), R35. -/
  | zero
  /-- SYNC (address), R60. -/
  | sync
  /-- SUBMIT (destination, tag, length), R88. -/
  | submit
  /-- PURGE (selector), R101. -/
  | purge
  /-- TAKE-RETURN, R111. -/
  | takeReturn
  /-- TAKE-ATTN, R129. -/
  | takeAttn
  /-- END-SERVICE, R132. -/
  | endService
  /-- DISMISS (source), R133. -/
  | dismiss
  /-- LINE-START, R141. -/
  | lineStart
  /-- LINE-STOP, R142. -/
  | lineStop
  /-- HOLD-ENTER, R147. -/
  | holdEnter
  /-- HOLD-LEAVE, R149. -/
  | holdLeave
  /-- SUP-SET (mode, period, grace, lock), R164. -/
  | supSet
  /-- SERVICE (token), R161. -/
  | service
  /-- CLEAR, R184. -/
  | clear
  /-- A write to CMD of a value whose code names none of the 19 commands, R175. -/
  | badCmd (value : Word)
  /-- Write to RATE, R63. -/
  | rateWrite (value : Word)
  /-- Write to TIMING, R63. -/
  | timingWrite (value : Word)
  /-- Write to LIMITS, R63. -/
  | limitsWrite (value : Word)
  /-- Write to TICKDIV, R64. -/
  | tickdivWrite (value : Word)
  /-- Write to PAUSE, R57. -/
  | pauseWrite (value : Word)
  /-- Write to AMASK, R125. -/
  | amaskWrite (value : Word)
  /-- Write to WSEL, R170. -/
  | wselWrite (value : Word)
  /-- Read of WDATA, R172. -/
  | wdataRead
  /-- Write of WDATA, R172. -/
  | wdataWrite (value : Word)
  /-- Write to CAUSE, R177. -/
  | causeWrite (value : Word)
  /-- Write to ENABLE, R179. -/
  | enableWrite (value : Word)
  /-- Write to STATUS, R123. -/
  | statusWrite (value : Word)
  /-- Write to RSTCAUSE, R181. -/
  | rstcauseWrite (value : Word)
  /-- Write to ARG0 to ARG3, to a read-only register or to an unmapped offset, R169. -/
  | registerWrite (offset : BitVec 5) (value : Word)
  /-- Application of power, R182. -/
  | powerOn
  /-- Assertion of RESETN, R182. -/
  | pinReset
  /-- End of the reset that lasts, R182. -/
  | resetEnd
  /-- A tick of the time base, R62. -/
  | tick
  /-- Expiry of the pause timer, R57. -/
  | pauseExpiry
  /-- End of SETTLE, R68. -/
  | settleEnd (cause : SettleCause)
  /-- Sample 9 of the stop bit of a character in assembly, R3. -/
  | characterDelivered (delivery : Delivery)
  /-- The echo of a transmitted character is overdue, R69. -/
  | echoMissing
  /-- The character on TXD of a faulted attempt is complete, R70. -/
  | faultedAttemptEnd
  /-- Expiry of the reply timer, R72. -/
  | replyTimeout
  /-- The gap timer reaching 2 character times, R73. -/
  | gapTimeout
  /-- End of the QUIET window, R76. -/
  | quietEnd
  /-- Expiry of the supervision watch, R157. -/
  | watchExpiry
  /-- Expiry of the supervision grace, R158. -/
  | graceExpiry
  /-- The first sample that reads 0 while the receiver hunts, R2. -/
  | startBitFound
  /-- Sample 9 of a start bit that reads 1 by majority, R2. -/
  | falseStart
  /-- The first sample that reads 1 while the receiver waits for one, R3. -/
  | lineReturnsTo1
  /-- The end of the last stop bit of the frame on TXD, R69. -/
  | endOfLastStopBit
  deriving DecidableEq, Repr

end Sys2Proof
end

