-- ==== Sys2Proof/Config.lean ====
section
/-! DEFINITION. What the part fixes: its limits and its part code. The spec leaves no value undefined, so there is
no free value here. -/

namespace Sys2Proof.Config

/-- The part code that IDENT reads (R169). -/
def partCode : Word := 0x4160

/-- The largest number of station records (R19). -/
def maxStations : Nat := 32

/-- The largest number of outbound entries (R85). -/
def maxOutbound : Nat := 16

/-- The limit the Outbound Queue and the Return Queue share (R105). -/
def sharedLimit : Nat := 24

/-- The largest number of queued attention entries (R116). -/
def maxAttention : Nat := 16

/-- The largest number of queued attention entries at levels 0 to 2 (R116). -/
def maxLowAttention : Nat := 12

/-- The largest payload of a frame (R4). -/
def maxPayload : Nat := 32

/-- The number of words of the staging buffer (R173). -/
def stagingWords : Nat := 16

/-- The value at which the data pointer holds (R172). -/
def maxPointer : Nat := 32

/-- A LOST station is due in the cycles whose number is a multiple of this (R47). -/
def recoveryInterval : Nat := 8

/-- The fault streak that stops the line (R71). -/
def faultStreakLimit : BitVec 2 := 3

/-- The supervision token after power-on and pin reset (R160). -/
def initialToken : Word := 0x6C21

end Sys2Proof.Config
end

