-- ==== Sys2Proof/Machine/State.lean ====
section
/-! DEFINITION. The state of the PZ416: the state of its nine blocks (spec/00 section 3), and the queue of waiting
commands. Plain data throughout. -/

namespace Sys2Proof.Machine

/-- Reasons for a fault: none. The spec names no condition that stops the part: a command it turns away ends with a
result code, a write it turns away latches CFG, a line fault is counted. -/
inductive Fault
  deriving DecidableEq, Repr

/-- Reasons for a refusal. -/
inductive Refusal
  /-- Raised by exec for a row without a meaning. No arm raises it. Safe: the model stops where the part goes on. -/
  | notModelled (mnemonic : String)
  /-- Raised by the meanings of BADCMD and REGISTER_WRITE for a term that spells no command of their row: a code that
  names one of the 19 commands, or the offset of a register with a row of its own. Safe: the access itself is spelled
  by the other row (log 10). DESIGN CHOICE. -/
  | illFormed (mnemonic : String)
  deriving DecidableEq, Repr

/-! ### Station Table (spec/02) -/

/-- State of a station (R20, R22). -/
inductive StationState
  | new
  | online
  | suspect
  | lost
  | parked
  deriving DecidableEq, Repr

/-- A removal or park taken while the station's turn is in progress (R20). -/
inductive Leave
  | absent
  | remove
  | park
  deriving DecidableEq, Repr

/-- Kind of the most recent good reply (R20). -/
inductive ReplyKind
  | none
  | nil
  | report
  | alert
  | taken
  | defer
  deriving DecidableEq, Repr

/-- A station record (R20). Its queued outbound is counted, not stored (R38). -/
structure StationRecord where
  address : Address
  state : StationState
  leave : Leave
  skip : BitVec 4
  countdown : BitVec 4
  ceiling : BitVec 2
  outToggle : Bool
  inToggle : Option Bool
  syncPending : Bool
  missCount : BitVec 4
  lastReply : ReplyKind
  accepted : Word
  failed : Word
  duplicates : Byte
  refusals : Byte
  deriving DecidableEq, Repr

/-- The Station Table: the records in rising order of address, which is the model's one form of a table without an
order (log 17), and the poll list (R21). -/
structure StationTable where
  records : List StationRecord
  pollList : List Address
  deriving DecidableEq, Repr

/-! ### Poll Scheduler (spec/03 R40) -/

/-- Where the scheduler stands in the cycle. -/
inductive Phase
  | none
  | opening
  | walking
  | pausing
  deriving DecidableEq, Repr

/-- Kind of a turn (R40). -/
inductive TurnKind
  | ordinary
  | recovery
  deriving DecidableEq, Repr

/-- Stage of a turn (R49). -/
inductive Stage
  | sync
  | write
  | poll
  deriving DecidableEq, Repr

/-- The turn record (R40). `stage` names the exchange in progress or the last one ended, none before the turn's first
exchange; `next` is the stage to be decided at the next exchange boundary (log 15). -/
structure Turn where
  address : Address
  kind : TurnKind
  stage : Option Stage
  next : Stage
  deriving DecidableEq, Repr

/-- The Poll Scheduler. A cursor of none is END; a pause timer of none is stopped. -/
structure Scheduler where
  cycle : Word
  phase : Phase
  cursor : Option Address
  pauseTimer : Option Byte
  exchangeHanded : Bool
  turn : Option Turn
  deriving DecidableEq, Repr

/-! ### Exchange Engine (spec/04) -/

/-- State of the engine (R66). -/
inductive EngineState
  | idle
  | settle
  | send
  | listen
  | receive
  | quiet
  deriving DecidableEq, Repr

/-- The kinds of frame the controller sends (R9). -/
inductive FrameKind
  | poll
  | write
  | sync
  | hold
  | free
  deriving DecidableEq, Repr

/-- The exchange record (R66). `entry` is the tag of the outbound entry a WRITE carries. -/
structure Exchange where
  kind : FrameKind
  address : Address
  entry : Option Byte
  allowance : Nat
  begun : Nat
  deriving DecidableEq, Repr

/-- A character of a frame the controller sends (R4). -/
structure LineChar where
  data : Byte
  mark : Bool
  deriving DecidableEq, Repr

/-- A delivered character (R3). -/
structure RxChar where
  data : Byte
  mark : Bool
  noise : Bool
  framing : Bool
  deriving DecidableEq, Repr

/-- What the receiver is doing (R2, R3). -/
inductive Receiver
  | waitingForOne
  | hunting
  | assembling
  deriving DecidableEq, Repr

/-- A timer of the engine: stopped, running, or run out while a character in assembly holds off what its expiry does
(R68, R72, R73; log 2, log 23). -/
inductive Timer
  | stopped
  | running
  | expired
  deriving DecidableEq, Repr

/-- Why an attempt failed (R74, R81). -/
inductive FailReason
  | none
  | timeout
  | framing
  | broken
  | truncated
  | wrong
  | length
  | check
  | protocol
  | stale
  | fault
  deriving DecidableEq, Repr

/-- The last-failure record (R81). -/
structure LastFailure where
  reason : FailReason
  address : Address
  deriving DecidableEq, Repr

/-- The Exchange Engine (R66, R81). `frame` is the frame of the attempt in SEND, `echoed` the number of its characters
whose echo has been taken, `faultFound` a line fault found and the attempt not yet ended (R70), `lastStopEnded` the last
stop bit over with the last echo outstanding (R69, R70; log 12, log 19). `turnCount` is the count of TURN quiet bit
times, `settleTimer` the settle limit (R68). -/
structure Engine where
  state : EngineState
  exchange : Option Exchange
  receiver : Receiver
  driverEnable : Bool
  frame : List LineChar
  echoed : Nat
  faultFound : Bool
  lastStopEnded : Bool
  turnCount : Timer
  settleTimer : Timer
  replyTimer : Timer
  gapTimer : Timer
  buffer : List RxChar
  faults : Word
  strays : Word
  noise : Word
  faultStreak : BitVec 2
  lastFailure : LastFailure
  deriving DecidableEq, Repr

/-- The configuration registers (R65). -/
structure Settings where
  rate : BitVec 12
  turn : BitVec 4
  replyWait : BitVec 6
  retryLimit : BitVec 3
  missLimit : BitVec 4
  deferLimit : BitVec 4
  pause : Byte
  tickDiv : Word
  deriving DecidableEq, Repr

/-! ### Outbound Queue (spec/05) and Return Queue (spec/06) -/

/-- Status of an outbound entry (R86). -/
inductive EntryStatus
  | queued
  | inFlight
  deriving DecidableEq, Repr

/-- An outbound entry (R86). Its length is the length of its payload. -/
structure OutboundEntry where
  tag : Byte
  destination : Address
  payload : List Byte
  status : EntryStatus
  attempts : Nat
  defers : BitVec 4
  deriving DecidableEq, Repr

/-- How an outbound entry ended (R93). -/
inductive MessageOutcome
  | taken
  | sent
  | failed
  | refused
  | stranded
  | removed
  | purged
  deriving DecidableEq, Repr

/-- A return record (R104). -/
inductive ReturnRecord
  | report (address : Address) (payload : List Byte) (cycle : Word)
  | done (address : Address) (tag : Byte) (outcome : MessageOutcome) (attempts : Nat)
  deriving DecidableEq, Repr

/-! ### Attention Unit (spec/07) -/

/-- An attention entry (R117). -/
structure AttentionEntry where
  source : Address
  level : BitVec 2
  code : Byte
  repeats : BitVec 4
  stamp : Word
  deriving DecidableEq, Repr

/-- The Attention Unit. The queue holds the entries of all levels in the order they were appended, so the entries of one
level stand oldest first (R116, log 17); the stack is held top first. -/
structure AttentionUnit where
  queue : List AttentionEntry
  stack : List AttentionEntry
  mask : BitVec 3
  overrun : Bool
  arrivals : Word
  deriving DecidableEq, Repr

/-! ### Line Control (spec/08 R139) -/

/-- Line mode. -/
inductive LineMode
  | off
  | run
  | stopping
  deriving DecidableEq, Repr

/-- Why the line mode last passed to OFF. -/
inductive StopCause
  | none
  | host
  | fault
  deriving DecidableEq, Repr

/-- Announcement still to be sent. -/
inductive Announcement
  | none
  | hold
  | free
  deriving DecidableEq, Repr

/-- Line Control. `causeHost` and `causeSupervision` are the hold cause set; `inFlight` is the announcement in flight,
holding its renewed flag. -/
structure LineControl where
  mode : LineMode
  stopCause : StopCause
  holdInForce : Bool
  causeHost : Bool
  causeSupervision : Bool
  announcement : Announcement
  inFlight : Option Bool
  deriving DecidableEq, Repr

/-! ### Supervision Timer (spec/09 R155) -/

/-- Supervision mode. -/
inductive SupervisionMode
  | off
  | warn
  | hold
  deriving DecidableEq, Repr

/-- Stage the timer stands in. -/
inductive SupervisionState
  | idle
  | watch
  | grace
  | expired
  deriving DecidableEq, Repr

/-- The Supervision Timer. -/
structure Supervision where
  mode : SupervisionMode
  period : Word
  grace : Byte
  lock : Bool
  state : SupervisionState
  remaining : Word
  token : Word
  wrongTokens : Byte
  deriving DecidableEq, Repr

/-! ### Register Window (spec/10) -/

/-- The result codes (spec/00 section 5, spec/11 11.8). `nothing` is NONE, `wrongState` is STATE. -/
inductive ResultCode
  | ok
  | accepted
  | nothing
  | full
  | unknown
  | alreadyExists
  | badArg
  | wrongState
  | leaving
  | locked
  | badToken
  | badCmd
  deriving DecidableEq, Repr

/-- Four words: ARG0 to ARG3, or RES0 to RES3. -/
structure FourWords where
  w0 : Word
  w1 : Word
  w2 : Word
  w3 : Word
  deriving DecidableEq, Repr

/-- The window selections (R170). -/
inductive Selection
  | nothing
  | stage
  | station
  | outbound
  | returned
  | stack
  | lineStats
  deriving DecidableEq, Repr

/-- The latched causes (R177). -/
structure LatchedCauses where
  line : Bool
  table : Bool
  holdSent : Bool
  cfg : Bool
  deriving DecidableEq, Repr

/-- The reset-cause record (R181). -/
structure ResetCauses where
  power : Bool
  pin : Bool
  clear : Bool
  deriving DecidableEq, Repr

/-- The Register Window. An empty snapshot is a latch that holds nothing. `readData` is the word the last WDATA_READ
put on the data pins (log 8). -/
structure Window where
  cmd : Byte
  args : FourWords
  result : ResultCode
  res : FourWords
  selection : Selection
  index : Byte
  pointer : Nat
  snapshot : List Word
  staging : Vector Byte 32
  latched : LatchedCauses
  enable : BitVec 6
  resetCauses : ResetCauses
  readData : Word
  deriving DecidableEq, Repr

/-! ### The whole -/

/-- The state of the block. -/
structure State where
  /-- Power-on reset or RESETN lasts (R168, R182). -/
  inReset : Bool
  /-- Register Window. -/
  rw : Window
  /-- Configuration registers. -/
  cfg : Settings
  /-- Station Table. -/
  st : StationTable
  /-- Poll Scheduler. -/
  ps : Scheduler
  /-- Exchange Engine. -/
  ee : Engine
  /-- Outbound Queue, oldest entry first. -/
  oq : List OutboundEntry
  /-- Return Queue, oldest record first. -/
  rq : List ReturnRecord
  /-- Return latch (R112). -/
  latch : Option ReturnRecord
  /-- Attention Unit. -/
  au : AttentionUnit
  /-- Line Control. -/
  lc : LineControl
  /-- Supervision Timer. -/
  sv : Supervision
  /-- Commands waiting to be taken, first in first out (log 1). -/
  pending : List Instr
  deriving DecidableEq, Repr

/-! ### Reset values -/

/-- The four words that read 0. -/
def FourWords.zero : FourWords := ⟨0, 0, 0, 0⟩

/-- The configuration after power-on and pin reset (R65). -/
def Settings.reset : Settings :=
  { rate := 104, turn := 2, replyWait := 3, retryLimit := 2, missLimit := 3, deferLimit := 8, pause := 10,
    tickDiv := 16000 }

/-- The Station Table after every kind of reset (R19, R21). -/
def StationTable.reset : StationTable := { records := [], pollList := [] }

/-- The Poll Scheduler after every kind of reset (R40). -/
def Scheduler.reset : Scheduler :=
  { cycle := 0, phase := .none, cursor := none, pauseTimer := none, exchangeHanded := false, turn := none }

/-- The Exchange Engine after every kind of reset (R83, R84): IDLE, receiver waiting for a sample that reads 1. R83 gives
the empty buffer and the stopped timers for power-on and pin reset; for CLEAR they are the model's choice (log 27). -/
def Engine.reset : Engine :=
  { state := .idle, exchange := none, receiver := .waitingForOne, driverEnable := false, frame := [], echoed := 0,
    faultFound := false, lastStopEnded := false, turnCount := .stopped, settleTimer := .stopped,
    replyTimer := .stopped, gapTimer := .stopped, buffer := [], faults := 0, strays := 0, noise := 0,
    faultStreak := 0, lastFailure := { reason := .none, address := 0 } }

/-- The Attention Unit after power-on and pin reset (R137). -/
def AttentionUnit.reset : AttentionUnit :=
  { queue := [], stack := [], mask := 0, overrun := false, arrivals := 0 }

/-- Line Control after power-on and pin reset (R153). -/
def LineControl.reset : LineControl :=
  { mode := .off, stopCause := .none, holdInForce := false, causeHost := false, causeSupervision := false,
    announcement := .none, inFlight := none }

/-- The Supervision Timer after power-on and pin reset (R166). The remaining count is not counted there; the model
names it 0 (log 18). -/
def Supervision.reset : Supervision :=
  { mode := .off, period := 1000, grace := 100, lock := false, state := .idle, remaining := 0,
    token := Config.initialToken, wrongTokens := 0 }

/-- The Register Window after power-on and pin reset (R174, R183), but for the reset-cause record. The data pins are
named 0 (log 8). -/
def Window.reset (causes : ResetCauses) : Window :=
  { cmd := 0, args := FourWords.zero, result := .ok, res := FourWords.zero, selection := .stage, index := 0,
    pointer := 0, snapshot := [], staging := Vector.replicate 32 0,
    latched := { line := false, table := false, holdSent := false, cfg := false }, enable := 0,
    resetCauses := causes, readData := 0 }

/-- Every block at its value for power-on and pin reset (R182), with the reset-cause record given. -/
def State.afterReset (causes : ResetCauses) : State :=
  { inReset := false, rw := Window.reset causes, cfg := Settings.reset, st := StationTable.reset,
    ps := Scheduler.reset, ee := Engine.reset, oq := [], rq := [], latch := none, au := AttentionUnit.reset,
    lc := LineControl.reset, sv := Supervision.reset, pending := [] }

/-- The machine right after a power-on reset has ended (R181, R182; log 7). -/
def State.reset : State := State.afterReset { power := true, pin := false, clear := false }

end Sys2Proof.Machine
end

