-- ==== Sys2Proof/Machine/Operands.lean ====
section
/-! DEFINITION. The operand forms: argument words, fields of written words, and the samples of a received character. -/

namespace Sys2Proof.Machine

/-- What a meaning answers. -/
abbrev StepResult := Host.Outcome State Fault Refusal

/-! ### Counters -/

/-- One step of a saturating counter (spec/00 section 5). -/
def satInc {n : Nat} (x : BitVec n) : BitVec n :=
  if x = BitVec.allOnes n then x else x + 1

/-! ### Argument words (R175) -/

/-- An argument read as a station address: in range are 1 to 126 (R30 to R34). -/
def stationAddress (w : Word) : Option Address :=
  if 1 ≤ w.toNat ∧ w.toNat ≤ 126 then some (w.setWidth 7) else none

/-- An argument read as 0 or a station address (R88, R133). -/
def lineAddress (w : Word) : Option Address :=
  if w.toNat ≤ 126 then some (w.setWidth 7) else none

/-- The mode argument of SUP-SET (R164, spec/11 11.4). -/
def supervisionModeOf (w : Word) : Option SupervisionMode :=
  if w = 0 then some .off else if w = 1 then some .warn else if w = 2 then some .hold else none

/-! ### Window selection (R170, spec/11 11.6) -/

/-- The selection named by bits 3 to 0 of a word written to WSEL. -/
def selectionOf (w : Word) : Selection :=
  match (w.setWidth 4).toNat with
  | 1 => .stage
  | 2 => .station
  | 3 => .outbound
  | 4 => .returned
  | 5 => .stack
  | 6 => .lineStats
  | _ => .nothing

/-- The index in bits 15 to 8 of a word written to WSEL. -/
def indexOf (w : Word) : Byte := w.extractLsb' 8 8

/-! ### Received characters (R2, R3) -/

/-- The majority of samples 7, 8 and 9 of each bit (R2). -/
def majorityBits (c : CharSamples) : BitVec 11 :=
  (c.s7 &&& c.s8) ||| (c.s7 &&& c.s9) ||| (c.s8 &&& c.s9)

/-- Whether the three samples of some bit do not all agree (R2). -/
def samplesDisagree (c : CharSamples) : Bool :=
  !(c.s7 == c.s8 && c.s8 == c.s9)

/-- Whether the start bit reads 1 by majority, so that the start is false (R2). -/
def startIsFalse (c : CharSamples) : Bool := (majorityBits c).getLsbD 0

/-- The character the receiver delivers from its samples (R2, R3). -/
def receivedChar (c : CharSamples) : RxChar :=
  { data := (majorityBits c).extractLsb' 1 8
    mark := (majorityBits c).getLsbD 9
    noise := samplesDisagree c
    framing := !(majorityBits c).getLsbD 10 }

/-- The eleven bits of a character on TXD, in the order sent: start bit 0, data bits 0 to 7, the mark, stop bit 1
(R1). -/
def characterBits (c : LineChar) : List Bool :=
  [false] ++ (List.range 8).map (fun i => c.data.getLsbD i) ++ [c.mark, true]

end Sys2Proof.Machine
end

