-- ==== Sys2Proof/Machine/Flags.lean ====
section
/-! DEFINITION. What follows the state from moment to moment: the shared sum, the presented entry, the causes, IRQN,
HOLDOUT, TXD and DE. -/

namespace Sys2Proof.Machine

/-- The shared sum (R105). -/
def sharedSum (s : State) : Nat := s.rq.length + s.oq.length

/-- The number of outbound entries addressed to a station (R38). -/
def queuedOutbound (s : State) (a : Address) : Nat :=
  s.oq.countP (fun e => e.destination == a)

/-! ### The presented attention entry (R126) -/

/-- The current service level: the level of the entry on top of the service stack, or none (R126, R128). -/
def serviceLevel (u : AttentionUnit) : Option (BitVec 2) := u.stack.head?.map (·.level)

/-- Whether a level lies above the current service level; every level lies above none (R126). -/
def aboveService (u : AttentionUnit) (level : BitVec 2) : Bool :=
  match serviceLevel u with
  | none => true
  | some top => top < level

/-- Whether a level is masked; level 3 has no flag (R125). -/
def levelMasked (u : AttentionUnit) (level : BitVec 2) : Bool :=
  level != 3 && u.mask.getLsbD level.toNat

/-- Whether a level is open (R126). -/
def levelOpen (u : AttentionUnit) (level : BitVec 2) : Bool :=
  aboveService u level && !levelMasked u level

/-- The oldest queued entry of a level (R116). -/
def oldestAt (u : AttentionUnit) (level : BitVec 2) : Option AttentionEntry :=
  u.queue.find? (fun e => e.level == level)

/-- The presented entry: the oldest entry of the highest open level that holds one (R126). -/
def presented (u : AttentionUnit) : Option AttentionEntry :=
  [3, 2, 1, 0].findSome? (fun level => if levelOpen u level then oldestAt u level else none)

/-! ### Causes and pins -/

/-- The ATTN cause (R127). -/
def attnCause (s : State) : Bool := (presented s.au).isSome

/-- The RETURN cause (R113). -/
def returnCause (s : State) : Bool := !s.rq.isEmpty

/-- The cause set (R177), laid out as in CAUSE and ENABLE (spec/11 11.5). -/
def causeSet (s : State) : BitVec 6 :=
  BitVec.ofBool s.rw.latched.cfg ++ BitVec.ofBool s.rw.latched.holdSent ++ BitVec.ofBool s.rw.latched.table ++
    BitVec.ofBool s.rw.latched.line ++ BitVec.ofBool (returnCause s) ++ BitVec.ofBool (attnCause s)

/-- IRQN asserted: some cause is set whose enable flag is set (R179); released while a reset lasts (R182). -/
def irqAsserted (s : State) : Bool := !s.inReset && (causeSet s &&& s.rw.enable) != 0

/-- HOLDOUT asserted: exactly when hold is in force (R146). -/
def holdOut (s : State) : Bool := s.lc.holdInForce

/-- TXD at the idle 1: no character of a frame is on it (R1). -/
def txdIdle (s : State) : Bool := s.ee.frame.isEmpty || s.ee.lastStopEnded

/-- Whether a station's turn is in progress (R23). -/
def inTurn (s : State) (a : Address) : Bool :=
  match s.ps.turn with
  | none => false
  | some t => t.address == a

end Sys2Proof.Machine
end

