-- ==== Sys2Proof/Machine/Ops.lean ====
section
/-! DEFINITION. The operations the blocks share: the Station Table and its poll list, the Outbound Queue and its DONE
records, the Return Queue, arrivals at the Attention Unit, Line Control and the results of turns. -/

namespace Sys2Proof.Machine

/-! ### Station Table (spec/02) -/

/-- The record of an address (R19). -/
def StationTable.find (t : StationTable) (a : Address) : Option StationRecord :=
  t.records.find? (fun r => r.address == a)

/-- Change the record of an address, if there is one. -/
def StationTable.update (t : StationTable) (a : Address) (f : StationRecord → StationRecord) : StationTable :=
  { t with records := t.records.map (fun r => if r.address == a then f r else r) }

/-- Put a record in its place among records in rising order of address. -/
def insertRecord (r : StationRecord) : List StationRecord → List StationRecord
  | [] => [r]
  | x :: xs => if r.address < x.address then r :: x :: xs else x :: insertRecord r xs

/-- Change the record of an address in the state. -/
def updateStation (a : Address) (f : StationRecord → StationRecord) (s : State) : State :=
  { s with st := s.st.update a f }

/-- The record ENROL creates (R20, R30). -/
def newRecord (a : Address) (skip : BitVec 4) (ceiling : BitVec 2) : StationRecord :=
  { address := a, state := .new, leave := .absent, skip := skip, countdown := 0, ceiling := ceiling,
    outToggle := false, inToggle := none, syncPending := true, missCount := 0, lastReply := .none,
    accepted := 0, failed := 0, duplicates := 0, refusals := 0 }

/-- The address that follows another in the poll list, none for END. -/
def following (a : Address) (l : List Address) : Option Address :=
  (l.dropWhile (fun x => x != a)).tail.head?

/-- The address leaves the poll list; a walk cursor that designates it passes to the address that followed, or to END
(R21). -/
def leavePollList (a : Address) (s : State) : State :=
  { s with
    st := { s.st with pollList := s.st.pollList.filter (fun x => x != a) }
    ps := { s.ps with cursor := if s.ps.cursor = some a then following a s.st.pollList else s.ps.cursor } }

/-- The address joins the poll list at its tail; in OPENING and WALKING a walk cursor at END passes to it (R21, R48). -/
def joinPollList (a : Address) (s : State) : State :=
  { s with
    st := { s.st with pollList := s.st.pollList ++ [a] }
    ps := { s.ps with
      cursor := if (s.ps.phase = .opening ∨ s.ps.phase = .walking) ∧ s.ps.cursor = none then some a
        else s.ps.cursor } }

/-! ### Outbound Queue and Return Queue (spec/05, spec/06) -/

/-- The DONE record of an entry (R93). -/
def doneRecord (o : MessageOutcome) (e : OutboundEntry) : ReturnRecord :=
  .done e.destination e.tag o e.attempts

/-- Complete every entry that satisfies the test, oldest first: each leaves the Outbound Queue and its DONE record joins
the Return Queue at the tail (R93, R110). -/
def completeWhere (p : OutboundEntry → Bool) (o : MessageOutcome) (s : State) : State :=
  { s with
    oq := s.oq.filter (fun e => !p e)
    rq := s.rq ++ (s.oq.filter p).map (doneRecord o) }

/-- Complete the entry that bears a tag (R93). -/
def completeTag (tag : Byte) (o : MessageOutcome) (s : State) : State :=
  completeWhere (fun e => e.tag == tag) o s

/-- Change the entry that bears a tag. -/
def updateEntry (tag : Byte) (f : OutboundEntry → OutboundEntry) (s : State) : State :=
  { s with oq := s.oq.map (fun e => if e.tag == tag then f e else e) }

/-- An entry returns to QUEUED with attempts used 0, keeping its place (R95, R98). -/
def requeueEntry (tag : Byte) (s : State) : State :=
  updateEntry tag (fun e => { e with status := .queued, attempts := 0 }) s

/-- An entry becomes IN-FLIGHT with attempts used 0 (R92). -/
def sendEntry (tag : Byte) (s : State) : State :=
  updateEntry tag (fun e => { e with status := .inFlight, attempts := 0 }) s

/-- The oldest entry addressed to a station (R90). -/
def oldestEntryFor (s : State) (a : Address) : Option OutboundEntry :=
  s.oq.find? (fun e => e.destination == a)

/-- The oldest QUEUED broadcast entry (R43, R91). -/
def oldestBroadcast (s : State) : Option OutboundEntry :=
  s.oq.find? (fun e => e.destination == 0 && e.status == .queued)

/-- A DEFER for an entry: refused at the defer limit, otherwise QUEUED again (R95). -/
def deferEntry (tag : Byte) (s : State) : State :=
  let s := updateEntry tag (fun e => { e with defers := satInc e.defers }) s
  if s.cfg.deferLimit ≠ 0 ∧ (s.oq.any (fun e => e.tag == tag && s.cfg.deferLimit ≤ e.defers)) then
    completeTag tag .refused s
  else requeueEntry tag s

/-- The admission of a new REPORT on the shared sum (R107): the new Return Queue, or none when it is refused. -/
def admitReport (a : Address) (payload : List Byte) (s : State) : Option State :=
  if sharedSum s < Config.sharedLimit then
    some { s with rq := s.rq ++ [.report a payload s.ps.cycle] }
  else none

/-! ### Attention Unit (spec/07) -/

/-- Whether two entries have the same source, level and code (R116). -/
def AttentionEntry.sameAs (e : AttentionEntry) (source : Address) (level : BitVec 2) (code : Byte) : Bool :=
  e.source == source && e.level == level && e.code == code

/-- The number of queued entries at levels 0 to 2 (R116). -/
def lowEntries (q : List AttentionEntry) : Nat := q.countP (fun e => e.level != 3)

/-- Whether the queue has room for an entry of a level (R119, R121, R122). -/
def attentionRoom (q : List AttentionEntry) (level : BitVec 2) : Bool :=
  q.length < Config.maxAttention && (level == 3 || lowEntries q < Config.maxLowAttention)

/-- An arrival merged or appended, or none when there is neither an equal entry nor room (R118 to R121). -/
def AttentionUnit.arrive (u : AttentionUnit) (source : Address) (level : BitVec 2) (code : Byte) :
    Option AttentionUnit :=
  if u.queue.any (fun e => e.sameAs source level code) then
    some { u with
      queue := u.queue.map (fun e => if e.sameAs source level code then { e with repeats := satInc e.repeats } else e) }
  else if attentionRoom u.queue level then
    some { u with
      queue := u.queue ++ [{ source, level, code, repeats := 0, stamp := u.arrivals + 1 }]
      arrivals := u.arrivals + 1 }
  else none

/-- A controller event: one that is neither merged nor appended is lost and sets the overrun flag (R121, R123). -/
def controllerEvent (source : Address) (level : BitVec 2) (code : Byte) (s : State) : State :=
  { s with au := (s.au.arrive source level code).getD { s.au with overrun := true } }

/-- STATION-LOST (R121). -/
def stationLostEvent (a : Address) : State → State := controllerEvent a 3 0x01

/-- STATION-BACK (R121). -/
def stationBackEvent (a : Address) : State → State := controllerEvent a 1 0x02

/-- LINE-FAULT (R121). -/
def lineFaultEvent : State → State := controllerEvent 0 3 0x03

/-- SUPERVISION-DUE (R121). -/
def supervisionDueEvent : State → State := controllerEvent 0 3 0x04

/-- SUPERVISION-MISSED (R121). -/
def supervisionMissedEvent : State → State := controllerEvent 0 3 0x05

/-! ### Latched causes (R177) -/

/-- Latch LINE. -/
def latchLine (s : State) : State := { s with rw := { s.rw with latched := { s.rw.latched with line := true } } }

/-- Latch TABLE. -/
def latchTable (s : State) : State := { s with rw := { s.rw with latched := { s.rw.latched with table := true } } }

/-- Latch HOLDSENT. -/
def latchHoldSent (s : State) : State :=
  { s with rw := { s.rw with latched := { s.rw.latched with holdSent := true } } }

/-- Latch CFG (R180). -/
def latchCfg (s : State) : State := { s with rw := { s.rw with latched := { s.rw.latched with cfg := true } } }

/-! ### Line Control (spec/08) -/

/-- Set the announcement pending; the renewed flag of an announcement in flight is set (R150, R151). -/
def LineControl.announce (l : LineControl) (v : Announcement) : LineControl :=
  { l with announcement := v, inFlight := l.inFlight.map (fun _ => true) }

/-- HOST joins the cause set, hold is in force, HOLD is announced (R147). -/
def LineControl.hostHold (l : LineControl) : LineControl :=
  { l with causeHost := true, holdInForce := true }.announce .hold

/-- SUPERVISION joins the cause set, hold is in force, HOLD is announced (R148). -/
def LineControl.supervisionHold (l : LineControl) : LineControl :=
  { l with causeSupervision := true, holdInForce := true }.announce .hold

/-- SUPERVISION is withdrawn; HOLD is announced if it was in the set (R148). -/
def LineControl.withdrawSupervision (l : LineControl) : LineControl :=
  if l.causeSupervision then { l with causeSupervision := false }.announce .hold else l

/-- Hold ends, FREE is announced (R149). -/
def LineControl.release (l : LineControl) : LineControl :=
  { l with holdInForce := false, causeHost := false, causeSupervision := false }.announce .free

/-- The outcome of an announcement broadcast (R151). -/
def LineControl.announcementEnds (l : LineControl) (good : Bool) : LineControl :=
  { l with
    inFlight := none
    announcement := if good ∧ l.inFlight = some false then .none else l.announcement }

/-- The line mode passes to OFF by a stop or a fault: stop cause set, LINE latched (R142 to R145). -/
def lineOff (cause : StopCause) (s : State) : State :=
  latchLine { s with lc := { s.lc with mode := .off, stopCause := cause } }

/-! ### Supervision Timer (spec/09) -/

/-- The second stage (R158). The remaining count has reached 0, and EXPIRED does not count (R155). -/
def secondStage (s : State) : State :=
  match s.sv.mode with
  | .warn =>
    let s := supervisionMissedEvent s
    { s with sv := { s.sv with state := .watch, remaining := s.sv.period } }
  | .hold =>
    { s with
      lc := s.lc.supervisionHold
      sv := { s.sv with state := .expired, remaining := 0 } }
  | .off => s

/-- The first stage: SUPERVISION-DUE, then GRACE, and the second stage at once with a grace of 0 (R157). -/
def firstStage (s : State) : State :=
  let s := supervisionDueEvent s
  let s := { s with sv := { s.sv with state := .grace, remaining := s.sv.grace.setWidth 16 } }
  if s.sv.grace = 0 then secondStage s else s

/-- The state restarts to match the mode: IDLE, or WATCH with the full period (R164, R167). The remaining count of IDLE
is not counted; the model names it 0 (log 18). -/
def Supervision.restart (v : Supervision) : Supervision :=
  if v.mode = .off then { v with state := .idle, remaining := 0 }
  else { v with state := .watch, remaining := v.period }

/-- One step of the token: the exclusive OR of bits 0, 2, 3 and 5 enters as bit 15 of the token shifted right (R160). -/
def nextToken (t : Word) : Word :=
  (BitVec.ofBool (t.getLsbD 0 ^^ t.getLsbD 2 ^^ t.getLsbD 3 ^^ t.getLsbD 5)) ++ t.extractLsb' 1 15

/-! ### Leaving and turn results (spec/02 sections 2.3 to 2.5) -/

/-- A removal, at once or as the completion of a pending REMOVE (R31, R100). -/
def removeStation (a : Address) (s : State) : State :=
  let s := completeWhere (fun e => e.destination == a) .removed s
  let s := leavePollList a s
  { s with st := { s.st with records := s.st.records.filter (fun r => r.address != a) } }

/-- A park, at once or as the completion of a pending PARK (R33). -/
def parkStation (a : Address) (s : State) : State :=
  updateStation a (fun r => { r with state := .parked, missCount := 0, leave := .absent }) (leavePollList a s)

/-- The three results of a turn (spec/02 section 2.3). -/
inductive TurnResult
  | success
  | miss
  | unfinished
  deriving DecidableEq, Repr

/-- A success (R24). -/
def turnSuccess (r : StationRecord) (s : State) : State :=
  let s := updateStation r.address (fun r =>
    { r with missCount := 0, state := if r.state = .parked then .parked else .online }) s
  if r.state = .lost then stationBackEvent r.address s else s

/-- The loss of a station (R26): LOST and sync pending, STATION-LOST, every QUEUED entry STRANDED. -/
def loseStation (a : Address) (s : State) : State :=
  let s := updateStation a (fun r => { r with state := .lost, syncPending := true, missCount := s.cfg.missLimit }) s
  let s := stationLostEvent a s
  completeWhere (fun e => e.destination == a && e.status == .queued) .stranded s

/-- A miss (R25 to R27). -/
def turnMiss (r : StationRecord) (s : State) : State :=
  if r.state = .lost ∨ r.state = .parked then s
  else if r.missCount + 1 = s.cfg.missLimit then loseStation r.address s
  else updateStation r.address (fun r => { r with state := .suspect, missCount := r.missCount + 1 }) s

/-- The result of a turn on its station (R24 to R28). -/
def applyTurnResult (result : TurnResult) (a : Address) (s : State) : State :=
  match s.st.find a with
  | none => s
  | some r =>
    match result with
    | .success => turnSuccess r s
    | .miss => turnMiss r s
    | .unfinished => s

/-- The completion of a leave pending (R29). -/
def completeLeave (a : Address) (s : State) : State :=
  match s.st.find a with
  | none => s
  | some r =>
    match r.leave with
    | .absent => s
    | .remove => latchTable (removeStation a s)
    | .park => latchTable (parkStation a s)

/-- The end of the turn in progress: result, leave, and the turn record discarded (R29, R54). -/
def endTurn (result : TurnResult) (s : State) : State :=
  match s.ps.turn with
  | none => s
  | some t =>
    let s := completeLeave t.address (applyTurnResult result t.address s)
    { s with ps := { s.ps with turn := none } }

end Sys2Proof.Machine
end

