-- ==== Sys2Proof/Machine/Registers.lean ====
section
/-! DEFINITION. What the host reads: the codes and layouts of spec/11, the snapshots of the window selections, and the
word each offset of the window returns. -/

namespace Sys2Proof.Machine

/-! ### Words from fields -/

/-- A field placed at a bit position of a word. -/
def field {n : Nat} (x : BitVec n) (pos : Nat) : Word := x.setWidth 16 <<< pos

/-- A flag placed at a bit position of a word. -/
def flag (b : Bool) (pos : Nat) : Word := field (BitVec.ofBool b) pos

/-- A count placed at a bit position of a word. -/
def count (n : Nat) (pos : Nat) : Word := BitVec.ofNat 16 n <<< pos

/-- Bytes packed two to a word, byte 2p in bits 7 to 0 of word p, into a given number of words; missing bytes are 0
(spec/11 11.6). -/
def packWords : Nat → List Byte → List Word
  | 0, _ => []
  | n + 1, bytes => (field (bytes.getD 0 0) 0 ||| field (bytes.getD 1 0) 8) :: packWords n (bytes.drop 2)

/-! ### Codes (spec/11 11.4 and 11.8) -/

/-- Code of a result. -/
def resultCode : ResultCode → Word
  | .ok => 0
  | .accepted => 1
  | .nothing => 2
  | .full => 3
  | .unknown => 4
  | .alreadyExists => 5
  | .badArg => 6
  | .wrongState => 7
  | .leaving => 8
  | .locked => 9
  | .badToken => 10
  | .badCmd => 11

/-- Code of a message outcome. -/
def outcomeCode : MessageOutcome → Word
  | .taken => 1
  | .sent => 2
  | .failed => 3
  | .refused => 4
  | .stranded => 5
  | .removed => 6
  | .purged => 7

/-- Code of a station state. -/
def stationStateCode : StationState → Word
  | .new => 0
  | .online => 1
  | .suspect => 2
  | .lost => 3
  | .parked => 4

/-- Code of a leave pending. -/
def leaveCode : Leave → Word
  | .absent => 0
  | .remove => 1
  | .park => 2

/-- Code of an in-toggle. -/
def inToggleCode : Option Bool → Word
  | none => 0
  | some false => 2
  | some true => 3

/-- Code of a last reply kind. -/
def replyKindCode : ReplyKind → Word
  | .none => 0
  | .nil => 1
  | .report => 2
  | .alert => 3
  | .taken => 4
  | .defer => 5

/-- Code of a last-failure reason. -/
def failReasonCode : FailReason → Word
  | .none => 0
  | .timeout => 1
  | .framing => 2
  | .broken => 3
  | .truncated => 4
  | .wrong => 5
  | .length => 6
  | .check => 7
  | .protocol => 8
  | .stale => 9
  | .fault => 10

/-- Line code of a line mode and stop cause. -/
def lineCode (l : LineControl) : Word :=
  match l.mode with
  | .run => 3
  | .stopping => 4
  | .off =>
    match l.stopCause with
    | .none => 0
    | .host => 1
    | .fault => 2

/-- Hold code of the hold record. -/
def holdCode (l : LineControl) : Word :=
  if !l.holdInForce then 0 else 1 + field (BitVec.ofBool l.causeSupervision ++ BitVec.ofBool l.causeHost) 0

/-- Code of a supervision mode. -/
def supervisionModeCode : SupervisionMode → Word
  | .off => 0
  | .warn => 1
  | .hold => 2

/-- Code of a supervision state. -/
def supervisionStateCode : SupervisionState → Word
  | .idle => 0
  | .watch => 1
  | .grace => 2
  | .expired => 3

/-- Code of a window selection. -/
def selectionCode : Selection → Word
  | .nothing => 0
  | .stage => 1
  | .station => 2
  | .outbound => 3
  | .returned => 4
  | .stack => 5
  | .lineStats => 6

/-! ### Records in words -/

/-- The header of a return record: RES0 to RES3 of TAKE-RETURN, words 0 to 3 of the RETURN copy (R111, spec/11 11.6). -/
def returnHeader : ReturnRecord → FourWords
  | .report a payload cycle => ⟨1, field a 0, count payload.length 0, cycle⟩
  | .done a tag o attempts => ⟨2, field a 0, field tag 0, outcomeCode o ||| count attempts 8⟩

/-- The result words of an attention entry taken or popped (R129, R132, spec/11 11.7). -/
def attentionWords (e : AttentionEntry) : FourWords :=
  ⟨field e.source 0, field e.level 0 ||| field e.repeats 4, field e.code 0, e.stamp⟩

/-! ### Snapshots (R171, spec/11 11.6) -/

/-- The STATION copy of a record. -/
def stationWords (s : State) (r : StationRecord) : List Word :=
  [ field r.address 0 ||| flag true 15,
    stationStateCode r.state ||| (leaveCode r.leave <<< 4) ||| flag r.syncPending 8 ||| flag r.outToggle 9 |||
      (inToggleCode r.inToggle <<< 12),
    field r.skip 0 ||| field r.countdown 4 ||| field r.ceiling 8,
    field r.missCount 0 ||| (replyKindCode r.lastReply <<< 4) ||| count (queuedOutbound s r.address) 8,
    r.accepted, r.failed, field r.duplicates 0, field r.refusals 0 ]

/-- The STATION copy for an index: absent for index 0 or above 126 and for an address without a record. -/
def stationSnapshot (s : State) (index : Byte) : List Word :=
  match (stationAddress (index.setWidth 16)).bind s.st.find with
  | none => List.replicate 8 0
  | some r => stationWords s r

/-- The OUTBOUND copy for an index. -/
def outboundSnapshot (s : State) (index : Byte) : List Word :=
  match s.oq[index.toNat]? with
  | none => List.replicate 20 0
  | some e =>
    [ flag (e.status == .inFlight) 0 ||| flag true 15, field e.tag 0,
      field e.destination 0 ||| count e.payload.length 8, count e.attempts 0 ||| field e.defers 8 ] ++
      packWords 16 e.payload

/-- The payload of a return record: empty for a DONE record. -/
def returnPayload : ReturnRecord → List Byte
  | .report _ payload _ => payload
  | .done _ _ _ _ => []

/-- The RETURN copy. -/
def returnSnapshot (s : State) : List Word :=
  match s.latch with
  | none => List.replicate 20 0
  | some r =>
    let h := returnHeader r
    [h.w0, h.w1, h.w2, h.w3] ++ packWords 16 (returnPayload r)

/-- The three words of a stack entry. -/
def stackEntryWords (e : AttentionEntry) : List Word :=
  [field e.source 0, field e.level 0 ||| field e.repeats 4 ||| field e.code 8, e.stamp]

/-- The STACK copy: the count, then the entries, bottom first, padded to four. -/
def stackSnapshot (s : State) : List Word :=
  let entries := (s.au.stack.reverse.map stackEntryWords).flatten
  count s.au.stack.length 0 :: (entries ++ List.replicate (12 - entries.length) 0)

/-- The LINESTATS copy. -/
def lineStatsSnapshot (s : State) : List Word :=
  [ s.ee.faults, s.ee.strays, s.ee.noise, field s.ee.faultStreak 0,
    failReasonCode s.ee.lastFailure.reason ||| field s.ee.lastFailure.address 8 ]

/-- What the snapshot latch holds after a selection is written: under STAGE no copy is taken (R170; log 20). -/
def snapshotOf (s : State) (selection : Selection) (index : Byte) : List Word :=
  match selection with
  | .nothing => []
  | .stage => s.rw.snapshot
  | .station => stationSnapshot s index
  | .outbound => outboundSnapshot s index
  | .returned => returnSnapshot s
  | .stack => stackSnapshot s
  | .lineStats => lineStatsSnapshot s

/-! ### The data port (R172, R173) -/

/-- Word p of the staging buffer: bytes 2p and 2p + 1. -/
def stagingWord (staging : Vector Byte 32) (p : Nat) : Word :=
  field (staging[2 * p]?.getD 0) 0 ||| field (staging[2 * p + 1]?.getD 0) 8

/-- Both bytes of a word stored into word p of the staging buffer. -/
def storeStaging (staging : Vector Byte 32) (p : Nat) (value : Word) : Vector Byte 32 :=
  (staging.setIfInBounds (2 * p) (value.setWidth 8)).setIfInBounds (2 * p + 1) (value.extractLsb' 8 8)

/-- The word WDATA shows at the data pointer. -/
def dataWord (w : Window) : Word :=
  match w.selection with
  | .nothing => 0
  | .stage => if w.pointer < Config.stagingWords then stagingWord w.staging w.pointer else 0
  | .station | .outbound | .returned | .stack | .lineStats => w.snapshot.getD w.pointer 0

/-- The data pointer moves on by one and holds at 32. -/
def nextPointer (p : Nat) : Nat := min (p + 1) Config.maxPointer

/-! ### The registers (R169, spec/11 11.5) -/

/-- STATUS. -/
def statusWord (s : State) : Word :=
  (lineCode s.lc + 5 * holdCode s.lc) ||| flag s.au.overrun 5 ||| count s.oq.length 6 ||| count s.rq.length 11

/-- PRESENT0 (R127). -/
def present0Word (s : State) : Word :=
  match presented s.au with
  | none => 0
  | some e => field e.source 0 ||| field e.level 8 ||| field e.repeats 10 ||| flag true 15

/-- PRESENT1 (R127). -/
def present1Word (s : State) : Word :=
  match presented s.au with
  | none => 0
  | some e => field e.code 0

/-- TIMING. -/
def timingWord (c : Settings) : Word := field c.turn 0 ||| field c.replyWait 8

/-- LIMITS. -/
def limitsWord (c : Settings) : Word := field c.retryLimit 0 ||| field c.missLimit 4 ||| field c.deferLimit 8

/-- WSEL. -/
def wselWord (w : Window) : Word := selectionCode w.selection ||| field w.index 8

/-- RSTCAUSE. -/
def resetCauseWord (r : ResetCauses) : Word := flag r.power 0 ||| flag r.pin 1 ||| flag r.clear 2

/-- SUPSTAT. -/
def supStatWord (v : Supervision) : Word :=
  supervisionModeCode v.mode ||| (supervisionStateCode v.state <<< 2) ||| flag v.lock 4 ||| field v.wrongTokens 8

/-- The word a read of an offset of the window returns (R168, R169); 0 while a reset lasts. A read of WDATA also
advances the data pointer: the command WDATA_READ does that. -/
def readWord (s : State) (offset : BitVec 5) : Word :=
  if s.inReset then 0
  else
    match offset.toNat with
    | 0x00 => Config.partCode
    | 0x01 => statusWord s
    | 0x02 => field (causeSet s) 0
    | 0x03 => field s.rw.enable 0
    | 0x04 => field s.rw.cmd 0
    | 0x05 => s.rw.args.w0
    | 0x06 => s.rw.args.w1
    | 0x07 => s.rw.args.w2
    | 0x08 => s.rw.args.w3
    | 0x09 => resultCode s.rw.result
    | 0x0A => s.rw.res.w0
    | 0x0B => s.rw.res.w1
    | 0x0C => s.rw.res.w2
    | 0x0D => s.rw.res.w3
    | 0x0E => wselWord s.rw
    | 0x0F => dataWord s.rw
    | 0x10 => field s.cfg.rate 0
    | 0x11 => timingWord s.cfg
    | 0x12 => limitsWord s.cfg
    | 0x13 => field s.cfg.pause 0
    | 0x14 => s.cfg.tickDiv
    | 0x15 => field s.au.mask 0
    | 0x16 => present0Word s
    | 0x17 => present1Word s
    | 0x18 => s.ps.cycle
    | 0x19 => resetCauseWord s.rw.resetCauses
    | 0x1A => supStatWord s.sv
    | _ => 0

end Sys2Proof.Machine
end

