-- ==== Sys2Proof/Machine/Commands.lean ====
section
/-! DEFINITION. How every event is taken: a command of the window and its result, a bus access or event while no reset
lasts. -/

namespace Sys2Proof.Machine

/-- What the owning block answers to a command: the state it leaves, the result code, and the result words (R175). -/
structure Answer where
  state : State
  result : ResultCode
  words : FourWords
  deriving DecidableEq, Repr

/-- An answer whose result words are all 0. -/
def plain (result : ResultCode) (s : State) : Answer := ⟨s, result, FourWords.zero⟩

/-- An answer OK with one value in RES0. -/
def okWith (w : Word) (s : State) : Answer := ⟨s, .ok, { FourWords.zero with w0 := w }⟩

/-- A command is taken: its block decides it, then CMD, RESULT and RES0 to RES3 are set (R175). While a reset lasts the
write is lost (R168). -/
def takeCommand (code : Byte) (body : State → Answer) (s : State) : StepResult :=
  if s.inReset then .next s
  else
    let a := body s
    .next { a.state with rw := { a.state.rw with cmd := code, result := a.result, res := a.words } }

/-- An access or event that is taken only while no reset lasts (R168, R182; log 6). -/
def whenRunning (f : State → State) (s : State) : StepResult :=
  .next (if s.inReset then s else f s)

end Sys2Proof.Machine
end

