-- ==== Sys2Proof/Machine/Attention.lean ====
section
/-! DEFINITION. TAKE-ATTN, END-SERVICE, DISMISS, and the writes of AMASK and STATUS (spec/07). -/

namespace Sys2Proof.Machine

/-- The presented entry passes from the queue to the service stack (R129). -/
def pushPresented (e : AttentionEntry) (s : State) : State :=
  { s with au := { s.au with queue := s.au.queue.erase e, stack := e :: s.au.stack } }

/-- TAKE-ATTN (R129). -/
def takeAttnAnswer (s : State) : Answer :=
  match presented s.au with
  | none => plain .nothing s
  | some e => ⟨pushPresented e s, .ok, attentionWords e⟩

/-- TAKE-ATTN. -/
def execTakeAttn (s : State) : StepResult := takeCommand 0x20 takeAttnAnswer s

/-- END-SERVICE (R132). -/
def endServiceAnswer (s : State) : Answer :=
  match s.au.stack with
  | [] => plain .nothing s
  | e :: rest => ⟨{ s with au := { s.au with stack := rest } }, .ok, attentionWords e⟩

/-- END-SERVICE. -/
def execEndService (s : State) : StepResult := takeCommand 0x21 endServiceAnswer s

/-- Every queued entry of a source removed (R133). -/
def dismissSource (a : Address) (s : State) : State :=
  { s with au := { s.au with queue := s.au.queue.filter (fun e => e.source != a) } }

/-- DISMISS (R133). -/
def dismissAnswer (s : State) : Answer :=
  match lineAddress s.rw.args.w0 with
  | none => plain .badArg s
  | some a => okWith (count (s.au.queue.countP (fun e => e.source == a)) 0) (dismissSource a s)

/-- DISMISS. -/
def execDismiss (s : State) : StepResult := takeCommand 0x22 dismissAnswer s

/-- Write to AMASK (R125). -/
def execAmaskWrite (value : Word) (s : State) : StepResult :=
  whenRunning (fun s => { s with au := { s.au with mask := value.setWidth 3 } }) s

/-- Write to STATUS: 1 in bit 5 clears the overrun flag (R123). -/
def execStatusWrite (value : Word) (s : State) : StepResult :=
  whenRunning (fun s => { s with au := { s.au with overrun := s.au.overrun && !value.getLsbD 5 } }) s

end Sys2Proof.Machine
end

