-- ==== Sys2Proof/Machine/Scheduler.lean ====
section
/-! DEFINITION. The Poll Scheduler between two exchanges: cycle starts, the opening, the walk, the stages of a turn, the
tail and the pause. Each of these ends by handing an exchange or by starting a pause. -/

namespace Sys2Proof.Machine

/-- The allowance of every exchange but a RECOVERY POLL (R67). -/
def fullAllowance (s : State) : Nat := s.cfg.retryLimit.toNat + 1

/-- An exchange is handed: its record is filled and the engine enters SETTLE (R44, R67). -/
def handExchange (kind : FrameKind) (address : Address) (entry : Option Byte) (allowance : Nat) (s : State) : State :=
  { s with
    ps := { s.ps with exchangeHanded := true }
    ee := { s.ee with
      state := .settle, turnCount := .running, settleTimer := .running
      exchange := some { kind, address, entry, allowance, begun := 0 } } }

/-- The frame kind of an announcement pending. -/
def announcementKind : Announcement → FrameKind
  | .free => .free
  | .hold | .none => .hold

/-- The announcement broadcast is handed, and is in flight from then on (R42, R55, R151). -/
def handAnnouncement (s : State) : State :=
  handExchange (announcementKind s.lc.announcement) 0 none (fullAllowance s)
    { s with lc := { s.lc with inFlight := some false } }

/-- The stage whose exchange is in progress from now on. -/
def atStage (stage : Stage) (s : State) : State :=
  { s with ps := { s.ps with turn := s.ps.turn.map (fun t => { t with stage := some stage, next := stage }) } }

/-- The POLL of a turn, with one attempt in a RECOVERY turn (R52). -/
def handPoll (t : Turn) (s : State) : State :=
  handExchange .poll t.address none (if t.kind = .recovery then 1 else fullAllowance s) (atStage .poll s)

/-- The entry that the WRITE stage of a turn carries: the station's oldest, when hold is not in force and the station
is not LOST (R51). -/
def writeStageEntry (s : State) (a : Address) : Option OutboundEntry :=
  if s.lc.holdInForce ∨ (s.st.find a).map (·.state) = some .lost then none else oldestEntryFor s a

/-- The exchange of the stage that stands next in the turn (R49 to R52). -/
def handStage (t : Turn) (s : State) : State :=
  match t.next with
  | .sync => handExchange .sync t.address none (fullAllowance s) (atStage .sync s)
  | .write =>
    match writeStageEntry s t.address with
    | some e => handExchange .write t.address (some e.tag) (fullAllowance s) (sendEntry e.tag (atStage .write s))
    | none => handPoll t s
  | .poll => handPoll t s

/-- The boundary before an exchange of a turn: a pending announcement goes first (R55). -/
def decideTurn (t : Turn) (s : State) : State :=
  if s.lc.announcement ≠ .none then handAnnouncement s else handStage t s

/-- The turn record of a station found due; sync pending is read here, once (R49, R50; log 16). -/
def newTurn (r : StationRecord) (kind : TurnKind) : Turn :=
  { address := r.address, kind, stage := none,
    next := if kind = .recovery then .poll else if r.syncPending then .sync else .write }

/-- A station found due begins its turn (R45, R49). -/
def beginTurn (r : StationRecord) (kind : TurnKind) (s : State) : State :=
  let t := newTurn r kind
  decideTurn t { s with ps := { s.ps with turn := some t } }

/-- Whether the cycle is a recovery cycle (R47). -/
def recoveryCycle (s : State) : Bool := s.ps.cycle.toNat % Config.recoveryInterval == 0

/-- The walk from an address on: each visit passes the cursor on and makes the due decision; the stations passed over
take no time (R45 to R47). At the end of the list the walk passes the tail. -/
def walkFrom (passTail : State → State) : List Address → State → State
  | [], s => passTail { s with ps := { s.ps with cursor := none } }
  | a :: rest, s =>
    let s := { s with ps := { s.ps with cursor := rest.head? } }
    match s.st.find a with
    | none => walkFrom passTail rest s
    | some r =>
      match r.state with
      | .parked => walkFrom passTail rest s
      | .lost => if recoveryCycle s then beginTurn r .recovery s else walkFrom passTail rest s
      | .new | .online | .suspect =>
        if r.countdown = 0 then
          beginTurn r .ordinary (updateStation a (fun r => { r with countdown := r.skip }) s)
        else walkFrom passTail rest (updateStation a (fun r => { r with countdown := r.countdown - 1 }) s)

/-- The addresses the walk has still to visit. -/
def toVisit (s : State) : List Address :=
  match s.ps.cursor with
  | none => []
  | some a => s.st.pollList.dropWhile (fun x => x != a)

/-- The second act of the opening: the oldest QUEUED broadcast entry when hold is not in force, after a pending
announcement; otherwise the walk begins (R43, R55). -/
def openingMessage (passTail : State → State) (s : State) : State :=
  match if s.lc.holdInForce then none else oldestBroadcast s with
  | some e =>
    if s.lc.announcement ≠ .none then handAnnouncement s
    else handExchange .write 0 (some e.tag) (fullAllowance s) (sendEntry e.tag s)
  | none => walkFrom passTail (toVisit s) { s with ps := { s.ps with phase := .walking } }

/-- The pause begins with a count of ticks (R57). -/
def startPause (ticks : Byte) (s : State) : State :=
  { s with ps := { s.ps with phase := .pausing, pauseTimer := some ticks } }

/-- The tail of a cycle that has handed no exchange: with PAUSE 0 it ends with a pause of one tick (R57). -/
def passTailUnhanded (s : State) : State :=
  if s.lc.announcement ≠ .none then handAnnouncement s
  else startPause (if s.cfg.pause = 0 then 1 else s.cfg.pause) s

/-- A cycle starts (R41), with the first act of its opening: the pending announcement, or a repeat HOLD (R42). -/
def startCycle (s : State) : State :=
  let s := { s with
    ps := { s.ps with
      cycle := s.ps.cycle + 1, cursor := s.st.pollList.head?, exchangeHanded := false, phase := .opening
      pauseTimer := none } }
  if s.lc.announcement ≠ .none then handAnnouncement s
  else if s.lc.holdInForce then handExchange .hold 0 none (fullAllowance s) s
  else openingMessage passTailUnhanded s

/-- The walk passes the tail: a pending announcement first, then the pause, or with PAUSE 0 the next cycle at once when
the cycle has handed an exchange (R57). -/
def passTail (s : State) : State :=
  if s.lc.announcement ≠ .none then handAnnouncement s
  else if s.cfg.pause = 0 then
    if s.ps.exchangeHanded then startCycle s else startPause 1 s
  else startPause s.cfg.pause s

/-- The scheduler carries on after an exchange of a running line (R43, R45, R54, R55). -/
def resume (x : Exchange) (s : State) : State :=
  match s.ps.phase with
  | .opening =>
    if x.kind = .write then walkFrom passTail (toVisit s) { s with ps := { s.ps with phase := .walking } }
    else openingMessage passTail s
  | .walking =>
    match s.ps.turn with
    | some t => decideTurn t s
    | none => walkFrom passTail (toVisit s) s
  | .pausing | .none => s

/-- The cycle is abandoned when the line mode has become OFF: a turn ends unfinished, the pause timer stops, the cursor
goes to END and the phase to NONE (R59). -/
def abandonCycle (s : State) : State :=
  let s := endTurn .unfinished s
  { s with ps := { s.ps with phase := .none, cursor := none, pauseTimer := none } }

end Sys2Proof.Machine
end

