-- ==== Sys2Proof/Machine/LineCommands.lean ====
section
/-! DEFINITION. LINE-START, LINE-STOP, HOLD-ENTER and HOLD-LEAVE (spec/08). -/

namespace Sys2Proof.Machine

/-- The line starts from OFF: RUN, no stop cause, no fault streak, and a cycle starts (R141). -/
def startLine (s : State) : State :=
  startCycle { s with
    lc := { s.lc with mode := .run, stopCause := .none }
    ee := { s.ee with faultStreak := 0 } }

/-- LINE-START (R141). -/
def lineStartAnswer (s : State) : Answer :=
  match s.lc.mode with
  | .off => plain .ok (startLine s)
  | .stopping => plain .ok { s with lc := { s.lc with mode := .run } }
  | .run => plain .wrongState s

/-- LINE-START. -/
def execLineStart (s : State) : StepResult := takeCommand 0x28 lineStartAnswer s

/-- LINE-STOP (R142). -/
def lineStopAnswer (s : State) : Answer :=
  match s.lc.mode with
  | .run =>
    if s.ee.exchange.isSome then plain .ok { s with lc := { s.lc with mode := .stopping } }
    else plain .ok (abandonCycle (lineOff .host s))
  | .off | .stopping => plain .wrongState s

/-- LINE-STOP. -/
def execLineStop (s : State) : StepResult := takeCommand 0x29 lineStopAnswer s

/-- HOLD-ENTER (R147). -/
def holdEnterAnswer (s : State) : Answer := plain .ok { s with lc := s.lc.hostHold }

/-- HOLD-ENTER. -/
def execHoldEnter (s : State) : StepResult := takeCommand 0x2A holdEnterAnswer s

/-- HOLD-LEAVE (R149). -/
def holdLeaveAnswer (s : State) : Answer :=
  if !s.lc.holdInForce ∨ s.lc.causeSupervision then plain .wrongState s
  else plain .ok { s with lc := s.lc.release }

/-- HOLD-LEAVE. -/
def execHoldLeave (s : State) : StepResult := takeCommand 0x2B holdLeaveAnswer s

end Sys2Proof.Machine
end

