-- ==== Sys2Proof/Machine/Frames.lean ====
section
/-! DEFINITION. Frames: the check, the composition of the frames the controller sends, and the tests of a reply. -/

namespace Sys2Proof.Machine

/-! ### The check (R6) -/

/-- One shift of the check register. -/
def crcShift (r : Word) : Word := if r.msb then (r <<< 1) ^^^ 0x1021 else r <<< 1

/-- One covered character: combined into the high byte, then eight shifts. -/
def crcByte (r : Word) (b : Byte) : Word :=
  Nat.repeat crcShift 8 (r ^^^ (b.setWidth 16 <<< 8))

/-- The check over the covered characters, in frame order. -/
def crc (bytes : List Byte) : Word := bytes.foldl crcByte 0xFFFF

/-! ### The control character (R7, spec/11 11.3) -/

/-- Code of a kind the controller sends (R9). -/
def kindCode : FrameKind → BitVec 4
  | .poll => 0x1
  | .write => 0x2
  | .sync => 0x3
  | .hold => 0x4
  | .free => 0x5

/-- A control character: kind, T, A, Q, and the reserved bit 0. -/
def ctrlByte (kind : BitVec 4) (t a q : Bool) : Byte :=
  kind ++ BitVec.ofBool t ++ BitVec.ofBool a ++ BitVec.ofBool q ++ (0 : BitVec 1)

/-- The kind of a reply named by bits 7 to 4 of its control character (R9). -/
def replyKindOf (ctrl : Byte) : Option ReplyKind :=
  match (ctrl.extractLsb' 4 4).toNat with
  | 0x8 => some .nil
  | 0x9 => some .report
  | 0xA => some .alert
  | 0xB => some .taken
  | 0xC => some .defer
  | _ => none

/-- T of a control character. -/
def ctrlT (ctrl : Byte) : Bool := ctrl.getLsbD 3

/-- The reserved bit of a control character. -/
def ctrlReserved (ctrl : Byte) : Bool := ctrl.getLsbD 0

/-! ### Composition (R4, R7, R9, R11) -/

/-- The hold cause code (R11). -/
def holdCauseCode (l : LineControl) : Byte :=
  (BitVec.ofBool l.causeSupervision ++ BitVec.ofBool l.causeHost).setWidth 8

/-- The characters of a frame with a given address, control character and payload (R4, R6). -/
def frameOf (address : Address) (ctrl : Byte) (payload : List Byte) : List LineChar :=
  let head : Byte := address.setWidth 8
  let body := ctrl :: BitVec.ofNat 8 payload.length :: payload
  let check := crc (head :: body)
  ⟨head, true⟩ ::
    (body ++ [check.extractLsb' 8 8, check.setWidth 8]).map (fun d => ⟨d, false⟩)

/-- A of a POLL: the in-toggle, or 1 when it is NONE (R7). -/
def pollA (s : State) (a : Address) : Bool :=
  (((s.st.find a).bind (·.inToggle))).getD true

/-- Q of a POLL: 1 when the two queues together hold 24 (R7, R53). -/
def pollQ (s : State) : Bool := sharedSum s == Config.sharedLimit

/-- T of a WRITE: the station's out-toggle, 0 for a broadcast (R7). -/
def writeT (s : State) (a : Address) : Bool :=
  a != 0 && ((s.st.find a).map (·.outToggle)).getD false

/-- The payload of the entry a WRITE carries (R9, R92). -/
def writePayload (s : State) (x : Exchange) : List Byte :=
  match x.entry with
  | none => []
  | some tag => ((s.oq.find? (fun e => e.tag == tag)).map (·.payload)).getD []

/-- The frame of an attempt, composed on the state of the moment it begins (R7, R67). -/
def composeFrame (s : State) (x : Exchange) : List LineChar :=
  match x.kind with
  | .poll => frameOf x.address (ctrlByte 0x1 false (pollA s x.address) (pollQ s)) []
  | .write => frameOf x.address (ctrlByte 0x2 (writeT s x.address) false false) (writePayload s x)
  | .sync => frameOf x.address (ctrlByte 0x3 false false false) []
  | .hold => frameOf x.address (ctrlByte 0x4 false false false) [holdCauseCode s.lc]
  | .free => frameOf x.address (ctrlByte 0x5 false false false) []

/-! ### Replies (R8, R10, R73, R74) -/

/-- How the assembly of a reply ended (R73). -/
inductive AssemblyEnd
  | complete
  | length
  | broken
  | truncated
  deriving DecidableEq, Repr

/-- The parts of an assembled reply, read from the buffer. -/
structure Reply where
  head : Byte
  ctrl : Byte
  len : Byte
  payload : List Byte
  check : List Byte
  deriving DecidableEq, Repr

/-- The parts of the characters in the buffer; the length character says how many are payload (R4). -/
def replyOf (buffer : List RxChar) : Reply :=
  let d := buffer.map (·.data)
  let len := d.getD 2 0
  { head := d.getD 0 0, ctrl := d.getD 1 0, len, payload := (d.drop 3).take len.toNat,
    check := (d.drop 3).drop len.toNat }

/-- Whether the last character completes the frame: LEN 0 to 32 and LEN + 5 characters (R4, R73). -/
def frameComplete (buffer : List RxChar) : Bool :=
  3 ≤ buffer.length && (replyOf buffer).len.toNat ≤ Config.maxPayload &&
    buffer.length == (replyOf buffer).len.toNat + 5

/-- Whether the LEN character has just been delivered with a value above 32 (R73). -/
def lengthTooLong (buffer : List RxChar) : Bool :=
  buffer.length == 3 && Config.maxPayload < (replyOf buffer).len.toNat

/-- The check of a reply differs from its two check characters (R6). -/
def checkDiffers (r : Reply) : Bool :=
  let c := crc (r.head :: r.ctrl :: r.len :: r.payload)
  r.check != [c.extractLsb' 8 8, c.setWidth 8]

/-- The kinds of reply that are valid for a request (R9). -/
def kindAnswers (request : FrameKind) (k : ReplyKind) : Bool :=
  match request, k with
  | .poll, .nil | .poll, .report | .poll, .alert => true
  | .write, .taken | .write, .defer => true
  | .sync, .nil => true
  | _, _ => false

/-- The payload lengths of a kind of reply (R9). -/
def lengthFits (k : ReplyKind) (len : Nat) : Bool :=
  match k with
  | .report => 1 ≤ len && len ≤ 32
  | .alert => len == 2
  | _ => len == 0

/-- Whether a reply is valid for the request it answers (R10). -/
def replyValid (request : FrameKind) (r : Reply) : Bool :=
  match replyKindOf r.ctrl with
  | none => false
  | some k =>
    kindAnswers request k && lengthFits k r.len.toNat && !ctrlReserved r.ctrl &&
      (k != .alert || (r.payload.getD 0 0).toNat ≤ 2)

/-- Whether a reply is a TAKEN under the wrong T (R12). -/
def replyStale (s : State) (x : Exchange) (r : Reply) : Bool :=
  replyKindOf r.ctrl == some .taken && ctrlT r.ctrl != writeT s x.address

/-- The first test of R74 that applies to the buffer, or NONE when the reply is good. -/
def replyFault (s : State) (x : Exchange) (ending : AssemblyEnd) (buffer : List RxChar) : FailReason :=
  let r := replyOf buffer
  if buffer.any (·.framing) then .framing
  else if ending = .broken then .broken
  else if ending = .truncated then .truncated
  else if r.head ≠ x.address.setWidth 8 then .wrong
  else if Config.maxPayload < r.len.toNat then .length
  else if checkDiffers r then .check
  else if !replyValid x.kind r then .protocol
  else if replyStale s x r then .stale
  else .none

end Sys2Proof.Machine
end

