-- ==== Sys2Proof/Machine/Exchange.lean ====
section
/-! DEFINITION. The Exchange Engine's operations: attempts, failures, good replies, outcomes and delivered characters. -/

namespace Sys2Proof.Machine

/-- The four outcomes of an exchange (R44). -/
inductive ExchangeOutcome
  | good
  | failed
  | withdrawn
  | cut
  deriving DecidableEq, Repr

/-! ### The end of an exchange (R77 to R79) -/

/-- What an outcome does to the outbound entry a WRITE carried, and to sync pending (R77, R96 to R98). A TAKEN or a DEFER
has dealt with its entry before. -/
def entryOutcome (x : Exchange) (o : ExchangeOutcome) (s : State) : State :=
  match x.entry with
  | none => s
  | some tag =>
    match o with
    | .good => if x.address = 0 then completeTag tag .sent s else s
    | .failed =>
      let s := completeTag tag .failed s
      if x.address = 0 then s else updateStation x.address (fun r => { r with syncPending := true }) s
    | .withdrawn | .cut => requeueEntry tag s

/-- The transmitter at rest: DE released and no frame on TXD (R69, R70). -/
def Engine.releaseLine (e : Engine) : Engine :=
  { e with driverEnable := false, frame := [], echoed := 0, faultFound := false, lastStopEnded := false }

/-- The exchange record is discarded, the timers stop and the engine is IDLE; the assembly buffer is kept (R79). That the
count of TURN bit times stops with them is the model's choice (log 28). -/
def discardExchange (s : State) : State :=
  { s with
    ee := { s.ee.releaseLine with
      state := .idle, exchange := none, turnCount := .stopped, settleTimer := .stopped, replyTimer := .stopped
      gapTimer := .stopped } }

/-- The outcome of a broadcast, as Line Control takes it when it is an announcement in flight (R42, R151). -/
def broadcastEnded (o : ExchangeOutcome) (s : State) : State :=
  if s.lc.inFlight.isSome then
    let s := { s with lc := s.lc.announcementEnds (o == .good) }
    if o = .good then latchHoldSent s else s
  else s

/-- The next stage of a turn. -/
def toStage (stage : Stage) (s : State) : State :=
  { s with ps := { s.ps with turn := s.ps.turn.map (fun t => { t with next := stage }) } }

/-- The course of a turn from the outcome of one of its exchanges (R49). -/
def turnCourse (kind : FrameKind) (o : ExchangeOutcome) (s : State) : State :=
  match o, kind with
  | .failed, _ => endTurn .miss s
  | .cut, _ => endTurn .unfinished s
  | .good, .sync => toStage .write s
  | .good, .write | .withdrawn, .write => toStage .poll s
  | .good, _ => endTurn .success s
  | .withdrawn, _ => endTurn .unfinished s

/-- The outcome reaches the scheduler: the turn or Line Control takes it, then the line runs on, or the stop is
completed, or a cycle stopped by faults is abandoned (R49, R58, R59, R143, R144). -/
def schedulerTakes (x : Exchange) (o : ExchangeOutcome) (s : State) : State :=
  let s := if x.address = 0 then broadcastEnded o s else turnCourse x.kind o s
  match s.lc.mode with
  | .run => resume x s
  | .stopping => abandonCycle (lineOff .host s)
  | .off => abandonCycle s

/-- An exchange ends with an outcome (R77 to R79). -/
def endExchange (x : Exchange) (o : ExchangeOutcome) (s : State) : State :=
  schedulerTakes x o (discardExchange (entryOutcome x o s))

/-! ### Attempts (R67, R68, R77) -/

/-- The engine enters SETTLE for the next attempt (R68, R77). That the reply and gap timers stop here is the model's choice
(log 28). -/
def enterSettle (s : State) : State :=
  { s with
    ee := { s.ee.releaseLine with
      state := .settle, turnCount := .running, settleTimer := .running, replyTimer := .stopped
      gapTimer := .stopped } }

/-- Whether hold forbids an attempt of the exchange: a WRITE under hold, or a HOLD without it (R68, R77). -/
def holdForbids (s : State) (x : Exchange) : Bool :=
  (x.kind == .write && s.lc.holdInForce) || (x.kind == .hold && !s.lc.holdInForce)

/-- An attempt begins: it is counted, its frame is composed, DE is asserted and SEND is entered (R67, R68, R92). That the
settle timer and the count of TURN bit times stop here is the model's choice (log 28). -/
def beginAttempt (x : Exchange) (s : State) : State :=
  let s := match x.entry with
    | none => s
    | some tag => updateEntry tag (fun e => { e with attempts := e.attempts + 1 }) s
  { s with
    ee := { s.ee with
      state := .send, exchange := some { x with begun := x.begun + 1 }, driverEnable := true
      frame := composeFrame s x, echoed := 0, faultFound := false, lastStopEnded := false
      turnCount := .stopped, settleTimer := .stopped } }

/-- The end of SETTLE (R68). -/
def settleEnds (s : State) : State :=
  match s.ee.exchange with
  | none => s
  | some x =>
    if s.lc.mode ≠ .run then endExchange x .cut s
    else if holdForbids s x then endExchange x .withdrawn s
    else beginAttempt x s

/-- The course of the exchange after a failed attempt (R77). -/
def attemptCourse (x : Exchange) (s : State) : State :=
  if s.lc.mode ≠ .run then endExchange x .cut s
  else if holdForbids s x then endExchange x .withdrawn s
  else if x.begun = x.allowance then endExchange x .failed s
  else enterSettle s

/-- The station's failed counter advances for an addressed exchange (R36). -/
def countFailed (x : Exchange) (s : State) : State :=
  if x.address = 0 then s else updateStation x.address (fun r => { r with failed := satInc r.failed }) s

/-- An attempt ends failed for a reason other than a line fault (R72, R74). -/
def attemptFails (reason : FailReason) (s : State) : State :=
  match s.ee.exchange with
  | none => s
  | some x =>
    let s := countFailed x s
    attemptCourse x { s with ee := { s.ee with lastFailure := { reason, address := x.address } } }

/-- A faulted attempt ends (R70), and the third line fault in a row stops the line (R71, R144). -/
def faultEnds (s : State) : State :=
  match s.ee.exchange with
  | none => s
  | some x =>
    let s := { s with
      ee := { s.ee.releaseLine with
        faults := satInc s.ee.faults, faultStreak := satInc s.ee.faultStreak
        lastFailure := { reason := .fault, address := x.address } } }
    let s := lineFaultEvent (countFailed x s)
    attemptCourse x (if s.ee.faultStreak = Config.faultStreakLimit then lineOff .fault s else s)

/-! ### Good replies (R12 to R15, R78) -/

/-- The in-toggle takes the T of an accepted frame (R14). -/
def acceptUpstream (a : Address) (t : Bool) : State → State :=
  updateStation a (fun r => { r with inToggle := some t })

/-- The refusals counter advances for a refused frame (R14, R37). -/
def refuseUpstream (a : Address) : State → State :=
  updateStation a (fun r => { r with refusals := satInc r.refusals })

/-- The duplicates counter advances for a duplicate (R13, R37). -/
def countDuplicate (a : Address) : State → State :=
  updateStation a (fun r => { r with duplicates := satInc r.duplicates })

/-- A REPORT or an ALERT is a duplicate when the in-toggle equals its T (R13). -/
def isDuplicate (s : State) (a : Address) (t : Bool) : Bool :=
  (s.st.find a).bind (·.inToggle) == some t

/-- A new REPORT is handed to the Return Queue (R14, R107). -/
def newReport (a : Address) (t : Bool) (payload : List Byte) (s : State) : State :=
  match admitReport a payload s with
  | some s => acceptUpstream a t s
  | none => refuseUpstream a s

/-- The level at which a station's alert arrives: the lower of the carried level and the ceiling (R119). -/
def effectiveLevel (s : State) (a : Address) (carried : Byte) : BitVec 2 :=
  let level : BitVec 2 := carried.setWidth 2
  match s.st.find a with
  | none => level
  | some r => if level < r.ceiling then level else r.ceiling

/-- A new ALERT is handed to the Attention Unit (R14, R119). -/
def newAlert (a : Address) (t : Bool) (payload : List Byte) (s : State) : State :=
  match s.au.arrive a (effectiveLevel s a (payload.getD 0 0)) (payload.getD 1 0) with
  | some u => acceptUpstream a t { s with au := u }
  | none => refuseUpstream a s

/-- The effect of a good reply by its kind (R78 step 1). -/
def replyEffect (x : Exchange) (k : ReplyKind) (r : Reply) (s : State) : State :=
  match k with
  | .none => s
  | .nil =>
    if x.kind = .sync then
      updateStation x.address (fun r => { r with outToggle := false, inToggle := none, syncPending := false }) s
    else s
  | .report =>
    if isDuplicate s x.address (ctrlT r.ctrl) then countDuplicate x.address s
    else newReport x.address (ctrlT r.ctrl) r.payload s
  | .alert =>
    if isDuplicate s x.address (ctrlT r.ctrl) then countDuplicate x.address s
    else newAlert x.address (ctrlT r.ctrl) r.payload s
  | .taken =>
    let s := updateStation x.address (fun r => { r with outToggle := !r.outToggle }) s
    match x.entry with
    | none => s
    | some tag => completeTag tag .taken s
  | .defer =>
    match x.entry with
    | none => s
    | some tag => deferEntry tag s

/-- A good reply: its effect by kind, then the accepted counter and the last reply kind, then GOOD (R36, R78). -/
def replyGood (x : Exchange) (r : Reply) (s : State) : State :=
  let k := (replyKindOf r.ctrl).getD .none
  let s := replyEffect x k r s
  let s := updateStation x.address (fun r => { r with accepted := satInc r.accepted, lastReply := k }) s
  endExchange x .good s

/-- The evaluation of the reply in the buffer (R74, R78). -/
def evaluateReply (ending : AssemblyEnd) (s : State) : State :=
  match s.ee.exchange with
  | none => s
  | some x =>
    let reason := replyFault s x ending s.ee.buffer
    if reason = .none then replyGood x (replyOf s.ee.buffer) s else attemptFails reason s

/-! ### Sending (R69, R70) -/

/-- A fully echoed frame whose last stop bit is over: DE is released and the engine listens, or waits out the reply
window of a broadcast (R69, R72, R76). That the reply timer of a broadcast stands stopped is the model's choice (log
28). -/
def frameSent (s : State) : State :=
  let broadcast := (s.ee.exchange.map (·.address)) = some 0
  { s with
    ee := { s.ee.releaseLine with
      state := if broadcast then .quiet else .listen
      replyTimer := if broadcast then .stopped else .running } }

/-- An echo is taken and matches; with the last one the fault streak becomes 0 (R69). -/
def echoMatches (s : State) : State :=
  let s := { s with ee := { s.ee with echoed := s.ee.echoed + 1 } }
  if s.ee.echoed = s.ee.frame.length then
    let s := { s with ee := { s.ee with faultStreak := 0 } }
    if s.ee.lastStopEnded then frameSent s else s
  else s

/-- A line fault is found: the character on TXD is completed first when there is one (R70, log 12). -/
def faultIsFound (characterOnTxd : Bool) (s : State) : State :=
  if characterOnTxd then { s with ee := { s.ee with faultFound := true } } else faultEnds s

/-- Whether a delivered character is the echo of a sent one: data, mark, and a stop bit that reads 1 (R69). -/
def echoAgrees (sent : LineChar) (c : RxChar) : Bool :=
  c.data == sent.data && c.mark == sent.mark && !c.framing

/-- The transmitted character that awaits its echo: the oldest whose echo has not been taken, if it has begun on TXD. The
first has begun since SEND was entered, and all have when the last stop bit is over (R69). -/
def awaitedEcho (e : Engine) (begun : Nat) : Option LineChar :=
  if e.echoed = 0 ∨ e.echoed < begun ∨ e.lastStopEnded then e.frame[e.echoed]? else none

/-- A character delivered in SEND is compared with the transmitted character that awaits its echo; with none awaiting it
is a mismatch (R69). -/
def echoCheck (c : RxChar) (begun : Nat) (s : State) : State :=
  if (awaitedEcho s.ee begun).any (fun sent => echoAgrees sent c) then echoMatches s
  else faultIsFound (!s.ee.lastStopEnded) s

/-! ### Delivered characters (R72, R73, R75, R80) -/

/-- A stray is counted and discarded (R80). -/
def countStray (s : State) : State := { s with ee := { s.ee with strays := satInc s.ee.strays } }

/-- The head of a reply: the buffer starts with it, the gap timer runs, the engine receives (R72). That the reply timer
stops here is the model's choice (log 28). -/
def replyHead (c : RxChar) (s : State) : State :=
  { s with ee := { s.ee with state := .receive, buffer := [c], gapTimer := .running, replyTimer := .stopped } }

/-- A character delivered in RECEIVE (R73). -/
def receiveChar (c : RxChar) (s : State) : State :=
  if c.mark then evaluateReply .broken s
  else
    let s := { s with ee := { s.ee with buffer := s.ee.buffer ++ [c], gapTimer := .running } }
    if lengthTooLong s.ee.buffer then evaluateReply .length s
    else if frameComplete s.ee.buffer then evaluateReply .complete s
    else s

/-- The receiver after a delivery: it hunts, or after a stop bit that read 0 waits for a sample that reads 1 (R3). -/
def receiverAfter (c : RxChar) : Receiver := if c.framing then .waitingForOne else .hunting

/-- A character is delivered and goes where the state of the engine sends it (R3, R75, R80). -/
def deliver (c : RxChar) (begun : Nat) (s : State) : State :=
  let s := { s with
    ee := { s.ee with
      receiver := receiverAfter c
      noise := if c.noise then satInc s.ee.noise else s.ee.noise } }
  match s.ee.state with
  | .idle | .quiet => countStray s
  | .settle => countStray { s with ee := { s.ee with turnCount := .running } }
  | .send => if s.ee.faultFound then s else echoCheck c begun s
  | .listen =>
    if c.mark then replyHead c s
    else if s.ee.replyTimer = .expired then attemptFails .timeout (countStray s)
    else countStray s
  | .receive => receiveChar c s

/-- A false start: the assembly ends without a character, and what waited on it proceeds (R2). -/
def falseStartFound (s : State) : State :=
  let s := { s with ee := { s.ee with receiver := .hunting } }
  match s.ee.state with
  | .settle => if s.ee.turnCount = .expired then settleEnds s else s
  | .listen => if s.ee.replyTimer = .expired then attemptFails .timeout s else s
  | .receive => if s.ee.gapTimer = .expired then evaluateReply .truncated s else s
  | .idle | .send | .quiet => s

end Sys2Proof.Machine
end

