-- ==== Sys2Proof/Machine/LineEvents.lean ====
section
/-! DEFINITION. The events of the Exchange Engine and of the receiver (spec/04, spec/01). An event that cannot occur in
the state it finds changes nothing (log 3). -/

namespace Sys2Proof.Machine

/-- End of SETTLE (R68). A character in assembly holds off the end by quiet, not the end by the settle limit (log 23). -/
def settleEvent (cause : SettleCause) (s : State) : State :=
  if s.ee.state = .settle then
    if cause = .quiet ∧ s.ee.receiver = .assembling then { s with ee := { s.ee with turnCount := .expired } }
    else settleEnds s
  else s

/-- SETTLE_END. -/
def execSettleEnd (cause : SettleCause) (s : State) : StepResult := whenRunning (settleEvent cause) s

/-- CHARACTER_DELIVERED: a start bit that reads 1 by majority gives no character (R2, R3). -/
def execCharacterDelivered (delivery : Delivery) (s : State) : StepResult :=
  whenRunning (fun s =>
    if s.ee.receiver = .assembling then
      if startIsFalse delivery.samples then falseStartFound s
      else deliver (receivedChar delivery.samples) delivery.begun s
    else s) s

/-- Whether the engine sends and has found no fault. -/
def sendingSound (s : State) : Bool := s.ee.state == .send && !s.ee.faultFound

/-- ECHO_MISSING: the echo of the oldest unechoed character is overdue one bit time after its stop bit, when the next
character is on TXD unless it was the last (R69, R70; log 12). -/
def execEchoMissing (s : State) : StepResult :=
  whenRunning (fun s =>
    if sendingSound s ∧ s.ee.echoed < s.ee.frame.length then
      faultIsFound (decide (s.ee.echoed + 1 < s.ee.frame.length)) s
    else s) s

/-- FAULTED_ATTEMPT_END (R70). -/
def execFaultedAttemptEnd (s : State) : StepResult :=
  whenRunning (fun s => if s.ee.state = .send ∧ s.ee.faultFound then faultEnds s else s) s

/-- REPLY_TIMEOUT: a character in assembly holds it off (R72; log 23). -/
def execReplyTimeout (s : State) : StepResult :=
  whenRunning (fun s =>
    if s.ee.state = .listen then
      if s.ee.receiver = .assembling then { s with ee := { s.ee with replyTimer := .expired } }
      else attemptFails .timeout s
    else s) s

/-- GAP_TIMEOUT: a start bit found holds it off (R73; log 23). -/
def execGapTimeout (s : State) : StepResult :=
  whenRunning (fun s =>
    if s.ee.state = .receive then
      if s.ee.receiver = .assembling then { s with ee := { s.ee with gapTimer := .expired } }
      else evaluateReply .truncated s
    else s) s

/-- The exchange in progress ends GOOD. -/
def endGood (s : State) : State :=
  match s.ee.exchange with
  | none => s
  | some x => endExchange x .good s

/-- QUIET_END (R76). -/
def execQuietEnd (s : State) : StepResult :=
  whenRunning (fun s => if s.ee.state = .quiet then endGood s else s) s

/-- START_BIT_FOUND (R2). -/
def execStartBitFound (s : State) : StepResult :=
  whenRunning (fun s =>
    if s.ee.receiver = .hunting then { s with ee := { s.ee with receiver := .assembling } } else s) s

/-- FALSE_START (R2). -/
def execFalseStart (s : State) : StepResult :=
  whenRunning (fun s => if s.ee.receiver = .assembling then falseStartFound s else s) s

/-- LINE_RETURNS_TO_1 (R3). -/
def execLineReturnsTo1 (s : State) : StepResult :=
  whenRunning (fun s =>
    if s.ee.receiver = .waitingForOne then { s with ee := { s.ee with receiver := .hunting } } else s) s

/-- The end of the last stop bit: a fully echoed frame is sent; with the last echo outstanding the engine waits for it
(R69, R70; log 12, log 13). -/
def lastStopBit (s : State) : State :=
  if s.ee.echoed = s.ee.frame.length then frameSent s
  else if s.ee.echoed + 1 = s.ee.frame.length then { s with ee := { s.ee with lastStopEnded := true } }
  else s

/-- END_OF_LAST_STOP_BIT. -/
def execEndOfLastStopBit (s : State) : StepResult :=
  whenRunning (fun s => if sendingSound s then lastStopBit s else s) s

end Sys2Proof.Machine
end

