-- ==== Sys2Proof/Machine/Messages.lean ====
section
/-! DEFINITION. SUBMIT, PURGE and TAKE-RETURN (spec/05, spec/06). -/

namespace Sys2Proof.Machine

/-- An accepted SUBMIT: the payload is copied and the entry joins at the tail (R87, R88). -/
def appendEntry (destination : Address) (tag : Byte) (length : Nat) (s : State) : State :=
  { s with
    oq := s.oq ++
      [{ destination, tag, payload := s.rw.staging.toList.take length, status := .queued, attempts := 0, defers := 0 }] }

/-- Checks 2 to 4 of SUBMIT, on the record of a destination 1 to 126 (R88): the refusal, or none. -/
def destinationRefusal (s : State) (d : Address) : Option ResultCode :=
  if d = 0 then none
  else
    match s.st.find d with
    | none => some .unknown
    | some r => if r.leave = .remove then some .leaving else if r.state = .lost then some .wrongState else none

/-- SUBMIT as the Outbound Queue decides it (R88). -/
def submitAnswer (s : State) : Answer :=
  match lineAddress s.rw.args.w0 with
  | none => plain .badArg s
  | some d =>
    if 255 < s.rw.args.w1.toNat ∨ 32 < s.rw.args.w2.toNat then plain .badArg s
    else
      match destinationRefusal s d with
      | some refusal => plain refusal s
      | none =>
        if s.oq.any (fun e => e.tag == s.rw.args.w1.setWidth 8) then plain .alreadyExists s
        else if Config.maxOutbound ≤ s.oq.length ∨ Config.sharedLimit ≤ sharedSum s then plain .full s
        else plain .ok (appendEntry d (s.rw.args.w1.setWidth 8) s.rw.args.w2.toNat s)

/-- SUBMIT. -/
def execSubmit (s : State) : StepResult := takeCommand 0x10 submitAnswer s

/-- The entries a PURGE selector names, or none for a selector out of range (R101). -/
def purgeSelects (selector : Word) : Option (OutboundEntry → Bool) :=
  if selector = 255 then some (fun _ => true)
  else (lineAddress selector).map (fun a e => e.destination == a)

/-- PURGE as the Outbound Queue decides it (R101). -/
def purgeAnswer (s : State) : Answer :=
  match purgeSelects s.rw.args.w0 with
  | none => plain .badArg s
  | some selects =>
    let purged := fun e : OutboundEntry => selects e && e.status == .queued
    okWith (count (s.oq.countP purged) 0) (completeWhere purged .purged s)

/-- PURGE. -/
def execPurge (s : State) : StepResult := takeCommand 0x11 purgeAnswer s

/-- TAKE-RETURN as the Return Queue decides it (R111, R112). -/
def takeReturnAnswer (s : State) : Answer :=
  match s.rq with
  | [] => plain .nothing s
  | r :: rest => ⟨{ s with rq := rest, latch := some r }, .ok, returnHeader r⟩

/-- TAKE-RETURN. -/
def execTakeReturn (s : State) : StepResult := takeCommand 0x18 takeReturnAnswer s

end Sys2Proof.Machine
end

