-- ==== Sys2Proof/Machine/ResetsAndTime.lean ====
section
/-! DEFINITION. POWER_ON, PIN_RESET, RESET_END, TICK, PAUSE_EXPIRY, WATCH_EXPIRY and GRACE_EXPIRY (spec/10 R181 and
R182, spec/04 R62, spec/03 R57, spec/09). -/

namespace Sys2Proof.Machine

/-- Every block held in its reset state while a reset lasts (R182). The queue of commands is not the block's. -/
def heldInReset (causes : ResetCauses) (s : State) : State :=
  { State.afterReset causes with inReset := true, pending := s.pending }

/-- Application of power: POWER is set, PIN and CLEAR are cleared (R181, R182). -/
def execPowerOn (s : State) : StepResult :=
  .next (heldInReset { power := true, pin := false, clear := false } s)

/-- Assertion of RESETN: PIN is set, POWER and CLEAR are kept (R181, R182). -/
def execPinReset (s : State) : StepResult :=
  .next (heldInReset { s.rw.resetCauses with pin := true } s)

/-- The end of the reset that lasts (R182; log 6). -/
def execResetEnd (s : State) : StepResult := .next { s with inReset := false }

/-! ### Ticks and what they make expire -/

/-- Whether the next tick brings the running pause to 0 with the line RUN (R57). -/
def pauseDue (s : State) : Bool :=
  s.ps.pauseTimer.any (fun n => n.toNat ≤ 1) && s.ps.phase == .pausing && s.lc.mode == .run

/-- A tick as it reaches the pause timer: it takes one, and the tick that brings the pause to 0 starts the next cycle
(R57, R41). -/
def tickPause (s : State) : State :=
  if pauseDue s then startCycle s
  else { s with ps := { s.ps with pauseTimer := s.ps.pauseTimer.map (fun n => if n = 0 then 0 else n - 1) } }

/-- Whether the timer counts ticks: in WATCH and in GRACE (R156). -/
def Supervision.counting (v : Supervision) : Bool := v.state == .watch || v.state == .grace

/-- Whether the next tick brings the remaining count to 0 (R156). -/
def Supervision.lastTick (v : Supervision) : Bool := v.remaining.toNat ≤ 1

/-- The running stage expires: the first stage ends WATCH, the second ends GRACE (R157, R158). -/
def stageExpires (s : State) : State :=
  match s.sv.state with
  | .watch => firstStage s
  | .grace => secondStage s
  | .idle | .expired => s

/-- A tick as it reaches the Supervision Timer: in WATCH and GRACE it takes one, and the tick that brings the remaining
count to 0 makes the stage expire (R156). -/
def tickSupervision (s : State) : State :=
  if s.sv.counting then
    if s.sv.lastTick then stageExpires s else { s with sv := { s.sv with remaining := s.sv.remaining - 1 } }
  else s

/-- A tick of the time base reaches the pause timer and the Supervision Timer, in the order R62 names them (log 5), and
makes expire what it brings to 0 (R57, R156). -/
def execTick (s : State) : StepResult := whenRunning (fun s => tickSupervision (tickPause s)) s

/-- Expiry of the pause timer: the pause timer's part of the tick that brings it to 0 (R41, R57; log 4). -/
def execPauseExpiry (s : State) : StepResult :=
  whenRunning (fun s => if pauseDue s then startCycle s else s) s

/-- Expiry of the supervision watch: the Supervision Timer's part of the tick that ends WATCH (R157; log 4). -/
def execWatchExpiry (s : State) : StepResult :=
  whenRunning (fun s => if s.sv.state = .watch ∧ s.sv.lastTick then firstStage s else s) s

/-- Expiry of the supervision grace: the Supervision Timer's part of the tick that ends GRACE (R158; log 4). -/
def execGraceExpiry (s : State) : StepResult :=
  whenRunning (fun s => if s.sv.state = .grace ∧ s.sv.lastTick then secondStage s else s) s

end Sys2Proof.Machine
end

