-- ==== Sys2Proof/Machine/Stations.lean ====
section
/-! DEFINITION. ENROL, REMOVE, PARK, UNPARK, ZERO and SYNC (spec/02 section 2.5, spec/03 section 3.8). -/

namespace Sys2Proof.Machine

/-- The act of an accepted ENROL (R30). -/
def enrolStation (a : Address) (skip : BitVec 4) (ceiling : BitVec 2) (s : State) : State :=
  joinPollList a
    { s with st := { s.st with records := insertRecord (newRecord a skip ceiling) s.st.records } }

/-- ENROL as the Station Table decides it (R30). -/
def enrolAnswer (s : State) : Answer :=
  match stationAddress s.rw.args.w0 with
  | none => plain .badArg s
  | some a =>
    if 15 < s.rw.args.w1.toNat ∨ 2 < s.rw.args.w2.toNat then plain .badArg s
    else
      match s.st.find a with
      | some r => if r.leave = .remove then plain .leaving s else plain .alreadyExists s
      | none =>
        if Config.maxStations ≤ s.st.records.length then plain .full s
        else plain .ok (enrolStation a (s.rw.args.w1.setWidth 4) (s.rw.args.w2.setWidth 2) s)

/-- ENROL. -/
def execEnrol (s : State) : StepResult := takeCommand 0x01 enrolAnswer s

/-- A leave pending set while the station's turn is in progress (R32, R33). -/
def setLeave (a : Address) (l : Leave) : State → State :=
  updateStation a (fun r => { r with leave := l })

/-- REMOVE as the Station Table decides it (R31, R32). -/
def removeAnswer (s : State) : Answer :=
  match stationAddress s.rw.args.w0 with
  | none => plain .badArg s
  | some a =>
    match s.st.find a with
    | none => plain .unknown s
    | some r =>
      if r.leave = .remove then plain .leaving s
      else if inTurn s a then plain .accepted (setLeave a .remove s)
      else plain .ok (removeStation a s)

/-- REMOVE. -/
def execRemove (s : State) : StepResult := takeCommand 0x02 removeAnswer s

/-- PARK as the Station Table decides it (R33). -/
def parkAnswer (s : State) : Answer :=
  match stationAddress s.rw.args.w0 with
  | none => plain .badArg s
  | some a =>
    match s.st.find a with
    | none => plain .unknown s
    | some r =>
      if r.leave = .remove then plain .leaving s
      else if r.leave = .park ∨ r.state = .parked then plain .wrongState s
      else if inTurn s a then plain .accepted (setLeave a .park s)
      else plain .ok (parkStation a s)

/-- PARK. -/
def execPark (s : State) : StepResult := takeCommand 0x03 parkAnswer s

/-- The act of an accepted UNPARK (R34). -/
def unparkStation (a : Address) (s : State) : State :=
  joinPollList a (updateStation a (fun r => { r with state := .new, missCount := 0, countdown := 0 }) s)

/-- UNPARK as the Station Table decides it (R34). -/
def unparkAnswer (s : State) : Answer :=
  match stationAddress s.rw.args.w0 with
  | none => plain .badArg s
  | some a =>
    match s.st.find a with
    | none => plain .unknown s
    | some r => if r.state ≠ .parked then plain .wrongState s else plain .ok (unparkStation a s)

/-- UNPARK. -/
def execUnpark (s : State) : StepResult := takeCommand 0x04 unparkAnswer s

/-- The four counters of a record set to 0 (R35). -/
def zeroCounters (r : StationRecord) : StationRecord :=
  { r with accepted := 0, failed := 0, duplicates := 0, refusals := 0 }

/-- The line counters and the last-failure record cleared, the fault streak kept (R82). -/
def zeroLine (s : State) : State :=
  { s with
    ee := { s.ee with faults := 0, strays := 0, noise := 0, lastFailure := { reason := .none, address := 0 } } }

/-- ZERO (R35, R82). -/
def zeroAnswer (s : State) : Answer :=
  if s.rw.args.w0 = 0 then plain .ok (zeroLine s)
  else
    match stationAddress s.rw.args.w0 with
    | none => plain .badArg s
    | some a =>
      match s.st.find a with
      | none => plain .unknown s
      | some _ => plain .ok (updateStation a zeroCounters s)

/-- ZERO. -/
def execZero (s : State) : StepResult := takeCommand 0x05 zeroAnswer s

/-- Sync pending set in every record (R60). -/
def syncAll (s : State) : State :=
  { s with st := { s.st with records := s.st.records.map (fun r => { r with syncPending := true }) } }

/-- SYNC (R60). -/
def syncAnswer (s : State) : Answer :=
  if s.rw.args.w0 = 0 then plain .ok (syncAll s)
  else
    match stationAddress s.rw.args.w0 with
    | none => plain .badArg s
    | some a =>
      match s.st.find a with
      | none => plain .unknown s
      | some _ => plain .ok (updateStation a (fun r => { r with syncPending := true }) s)

/-- SYNC. -/
def execSync (s : State) : StepResult := takeCommand 0x06 syncAnswer s

end Sys2Proof.Machine
end

