-- ==== Sys2Proof/Machine/SupervisionCommands.lean ====
section
/-! DEFINITION. SUP-SET and SERVICE (spec/09). -/

namespace Sys2Proof.Machine

/-- A SUP-SET that is taken: the configuration, the restart, and the withdrawal of SUPERVISION (R164). -/
def configureSupervision (mode : SupervisionMode) (period : Word) (grace : Byte) (lock : Bool) (s : State) : State :=
  { s with
    sv := { s.sv with mode, period, grace, lock }.restart
    lc := s.lc.withdrawSupervision }

/-- SUP-SET (R164, R165). -/
def supSetAnswer (s : State) : Answer :=
  if s.sv.lock then plain .locked s
  else
    match supervisionModeOf s.rw.args.w0 with
    | none => plain .badArg s
    | some mode =>
      if s.rw.args.w1 = 0 ∨ 255 < s.rw.args.w2.toNat ∨ 1 < s.rw.args.w3.toNat then plain .badArg s
      else
        okWith s.sv.token
          (configureSupervision mode s.rw.args.w1 (s.rw.args.w2.setWidth 8) (s.rw.args.w3 == 1) s)

/-- SUP-SET. -/
def execSupSet (s : State) : StepResult := takeCommand 0x30 supSetAnswer s

/-- A correct SERVICE (R161). -/
def correctService (s : State) : State :=
  { s with
    sv := { s.sv with
      state := .watch, remaining := s.sv.period, token := nextToken s.sv.token, wrongTokens := 0 }
    lc := s.lc.withdrawSupervision }

/-- A wrong SERVICE: counted, and in WATCH the watch is ended at once (R162). -/
def wrongService (s : State) : State :=
  let s := { s with sv := { s.sv with wrongTokens := satInc s.sv.wrongTokens } }
  if s.sv.state = .watch then firstStage s else s

/-- SERVICE (R161, R162). -/
def serviceAnswer (s : State) : Answer :=
  if s.sv.state = .idle then plain .wrongState s
  else if s.rw.args.w0 = s.sv.token then okWith (nextToken s.sv.token) (correctService s)
  else plain .badToken (wrongService s)

/-- SERVICE. -/
def execService (s : State) : StepResult := takeCommand 0x31 serviceAnswer s

end Sys2Proof.Machine
end

