-- ==== Sys2Proof/WellFormed.lean ====
section
/-! DEFINITION. Which terms of Instr spell a command of their row. -/

namespace Sys2Proof

/-- The 19 command codes (spec/11 11.8). -/
def commandCodes : List Byte :=
  [0x01, 0x02, 0x03, 0x04, 0x05, 0x06, 0x10, 0x11, 0x18, 0x20, 0x21, 0x22, 0x28, 0x29, 0x2A, 0x2B, 0x30, 0x31, 0x3F]

/-- Whether a value written to CMD carries a code that names none of the 19 commands: bits 7 to 0 are the code, the
others are ignored (R169, spec/11 11.5 and 11.8). -/
def namesNoCommand (value : Word) : Bool :=
  !(commandCodes.contains (value.setWidth 8))

/-- The writable registers of the window that have a row of their own (R169): STATUS, CAUSE, ENABLE, CMD, WSEL, WDATA,
RATE, TIMING, LIMITS, PAUSE, TICKDIV, AMASK, RSTCAUSE. -/
def registersWithRows : List (BitVec 5) :=
  [0x01, 0x02, 0x03, 0x04, 0x0E, 0x0F, 0x10, 0x11, 0x12, 0x13, 0x14, 0x15, 0x19]

/-- Whether a write to the offset is the row REGISTER_WRITE: ARG0 to ARG3, a read-only register or an unmapped offset. -/
def isPlainOffset (offset : BitVec 5) : Bool :=
  !(registersWithRows.contains offset)

/-- A term that spells a command of its row. -/
def Instr.wellFormed : Instr → Bool
  | .badCmd value => namesNoCommand value
  | .registerWrite offset _ => isPlainOffset offset
  | .enrol | .remove | .park | .unpark | .zero | .sync | .submit | .purge | .takeReturn | .takeAttn | .endService
  | .dismiss | .lineStart | .lineStop | .holdEnter | .holdLeave | .supSet | .service | .clear
  | .rateWrite _ | .timingWrite _ | .limitsWrite _ | .tickdivWrite _ | .pauseWrite _ | .amaskWrite _ | .wselWrite _
  | .wdataRead | .wdataWrite _ | .causeWrite _ | .enableWrite _ | .statusWrite _ | .rstcauseWrite _
  | .powerOn | .pinReset | .resetEnd | .tick | .pauseExpiry | .settleEnd _ | .characterDelivered _ | .echoMissing
  | .faultedAttemptEnd | .replyTimeout | .gapTimeout | .quietEnd | .watchExpiry | .graceExpiry | .startBitFound
  | .falseStart | .lineReturnsTo1 | .endOfLastStopBit => true

end Sys2Proof
end

