-- ==== Sys2Proof/Machine/WindowCommands.lean ====
section
/-! DEFINITION. CLEAR, BADCMD, and the accesses of the window's own registers and of the configuration registers
(spec/10, spec/04 section 4.2). -/

namespace Sys2Proof.Machine

/-! ### CLEAR (R184) -/

/-- The window's part of CLEAR (R174, R184). -/
def Window.cleared (w : Window) : Window :=
  { w with
    staging := Vector.replicate 32 0, selection := .stage, index := 0, pointer := 0, snapshot := []
    latched := { line := false, table := false, holdSent := false, cfg := false }
    resetCauses := { w.resetCauses with clear := true } }

/-- The Attention Unit's part of CLEAR: the level mask is kept (R138). -/
def AttentionUnit.cleared (u : AttentionUnit) : AttentionUnit := { AttentionUnit.reset with mask := u.mask }

/-- Line Control's part of CLEAR: the hold record and the announcement pending are kept (R154). -/
def LineControl.cleared (l : LineControl) : LineControl :=
  { l with mode := .off, stopCause := .none, inFlight := none }

/-- Every block's part of CLEAR (R184). The engine is left as power-on leaves it: that the assembly buffer is empty and
the engine's timers are stopped after CLEAR is the model's choice, which R84 does not state (log 27). -/
def clearedState (s : State) : State :=
  { s with
    rw := s.rw.cleared, st := StationTable.reset, ps := Scheduler.reset, ee := Engine.reset, oq := [], rq := []
    latch := none, au := s.au.cleared, lc := s.lc.cleared, sv := s.sv.restart }

/-- CLEAR. -/
def execClear (s : State) : StepResult := takeCommand 0x3F (fun s => plain .ok (clearedState s)) s

/-- BADCMD: no block receives it (R175). A value whose code names a command is no BADCMD (log 10). -/
def execBadCmd (value : Word) (s : State) : StepResult :=
  if namesNoCommand value then takeCommand (value.setWidth 8) (plain .badCmd) s
  else .refused (.illFormed "BADCMD")

/-! ### Configuration registers (R57, R63, R64) -/

/-- A configuration write: taken as a whole, or refused with CFG latched (R63, R64, R180). -/
def configWrite (taken : Bool) (f : State → State) (s : State) : State := if taken then f s else latchCfg s

/-- Whether the line mode allows a configuration write (R63). -/
def lineIsOff (s : State) : Bool := s.lc.mode == .off

/-- A RATE taken: the rate generator restarts, a character in assembly is abandoned and the receiver waits for a sample
that reads 1 (R61). -/
def setRate (value : Word) (s : State) : State :=
  { s with cfg := { s.cfg with rate := value.setWidth 12 }, ee := { s.ee with receiver := .waitingForOne } }

/-- Write to RATE (R63). -/
def execRateWrite (value : Word) (s : State) : StepResult :=
  whenRunning (fun s => configWrite (lineIsOff s && (value.setWidth 12 : BitVec 12) != 0) (setRate value) s) s

/-- A TIMING taken. -/
def setTiming (value : Word) (s : State) : State :=
  { s with cfg := { s.cfg with turn := value.extractLsb' 0 4, replyWait := value.extractLsb' 8 6 } }

/-- Write to TIMING (R63). -/
def execTimingWrite (value : Word) (s : State) : StepResult :=
  whenRunning (fun s =>
    configWrite (lineIsOff s && value.extractLsb' 0 4 != 0 && value.extractLsb' 8 6 != 0) (setTiming value) s) s

/-- A record re-based on a new miss limit (R39). -/
def rebaseRecord (missLimit : BitVec 4) (r : StationRecord) : StationRecord :=
  match r.state with
  | .lost => { r with missCount := missLimit }
  | .suspect => { r with missCount := 0, state := .online }
  | .new | .online | .parked => { r with missCount := 0 }

/-- A LIMITS taken: every record is re-based (R39, R63). -/
def setLimits (value : Word) (s : State) : State :=
  { s with
    cfg := { s.cfg with
      retryLimit := value.extractLsb' 0 3, missLimit := value.extractLsb' 4 4, deferLimit := value.extractLsb' 8 4 }
    st := { s.st with records := s.st.records.map (rebaseRecord (value.extractLsb' 4 4)) } }

/-- Write to LIMITS (R63). -/
def execLimitsWrite (value : Word) (s : State) : StepResult :=
  whenRunning (fun s => configWrite (lineIsOff s && value.extractLsb' 4 4 != 0) (setLimits value) s) s

/-- Write to TICKDIV (R64). The divider restarts; its phase is not in the state (log 24). -/
def execTickdivWrite (value : Word) (s : State) : StepResult :=
  whenRunning (fun s =>
    configWrite (lineIsOff s && !s.sv.lock && value != 0) (fun s => { s with cfg := { s.cfg with tickDiv := value } }) s) s

/-- Write to PAUSE: used from the next pause (R57). -/
def execPauseWrite (value : Word) (s : State) : StepResult :=
  whenRunning (fun s => { s with cfg := { s.cfg with pause := value.setWidth 8 } }) s

/-! ### Window selection and data port (R170 to R172) -/

/-- Write to WSEL: selection, data pointer and snapshot; a code that names no selection makes it NONE with index 0
(R170). -/
def selectWindow (value : Word) (s : State) : State :=
  let selection := selectionOf value
  let index := if selection = .nothing then 0 else indexOf value
  { s with rw := { s.rw with selection, index, pointer := 0, snapshot := snapshotOf s selection index } }

/-- Write to WSEL. -/
def execWselWrite (value : Word) (s : State) : StepResult := whenRunning (selectWindow value) s

/-- Read of WDATA: the word at the data pointer goes to the data pins, the pointer moves on (R172). While a reset lasts
the read returns 0 and is not taken (R168). -/
def execWdataRead (s : State) : StepResult :=
  .next { s with
    rw := { s.rw with
      readData := readWord s 0x0F
      pointer := if s.inReset then s.rw.pointer else nextPointer s.rw.pointer } }

/-- Write of WDATA (R172). -/
def writeData (value : Word) (s : State) : State :=
  { s with
    rw := { s.rw with
      staging :=
        if s.rw.selection = .stage ∧ s.rw.pointer < Config.stagingWords then
          storeStaging s.rw.staging s.rw.pointer value
        else s.rw.staging
      pointer := nextPointer s.rw.pointer } }

/-- Write of WDATA. -/
def execWdataWrite (value : Word) (s : State) : StepResult := whenRunning (writeData value) s

/-! ### Causes, enables, reset causes and plain registers -/

/-- Write to CAUSE: 1 clears a latched cause, and does nothing to a level cause (R177). -/
def clearCauses (value : Word) (l : LatchedCauses) : LatchedCauses :=
  { line := l.line && !value.getLsbD 2
    table := l.table && !value.getLsbD 3
    holdSent := l.holdSent && !value.getLsbD 4
    cfg := l.cfg && !value.getLsbD 5 }

/-- Write to CAUSE. -/
def execCauseWrite (value : Word) (s : State) : StepResult :=
  whenRunning (fun s => { s with rw := { s.rw with latched := clearCauses value s.rw.latched } }) s

/-- Write to ENABLE (R179). -/
def execEnableWrite (value : Word) (s : State) : StepResult :=
  whenRunning (fun s => { s with rw := { s.rw with enable := value.setWidth 6 } }) s

/-- 1 clears a flag of the reset-cause record (R181). -/
def clearResetCauses (value : Word) (r : ResetCauses) : ResetCauses :=
  { power := r.power && !value.getLsbD 0
    pin := r.pin && !value.getLsbD 1
    clear := r.clear && !value.getLsbD 2 }

/-- Write to RSTCAUSE (R181). -/
def execRstcauseWrite (value : Word) (s : State) : StepResult :=
  whenRunning (fun s => { s with rw := { s.rw with resetCauses := clearResetCauses value s.rw.resetCauses } }) s

/-- Write to ARG0 to ARG3 is stored; to a read-only register or an unmapped offset it has no effect (R168, R169). -/
def plainWrite (offset : BitVec 5) (value : Word) (a : FourWords) : FourWords :=
  match offset.toNat with
  | 0x05 => { a with w0 := value }
  | 0x06 => { a with w1 := value }
  | 0x07 => { a with w2 := value }
  | 0x08 => { a with w3 := value }
  | _ => a

/-- Write to ARG0 to ARG3, to a read-only register or to an unmapped offset. The offset of a register with a row of its
own is no REGISTER_WRITE (log 10). -/
def execRegisterWrite (offset : BitVec 5) (value : Word) (s : State) : StepResult :=
  if isPlainOffset offset then
    whenRunning (fun s => { s with rw := { s.rw with args := plainWrite offset value s.rw.args } }) s
  else .refused (.illFormed "REGISTER_WRITE")

end Sys2Proof.Machine
end

