-- ==== Sys2Proof/Machine/Dispatch.lean ====
section
/-! DEFINITION. One arm per command: its meaning. -/

namespace Sys2Proof.Machine

def exec (i : Instr) (s : State) : Host.Outcome State Fault Refusal :=
  match i with
  | .enrol => Sys2Proof.Machine.execEnrol s
  | .remove => Sys2Proof.Machine.execRemove s
  | .park => Sys2Proof.Machine.execPark s
  | .unpark => Sys2Proof.Machine.execUnpark s
  | .zero => Sys2Proof.Machine.execZero s
  | .sync => Sys2Proof.Machine.execSync s
  | .submit => Sys2Proof.Machine.execSubmit s
  | .purge => Sys2Proof.Machine.execPurge s
  | .takeReturn => Sys2Proof.Machine.execTakeReturn s
  | .takeAttn => Sys2Proof.Machine.execTakeAttn s
  | .endService => Sys2Proof.Machine.execEndService s
  | .dismiss => Sys2Proof.Machine.execDismiss s
  | .lineStart => Sys2Proof.Machine.execLineStart s
  | .lineStop => Sys2Proof.Machine.execLineStop s
  | .holdEnter => Sys2Proof.Machine.execHoldEnter s
  | .holdLeave => Sys2Proof.Machine.execHoldLeave s
  | .supSet => Sys2Proof.Machine.execSupSet s
  | .service => Sys2Proof.Machine.execService s
  | .clear => Sys2Proof.Machine.execClear s
  | .badCmd value => Sys2Proof.Machine.execBadCmd value s
  | .rateWrite value => Sys2Proof.Machine.execRateWrite value s
  | .timingWrite value => Sys2Proof.Machine.execTimingWrite value s
  | .limitsWrite value => Sys2Proof.Machine.execLimitsWrite value s
  | .tickdivWrite value => Sys2Proof.Machine.execTickdivWrite value s
  | .pauseWrite value => Sys2Proof.Machine.execPauseWrite value s
  | .amaskWrite value => Sys2Proof.Machine.execAmaskWrite value s
  | .wselWrite value => Sys2Proof.Machine.execWselWrite value s
  | .wdataRead => Sys2Proof.Machine.execWdataRead s
  | .wdataWrite value => Sys2Proof.Machine.execWdataWrite value s
  | .causeWrite value => Sys2Proof.Machine.execCauseWrite value s
  | .enableWrite value => Sys2Proof.Machine.execEnableWrite value s
  | .statusWrite value => Sys2Proof.Machine.execStatusWrite value s
  | .rstcauseWrite value => Sys2Proof.Machine.execRstcauseWrite value s
  | .registerWrite offset value => Sys2Proof.Machine.execRegisterWrite offset value s
  | .powerOn => Sys2Proof.Machine.execPowerOn s
  | .pinReset => Sys2Proof.Machine.execPinReset s
  | .resetEnd => Sys2Proof.Machine.execResetEnd s
  | .tick => Sys2Proof.Machine.execTick s
  | .pauseExpiry => Sys2Proof.Machine.execPauseExpiry s
  | .settleEnd cause => Sys2Proof.Machine.execSettleEnd cause s
  | .characterDelivered delivery => Sys2Proof.Machine.execCharacterDelivered delivery s
  | .echoMissing => Sys2Proof.Machine.execEchoMissing s
  | .faultedAttemptEnd => Sys2Proof.Machine.execFaultedAttemptEnd s
  | .replyTimeout => Sys2Proof.Machine.execReplyTimeout s
  | .gapTimeout => Sys2Proof.Machine.execGapTimeout s
  | .quietEnd => Sys2Proof.Machine.execQuietEnd s
  | .watchExpiry => Sys2Proof.Machine.execWatchExpiry s
  | .graceExpiry => Sys2Proof.Machine.execGraceExpiry s
  | .startBitFound => Sys2Proof.Machine.execStartBitFound s
  | .falseStart => Sys2Proof.Machine.execFalseStart s
  | .lineReturnsTo1 => Sys2Proof.Machine.execLineReturnsTo1 s
  | .endOfLastStopBit => Sys2Proof.Machine.execEndOfLastStopBit s

end Sys2Proof.Machine
end

