-- ==== Sys2Proof/Safety.lean ====
section
/-! DEFINITION. What counts as a safe step, and the laws of the state that the statements use. A law is a property of
every state a run reaches; each is stated as kept by every step. -/

namespace Sys2Proof.Machine

/-- A step that neither faults nor refuses. -/
def StepSafe (s : State) : Prop := ∃ t, step s = .next t

/-! ### Shapes the statements share -/

/-- A state with the answer to a command in CMD, RESULT and RES0 to RES3 (R175). -/
def answered (code : Byte) (result : ResultCode) (words : FourWords) (s : State) : State :=
  { s with rw := { s.rw with cmd := code, result := result, res := words } }

/-- Result words of which RES0 alone is named. -/
def firstWord (w : Word) : FourWords := ⟨w, 0, 0, 0⟩

/-- Every configuration field lies in its range (R65). -/
def SettingsInRange (c : Settings) : Prop :=
  c.rate ≠ 0 ∧ c.turn ≠ 0 ∧ c.replyWait ≠ 0 ∧ c.missLimit ≠ 0 ∧ c.tickDiv ≠ 0

/-- Between two states the table keeps every record but that of one address. -/
def OtherRecordsKept (a : Address) (s t : State) : Prop := ∀ b, b ≠ a → t.st.find b = s.st.find b

/-- The address has left the poll list: the others close up, and a walk cursor that designated it has passed to the
address that followed it, or to END (R21). -/
def LeftPollList (a : Address) (s t : State) : Prop :=
  t.st.pollList = s.st.pollList.filter (fun b => b != a) ∧
    (s.ps.cursor ≠ some a → t.ps.cursor = s.ps.cursor) ∧
    ∀ before after, s.st.pollList = before ++ a :: after → a ∉ before → s.ps.cursor = some a →
      t.ps.cursor = after.head?

/-- The address has joined the poll list at its tail; a walk cursor at END in OPENING or WALKING has passed to it, and
any other cursor is unchanged (R21, R48). -/
def JoinedPollList (a : Address) (s t : State) : Prop :=
  t.st.pollList = s.st.pollList ++ [a] ∧
    ((s.ps.phase = .opening ∨ s.ps.phase = .walking) ∧ s.ps.cursor = none → t.ps.cursor = some a) ∧
    (¬((s.ps.phase = .opening ∨ s.ps.phase = .walking) ∧ s.ps.cursor = none) → t.ps.cursor = s.ps.cursor)

/-- The exchange handed when the scheduler sends a frame to address 0, with the full allowance (R67). -/
def broadcastExchange (s : State) (kind : FrameKind) (entry : Option Byte) : Exchange :=
  { kind := kind, address := 0, entry := entry, allowance := s.cfg.retryLimit.toNat + 1, begun := 0 }

/-- A cycle starts at `s` and the scheduler comes to rest at `t` (R41 to R43, R57): the cycle number has advanced by
one; a pending announcement is handed and in flight; with none pending and hold in force a repeat HOLD is handed;
otherwise the oldest QUEUED broadcast entry is handed and IN-FLIGHT; with none of these and an empty poll list the pause
has begun, of PAUSE ticks, or of one tick when PAUSE is 0. -/
def CycleOpens (s t : State) : Prop :=
  t.ps.cycle = s.ps.cycle + 1 ∧ t.lc.mode = s.lc.mode ∧
    (s.lc.announcement ≠ .none →
      t.ee.exchange = some (broadcastExchange s (if s.lc.announcement = .free then .free else .hold) none) ∧
        t.ee.state = .settle ∧ t.lc = { s.lc with inFlight := some false } ∧
        t.ps = { s.ps with
          cycle := s.ps.cycle + 1, phase := .opening, cursor := s.st.pollList.head?, pauseTimer := none
          exchangeHanded := true }) ∧
    (s.lc.announcement = .none → s.lc.holdInForce = true →
      t.ee.exchange = some (broadcastExchange s .hold none) ∧ t.ee.state = .settle ∧ t.lc = s.lc ∧
        t.ps = { s.ps with
          cycle := s.ps.cycle + 1, phase := .opening, cursor := s.st.pollList.head?, pauseTimer := none
          exchangeHanded := true }) ∧
    (s.lc.announcement = .none → s.lc.holdInForce = false →
      (∀ older e newer, s.oq = older ++ e :: newer → e.destination = 0 → e.status = .queued →
        (∀ d ∈ older, ¬(d.destination = 0 ∧ d.status = .queued)) →
          t.ee.exchange = some (broadcastExchange s .write (some e.tag)) ∧ t.ee.state = .settle ∧
            t.ps.phase = .opening ∧ ∀ d ∈ t.oq, d.tag = e.tag → d.status = .inFlight ∧ d.attempts = 0) ∧
      ((∀ e ∈ s.oq, ¬(e.destination = 0 ∧ e.status = .queued)) → s.st.pollList = [] →
        t = { s with
          ps := { s.ps with
            cycle := s.ps.cycle + 1, phase := .pausing, cursor := none, exchangeHanded := false
            pauseTimer := some (if s.cfg.pause = 0 then 1 else s.cfg.pause) } }))

/-! ### The end of a turn, of an exchange and of a failed attempt, as the rules state them -/

/-- The Outbound Queue holds these entries, and the one that the exchange in progress carries is IN-FLIGHT with attempts
used 0 (R92). -/
def QueueHolds (entries : List OutboundEntry) (t : State) : Prop :=
  t.oq = entries.map (fun e =>
    if t.ee.exchange.bind (·.entry) = some e.tag then { e with status := .inFlight, attempts := 0 } else e)

/-- Whether a turn's result loses the station: the miss that reaches the limit, of a station not LOST (R25 to R27). -/
def losesStation (limit : BitVec 4) (result : TurnResult) (r : StationRecord) : Bool :=
  result == .miss && r.state != .lost && r.missCount + 1 == limit

/-- The record after a turn's result: a success makes the station ONLINE with miss count 0; a miss of a LOST station
changes nothing, another makes it SUSPECT, and at the miss limit LOST with sync pending set (R24 to R28). -/
def judgedRecord (limit : BitVec 4) (result : TurnResult) (r : StationRecord) : StationRecord :=
  match result with
  | .success => { r with state := .online, missCount := 0 }
  | .unfinished => r
  | .miss =>
    if r.state = .lost then r
    else if r.missCount + 1 = limit then { r with state := .lost, missCount := limit, syncPending := true }
    else { r with state := .suspect, missCount := r.missCount + 1 }

/-- A turn of the station at `a` ends with a result, on the record `r` and the state `u` that its exchanges left. First
the result: the record as judged, STATION-BACK for a success of a station that was LOST, and for a station that is lost
STATION-LOST and its QUEUED entries STRANDED in queue order (R24 to R28). Then the leave that was pending, which latches
TABLE: the address is off the poll list; a PARK leaves the record PARKED; a REMOVE completes the entries that are left
REMOVED in queue order and discards the record (R29, R31, R33). The skip countdown is the walk's. -/
def TurnEnds (result : TurnResult) (a : Address) (r : StationRecord) (u t : State) : Prop :=
  let lost : Bool := losesStation u.cfg.missLimit result r
  let judged : StationRecord := judgedRecord u.cfg.missLimit result r
  let stranded : OutboundEntry → Bool := fun e => lost && e.destination == a && e.status == .queued
  let left : List OutboundEntry := u.oq.filter (fun e => !stranded e)
  let done : List ReturnRecord :=
    u.rq ++ (u.oq.filter stranded).map (fun e => .done e.destination e.tag .stranded e.attempts)
  (lost = true → t.au = (controllerEvent a 3 0x01 u).au) ∧
    (result = .success ∧ r.state = .lost → t.au = (controllerEvent a 1 0x02 u).au) ∧
    (lost = false → ¬(result = .success ∧ r.state = .lost) → t.au = u.au) ∧
    t.rw.latched.table = (u.rw.latched.table || r.leave != .absent) ∧
    t.st.pollList = (if r.leave = .absent then u.st.pollList else u.st.pollList.filter (fun b => b != a)) ∧
    (r.leave ≠ .remove → t.rq = done ∧ QueueHolds left t ∧
      (t.st.find a).map (fun q => { q with countdown := r.countdown }) =
        some (if r.leave = .park then { judged with state := .parked, missCount := 0, leave := .absent } else judged)) ∧
    (r.leave = .remove → t.st.find a = none ∧ QueueHolds (left.filter (fun e => e.destination != a)) t ∧
      t.rq = done ++ (left.filter (fun e => e.destination == a)).map
        (fun e => .done e.destination e.tag .removed e.attempts))

/-- A turn goes on after one of its exchanges, or after a broadcast that went before one (R49, R55, R56): the table, the
Attention Unit and the Return Queue are as that exchange left them; after a WRITE a pending announcement is handed, else
the POLL. -/
def TurnGoesOn (x : Exchange) (turn : Turn) (r : StationRecord) (u t : State) : Prop :=
  t.rq = u.rq ∧ QueueHolds u.oq t ∧ t.au = u.au ∧ t.rw.latched.table = u.rw.latched.table ∧
    t.st.pollList = u.st.pollList ∧ t.st.find turn.address = some r ∧
    t.ps.turn.map (·.address) = some turn.address ∧
    (x.address ≠ 0 → x.kind = .write → t.ee.exchange.map (fun y => (y.kind, y.address)) = some
      (match u.lc.announcement with
        | .none => (.poll, turn.address)
        | .hold => (.hold, 0)
        | .free => (.free, 0)))

/-- The result of the turn in progress at an outcome, or none where the turn goes on: an addressed exchange as R49 states;
and where the line does not run on, a turn that would go on ends unfinished (R58, R59). -/
def turnResultOf (mode : LineMode) (o : ExchangeOutcome) (x : Exchange) : Option TurnResult :=
  let own : Option TurnResult :=
    if x.address = 0 then none
    else
      match o with
      | .failed => some .miss
      | .cut => some .unfinished
      | .withdrawn => none
      | .good => if x.kind = .poll then some .success else none
  if mode = .run then own else some (own.getD .unfinished)

/-- The outcome with which an exchange's outcome completes the entry it carries: FAILED, and for a good broadcast SENT
(R96, R97). A TAKEN or a DEFER has dealt with its entry before. -/
def messageOutcomeOf (o : ExchangeOutcome) (x : Exchange) : Option MessageOutcome :=
  match o with
  | .failed => some .failed
  | .good => if x.address = 0 then some .sent else none
  | .withdrawn | .cut => none

/-- The entries after an outcome: a completed entry is gone; WITHDRAWN and CUT return the entry carried to QUEUED with
attempts used 0, in its place (R93, R98). -/
def entriesAfter (o : ExchangeOutcome) (x : Exchange) (queue : List OutboundEntry) : List OutboundEntry :=
  if messageOutcomeOf o x ≠ none then queue.filter (fun e => x.entry != some e.tag)
  else if o = .good then queue
  else queue.map (fun e => if x.entry == some e.tag then { e with status := .queued, attempts := 0 } else e)

/-- The DONE records an outcome makes (R93). -/
def donesAfter (o : ExchangeOutcome) (x : Exchange) (queue : List OutboundEntry) : List ReturnRecord :=
  match messageOutcomeOf o x with
  | none => []
  | some m =>
    (queue.filter (fun e => x.entry == some e.tag)).map (fun e => .done e.destination e.tag m e.attempts)

/-- The state with the entries and the DONE records that an outcome leaves. -/
def withEntriesAfter (o : ExchangeOutcome) (x : Exchange) (s : State) : State :=
  { s with oq := entriesAfter o x s.oq, rq := s.rq ++ donesAfter o x s.oq }

/-- An exchange of the state `s` ends with an outcome, `s` being as the attempt left it, and the scheduler comes to rest
at `t`, with the next exchange handed, the pause begun, or the line OFF. -/
structure ExchangeEnds (o : ExchangeOutcome) (x : Exchange) (s t : State) : Prop where
  /-- An outcome has no part in these. -/
  untouched : t.inReset = s.inReset ∧ t.cfg = s.cfg ∧ t.latch = s.latch ∧ t.sv = s.sv ∧ t.pending = s.pending
  /-- The exchange record is discarded and the transmitter at rest; the counters, the last failure and the buffer are kept
  (R67, R79). The next exchange, if one is handed, begins in SETTLE. -/
  engine : t.ee = { s.ee with
    state := if t.ee.exchange = none then .idle else .settle
    exchange := t.ee.exchange
    turnCount := t.ee.turnCount
    settleTimer := if t.ee.exchange = none then .stopped else .running
    replyTimer := .stopped, gapTimer := .stopped, driverEnable := false, frame := [], echoed := 0
    faultFound := false, lastStopEnded := false }
  /-- An exchange handed has begun no attempt and counts TURN bit times (R67, R68). -/
  handed : ∀ y, t.ee.exchange = some y → y.begun = 0 ∧ t.ee.turnCount = .running
  /-- Under hold no entry is handed (R43, R51). -/
  hold : s.lc.holdInForce = true → t.ee.exchange.bind (·.entry) = none
  /-- In STOPPING the stop is completed, with stop cause HOST; an announcement broadcast that ended GOOD is no longer
  pending unless it was renewed; the hold is kept (R143, R151). -/
  lineControl : t.lc = { s.lc with
    mode := if s.lc.mode = .run then .run else .off
    stopCause := if s.lc.mode = .stopping then .host else s.lc.stopCause
    announcement := if x.address = 0 ∧ o = .good ∧ s.lc.inFlight = some false then .none else s.lc.announcement
    inFlight := t.lc.inFlight }
  /-- The announcement in flight is absent after its outcome, unless one that is pending is handed (R151). -/
  inFlight : s.lc.mode ≠ .run ∨ t.lc.announcement = .none →
    t.lc.inFlight = if x.address = 0 then none else s.lc.inFlight
  /-- LINE is latched by a stop that is completed, HOLDSENT by an announcement that went out (R143, R151); TABLE is the
  turn's. -/
  causes : t.rw = { s.rw with
    latched := { s.rw.latched with
      line := s.rw.latched.line || s.lc.mode == .stopping
      table := t.rw.latched.table
      holdSent := s.rw.latched.holdSent || (x.address == 0 && o == .good && s.lc.inFlight.isSome) } }
  /-- Where the line does not run on, no exchange follows and the cycle is abandoned (R58, R59). -/
  abandoned : s.lc.mode ≠ .run → t.ee.exchange = none ∧
    t.ps = { s.ps with phase := .none, cursor := none, pauseTimer := none, turn := none }
  /-- A record that neither the exchange nor the turn concerns keeps all but its skip countdown, which is the walk's. -/
  otherRecords : ∀ b, b ≠ x.address → (∀ turn, s.ps.turn = some turn → b ≠ turn.address) →
    (t.st.find b).map (fun r => { r with countdown := 0 }) = (s.st.find b).map (fun r => { r with countdown := 0 })
  /-- WITHDRAWN and CUT return the entry carried to QUEUED and make no DONE record; only a REMOVE that is pending
  completes entries then (R98, R29). -/
  requeued : o = .withdrawn ∨ o = .cut →
    (∀ turn, s.ps.turn = some turn → ∀ r, s.st.find turn.address = some r → r.leave = .absent) →
    t.rq = s.rq ∧ QueueHolds (entriesAfter o x s.oq) t
  /-- Without a turn the outcome concerns the entry carried alone. -/
  noTurn : s.ps.turn = none → t.rq = s.rq ++ donesAfter o x s.oq ∧ QueueHolds (entriesAfter o x s.oq) t ∧
    t.au = s.au ∧ t.rw.latched.table = s.rw.latched.table ∧ t.st.pollList = s.st.pollList
  /-- The turn in progress, of the station addressed or with a broadcast between its exchanges, ends or goes on as
  `turnResultOf` says; a FAILED addressed WRITE has set sync pending before that (R16, R49, R77). -/
  turn : ∀ turn, s.ps.turn = some turn → (x.address = turn.address ∨ x.address = 0) →
    (x.kind = .hold ∨ x.kind = .free → x.address = 0) →
    ∀ r, s.st.find turn.address = some r → r.state ≠ .parked →
    (∀ result, turnResultOf s.lc.mode o x = some result → TurnEnds result turn.address
      { r with syncPending := r.syncPending || (o == .failed && x.address != 0 && x.entry.isSome) }
      (withEntriesAfter o x s) t) ∧
    (turnResultOf s.lc.mode o x = none → s.ps.phase = .walking → TurnGoesOn x turn r (withEntriesAfter o x s) t)

/-- The state with a failed attempt counted: the failed counter of the addressed station advances, and the last failure
is the reason with the exchange's address (R36, R81). -/
def failureCounted (reason : FailReason) (x : Exchange) (s : State) : State :=
  { s with
    st := { s.st with
      records := s.st.records.map (fun r =>
        if x.address ≠ 0 ∧ r.address = x.address then { r with failed := satInc r.failed } else r) }
    ee := { s.ee with lastFailure := { reason, address := x.address } } }

/-- The course of an exchange after a failed attempt that has been counted in `u` (R77): CUT unless the line runs; then
WITHDRAWN for a WRITE under hold or a HOLD without it; then FAILED with the allowance used up; otherwise SETTLE for the
next attempt. That the reply and gap timers stand stopped in SETTLE is the model's choice (log 28). -/
def CourseAfterFailure (x : Exchange) (u t : State) : Prop :=
  let forbidden : Prop :=
    (x.kind = .write ∧ u.lc.holdInForce = true) ∨ (x.kind = .hold ∧ u.lc.holdInForce = false)
  (u.lc.mode ≠ .run → ExchangeEnds .cut x u t) ∧
    (u.lc.mode = .run → forbidden → ExchangeEnds .withdrawn x u t) ∧
    (u.lc.mode = .run → ¬forbidden → x.begun = x.allowance → ExchangeEnds .failed x u t) ∧
    (u.lc.mode = .run → ¬forbidden → x.begun ≠ x.allowance → t = { u with
      ee := { u.ee with
        state := .settle, driverEnable := false, frame := [], echoed := 0, faultFound := false
        lastStopEnded := false, turnCount := .running, settleTimer := .running, replyTimer := .stopped
        gapTimer := .stopped } })

/-- The state with a good reply of a kind taken, its last character `c` delivered: the accepted counter advances and the
last reply kind is set (R36, R78); the buffer holds the whole frame, and a noise flag is counted (R73, R75). -/
def replyCounted (x : Exchange) (k : ReplyKind) (c : RxChar) (u : State) : State :=
  { u with
    st := { u.st with
      records := u.st.records.map (fun r =>
        if r.address = x.address then { r with accepted := satInc r.accepted, lastReply := k } else r) }
    ee := { u.ee with
      receiver := .hunting, noise := if c.noise then satInc u.ee.noise else u.ee.noise
      buffer := u.ee.buffer ++ [c] } }

/-! ### The layouts of the window copies, as numbers (spec/11 11.4 and 11.6) -/

/-- A flag worth a number. -/
def bitValue (b : Bool) (n : Nat) : Nat := if b then n else 0

/-- The 16 payload words: byte 2p in bits 7 to 0 of word p and byte 2p + 1 in bits 15 to 8; bytes past the end are 0. -/
def payloadLayout (bytes : List Byte) : List Nat :=
  (List.range 16).map (fun p => (bytes.getD (2 * p) 0).toNat + 256 * (bytes.getD (2 * p + 1) 0).toNat)

/-- The 8 words of a STATION copy of a record with a number of queued outbound entries. -/
def stationLayout (r : StationRecord) (queued : Nat) : List Nat :=
  let state := match r.state with | .new => 0 | .online => 1 | .suspect => 2 | .lost => 3 | .parked => 4
  let leave := match r.leave with | .absent => 0 | .remove => 1 | .park => 2
  let inToggle := match r.inToggle with | none => 0 | some false => 2 | some true => 3
  let last := match r.lastReply with | .none => 0 | .nil => 1 | .report => 2 | .alert => 3 | .taken => 4 | .defer => 5
  [ r.address.toNat + 0x8000,
    state + 0x10 * leave + bitValue r.syncPending 0x100 + bitValue r.outToggle 0x200 + 0x1000 * inToggle,
    r.skip.toNat + 0x10 * r.countdown.toNat + 0x100 * r.ceiling.toNat,
    r.missCount.toNat + 0x10 * last + 0x100 * queued,
    r.accepted.toNat, r.failed.toNat, r.duplicates.toNat, r.refusals.toNat ]

/-- The 20 words of an OUTBOUND copy of an entry. -/
def outboundLayout (e : OutboundEntry) : List Nat :=
  [ bitValue (e.status == .inFlight) 1 + 0x8000, e.tag.toNat, e.destination.toNat + 0x100 * e.payload.length,
    e.attempts + 0x100 * e.defers.toNat ] ++ payloadLayout e.payload

/-- The 20 words of a RETURN copy of a record. -/
def returnLayout : ReturnRecord → List Nat
  | .report a payload cycle => [1, a.toNat, payload.length, cycle.toNat] ++ payloadLayout payload
  | .done a tag outcome attempts =>
    let code := match outcome with
      | .taken => 1 | .sent => 2 | .failed => 3 | .refused => 4 | .stranded => 5 | .removed => 6 | .purged => 7
    [2, a.toNat, tag.toNat, code + 0x100 * attempts] ++ List.replicate 16 0

/-- The three words of the stack entry at a place of the stack given bottom first, 0 where none stands. -/
def stackEntryLayout (bottomFirst : List AttentionEntry) (place : Nat) : List Nat :=
  match bottomFirst[place]? with
  | none => [0, 0, 0]
  | some e => [e.source.toNat, e.level.toNat + 0x10 * e.repeats.toNat + 0x100 * e.code.toNat, e.stamp.toNat]

/-- The 5 words of a LINESTATS copy. -/
def lineStatsLayout (e : Engine) : List Nat :=
  let reason := match e.lastFailure.reason with
    | .none => 0 | .timeout => 1 | .framing => 2 | .broken => 3 | .truncated => 4 | .wrong => 5 | .length => 6
    | .check => 7 | .protocol => 8 | .stale => 9 | .fault => 10
  [e.faults.toNat, e.strays.toNat, e.noise.toNat, e.faultStreak.toNat, reason + 0x100 * e.lastFailure.address.toNat]

/-! ### Laws of the collections -/

/-- The table: records in rising order of address, each address 1 to 126, at most 32 records (R19). -/
def TableLaw (s : State) : Prop :=
  s.st.records.Pairwise (fun r q => r.address < q.address) ∧
    (∀ r ∈ s.st.records, 1 ≤ r.address.toNat ∧ r.address.toNat ≤ 126) ∧
    s.st.records.length ≤ 32

/-- The poll list holds no duplicates, and exactly the addresses of the records that are not PARKED (R21). -/
def PollListLaw (s : State) : Prop :=
  s.st.pollList.Nodup ∧
    ∀ a, a ∈ s.st.pollList ↔ ∃ r ∈ s.st.records, r.address = a ∧ r.state ≠ .parked

/-- The miss count a state of a station goes with under a miss limit (R22). -/
def MissCountFits (limit : BitVec 4) (r : StationRecord) : Prop :=
  match r.state with
  | .new | .online | .parked => r.missCount = 0
  | .suspect => 1 ≤ r.missCount.toNat ∧ r.missCount.toNat < limit.toNat
  | .lost => r.missCount = limit

/-- Every miss count fits its state, and the miss limit is 1 to 15 (R22). -/
def MissLaw (s : State) : Prop :=
  s.cfg.missLimit ≠ 0 ∧ ∀ r ∈ s.st.records, MissCountFits s.cfg.missLimit r

/-- The two queues: at most 16 outbound entries, together at most 24, no tag twice, no payload above 32 bytes (R85,
R86, R105). -/
def QueueLaw (s : State) : Prop :=
  s.oq.length ≤ 16 ∧ s.rq.length + s.oq.length ≤ 24 ∧
    s.oq.Pairwise (fun e f => e.tag ≠ f.tag) ∧ ∀ e ∈ s.oq, e.payload.length ≤ 32

/-- The attention queue: at most 16 entries, at most 12 at levels 0 to 2, no two with the same source, level and code
(R116); the service stack: levels strictly increase from bottom to top, at most 4 entries (R128). -/
def AttentionLaw (u : AttentionUnit) : Prop :=
  u.queue.length ≤ 16 ∧ lowEntries u.queue ≤ 12 ∧
    u.queue.Pairwise (fun e f => ¬(e.source = f.source ∧ e.level = f.level ∧ e.code = f.code)) ∧
    u.stack.Pairwise (fun upper lower => lower.level < upper.level) ∧ u.stack.length ≤ 4

/-! ### Laws of Line Control and the Supervision Timer -/

/-- The announcement pending and the hold agree, and the cause set is empty without hold (R139). -/
def HoldLaw (l : LineControl) : Prop :=
  (l.holdInForce = true → l.announcement ≠ .free) ∧
    (l.holdInForce = false → l.announcement ≠ .hold ∧ l.causeHost = false ∧ l.causeSupervision = false)

/-- IDLE goes with mode OFF, EXPIRED occurs in HOLD mode alone, the period is 1 to 65535 (R155), and a stage that counts
never stands at 0, since it expires at the tick that brings it there (R156). -/
def SupervisionLaw (v : Supervision) : Prop :=
  (v.state = .idle ↔ v.mode = .off) ∧ (v.state = .expired → v.mode = .hold) ∧ v.period ≠ 0 ∧
    (v.state = .watch ∨ v.state = .grace → v.remaining ≠ 0)

/-- The pause timer runs in PAUSING alone, and never stands at 0, since it expires at the tick that brings it there
(R40, R57). -/
def PauseLaw (s : State) : Prop :=
  ∀ n, s.ps.pauseTimer = some n → s.ps.phase = .pausing ∧ n ≠ 0

/-! ### Laws of the line -/

/-- The line mode, the phase, the exchange and the turn agree (R40, R44, R59, R66, R139 to R143): the phase is NONE
exactly in OFF; in OFF there is no exchange and no turn; in STOPPING there is an exchange; the scheduler pauses exactly
while the line runs without one; a turn is held in WALKING alone; the engine is IDLE exactly without an exchange; DE is
asserted exactly in SEND; QUIET belongs to a broadcast; an addressed exchange belongs to the turn in progress. -/
def LineLaw (s : State) : Prop :=
  (s.ps.phase = .none ↔ s.lc.mode = .off) ∧
    (s.lc.mode = .off → s.ee.exchange = none ∧ s.ps.turn = none) ∧
    (s.lc.mode = .stopping → s.ee.exchange ≠ none) ∧
    (s.ps.phase = .pausing ↔ s.lc.mode = .run ∧ s.ee.exchange = none) ∧
    (s.ps.turn ≠ none → s.ps.phase = .walking) ∧
    (s.ee.state = .idle ↔ s.ee.exchange = none) ∧
    (s.ee.driverEnable = true ↔ s.ee.state = .send) ∧
    (s.ee.state = .quiet → ∀ x, s.ee.exchange = some x → x.address = 0) ∧
    ∀ x, s.ee.exchange = some x → x.address ≠ 0 → inTurn s x.address = true

/-- A station whose turn is not in progress has leave pending absent (R23). -/
def LeaveLaw (s : State) : Prop :=
  ∀ r ∈ s.st.records, r.leave ≠ .absent → inTurn s r.address = true

/-- An IN-FLIGHT entry is the one that a WRITE exchange to its destination carries, so at most one is IN-FLIGHT; a
QUEUED entry has attempts used 0; the entry an exchange carries is in the queue and IN-FLIGHT (R86, R92). -/
def EntryLaw (s : State) : Prop :=
  (∀ e ∈ s.oq, e.status = .inFlight →
      ∃ x, s.ee.exchange = some x ∧ x.kind = .write ∧ x.entry = some e.tag ∧ x.address = e.destination) ∧
    (∀ e ∈ s.oq, e.status = .queued → e.attempts = 0) ∧
    ∀ x tag, s.ee.exchange = some x → x.entry = some tag →
      ∃ e ∈ s.oq, e.tag = tag ∧ e.status = .inFlight ∧ e.destination = x.address

/-- The walk cursor is an address on the poll list or END (R40); the station in turn has a record and is not PARKED
(R31, R33), and its turn is a RECOVERY turn exactly when it is LOST (R46, R47). -/
def WalkLaw (s : State) : Prop :=
  (∀ a, s.ps.cursor = some a → a ∈ s.st.pollList) ∧
    ∀ t, s.ps.turn = some t →
      ∃ r ∈ s.st.records, r.address = t.address ∧ r.state ≠ .parked ∧ (t.kind = .recovery ↔ r.state = .lost)

/-- All the laws together. -/
def Lawful (s : State) : Prop :=
  TableLaw s ∧ PollListLaw s ∧ MissLaw s ∧ QueueLaw s ∧ AttentionLaw s.au ∧ HoldLaw s.lc ∧ SupervisionLaw s.sv ∧
    LineLaw s ∧ LeaveLaw s ∧ EntryLaw s ∧ WalkLaw s ∧ PauseLaw s

end Sys2Proof.Machine
end

