-- ==== Sys2Proof/Certificates/Slice0/Obligations.lean ====
section
/-! DEFINITION. The statements for the provers, from the numbered rules of spec/. -/

section

open Sys2Proof Sys2Proof.Machine

/-! ### The queue of commands -/

/-- A step takes the command at the front of the queue and runs it on the state with the queue's rest; with an empty
queue the block idles. The queue is the model's (log 1). -/
def Obligations.StepTakesFrontCommand : Prop :=
  (∀ (c : Instr) (s : State) (rest : List Instr),
    step { s with pending := c :: rest } = exec c { s with pending := rest }) ∧
  ∀ s : State, s.pending = [] → step s = .next s

/-- Every command of its row completes in every state and leaves the waiting commands as they are; a term that spells no
command of its row is refused (the model's choice, log 10). -/
def Obligations.WellFormedCommandsComplete : Prop :=
  ∀ (c : Instr) (s : State),
    (c.wellFormed = true → ∃ t, exec c s = .next t ∧ t.pending = s.pending) ∧
    (c.wellFormed = false → ∃ row, exec c s = .refused (.illFormed row))

/-! ### Resets (spec/10 section 10.5) -/

/-- Application of power and assertion of RESETN put every block to its starting state and hold it there, with DE and
HOLDOUT released and TXD at 1; power sets POWER and clears the others, RESETN sets PIN and keeps them; the end of the
reset changes nothing else (R181, R182). While the reset lasts reads return 0, writes are lost and IRQN is released
(R168); that the other events are lost too is the model's reading (log 6). -/
def Obligations.ResetBeginsLastsAndEnds : Prop :=
  ∀ s : State,
    exec .powerOn s = .next { State.reset with inReset := true, pending := s.pending } ∧
    exec .pinReset s = .next { State.reset with
      inReset := true, pending := s.pending
      rw := { State.reset.rw with resetCauses := { s.rw.resetCauses with pin := true } } } ∧
    exec .resetEnd s = .next { s with inReset := false } ∧
    (∀ (c : Instr) (t : State), c = .powerOn ∨ c = .pinReset → exec c s = .next t →
      holdOut t = false ∧ t.ee.driverEnable = false ∧ txdIdle t = true) ∧
    (s.inReset = true →
      irqAsserted s = false ∧
      (∀ offset, readWord s offset = 0) ∧
      exec .wdataRead s = .next { s with rw := { s.rw with readData := 0 } } ∧
      ∀ c : Instr, c.wellFormed = true → c ≠ .powerOn → c ≠ .pinReset → c ≠ .resetEnd →
        c ≠ .wdataRead →
        exec c s = .next s)

/-- Power-on and pin reset set the configuration to its reset values, CLEAR keeps it, and every command keeps each field
in its range (R65). -/
def Obligations.ConfigurationResetValues : Prop :=
  ∀ s : State,
    (∀ c : Instr, c = .powerOn ∨ c = .pinReset → ∃ t, exec c s = .next t ∧
      t.cfg = { rate := 104, turn := 2, replyWait := 3, retryLimit := 2, missLimit := 3, deferLimit := 8, pause := 10,
                tickDiv := 16000 }) ∧
    (s.inReset = false → ∃ t, exec .clear s = .next t ∧ t.cfg = s.cfg) ∧
    ∀ (c : Instr) (t : State), SettingsInRange s.cfg → exec c s = .next t → SettingsInRange t.cfg

/-- The window after power-on and pin reset, as it stands and as it reads once the reset has ended; and the selection,
pointer and latch after CLEAR as well (R174, R183). -/
def Obligations.WindowResetValues : Prop :=
  ∀ s : State,
    (∀ c : Instr, c = .powerOn ∨ c = .pinReset → ∃ t u, exec c s = .next t ∧ exec .resetEnd t = .next u ∧
      (∀ i, i < 32 → u.rw.staging[i]? = some 0) ∧
      u.rw.selection = .stage ∧ u.rw.index = 0 ∧ u.rw.pointer = 0 ∧ u.rw.snapshot = [] ∧
      u.rw.result = .ok ∧
      ∀ offset ∈ ([0x02, 0x03, 0x04, 0x05, 0x06, 0x07, 0x08, 0x09, 0x0A, 0x0B, 0x0C, 0x0D] : List (BitVec 5)),
        readWord u offset = 0) ∧
    (s.inReset = false → ∃ t, exec .clear s = .next t ∧
      t.rw.selection = .stage ∧ t.rw.index = 0 ∧ t.rw.pointer = 0 ∧ t.rw.snapshot = [])

/-- Power-on and pin reset set the Supervision Timer to its starting state, hand nothing to the Attention Unit and leave
no hold; from there the timer stays IDLE until a SUP-SET with mode WARN or HOLD is taken (R166). -/
def Obligations.SupervisionResetValues : Prop :=
  (∀ (s : State) (c : Instr), c = .powerOn ∨ c = .pinReset → ∃ t, exec c s = .next t ∧
    t.sv.mode = .off ∧ t.sv.period = 1000 ∧ t.sv.grace = 100 ∧ t.sv.lock = false ∧ t.sv.state = .idle ∧
    t.sv.token = 0x6C21 ∧ t.sv.wrongTokens = 0 ∧
    t.au.queue = [] ∧ t.lc.holdInForce = false ∧ t.lc.causeSupervision = false ∧ t.lc.announcement = .none) ∧
  ∀ (s t : State) (c : Instr), s.sv.mode = .off → s.sv.state = .idle → exec c s = .next t →
    (t.sv.state = .idle ∧ t.sv.mode = .off) ∨
      (c = .supSet ∧ (s.rw.args.w0 = 1 ∧ t.sv.mode = .warn ∨ s.rw.args.w0 = 2 ∧ t.sv.mode = .hold))

/-- Power-on, pin reset and CLEAR each empty the table, the poll list, the two queues, the latch and the attention queue
and stack, with no DONE record and no event; scheduler and engine take their starting state; CLEAR alone keeps the level
mask (R19, R21, R40, R83, R84, R102, R115, R137, R138). The empty assembly buffer and the stopped timers of the engine
after CLEAR are the model's choice (log 27). -/
def Obligations.ResetsEmptyTheCollections : Prop :=
  ∀ (s : State) (c : Instr), (c = .powerOn ∨ c = .pinReset ∨ (c = .clear ∧ s.inReset = false)) →
    ∃ t, exec c s = .next t ∧
      t.st.records = [] ∧ t.st.pollList = [] ∧ t.oq = [] ∧ t.rq = [] ∧ t.latch = none ∧ sharedSum t = 0 ∧
      t.au = { queue := [], stack := [], mask := if c = .clear then s.au.mask else 0, overrun := false,
               arrivals := 0 } ∧
      presented t.au = none ∧ attnCause t = false ∧ returnCause t = false ∧
      t.ps = { cycle := 0, phase := .none, cursor := none, pauseTimer := none, exchangeHanded := false,
               turn := none } ∧
      t.ee.state = .idle ∧ t.ee.exchange = none ∧ t.ee.driverEnable = false ∧ txdIdle t = true ∧
      t.ee.receiver = .waitingForOne ∧ t.ee.replyTimer = .stopped ∧ t.ee.gapTimer = .stopped ∧
      t.ee.settleTimer = .stopped ∧ t.ee.buffer = [] ∧ t.ee.faults = 0 ∧ t.ee.strays = 0 ∧ t.ee.noise = 0 ∧
      t.ee.faultStreak = 0 ∧ t.ee.lastFailure = { reason := .none, address := 0 } ∧
      t.lc.mode = .off ∧ t.lc.stopCause = .none ∧ t.lc.inFlight = none ∧ t.rw.latched.line = false

/-- CLEAR, whole: the working state goes, the configuration, the arguments, the enable set, the level mask, the hold
record with the announcement pending, and the supervision configuration, lock, token and wrong-token count stay; the
timer restarts to match its mode (R184, R138, R154, R167). The remaining count of IDLE is the model's (log 18), and so are
the empty assembly buffer and the stopped timers of the engine after CLEAR (log 27). -/
def Obligations.ClearResult : Prop :=
  ∀ s : State, s.inReset = false →
    exec .clear s = .next (answered 0x3F .ok .zero { State.reset with
      cfg := s.cfg
      au := { State.reset.au with mask := s.au.mask }
      lc := { s.lc with mode := .off, stopCause := .none, inFlight := none }
      sv := if s.sv.mode = .off then { s.sv with state := .idle, remaining := 0 }
        else { s.sv with state := .watch, remaining := s.sv.period }
      rw := { State.reset.rw with
        args := s.rw.args, enable := s.rw.enable, readData := s.rw.readData
        resetCauses := { s.rw.resetCauses with clear := true } }
      pending := s.pending })

/-! ### Station Table (spec/02) -/

/-- ENROL as R30 states it: the four refusals in their order, and the record it creates. -/
def Obligations.EnrolFollowsR30 : Prop :=
  ∀ s : State, s.inReset = false →
    ((s.rw.args.w0.toNat = 0 ∨ 126 < s.rw.args.w0.toNat ∨ 15 < s.rw.args.w1.toNat ∨ 2 < s.rw.args.w2.toNat) →
      exec .enrol s = .next (answered 0x01 .badArg .zero s)) ∧
    ∀ a : Address, s.rw.args.w0 = a.setWidth 16 → 1 ≤ a.toNat → a.toNat ≤ 126 → s.rw.args.w1.toNat ≤ 15 →
      s.rw.args.w2.toNat ≤ 2 →
      (∀ r, s.st.find a = some r → r.leave = .remove → exec .enrol s = .next (answered 0x01 .leaving .zero s)) ∧
      (∀ r, s.st.find a = some r → r.leave ≠ .remove →
        exec .enrol s = .next (answered 0x01 .alreadyExists .zero s)) ∧
      (s.st.find a = none → 32 ≤ s.st.records.length → exec .enrol s = .next (answered 0x01 .full .zero s)) ∧
      (s.st.find a = none → s.st.records.length < 32 →
        ∃ t, exec .enrol s = .next (answered 0x01 .ok .zero t) ∧
          t.st.find a = some
            { address := a, state := .new, leave := .absent, skip := s.rw.args.w1.setWidth 4, countdown := 0,
              ceiling := s.rw.args.w2.setWidth 2, outToggle := false, inToggle := none, syncPending := true,
              missCount := 0, lastReply := .none, accepted := 0, failed := 0, duplicates := 0, refusals := 0 } ∧
          OtherRecordsKept a s t ∧ t.st.records.length = s.st.records.length + 1 ∧ JoinedPollList a s t ∧
          { t with st := s.st, ps := { t.ps with cursor := s.ps.cursor } } = s)

/-- REMOVE of a station not in turn: the refusals, and the removal at once. Its entries complete REMOVED in queue order,
its address leaves the poll list, its record goes; attention entries stay (R31, R21, R93, R100). -/
def Obligations.RemoveAtOnce : Prop :=
  ∀ s : State, s.inReset = false →
    (s.rw.args.w0.toNat = 0 ∨ 126 < s.rw.args.w0.toNat → exec .remove s = .next (answered 0x02 .badArg .zero s)) ∧
    ∀ a : Address, s.rw.args.w0 = a.setWidth 16 → 1 ≤ a.toNat → a.toNat ≤ 126 →
      (s.st.find a = none → exec .remove s = .next (answered 0x02 .unknown .zero s)) ∧
      ∀ r, s.st.find a = some r →
        (r.leave = .remove → exec .remove s = .next (answered 0x02 .leaving .zero s)) ∧
        (r.leave ≠ .remove → inTurn s a = false →
          ∃ t, exec .remove s = .next (answered 0x02 .ok .zero t) ∧
            t.oq = s.oq.filter (fun e => e.destination != a) ∧
            t.rq = s.rq ++ (s.oq.filter (fun e => e.destination == a)).map
              (fun e => .done a e.tag .removed e.attempts) ∧
            t.st.find a = none ∧ OtherRecordsKept a s t ∧ LeftPollList a s t ∧
            { t with oq := s.oq, rq := s.rq, st := s.st, ps := { t.ps with cursor := s.ps.cursor } } = s)

/-- REMOVE and PARK taken while the station's turn is in progress are held as a leave pending: ACCEPTED, and nothing but
the leave pending changes; a REMOVE replaces a pending PARK (R32, R33). -/
def Obligations.LeaveHeldWhileInTurn : Prop :=
  ∀ (s : State) (a : Address) (r : StationRecord), s.inReset = false → s.rw.args.w0 = a.setWidth 16 →
    1 ≤ a.toNat → a.toNat ≤ 126 → s.st.find a = some r → inTurn s a = true → r.leave ≠ .remove →
    (∃ t, exec .remove s = .next (answered 0x02 .accepted .zero t) ∧
      t.st.find a = some { r with leave := .remove } ∧ OtherRecordsKept a s t ∧ t.st.pollList = s.st.pollList ∧
      { t with st := s.st } = s) ∧
    (r.leave = .absent → r.state ≠ .parked →
      ∃ t, exec .park s = .next (answered 0x03 .accepted .zero t) ∧
        t.st.find a = some { r with leave := .park } ∧ OtherRecordsKept a s t ∧ t.st.pollList = s.st.pollList ∧
        { t with st := s.st } = s)

/-- PARK of a station not in turn: the refusals, and the park at once. The address leaves the poll list, the state is
PARKED, the miss count 0; no entry is completed (R33, R21). -/
def Obligations.ParkAtOnce : Prop :=
  ∀ s : State, s.inReset = false →
    (s.rw.args.w0.toNat = 0 ∨ 126 < s.rw.args.w0.toNat → exec .park s = .next (answered 0x03 .badArg .zero s)) ∧
    ∀ a : Address, s.rw.args.w0 = a.setWidth 16 → 1 ≤ a.toNat → a.toNat ≤ 126 →
      (s.st.find a = none → exec .park s = .next (answered 0x03 .unknown .zero s)) ∧
      ∀ r, s.st.find a = some r →
        (r.leave = .remove → exec .park s = .next (answered 0x03 .leaving .zero s)) ∧
        (r.leave = .park ∨ (r.leave = .absent ∧ r.state = .parked) →
          exec .park s = .next (answered 0x03 .wrongState .zero s)) ∧
        (r.leave = .absent → r.state ≠ .parked → inTurn s a = false →
          ∃ t, exec .park s = .next (answered 0x03 .ok .zero t) ∧
            t.st.find a = some { r with state := .parked, missCount := 0 } ∧ OtherRecordsKept a s t ∧
            LeftPollList a s t ∧ { t with st := s.st, ps := { t.ps with cursor := s.ps.cursor } } = s)

/-- UNPARK as R34 states it: the refusals in their order, and the return to the walk with toggles and sync pending
kept. -/
def Obligations.UnparkFollowsR34 : Prop :=
  ∀ s : State, s.inReset = false →
    (s.rw.args.w0.toNat = 0 ∨ 126 < s.rw.args.w0.toNat → exec .unpark s = .next (answered 0x04 .badArg .zero s)) ∧
    ∀ a : Address, s.rw.args.w0 = a.setWidth 16 → 1 ≤ a.toNat → a.toNat ≤ 126 →
      (s.st.find a = none → exec .unpark s = .next (answered 0x04 .unknown .zero s)) ∧
      ∀ r, s.st.find a = some r →
        (r.state ≠ .parked → exec .unpark s = .next (answered 0x04 .wrongState .zero s)) ∧
        (r.state = .parked →
          ∃ t, exec .unpark s = .next (answered 0x04 .ok .zero t) ∧
            t.st.find a = some { r with state := .new, missCount := 0, countdown := 0 } ∧ OtherRecordsKept a s t ∧
            JoinedPollList a s t ∧ { t with st := s.st, ps := { t.ps with cursor := s.ps.cursor } } = s)

/-- ZERO as R35 states it for a station and R82 for address 0: the fault streak is kept, and the command acts in every
engine state and on a station in turn or leaving. -/
def Obligations.ZeroFollowsR35AndR82 : Prop :=
  ∀ s : State, s.inReset = false →
    (126 < s.rw.args.w0.toNat → exec .zero s = .next (answered 0x05 .badArg .zero s)) ∧
    (s.rw.args.w0 = 0 → exec .zero s = .next (answered 0x05 .ok .zero { s with
      ee := { s.ee with faults := 0, strays := 0, noise := 0, lastFailure := { reason := .none, address := 0 } } })) ∧
    ∀ a : Address, s.rw.args.w0 = a.setWidth 16 → 1 ≤ a.toNat → a.toNat ≤ 126 →
      (s.st.find a = none → exec .zero s = .next (answered 0x05 .unknown .zero s)) ∧
      ∀ r, s.st.find a = some r →
        ∃ t, exec .zero s = .next (answered 0x05 .ok .zero t) ∧
          t.st.find a = some { r with accepted := 0, failed := 0, duplicates := 0, refusals := 0 } ∧
          OtherRecordsKept a s t ∧ t.st.pollList = s.st.pollList ∧ { t with st := s.st } = s

/-- SYNC sets sync pending of one record, or of every record for address 0, in any state and with any leave pending
(R60). -/
def Obligations.SyncMarksRecords : Prop :=
  ∀ s : State, s.inReset = false →
    (126 < s.rw.args.w0.toNat → exec .sync s = .next (answered 0x06 .badArg .zero s)) ∧
    (s.rw.args.w0 = 0 → exec .sync s = .next (answered 0x06 .ok .zero { s with
      st := { s.st with records := s.st.records.map (fun r => { r with syncPending := true }) } })) ∧
    ∀ a : Address, s.rw.args.w0 = a.setWidth 16 → 1 ≤ a.toNat → a.toNat ≤ 126 →
      (s.st.find a = none → exec .sync s = .next (answered 0x06 .unknown .zero s)) ∧
      ∀ r, s.st.find a = some r →
        ∃ t, exec .sync s = .next (answered 0x06 .ok .zero t) ∧
          t.st.find a = some { r with syncPending := true } ∧ OtherRecordsKept a s t ∧
          t.st.pollList = s.st.pollList ∧ { t with st := s.st } = s

/-! ### Messages (spec/05, spec/06) -/

/-- SUBMIT as R88 states it, its checks in their order, and the copy of the payload as R87 states it: the buffer keeps its
contents, and the selection takes no part. -/
def Obligations.SubmitFollowsR87AndR88 : Prop :=
  ∀ s : State, s.inReset = false →
    (126 < s.rw.args.w0.toNat ∨ 255 < s.rw.args.w1.toNat ∨ 32 < s.rw.args.w2.toNat →
      exec .submit s = .next (answered 0x10 .badArg .zero s)) ∧
    ∀ (d : Address) (tag : Byte) (length : Nat), s.rw.args.w0 = d.setWidth 16 → d.toNat ≤ 126 →
      s.rw.args.w1 = tag.setWidth 16 → s.rw.args.w2.toNat = length → length ≤ 32 →
      (d ≠ 0 → s.st.find d = none → exec .submit s = .next (answered 0x10 .unknown .zero s)) ∧
      (∀ r, d ≠ 0 → s.st.find d = some r → r.leave = .remove →
        exec .submit s = .next (answered 0x10 .leaving .zero s)) ∧
      (∀ r, d ≠ 0 → s.st.find d = some r → r.leave ≠ .remove → r.state = .lost →
        exec .submit s = .next (answered 0x10 .wrongState .zero s)) ∧
      ((d = 0 ∨ ∃ r, s.st.find d = some r ∧ r.leave ≠ .remove ∧ r.state ≠ .lost) →
        ((∃ e ∈ s.oq, e.tag = tag) → exec .submit s = .next (answered 0x10 .alreadyExists .zero s)) ∧
        ((∀ e ∈ s.oq, e.tag ≠ tag) → 16 ≤ s.oq.length ∨ 24 ≤ s.oq.length + s.rq.length →
          exec .submit s = .next (answered 0x10 .full .zero s)) ∧
        ((∀ e ∈ s.oq, e.tag ≠ tag) → s.oq.length < 16 → s.oq.length + s.rq.length < 24 →
          ∃ payload : List Byte, payload.length = length ∧
            (∀ i, i < length → payload[i]? = s.rw.staging[i]?) ∧
            exec .submit s = .next (answered 0x10 .ok .zero { s with
              oq := s.oq ++ [{ destination := d, tag := tag, payload := payload, status := .queued, attempts := 0,
                               defers := 0 }] })))

/-- PURGE completes the QUEUED entries its selector names, in queue order, with outcome PURGED, and counts them in RES0;
an IN-FLIGHT entry is left alone; no record changes (R101, R93). The attempts used of a DONE record are 0 where the law
of R86 holds. -/
def Obligations.PurgeCompletesQueuedEntries : Prop :=
  ∀ s : State, s.inReset = false →
    (126 < s.rw.args.w0.toNat → s.rw.args.w0 ≠ 255 → exec .purge s = .next (answered 0x11 .badArg .zero s)) ∧
    ∀ named : OutboundEntry → Bool,
      (s.rw.args.w0 = 255 ∧ (∀ e, named e = true ↔ e.status = .queued)) ∨
        (∃ a : Address, s.rw.args.w0 = a.setWidth 16 ∧ a.toNat ≤ 126 ∧
          ∀ e, named e = true ↔ e.destination = a ∧ e.status = .queued) →
      (∀ e ∈ s.oq, e.status = .queued → e.attempts = 0) →
      exec .purge s = .next (answered 0x11 .ok (firstWord (BitVec.ofNat 16 (s.oq.countP named))) { s with
        oq := s.oq.filter (fun e => !named e)
        rq := s.rq ++ (s.oq.filter named).map (fun e => .done e.destination e.tag .purged 0) })

/-- TAKE-RETURN as R111 states it: the head of the queue goes to the latch and its header to the result words, the shared
sum falls by one; an empty queue gives NONE and keeps the latch. -/
def Obligations.TakeReturnFollowsR111 : Prop :=
  ∀ s : State, s.inReset = false →
    (s.rq = [] → exec .takeReturn s = .next (answered 0x18 .nothing .zero s)) ∧
    (∀ a payload cycle rest, s.rq = .report a payload cycle :: rest →
      exec .takeReturn s = .next (answered 0x18 .ok ⟨1, a.setWidth 16, BitVec.ofNat 16 payload.length, cycle⟩
        { s with rq := rest, latch := some (.report a payload cycle) })) ∧
    (∀ a tag outcome attempts rest, s.rq = .done a tag outcome attempts :: rest → attempts ≤ 8 →
      ∃ t, exec .takeReturn s = .next (answered 0x18 .ok
          ⟨2, a.setWidth 16, tag.setWidth 16, BitVec.ofNat 16 (attempts * 256) + outcomeCode outcome⟩ t) ∧
        t = { s with rq := rest, latch := some (.done a tag outcome attempts) }) ∧
    ∀ r rest, s.rq = r :: rest → ∃ t, exec .takeReturn s = .next t ∧ sharedSum t + 1 = sharedSum s

/-! ### Attention (spec/07) -/

/-- The presented entry as R126 states it: it exists exactly when the queue holds an entry of an open level, and it is
then the oldest entry of the highest open level that holds one; a level is open when it lies above the service level and
is unmasked or level 3. -/
def Obligations.PresentedEntryFollowsR126 : Prop :=
  ∀ u : AttentionUnit,
    let isOpen : BitVec 2 → Prop := fun l =>
      (∀ top, u.stack.head? = some top → top.level < l) ∧ (l = 3 ∨ u.mask.getLsbD l.toNat = false)
    ((∃ e, presented u = some e) ↔ ∃ e ∈ u.queue, isOpen e.level) ∧
    ∀ e, presented u = some e →
      isOpen e.level ∧ (∀ f ∈ u.queue, isOpen f.level → f.level ≤ e.level) ∧
        ∃ older newer, u.queue = older ++ e :: newer ∧ ∀ f ∈ older, f.level ≠ e.level

/-- TAKE-ATTN as R129 states it: the presented entry leaves the queue, its copy goes onto the service stack and its fields
to the result words, and what is presented next lies above its level; with no entry presented the result is NONE. -/
def Obligations.TakeAttnFollowsR129 : Prop :=
  ∀ s : State, s.inReset = false →
    (presented s.au = none → exec .takeAttn s = .next (answered 0x20 .nothing .zero s)) ∧
    ∀ e, presented s.au = some e →
      ∃ t, exec .takeAttn s = .next (answered 0x20 .ok
          ⟨e.source.setWidth 16, e.level.setWidth 16 ||| (e.repeats.setWidth 16 <<< 4), e.code.setWidth 16, e.stamp⟩
          t) ∧
        (∃ before after, s.au.queue = before ++ e :: after ∧ e ∉ before ∧
          t = { s with au := { s.au with queue := before ++ after, stack := e :: s.au.stack } }) ∧
        serviceLevel t.au = some e.level ∧ ∀ f, presented t.au = some f → e.level < f.level

/-- END-SERVICE as R132 states it: the top entry is popped and its fields are the result words, the service level is
that of the new top, and an empty stack gives NONE. DISMISS as R133 states it: every queued entry of the source goes, the
stack, the overrun flag and the arrival counter stay, and RES0 counts the entries removed. -/
def Obligations.EndServiceAndDismiss : Prop :=
  ∀ s : State, s.inReset = false →
    ((s.au.stack = [] → exec .endService s = .next (answered 0x21 .nothing .zero s)) ∧
      ∀ e rest, s.au.stack = e :: rest →
        exec .endService s = .next (answered 0x21 .ok
          ⟨e.source.setWidth 16, e.level.setWidth 16 ||| (e.repeats.setWidth 16 <<< 4), e.code.setWidth 16, e.stamp⟩
          { s with au := { s.au with stack := rest } }) ∧
        serviceLevel { s.au with stack := rest } = rest.head?.map (·.level)) ∧
    (126 < s.rw.args.w0.toNat → exec .dismiss s = .next (answered 0x22 .badArg .zero s)) ∧
    ∀ a : Address, s.rw.args.w0 = a.setWidth 16 → a.toNat ≤ 126 →
      exec .dismiss s = .next (answered 0x22 .ok
        (firstWord (BitVec.ofNat 16 (s.au.queue.countP (fun e => e.source == a))))
        { s with au := { s.au with queue := s.au.queue.filter (fun e => e.source != a) } })

/-- An arrival at the Attention Unit: it merges into its equal, whose repeat count rises and holds at 15; else it is
appended with the next stamp where there is room, 16 in all and 12 at levels 0 to 2; else a station's ALERT is refused
with nothing changed, and a controller event is lost and sets the overrun flag (R118 to R121, R123). -/
def Obligations.ArrivalsMergeAppendOrFail : Prop :=
  ∀ (s : State) (a : Address) (l : BitVec 2) (code : Byte),
    let equal : AttentionEntry → Prop := fun e => e.source = a ∧ e.level = l ∧ e.code = code
    let room : Prop := s.au.queue.length < 16 ∧ (l = 3 ∨ s.au.queue.countP (fun e => e.level != 3) < 12)
    ((∀ before e after, s.au.queue = before ++ e :: after → equal e → (∀ f ∈ before ++ after, ¬equal f) →
        s.au.arrive a l code = some { s.au with
          queue := before ++ { e with repeats := if e.repeats = 15 then 15 else e.repeats + 1 } :: after }) ∧
      ((∀ e ∈ s.au.queue, ¬equal e) → room →
        s.au.arrive a l code = some { s.au with
          queue := s.au.queue ++
            [{ source := a, level := l, code := code, repeats := 0, stamp := s.au.arrivals + 1 }]
          arrivals := s.au.arrivals + 1 }) ∧
      ((∀ e ∈ s.au.queue, ¬equal e) → ¬room → s.au.arrive a l code = none)) ∧
    (∀ u, s.au.arrive a l code = some u → controllerEvent a l code s = { s with au := u }) ∧
    (s.au.arrive a l code = none → controllerEvent a l code s = { s with au := { s.au with overrun := true } })

/-! ### Line mode, cycles and hold (spec/08, spec/03) -/

/-- LINE-START: from OFF the line runs and a cycle starts, from STOPPING it runs on, in RUN it is refused (R141, R41 to
R43). LINE-STOP: with an exchange in progress the line mode becomes STOPPING and nothing else changes; with none, and so
no turn, it becomes OFF at once, LINE is latched and the cycle is abandoned with its number kept; in OFF and STOPPING it
is refused (R142, R145, R59). -/
def Obligations.LineStartAndLineStop : Prop :=
  ∀ s : State, s.inReset = false →
    (s.lc.mode = .run → exec .lineStart s = .next (answered 0x28 .wrongState .zero s)) ∧
    (s.lc.mode = .stopping →
      exec .lineStart s = .next (answered 0x28 .ok .zero { s with lc := { s.lc with mode := .run } })) ∧
    (s.lc.mode = .off →
      ∃ t, exec .lineStart s = .next (answered 0x28 .ok .zero t) ∧ t.lc.mode = .run ∧ t.lc.stopCause = .none ∧
        t.ee.faultStreak = 0 ∧ t.lc.holdInForce = s.lc.holdInForce ∧
        CycleOpens { s with
          lc := { s.lc with mode := .run, stopCause := .none }, ee := { s.ee with faultStreak := 0 } } t) ∧
    (s.lc.mode = .off ∨ s.lc.mode = .stopping →
      exec .lineStop s = .next (answered 0x29 .wrongState .zero s)) ∧
    (s.lc.mode = .run → s.ee.exchange ≠ none →
      exec .lineStop s = .next (answered 0x29 .ok .zero { s with lc := { s.lc with mode := .stopping } })) ∧
    (s.lc.mode = .run → s.ee.exchange = none → s.ps.turn = none →
      exec .lineStop s = .next (answered 0x29 .ok .zero { s with
        lc := { s.lc with mode := .off, stopCause := .host }
        rw := { s.rw with latched := { s.rw.latched with line := true } }
        ps := { s.ps with phase := .none, cursor := none, pauseTimer := none } }))

/-- A tick reaches the pause timer and then the Supervision Timer (the order is the model's choice, log 5): a running
pause loses one, and the tick that brings it to 0 with the line RUN starts the next cycle; the remaining count of WATCH and
GRACE loses one, and the stage expires at the tick that brings it to 0; in IDLE and EXPIRED a tick changes nothing there
(R41, R57, R62, R156). PAUSE_EXPIRY is the pause timer's part of the tick that brings it to 0 (the model's reading, log 4);
a PAUSE_EXPIRY that is not due changes nothing (the model's choice, log 3). -/
def Obligations.TickAndPauseExpiry : Prop :=
  ∀ s : State, s.inReset = false →
    let supervision : State → StepResult := fun u =>
      if u.sv.state = .watch ∧ u.sv.remaining.toNat ≤ 1 then exec .watchExpiry u
      else if u.sv.state = .grace ∧ u.sv.remaining.toNat ≤ 1 then exec .graceExpiry u
      else if u.sv.state = .watch ∨ u.sv.state = .grace then
        .next { u with sv := { u.sv with remaining := u.sv.remaining - 1 } }
      else .next u
    (s.ps.pauseTimer = none → exec .tick s = supervision s) ∧
    (∀ n, s.ps.pauseTimer = some n → 2 ≤ n.toNat →
      exec .tick s = supervision { s with ps := { s.ps with pauseTimer := some (n - 1) } }) ∧
    (∀ n, s.ps.pauseTimer = some n → n.toNat ≤ 1 → s.ps.phase = .pausing → s.lc.mode = .run →
      ∃ u, exec .pauseExpiry s = .next u ∧ CycleOpens s u ∧ exec .tick s = supervision u) ∧
    ((∀ n, s.ps.pauseTimer = some n → 2 ≤ n.toNat) ∨ s.ps.phase ≠ .pausing ∨ s.lc.mode ≠ .run →
      exec .pauseExpiry s = .next s)

/-- The first visit of a cycle that opens with no broadcast. A NEW, ONLINE or SUSPECT station with countdown 0 is due:
the countdown is reloaded and an ORDINARY turn begins with a SYNC when sync pending is set, else with a WRITE of its
oldest entry, else with a POLL; a LOST station is due in the cycles whose number is a multiple of 8, for a RECOVERY turn
of one POLL with one attempt; any other is passed over, its countdown lower by one unless it is LOST, and a walk of one
station then ends in the pause (R45 to R47, R49 to R52, R57). The cycle starts at a PAUSE_EXPIRY with one tick left, which is
the pause timer's part of the tick that brings it to 0 (the model's choice, log 4). -/
def Obligations.FirstVisitOfACycle : Prop :=
  ∀ (s : State) (a : Address) (rest : List Address) (r : StationRecord), s.inReset = false →
    s.ps.pauseTimer = some 1 → s.ps.phase = .pausing → s.lc.mode = .run → s.lc.announcement = .none →
    s.lc.holdInForce = false → (∀ e ∈ s.oq, ¬(e.destination = 0 ∧ e.status = .queued)) →
    s.st.pollList = a :: rest → s.st.find a = some r →
    ∃ t, exec .pauseExpiry s = .next t ∧ t.ps.cycle = s.ps.cycle + 1 ∧
      ((r.state = .new ∨ r.state = .online ∨ r.state = .suspect) → r.countdown = 0 →
        t.ps.phase = .walking ∧ t.ps.cursor = rest.head? ∧ t.ps.exchangeHanded = true ∧ t.ee.state = .settle ∧
        t.st.find a = some { r with countdown := r.skip } ∧ OtherRecordsKept a s t ∧
        ∃ stage, t.ps.turn = some { address := a, kind := .ordinary, stage := some stage, next := stage } ∧
          (r.syncPending = true → stage = .sync ∧ t.oq = s.oq ∧
            t.ee.exchange = some { broadcastExchange s .sync none with address := a }) ∧
          (r.syncPending = false →
            ((∀ e ∈ s.oq, e.destination ≠ a) → stage = .poll ∧ t.oq = s.oq ∧
              t.ee.exchange = some { broadcastExchange s .poll none with address := a }) ∧
            ∀ older e newer, s.oq = older ++ e :: newer → e.destination = a →
              (∀ d ∈ older, d.destination ≠ a) →
              stage = .write ∧
                t.ee.exchange = some { broadcastExchange s .write (some e.tag) with address := a } ∧
                ∀ d ∈ t.oq, d.tag = e.tag → d.status = .inFlight ∧ d.attempts = 0)) ∧
      (r.state = .lost → (s.ps.cycle + 1).toNat % 8 = 0 →
        t.ps.phase = .walking ∧ t.ps.cursor = rest.head? ∧ t.st = s.st ∧ t.oq = s.oq ∧
        t.ps.turn = some { address := a, kind := .recovery, stage := some .poll, next := .poll } ∧
        t.ee.exchange = some { broadcastExchange s .poll none with address := a, allowance := 1 }) ∧
      (rest = [] →
        ((r.state = .new ∨ r.state = .online ∨ r.state = .suspect) → r.countdown ≠ 0 →
          t.st.find a = some { r with countdown := r.countdown - 1 } ∧ OtherRecordsKept a s t ∧
          { t with st := s.st } = { s with
            ps := { s.ps with
              cycle := s.ps.cycle + 1, exchangeHanded := false, cursor := none
              pauseTimer := some (if s.cfg.pause = 0 then 1 else s.cfg.pause) } }) ∧
        (r.state = .lost → (s.ps.cycle + 1).toNat % 8 ≠ 0 →
          t = { s with
            ps := { s.ps with
              cycle := s.ps.cycle + 1, exchangeHanded := false, cursor := none
              pauseTimer := some (if s.cfg.pause = 0 then 1 else s.cfg.pause) } }))

/-- HOLD-ENTER puts hold in force, adds HOST and announces HOLD; HOLD-LEAVE ends hold and announces FREE, and is refused
without hold or with SUPERVISION among the causes; both renew an announcement in flight, and HOLDOUT follows (R146, R147,
R149 to R151). Hold ends by HOLD-LEAVE, power-on and pin reset alone, and begins by HOLD-ENTER and the supervision second
stage alone, at a tick, an expiry or a SERVICE; SUPERVISION leaves the cause set by SERVICE, SUP-SET and the two resets alone (R148, R152 to R154). -/
def Obligations.HoldBeginsAndEnds : Prop :=
  (∀ s : State, s.inReset = false →
    exec .holdEnter s = .next (answered 0x2A .ok .zero { s with
      lc := { s.lc with
        holdInForce := true, causeHost := true, announcement := .hold
        inFlight := s.lc.inFlight.map (fun _ => true) } }) ∧
    (s.lc.holdInForce = false ∨ s.lc.causeSupervision = true →
      exec .holdLeave s = .next (answered 0x2B .wrongState .zero s)) ∧
    (s.lc.holdInForce = true → s.lc.causeSupervision = false →
      exec .holdLeave s = .next (answered 0x2B .ok .zero { s with
        lc := { s.lc with
          holdInForce := false, causeHost := false, causeSupervision := false, announcement := .free
          inFlight := s.lc.inFlight.map (fun _ => true) } })) ∧
    holdOut s = s.lc.holdInForce) ∧
  ∀ (c : Instr) (s t : State), exec c s = .next t →
    (s.lc.holdInForce = true → t.lc.holdInForce = false → c = .holdLeave ∨ c = .powerOn ∨ c = .pinReset) ∧
    (s.lc.holdInForce = false → t.lc.holdInForce = true →
      c = .holdEnter ∨
        ((c = .tick ∨ c = .graceExpiry ∨ c = .watchExpiry ∨ c = .service) ∧ s.sv.mode = .hold)) ∧
    (s.lc.causeSupervision = true → t.lc.causeSupervision = false →
      c = .service ∨ c = .supSet ∨ c = .powerOn ∨ c = .pinReset)

/-- No attempt of a WRITE begins while hold is in force, whichever command is taken (R68). -/
def Obligations.NoWriteBeginsUnderHold : Prop :=
  ∀ (c : Instr) (s t : State) (x : Exchange), exec c s = .next t → s.ee.state ≠ .send → t.ee.state = .send →
    t.ee.exchange = some x → x.kind = .write → s.lc.holdInForce = false ∧ t.lc.holdInForce = false

/-- The line mode passes from RUN or STOPPING to OFF, other than by CLEAR and the two resets, with LINE latched and the
stop cause HOST or FAULT; LINE is latched on no other occasion; while the mode is RUN or STOPPING the stop cause reads
NONE (R145). In OFF no exchange is in progress, which LineLaw says. -/
def Obligations.LineCauseFollowsPassagesToOff : Prop :=
  ∀ (c : Instr) (s t : State), (s.lc.mode = .off → s.ee.exchange = none) → exec c s = .next t →
    (s.lc.mode ≠ .off → t.lc.mode = .off → c ≠ .clear → c ≠ .powerOn → c ≠ .pinReset →
      t.rw.latched.line = true ∧ (t.lc.stopCause = .host ∨ t.lc.stopCause = .fault)) ∧
    (s.rw.latched.line = false → t.rw.latched.line = true → s.lc.mode ≠ .off ∧ t.lc.mode = .off) ∧
    (s.rw.latched.line = true → t.rw.latched.line = false →
      (∃ value, c = .causeWrite value ∧ value.getLsbD 2 = true) ∨ c = .clear ∨ c = .powerOn ∨ c = .pinReset) ∧
    ((s.lc.mode ≠ .off → s.lc.stopCause = .none) → t.lc.mode ≠ .off → t.lc.stopCause = .none)

/-! ### Supervision (spec/09) -/

/-- SUP-SET: LOCKED before BADARG; a SUP-SET that is taken sets mode, period, grace and lock, restarts the state,
withdraws SUPERVISION and returns the token unchanged (R164, R148). The remaining count of IDLE is the model's (log 18). -/
def Obligations.SupSetConfigures : Prop :=
  ∀ s : State, s.inReset = false →
    (s.sv.lock = true → exec .supSet s = .next (answered 0x30 .locked .zero s)) ∧
    (s.sv.lock = false →
      (2 < s.rw.args.w0.toNat ∨ s.rw.args.w1 = 0 ∨ 255 < s.rw.args.w2.toNat ∨ 1 < s.rw.args.w3.toNat →
        exec .supSet s = .next (answered 0x30 .badArg .zero s)) ∧
      ∀ mode : SupervisionMode,
        (s.rw.args.w0 = 0 ∧ mode = .off ∨ s.rw.args.w0 = 1 ∧ mode = .warn ∨ s.rw.args.w0 = 2 ∧ mode = .hold) →
        s.rw.args.w1 ≠ 0 → s.rw.args.w2.toNat ≤ 255 → s.rw.args.w3 = 0 ∨ s.rw.args.w3 = 1 →
        exec .supSet s = .next (answered 0x30 .ok (firstWord s.sv.token) { s with
          sv := { s.sv with
            mode := mode, period := s.rw.args.w1, grace := s.rw.args.w2.setWidth 8, lock := s.rw.args.w3 == 1
            state := if mode = .off then .idle else .watch
            remaining := if mode = .off then 0 else s.rw.args.w1 }
          lc := if s.lc.causeSupervision then
              { s.lc with
                causeSupervision := false, announcement := .hold, inFlight := s.lc.inFlight.map (fun _ => true) }
            else s.lc }))

/-- SERVICE as R161 and R162 state it: STATE in IDLE; the right token reloads the watch, advances the token, withdraws
SUPERVISION and clears the wrong-token count; a wrong one is counted, and in WATCH acts exactly as the watch running
out. -/
def Obligations.ServiceFollowsR161AndR162 : Prop :=
  ∀ s : State, s.inReset = false →
    (s.sv.state = .idle → exec .service s = .next (answered 0x31 .wrongState .zero s)) ∧
    (s.sv.state ≠ .idle → s.rw.args.w0 = s.sv.token →
      exec .service s = .next (answered 0x31 .ok (firstWord (nextToken s.sv.token)) { s with
        sv := { s.sv with
          state := .watch, remaining := s.sv.period, token := nextToken s.sv.token, wrongTokens := 0 }
        lc := if s.lc.causeSupervision then
            { s.lc with
              causeSupervision := false, announcement := .hold, inFlight := s.lc.inFlight.map (fun _ => true) }
          else s.lc })) ∧
    (s.sv.state ≠ .idle → s.rw.args.w0 ≠ s.sv.token →
      let wrong : Byte := if s.sv.wrongTokens = 255 then 255 else s.sv.wrongTokens + 1
      (s.sv.state = .grace ∨ s.sv.state = .expired →
        exec .service s = .next (answered 0x31 .badToken .zero { s with sv := { s.sv with wrongTokens := wrong } })) ∧
      (s.sv.state = .watch →
        (∃ t, exec .watchExpiry { s with sv := { s.sv with wrongTokens := wrong, remaining := 0 } } = .next t ∧
          exec .service s = .next (answered 0x31 .badToken .zero t)) ∧
        (s.sv.grace ≠ 0 →
          exec .service s = .next (answered 0x31 .badToken .zero { s with
            sv := { s.sv with wrongTokens := wrong, state := .grace, remaining := s.sv.grace.setWidth 16 }
            au := (controllerEvent 0 3 0x04 s).au }))))

/-- The two stages: the end of a watch hands SUPERVISION-DUE and loads the grace; the end of a grace, or a grace of 0 at
once, hands SUPERVISION-MISSED and reloads the period in WARN mode, and in HOLD mode puts hold in force with cause
SUPERVISION, announces it and stands in EXPIRED (R157, R158, R148, R121). They come about at the tick that brings the
remaining count to 0, so a command after that tick finds them made (R156, R163); WATCH_EXPIRY and GRACE_EXPIRY are the
Supervision Timer's part of that tick (the model's reading, log 4), one that is not due changes nothing (the model's
choice, log 3), and the remaining count of EXPIRED is 0 (the model's, log 18). -/
def Obligations.SupervisionStages : Prop :=
  ∀ s : State, s.inReset = false →
    let due : State → AttentionUnit := fun u => (controllerEvent 0 3 0x04 u).au
    let missed : State → AttentionUnit := fun u => (controllerEvent 0 3 0x05 u).au
    let held : LineControl := { s.lc with
      holdInForce := true, causeSupervision := true, announcement := .hold
      inFlight := s.lc.inFlight.map (fun _ => true) }
    (s.sv.state = .watch → s.sv.remaining.toNat ≤ 1 →
      (s.sv.grace ≠ 0 → exec .watchExpiry s = .next { s with
        au := due s, sv := { s.sv with state := .grace, remaining := s.sv.grace.setWidth 16 } }) ∧
      (s.sv.grace = 0 → s.sv.mode = .warn → exec .watchExpiry s = .next { s with
        au := missed { s with au := due s }, sv := { s.sv with state := .watch, remaining := s.sv.period } }) ∧
      (s.sv.grace = 0 → s.sv.mode = .hold → exec .watchExpiry s = .next { s with
        au := due s, lc := held, sv := { s.sv with state := .expired, remaining := 0 } })) ∧
    (s.sv.state = .grace → s.sv.remaining.toNat ≤ 1 →
      (s.sv.mode = .warn → exec .graceExpiry s = .next { s with
        au := missed s, sv := { s.sv with state := .watch, remaining := s.sv.period } }) ∧
      (s.sv.mode = .hold → exec .graceExpiry s = .next { s with
        lc := held, sv := { s.sv with state := .expired, remaining := 0 } })) ∧
    (∀ (c : Instr) (u : State), (s.sv.state = .watch ∧ c = .watchExpiry) ∨ (s.sv.state = .grace ∧ c = .graceExpiry) →
      s.sv.remaining.toNat ≤ 1 → exec c s = .next u →
      ∃ t, exec .tick s = .next t ∧ t.sv = u.sv ∧ t.au = u.au ∧ t.lc.holdInForce = u.lc.holdInForce ∧
        t.lc.causeHost = u.lc.causeHost ∧ t.lc.causeSupervision = u.lc.causeSupervision ∧
        t.lc.announcement = u.lc.announcement) ∧
    (¬(s.sv.state = .watch ∧ s.sv.remaining.toNat ≤ 1) → exec .watchExpiry s = .next s) ∧
    (¬(s.sv.state = .grace ∧ s.sv.remaining.toNat ≤ 1) → exec .graceExpiry s = .next s)

/-- The token as R160 states it: the step, the first values after /6C21, the passage through all 65535 non-zero values,
that a correct SERVICE alone advances it, and that no register and no window selection shows it. -/
def Obligations.TokenFollowsR160 : Prop :=
  (∀ t : Word,
    (∀ i, i < 15 → (nextToken t).getLsbD i = t.getLsbD (i + 1)) ∧
    (nextToken t).getLsbD 15 = (((t.getLsbD 0 ^^ t.getLsbD 2) ^^ t.getLsbD 3) ^^ t.getLsbD 5) ∧
    (t ≠ 0 → nextToken t ≠ 0)) ∧
  ([1, 2, 3, 4, 5].map (fun n => nextToken^[n] 0x6C21) = ([0x3610, 0x1B08, 0x8D84, 0xC6C2, 0x6361] : List Word)) ∧
  (∀ n, 0 < n → n < 65535 → nextToken^[n] 0x6C21 ≠ 0x6C21) ∧ nextToken^[65535] 0x6C21 = 0x6C21 ∧
  State.reset.sv.token = 0x6C21 ∧
  (∀ (c : Instr) (s t : State), exec c s = .next t → t.sv.token ≠ s.sv.token →
    ((c = .service ∧ s.rw.args.w0 = s.sv.token ∧ t.sv.token = nextToken s.sv.token) ∨
      ((c = .powerOn ∨ c = .pinReset) ∧ t.sv.token = 0x6C21))) ∧
  ∀ (s : State) (token : Word),
    let other : State := { s with sv := { s.sv with token := token } }
    (∀ offset, readWord other offset = readWord s offset) ∧
      ∀ selection index, snapshotOf other selection index = snapshotOf s selection index

/-- The lock as R165 states it. While it is set, mode, period, grace and the tick divisor do not change, SUP-SET gives
LOCKED and a TICKDIV write latches CFG; it is set by a taken SUP-SET with lock argument 1 and cleared by power-on and pin
reset alone; ticks, expiries, SERVICE and CLEAR act as on an unlocked timer; a locked timer in OFF stays IDLE. -/
def Obligations.LockFollowsR165 : Prop :=
  (∀ (c : Instr) (s t : State), exec c s = .next t →
    (s.sv.lock = true → c ≠ .powerOn → c ≠ .pinReset →
      t.sv.lock = true ∧ t.sv.mode = s.sv.mode ∧ t.sv.period = s.sv.period ∧ t.sv.grace = s.sv.grace ∧
        t.cfg.tickDiv = s.cfg.tickDiv ∧ (s.sv.mode = .off → s.sv.state = .idle → t.sv.state = .idle)) ∧
    (s.sv.lock = false → t.sv.lock = true → c = .supSet ∧ s.rw.args.w3 = 1 ∧ t.rw.result = .ok) ∧
    (s.inReset = false → c = .supSet → t.rw.result = .ok → (t.sv.lock = true ↔ s.rw.args.w3 = 1)) ∧
    (c = .powerOn ∨ c = .pinReset → t.sv.lock = false)) ∧
  (∀ s : State, s.inReset = false → s.sv.lock = true →
    exec .supSet s = .next (answered 0x30 .locked .zero s) ∧
    ∀ value, exec (.tickdivWrite value) s = .next { s with
      rw := { s.rw with latched := { s.rw.latched with cfg := true } } }) ∧
  ∀ (c : Instr) (s t : State) (b : Bool),
    c = .tick ∨ c = .watchExpiry ∨ c = .graceExpiry ∨ c = .service ∨ c = .clear → exec c s = .next t →
    exec c { s with sv := { s.sv with lock := b } } = .next { t with sv := { t.sv with lock := b } }

/-! ### The register window (spec/10, spec/04 section 4.2) -/

/-- Writes of RATE, TIMING and TICKDIV: taken as a whole with the line OFF and every field in range, TICKDIV with the lock
clear as well; otherwise nothing changes but CFG, which is latched (R63, R64, R180). A RATE taken leaves the receiver
waiting for a sample that reads 1 (R61). -/
def Obligations.ConfigurationWrites : Prop :=
  ∀ (s : State) (value : Word), s.inReset = false →
    let refused : State := { s with rw := { s.rw with latched := { s.rw.latched with cfg := true } } }
    (s.lc.mode = .off → value.toNat % 4096 ≠ 0 → exec (.rateWrite value) s = .next { s with
      cfg := { s.cfg with rate := value.setWidth 12 }, ee := { s.ee with receiver := .waitingForOne } }) ∧
    (s.lc.mode ≠ .off ∨ value.toNat % 4096 = 0 → exec (.rateWrite value) s = .next refused) ∧
    (∀ (turn : BitVec 4) (replyWait : BitVec 6), value.extractLsb' 0 4 = turn → value.extractLsb' 8 6 = replyWait →
      (s.lc.mode = .off → turn ≠ 0 → replyWait ≠ 0 → exec (.timingWrite value) s = .next { s with
        cfg := { s.cfg with turn := turn, replyWait := replyWait } }) ∧
      (s.lc.mode ≠ .off ∨ turn = 0 ∨ replyWait = 0 → exec (.timingWrite value) s = .next refused)) ∧
    (s.lc.mode = .off → s.sv.lock = false → value ≠ 0 → exec (.tickdivWrite value) s = .next { s with
      cfg := { s.cfg with tickDiv := value } }) ∧
    (s.lc.mode ≠ .off ∨ s.sv.lock = true ∨ value = 0 → exec (.tickdivWrite value) s = .next refused)

/-- A write to LIMITS that is taken re-bases every record on the new miss limit as R39 states it, with no event and no
completion; a refused one leaves every record as it stood. -/
def Obligations.LimitsWriteFollowsR39 : Prop :=
  ∀ (s : State) (value : Word) (retry : BitVec 3) (miss defer : BitVec 4), s.inReset = false →
    value.extractLsb' 0 3 = retry → value.extractLsb' 4 4 = miss → value.extractLsb' 8 4 = defer →
    (s.lc.mode = .off → miss ≠ 0 →
      ∃ rebased : StationRecord → StationRecord,
        (∀ r, (r.state = .lost → rebased r = { r with missCount := miss }) ∧
          (r.state = .suspect → rebased r = { r with missCount := 0, state := .online }) ∧
          (r.state = .new ∨ r.state = .online ∨ r.state = .parked → rebased r = { r with missCount := 0 })) ∧
        exec (.limitsWrite value) s = .next { s with
          cfg := { s.cfg with retryLimit := retry, missLimit := miss, deferLimit := defer }
          st := { s.st with records := s.st.records.map rebased } }) ∧
    (s.lc.mode ≠ .off ∨ miss = 0 → exec (.limitsWrite value) s = .next { s with
      rw := { s.rw with latched := { s.rw.latched with cfg := true } } })

/-- The writes that are always taken: PAUSE, AMASK, STATUS, ENABLE, CAUSE, RSTCAUSE and ARG0 to ARG3 change their own
fields alone, other offsets change nothing, and an unknown command code gives BADCMD with no other effect (R57, R123,
R125, R169, R175, R177, R179, R181). -/
def Obligations.WritesAlwaysTaken : Prop :=
  ∀ (s : State) (value : Word), s.inReset = false →
    exec (.pauseWrite value) s = .next { s with cfg := { s.cfg with pause := value.setWidth 8 } } ∧
    exec (.amaskWrite value) s = .next { s with au := { s.au with mask := value.setWidth 3 } } ∧
    exec (.statusWrite value) s = .next { s with
      au := { s.au with overrun := if value.getLsbD 5 then false else s.au.overrun } } ∧
    exec (.enableWrite value) s = .next { s with rw := { s.rw with enable := value.setWidth 6 } } ∧
    exec (.causeWrite value) s = .next { s with
      rw := { s.rw with
        latched :=
          { line := if value.getLsbD 2 then false else s.rw.latched.line
            table := if value.getLsbD 3 then false else s.rw.latched.table
            holdSent := if value.getLsbD 4 then false else s.rw.latched.holdSent
            cfg := if value.getLsbD 5 then false else s.rw.latched.cfg } } } ∧
    exec (.rstcauseWrite value) s = .next { s with
      rw := { s.rw with
        resetCauses :=
          { power := if value.getLsbD 0 then false else s.rw.resetCauses.power
            pin := if value.getLsbD 1 then false else s.rw.resetCauses.pin
            clear := if value.getLsbD 2 then false else s.rw.resetCauses.clear } } } ∧
    exec (.registerWrite 0x05 value) s = .next { s with rw := { s.rw with args := { s.rw.args with w0 := value } } } ∧
    exec (.registerWrite 0x06 value) s = .next { s with rw := { s.rw with args := { s.rw.args with w1 := value } } } ∧
    exec (.registerWrite 0x07 value) s = .next { s with rw := { s.rw with args := { s.rw.args with w2 := value } } } ∧
    exec (.registerWrite 0x08 value) s = .next { s with rw := { s.rw with args := { s.rw.args with w3 := value } } } ∧
    (∀ offset ∈ ([0x00, 0x09, 0x0A, 0x0B, 0x0C, 0x0D, 0x16, 0x17, 0x18, 0x1A, 0x1B, 0x1C, 0x1D, 0x1E, 0x1F] :
        List (BitVec 5)), exec (.registerWrite offset value) s = .next s) ∧
    (value.toNat % 256 ∉ [1, 2, 3, 4, 5, 6, 16, 17, 24, 32, 33, 34, 40, 41, 42, 43, 48, 49, 63] →
      exec (.badCmd value) s = .next (answered (value.setWidth 8) .badCmd .zero s))

/-- The cause set and IRQN: ATTN follows the presented entry and RETURN the Return Queue, the others are the latched
causes; outside a reset IRQN is asserted exactly while some cause is set whose enable flag is set, and CAUSE and ENABLE
read back so (R113, R127, R177, R179). -/
def Obligations.CausesAndInterruptRequest : Prop :=
  ∀ s : State,
    ((causeSet s).getLsbD 0 = true ↔ ∃ e, presented s.au = some e) ∧
    ((causeSet s).getLsbD 1 = true ↔ s.rq ≠ []) ∧
    (causeSet s).getLsbD 2 = s.rw.latched.line ∧ (causeSet s).getLsbD 3 = s.rw.latched.table ∧
    (causeSet s).getLsbD 4 = s.rw.latched.holdSent ∧ (causeSet s).getLsbD 5 = s.rw.latched.cfg ∧
    (irqAsserted s = true ↔
      s.inReset = false ∧ ∃ i, i < 6 ∧ (causeSet s).getLsbD i = true ∧ s.rw.enable.getLsbD i = true) ∧
    (s.inReset = false →
      readWord s 0x02 = (causeSet s).setWidth 16 ∧ readWord s 0x03 = s.rw.enable.setWidth 16)

/-- A write to WSEL as R170 states it, and the copies R171 names with their layouts and lengths (spec/11 11.6). The
selection is in force, the pointer at 0, and under every selection but STAGE the copy of the object as it stands: 8 words
for a station, 20 for an outbound entry, 20 for the return latch, 13 for the service stack, 5 for the line statistics, and
words of 0 for an absent object; STAGE shows the 16 words of the staging buffer itself, and the latch keeps what it held
(the model's reading, log 20). A code that names none of the six makes the selection NONE with index 0, the latch then holds
nothing, WDATA reads 0 and writes store nothing. No other command but CLEAR and the two resets changes the latch. -/
def Obligations.WselWriteFollowsR170 : Prop :=
  (∀ (s : State) (value : Word) (index : Byte), s.inReset = false → value.extractLsb' 8 8 = index →
    (∀ code selection,
      (code, selection) ∈ [(1, Selection.stage), (2, .station), (3, .outbound), (4, .returned), (5, .stack),
        (6, .lineStats)] → value.toNat % 16 = code →
      ∃ t, exec (.wselWrite value) s = .next t ∧
        let words : List Nat := t.rw.snapshot.map (fun w => w.toNat)
        t.rw.selection = selection ∧ t.rw.index = index ∧ t.rw.pointer = 0 ∧
        (selection = .stage → t.rw.snapshot = s.rw.snapshot ∧
          ∀ p, p < 16 → (readWord { t with rw := { t.rw with pointer := p } } 0x0F).toNat =
            ((s.rw.staging[2 * p]?).getD 0).toNat + 0x100 * ((s.rw.staging[2 * p + 1]?).getD 0).toNat) ∧
        (selection = .station →
          (index = 0 ∨ 126 < index.toNat ∨ s.st.find (index.setWidth 7) = none → words = List.replicate 8 0) ∧
          ∀ r, 1 ≤ index.toNat → index.toNat ≤ 126 → s.st.find (index.setWidth 7) = some r → s.oq.length ≤ 16 →
            words = stationLayout r (s.oq.countP (fun e => e.destination == r.address))) ∧
        (selection = .outbound →
          (s.oq.length ≤ index.toNat → words = List.replicate 20 0) ∧
          ∀ e, s.oq[index.toNat]? = some e → e.payload.length ≤ 32 → e.attempts ≤ 8 → words = outboundLayout e) ∧
        (selection = .returned →
          (s.latch = none → words = List.replicate 20 0) ∧
          (∀ a payload cycle, s.latch = some (.report a payload cycle) → payload.length ≤ 32 →
            words = returnLayout (.report a payload cycle)) ∧
          ∀ a tag outcome attempts, s.latch = some (.done a tag outcome attempts) → attempts ≤ 8 →
            words = returnLayout (.done a tag outcome attempts)) ∧
        (selection = .stack → s.au.stack.length ≤ 4 →
          words = s.au.stack.length :: ([0, 1, 2, 3].map (stackEntryLayout s.au.stack.reverse)).flatten) ∧
        (selection = .lineStats → words = lineStatsLayout s.ee) ∧
        readWord t 0x0E = BitVec.ofNat 16 code ||| (index.setWidth 16 <<< 8) ∧
        { t with rw := { t.rw with
            selection := s.rw.selection, index := s.rw.index, pointer := s.rw.pointer,
            snapshot := s.rw.snapshot } } = s) ∧
    (value.toNat % 16 = 0 ∨ 6 < value.toNat % 16 →
      ∃ t, exec (.wselWrite value) s = .next t ∧
        t = { s with rw := { s.rw with selection := .nothing, index := 0, pointer := 0, snapshot := [] } } ∧
        readWord t 0x0E = 0 ∧ readWord t 0x0F = 0 ∧
        ∀ word u, exec (.wdataWrite word) t = .next u → u.rw.staging = t.rw.staging ∧ u.rw.snapshot = [])) ∧
  ∀ (c : Instr) (s t : State), exec c s = .next t → (∀ value, c ≠ .wselWrite value) → c ≠ .clear → c ≠ .powerOn →
    c ≠ .pinReset → t.rw.snapshot = s.rw.snapshot

/-- WDATA as R172 states it: each access advances the pointer, which holds at 32; a read returns the word at the pointer,
0 at or past the copy's length, and under STAGE the staging word; a write under STAGE below 16 stores both bytes of one
word, and any other write stores nothing. -/
def Obligations.WdataFollowsR172 : Prop :=
  ∀ (s : State) (value : Word), s.inReset = false → s.rw.pointer ≤ 32 →
    let next : Nat := if s.rw.pointer = 32 then 32 else s.rw.pointer + 1
    (∃ word, exec .wdataRead s = .next { s with rw := { s.rw with readData := word, pointer := next } } ∧
      word = readWord s 0x0F ∧
      (s.rw.selection = .stage → s.rw.pointer < 16 →
        ∃ low high, s.rw.staging[2 * s.rw.pointer]? = some low ∧ s.rw.staging[2 * s.rw.pointer + 1]? = some high ∧
          word = (high ++ low : BitVec 16)) ∧
      (s.rw.selection = .stage → 16 ≤ s.rw.pointer → word = 0) ∧
      (s.rw.selection ≠ .stage → s.rw.selection ≠ .nothing → word = (s.rw.snapshot[s.rw.pointer]?).getD 0)) ∧
    (∃ staging : Vector Byte 32,
      exec (.wdataWrite value) s = .next { s with rw := { s.rw with staging := staging, pointer := next } } ∧
      (s.rw.selection = .stage → s.rw.pointer < 16 →
        staging[2 * s.rw.pointer]? = some (value.setWidth 8) ∧
        staging[2 * s.rw.pointer + 1]? = some (value.extractLsb' 8 8) ∧
        ∀ i, i ≠ 2 * s.rw.pointer → i ≠ 2 * s.rw.pointer + 1 → staging[i]? = s.rw.staging[i]?) ∧
      (s.rw.selection ≠ .stage ∨ 16 ≤ s.rw.pointer → staging = s.rw.staging))

/-! ### The receiver (spec/01) -/

/-- The receiver: a first 0 starts an assembly, a first 1 ends the wait, and a false start ends an assembly without a
character, after which what waited on the character proceeds; an event out of its place changes nothing (log 3). Each bit
is the majority of its three samples, disagreement in any bit is the noise flag alone, a stop bit of 0 is the framing
flag, and a character sent as R1 states, heard with every sample right or with one of the three samples of any bits
wrong, is received as it was sent (R1 to R3, R72, R73). -/
def Obligations.ReceiverAndSampling : Prop :=
  (∀ s : State, s.inReset = false →
      let hunting : State := { s with ee := { s.ee with receiver := .hunting } }
      (s.ee.receiver = .hunting →
        exec .startBitFound s = .next { s with ee := { s.ee with receiver := .assembling } }) ∧
      (s.ee.receiver ≠ .hunting → exec .startBitFound s = .next s) ∧
      (s.ee.receiver = .waitingForOne → exec .lineReturnsTo1 s = .next hunting) ∧
      (s.ee.receiver ≠ .waitingForOne → exec .lineReturnsTo1 s = .next s) ∧
      (s.ee.receiver ≠ .assembling → exec .falseStart s = .next s ∧
        ∀ delivery, exec (.characterDelivered delivery) s = .next s) ∧
      (s.ee.receiver = .assembling →
        (s.ee.turnCount ≠ .expired → s.ee.replyTimer ≠ .expired → s.ee.gapTimer ≠ .expired →
          exec .falseStart s = .next hunting) ∧
        (s.ee.state = .listen → s.ee.replyTimer = .expired → exec .falseStart s = exec .replyTimeout hunting) ∧
        (s.ee.state = .receive → s.ee.gapTimer = .expired → exec .falseStart s = exec .gapTimeout hunting) ∧
        (s.ee.state = .settle → s.ee.turnCount = .expired → exec .falseStart s = exec (.settleEnd .quiet) hunting) ∧
        ∀ samples begun, (majorityBits samples).getLsbD 0 = true →
          exec (.characterDelivered ⟨samples, begun⟩) s = exec .falseStart s)) ∧
  (∀ (c : CharSamples) (i : Nat),
    (majorityBits c).getLsbD i =
      ((c.s7.getLsbD i && c.s8.getLsbD i) || (c.s7.getLsbD i && c.s9.getLsbD i) ||
        (c.s8.getLsbD i && c.s9.getLsbD i))) ∧
  (∀ c : CharSamples, (receivedChar c).noise = false ↔ c.s7 = c.s8 ∧ c.s8 = c.s9) ∧
  ∀ (sent : LineChar) (line wrong : BitVec 11),
    (∀ i, i < 11 → (characterBits sent)[i]? = some (line.getLsbD i)) →
    ∀ samples ∈ ([⟨line ^^^ wrong, line, line⟩, ⟨line, line ^^^ wrong, line⟩, ⟨line, line, line ^^^ wrong⟩] :
        List CharSamples),
      startIsFalse samples = false ∧
        receivedChar samples = { data := sent.data, mark := sent.mark, noise := wrong != 0, framing := false }

/-- A stray: delivered in IDLE, QUIET or SETTLE, or unmarked in LISTEN, it is counted, its noise flag is counted, and
nothing else changes but the receiver, and in SETTLE the count of TURN bit times, which starts again; in LISTEN with the
reply timer expired while the character was in assembly, the stray is counted and the attempt then fails as at the expiry
of the reply timer with no character in assembly; the counters hold at 65535 (R80, R75, R68, R72, R81). -/
def Obligations.StrayCharacters : Prop :=
  (∀ x : Word, (satInc x).toNat = min 65535 (x.toNat + 1)) ∧
  ∀ (s : State) (samples : CharSamples) (begun : Nat) (c : RxChar), s.inReset = false → s.ee.receiver = .assembling →
    startIsFalse samples = false → receivedChar samples = c →
    let after : Engine := { s.ee with
      receiver := if c.framing then .waitingForOne else .hunting
      noise := if c.noise then satInc s.ee.noise else s.ee.noise
      strays := satInc s.ee.strays }
    (s.ee.state = .idle ∨ s.ee.state = .quiet ∨
        (s.ee.state = .listen ∧ c.mark = false ∧ s.ee.replyTimer ≠ .expired) →
      exec (.characterDelivered ⟨samples, begun⟩) s = .next { s with ee := after }) ∧
    (s.ee.state = .settle →
      exec (.characterDelivered ⟨samples, begun⟩) s = .next { s with ee := { after with turnCount := .running } }) ∧
    (s.ee.state = .listen → c.mark = false → s.ee.replyTimer = .expired →
      exec (.characterDelivered ⟨samples, begun⟩) s = exec .replyTimeout { s with ee := after })

/-! ### Sending (spec/04 section 4.5) -/

/-- Echoes: a delivered character that agrees with the oldest unechoed one in data, mark and a stop bit of 1 is its echo
when that one has begun on TXD, which for the first holds from the start of SEND and for all once the last stop bit is over
(how many have begun is the command's operand, the model's choice, log 11); the last echo sets the fault streak to 0; at
the end of the last stop bit of a fully echoed frame, or at a last echo taken after it (the model's reading, log 13), DE is
released and the engine enters LISTEN for an addressed frame with the reply timer running, or QUIET for a broadcast (R69,
R75). With the last echo outstanding at the end of the last stop bit DE stays asserted (the model's reading, log 12). The
reply timer of a broadcast stands stopped (the model's choice, log 28). -/
def Obligations.EchoesAndEndOfFrame : Prop :=
  ∀ (s : State) (x : Exchange), s.inReset = false → s.ee.state = .send → s.ee.faultFound = false →
    s.ee.exchange = some x →
    let sentFrame : Engine → Engine := fun e => { e with
      driverEnable := false, frame := [], echoed := 0, faultFound := false, lastStopEnded := false
      state := if x.address = 0 then .quiet else .listen
      replyTimer := if x.address = 0 then .stopped else .running }
    (∀ (samples : CharSamples) (begun : Nat) (sent : LineChar) (noise : Bool), s.ee.receiver = .assembling →
      startIsFalse samples = false → s.ee.frame[s.ee.echoed]? = some sent →
      (s.ee.echoed = 0 ∨ s.ee.echoed < begun ∨ s.ee.lastStopEnded = true) →
      receivedChar samples = { data := sent.data, mark := sent.mark, noise := noise, framing := false } →
      let heard : Engine := { s.ee with
        receiver := .hunting, noise := if noise then satInc s.ee.noise else s.ee.noise, echoed := s.ee.echoed + 1 }
      (s.ee.echoed + 1 < s.ee.frame.length →
        exec (.characterDelivered ⟨samples, begun⟩) s = .next { s with ee := heard }) ∧
      (s.ee.echoed + 1 = s.ee.frame.length → s.ee.lastStopEnded = false →
        exec (.characterDelivered ⟨samples, begun⟩) s = .next { s with ee := { heard with faultStreak := 0 } }) ∧
      (s.ee.echoed + 1 = s.ee.frame.length → s.ee.lastStopEnded = true →
        exec (.characterDelivered ⟨samples, begun⟩) s = .next { s with ee := sentFrame { heard with faultStreak := 0 } })) ∧
    (s.ee.echoed = s.ee.frame.length →
      exec .endOfLastStopBit s = .next { s with ee := sentFrame s.ee }) ∧
    (s.ee.echoed + 1 = s.ee.frame.length →
      exec .endOfLastStopBit s = .next { s with ee := { s.ee with lastStopEnded := true } })

/-- A line fault is found by an echo that differs in data, mark or stop bit, by a delivery with no transmitted character
awaiting its echo, or by an echo that is missing, while a character is on TXD: nothing ends until that character is
complete, and characters delivered until then are neither compared nor strays, only their noise is counted. With none on
TXD the attempt ends at the finding, as at the end of a faulted attempt (R69, R70, R75). How many characters have begun is
the command's operand (the model's choice, log 11), and which character is on TXD is the model's reading (log 12). -/
def Obligations.LineFaultIsFound : Prop :=
  ∀ s : State, s.inReset = false → s.ee.state = .send → s.ee.exchange ≠ none →
    let found : Engine → State := fun e => { s with ee := { e with faultFound := true } }
    (∀ (samples : CharSamples) (begun : Nat) (c : RxChar), s.ee.receiver = .assembling →
      startIsFalse samples = false → receivedChar samples = c →
      let heard : Engine := { s.ee with
        receiver := if c.framing then .waitingForOne else .hunting
        noise := if c.noise then satInc s.ee.noise else s.ee.noise }
      (s.ee.faultFound = true → exec (.characterDelivered ⟨samples, begun⟩) s = .next { s with ee := heard }) ∧
      (s.ee.faultFound = false →
        (s.ee.echoed ≠ 0 ∧ begun ≤ s.ee.echoed ∧ s.ee.lastStopEnded = false) ∨
          (∀ sent, s.ee.frame[s.ee.echoed]? = some sent →
            c.data ≠ sent.data ∨ c.mark ≠ sent.mark ∨ c.framing = true) →
        (s.ee.lastStopEnded = false → exec (.characterDelivered ⟨samples, begun⟩) s = .next (found heard)) ∧
        (s.ee.lastStopEnded = true →
          exec (.characterDelivered ⟨samples, begun⟩) s = exec .faultedAttemptEnd (found heard)))) ∧
    (s.ee.faultFound = false →
      (s.ee.echoed + 1 < s.ee.frame.length → exec .echoMissing s = .next (found s.ee)) ∧
      (s.ee.echoed + 1 = s.ee.frame.length → exec .echoMissing s = exec .faultedAttemptEnd (found s.ee))) ∧
    (s.ee.faultFound = true → exec .echoMissing s = .next s)

/-- The end of a faulted attempt, whatever its course: the faults counter and the streak advance, the last failure is FAULT
with the exchange's address, LINE-FAULT is handed, and the failed counter of the addressed station advances; at the third
fault in a row the line mode is OFF with stop cause FAULT, and LINE is latched (R36, R70, R71, R144). The exchange then
takes the course of R77: CUT where the line does not run, so at the third fault, with its entry QUEUED again, the cycle
abandoned, the hold and the streak kept; WITHDRAWN where hold forbids the retry; FAILED with the allowance used up, with
the entry completed FAILED, addressed or broadcast, and sync pending set for an addressed one; or the retry through SETTLE.
The turn ends with its result, and with it a leave pending, as R24 to R29 and R49 state (R16, R59, R96, R98). That the reply
and gap timers stand stopped in SETTLE is the model's choice (log 28). -/
def Obligations.FaultedAttemptEnds : Prop :=
  ∀ (s : State) (x : Exchange), s.inReset = false → s.ee.state = .send → s.ee.faultFound = true →
    s.ee.exchange = some x →
    let fault : State := controllerEvent 0 3 0x03 s
    let forbidden : Prop :=
      (x.kind = .write ∧ s.lc.holdInForce = true) ∨ (x.kind = .hold ∧ s.lc.holdInForce = false)
    let streak : BitVec 2 := if s.ee.faultStreak = 3 then 3 else s.ee.faultStreak + 1
    let counted : State := failureCounted .fault x s
    let u : State := { counted with
      au := fault.au
      ee := { counted.ee with faults := satInc s.ee.faults, faultStreak := streak }
      lc := if streak = 3 then { s.lc with mode := .off, stopCause := .fault } else s.lc
      rw := { s.rw with latched := { s.rw.latched with line := s.rw.latched.line || streak == 3 } } }
    ∃ t, exec .faultedAttemptEnd s = .next t ∧ CourseAfterFailure x u t ∧
      (∀ r, x.address ≠ 0 → s.st.find x.address = some r → r.leave = .absent →
        ∃ q, t.st.find x.address = some q ∧ q.failed = satInc r.failed ∧ q.lastReply = r.lastReply) ∧
      (s.lc.mode ≠ .run ∨ streak = 3 ∨ forbidden ∨ x.begun ≠ x.allowance ∨ x.address = 0 → t.au = fault.au)

/-- The end of SETTLE, by the settle limit or by quiet with no character in assembly. In STOPPING the exchange ends CUT and
the stop is completed; a WRITE under hold or a HOLD without it ends WITHDRAWN; either returns its entry to QUEUED. Otherwise
the attempt begins: it is counted, its frame composed on the state of this moment, DE asserted and SEND entered. The end of
SETTLE counts no failed attempt on any record, changes no line counter and hands no event (R67, R68, R92, R98, R143). That
the settle timer and the count of TURN bit times stop when the attempt begins is the model's choice (log 28). -/
def Obligations.SettleEnds : Prop :=
  ∀ (s : State) (x : Exchange) (cause : SettleCause), s.inReset = false → s.ee.state = .settle →
    s.ee.exchange = some x → (cause = .limit ∨ s.ee.receiver ≠ .assembling) →
    ∃ t, exec (.settleEnd cause) s = .next t ∧
      t.ee.faults = s.ee.faults ∧ t.ee.strays = s.ee.strays ∧ t.ee.noise = s.ee.noise ∧
      t.ee.faultStreak = s.ee.faultStreak ∧ t.ee.lastFailure = s.ee.lastFailure ∧ t.au = s.au ∧
      (∀ b q, t.st.find b = some q → ∃ r, s.st.find b = some r ∧ q.failed = r.failed) ∧
      (s.lc.mode = .stopping → ExchangeEnds .cut x s t) ∧
      (s.lc.mode = .run →
        (x.kind = .write ∧ s.lc.holdInForce = true) ∨ (x.kind = .hold ∧ s.lc.holdInForce = false) →
        ExchangeEnds .withdrawn x s t) ∧
      (s.lc.mode = .run → ¬(x.kind = .write ∧ s.lc.holdInForce = true) →
        ¬(x.kind = .hold ∧ s.lc.holdInForce = false) →
        t = { s with
          oq := s.oq.map (fun e => if x.entry = some e.tag then { e with attempts := e.attempts + 1 } else e)
          ee := { s.ee with
            state := .send, exchange := some { x with begun := x.begun + 1 }, driverEnable := true
            frame := composeFrame s x, echoed := 0, faultFound := false, lastStopEnded := false
            turnCount := .stopped, settleTimer := .stopped } })

/-! ### Listening and receiving (spec/04 sections 4.6 to 4.8) -/

/-- The reply timer in LISTEN and the gap timer in RECEIVE: a character in assembly holds either off; otherwise the
attempt fails with TIMEOUT, or with TRUNCATED unless a character of the buffer carries the framing flag, the station's
failed counter advances and the last failure is set (R36, R72 to R74). The exchange then takes the course of R77. In
STOPPING it ends CUT: its entry is QUEUED with attempts used 0, the stop is completed, OFF with stop cause HOST and LINE
latched, and the turn ends unfinished with the miss count kept (R58, R98, R143). A WRITE under hold ends WITHDRAWN: its
entry is QUEUED with attempts used 0, no sync pending is set, and the turn goes on (R16, R56, R98). With the allowance used
up it ends FAILED and the turn is a miss: an addressed WRITE's entry completes FAILED and sync pending is set; a station
that was LOST, in its recovery turn, keeps state and miss count and no event is handed; below the miss limit the station
becomes SUSPECT, at the miss limit it is LOST with sync pending set, STATION-LOST handed and its QUEUED entries STRANDED
in queue order (R16, R25 to R27, R96, R99). A turn that ends completes a leave pending after its result, and latches TABLE
(R29). Otherwise the engine settles for the next attempt; that the reply and gap timers stand stopped there is the model's
choice (log 28). -/
def Obligations.TimeoutsFailTheAttempt : Prop :=
  ∀ (s : State) (x : Exchange) (c : Instr) (reason : FailReason), s.inReset = false → s.ee.exchange = some x →
    (c = .replyTimeout ∧ s.ee.state = .listen ∧ reason = .timeout) ∨
      (c = .gapTimeout ∧ s.ee.state = .receive ∧
        reason = if s.ee.buffer.any (fun ch => ch.framing) then .framing else .truncated) →
    (s.ee.receiver = .assembling → exec c s = .next { s with
      ee := { s.ee with
        replyTimer := if c = .replyTimeout then .expired else s.ee.replyTimer
        gapTimer := if c = .gapTimeout then .expired else s.ee.gapTimer } }) ∧
    (s.ee.receiver ≠ .assembling →
      ∃ t, exec c s = .next t ∧ CourseAfterFailure x (failureCounted reason x s) t)

/-- The end of QUIET ends the broadcast GOOD: a broadcast message completes SENT with its attempts; an announcement goes
out with HOLDSENT latched, and is no longer pending unless it was set again meanwhile; a repeat HOLD leaves announcement
and cause as they stand (R42, R76, R97, R151). In STOPPING the stop is then completed: OFF with stop cause HOST, LINE
latched, the phase NONE, and a turn in progress unfinished (R58, R59, R143). -/
def Obligations.QuietEndsTheBroadcast : Prop :=
  ∀ (s : State) (x : Exchange), s.inReset = false → s.ee.state = .quiet → s.ee.exchange = some x →
    x.address = 0 →
    ∃ t, exec .quietEnd s = .next t ∧ ExchangeEnds .good x s t

/-- Assembly: a marked character delivered in LISTEN is the head and starts the buffer and the gap timer; in RECEIVE an
unmarked one is appended and restarts the gap timer while the frame is neither complete nor too long; a marked one, a LEN
above 32 and the last check character end the assembly, and the reply is evaluated (R72, R73, R75). That the reply timer
stops at the head is the model's choice (log 28). -/
def Obligations.ReplyAssembly : Prop :=
  ∀ (s : State) (samples : CharSamples) (begun : Nat) (c : RxChar), s.inReset = false → s.ee.receiver = .assembling →
    startIsFalse samples = false → receivedChar samples = c →
    let heard : Engine := { s.ee with
      receiver := if c.framing then .waitingForOne else .hunting
      noise := if c.noise then satInc s.ee.noise else s.ee.noise }
    let appended : Engine := { heard with buffer := s.ee.buffer ++ [c], gapTimer := .running }
    let len : Nat := ((s.ee.buffer ++ [c])[2]?.map (fun ch => ch.data.toNat)).getD 0
    (s.ee.state = .listen → c.mark = true →
      exec (.characterDelivered ⟨samples, begun⟩) s = .next { s with
        ee := { heard with state := .receive, buffer := [c], gapTimer := .running, replyTimer := .stopped } }) ∧
    (s.ee.state = .receive →
      (c.mark = true →
        exec (.characterDelivered ⟨samples, begun⟩) s = .next (evaluateReply .broken { s with ee := heard })) ∧
      (c.mark = false → s.ee.buffer.length = 2 → 32 < len →
        exec (.characterDelivered ⟨samples, begun⟩) s = .next (evaluateReply .length { s with ee := appended })) ∧
      (c.mark = false → 2 ≤ s.ee.buffer.length → len ≤ 32 → s.ee.buffer.length + 1 = len + 5 →
        exec (.characterDelivered ⟨samples, begun⟩) s = .next (evaluateReply .complete { s with ee := appended })) ∧
      (c.mark = false → (s.ee.buffer.length < 2 ∨ (len ≤ 32 ∧ s.ee.buffer.length + 1 < len + 5)) →
        exec (.characterDelivered ⟨samples, begun⟩) s = .next { s with ee := appended }))

/-- The tests of a reply in the order of R74: the first that applies names the reason; with none the reply is good. A
reason fails the attempt: the failed counter and the last failure are set, and the exchange takes the course of R77, CUT,
WITHDRAWN, FAILED or the retry through SETTLE, as TimeoutsFailTheAttempt says (R36, R74, R77; the reply and gap timers in
SETTLE are the model's choice, log 28). -/
def Obligations.ReplyTestsFollowR74 : Prop :=
  (∀ (s : State) (x : Exchange) (ending : AssemblyEnd) (buffer : List RxChar),
    let r := replyOf buffer
    let sum := crc (r.head :: r.ctrl :: r.len :: r.payload)
    let applies : List (Prop × FailReason) :=
      [ (∃ ch ∈ buffer, ch.framing = true, .framing), (ending = .broken, .broken), (ending = .truncated, .truncated),
        (r.head.toNat ≠ x.address.toNat, .wrong), (32 < r.len.toNat, .length),
        (r.check ≠ [sum.extractLsb' 8 8, sum.setWidth 8], .check), (replyValid x.kind r = false, .protocol),
        (r.ctrl.toNat / 16 = 0xB ∧ r.ctrl.getLsbD 3 ≠ writeT s x.address, .stale) ]
    (∀ before test reason after, applies = before ++ (test, reason) :: after → test → (∀ p ∈ before, ¬p.1) →
      replyFault s x ending buffer = reason) ∧
    ((∀ p ∈ applies, ¬p.1) → replyFault s x ending buffer = .none)) ∧
  ∀ (s : State) (x : Exchange) (ending : AssemblyEnd) (reason : FailReason), s.ee.exchange = some x →
    replyFault s x ending s.ee.buffer = reason → reason ≠ .none →
    CourseAfterFailure x (failureCounted reason x s) (evaluateReply ending s)

/-- A reply is valid for its request as R10 states it: its kind answers the request, its LEN lies in its kind's range, its
reserved bit is 0, and an ALERT's level is 0, 1 or 2. -/
def Obligations.ReplyValidityFollowsR10 : Prop :=
  ∀ (request : FrameKind) (r : Reply),
    let kind := r.ctrl.toNat / 16
    let len := r.len.toNat
    replyValid request r = true ↔
      r.ctrl.getLsbD 0 = false ∧
        ((request = .poll ∧
            (kind = 0x8 ∧ len = 0 ∨ kind = 0x9 ∧ 1 ≤ len ∧ len ≤ 32 ∨
              kind = 0xA ∧ len = 2 ∧ (r.payload.getD 0 0).toNat ≤ 2)) ∨
          (request = .write ∧ (kind = 0xB ∨ kind = 0xC) ∧ len = 0) ∨
          (request = .sync ∧ kind = 0x8 ∧ len = 0))

/-- What a good reply does before the exchange ends GOOD. A NIL to a SYNC resets the toggles and clears sync pending; a
duplicate is counted; a new REPORT is admitted below the shared limit of 24, with the cycle number, and refused at it; a
new ALERT goes to the Attention Unit at the lower of its level and the ceiling; an accepted frame sets the in-toggle, a
refused one is counted; a TAKEN turns the out-toggle and completes the entry; a DEFER is counted and refuses the entry at
the defer limit, else returns it to QUEUED (R12 to R15, R78, R94, R95, R107, R119). These effects are what the delivery of
the last character does: for a TAKEN, a DEFER and the NIL of a SYNC the record then has its accepted counter advanced and
its last reply kind set, and the exchange ends GOOD; with the line RUN the turn goes on to its next exchange, after a WRITE
the POLL, and in STOPPING the stop is completed and the turn ends unfinished (R36, R49, R58, R78, R143); for a POLL
GoodPollIsASuccess says so. -/
def Obligations.GoodReplyEffects : Prop :=
  (∀ (s : State) (x : Exchange) (reply : Reply) (r : StationRecord), s.st.find x.address = some r →
    let t := ctrlT reply.ctrl
    (x.kind = .sync →
      (replyEffect x .nil reply s).st.find x.address =
        some { r with outToggle := false, inToggle := none, syncPending := false }) ∧
    (x.kind ≠ .sync → replyEffect x .nil reply s = s) ∧
    (∀ k, k = .report ∨ k = .alert → r.inToggle = some t →
      (replyEffect x k reply s).st.find x.address = some { r with duplicates := satInc r.duplicates } ∧
        { replyEffect x k reply s with st := s.st } = s) ∧
    (r.inToggle ≠ some t →
      (s.rq.length + s.oq.length < 24 →
        (replyEffect x .report reply s).st.find x.address = some { r with inToggle := some t } ∧
        { replyEffect x .report reply s with st := s.st } =
          { s with rq := s.rq ++ [.report x.address reply.payload s.ps.cycle] }) ∧
      (24 ≤ s.rq.length + s.oq.length →
        (replyEffect x .report reply s).st.find x.address = some { r with refusals := satInc r.refusals } ∧
        { replyEffect x .report reply s with st := s.st } = s) ∧
      ∀ level code : Byte, reply.payload = [level, code] → level.toNat ≤ 2 →
        let effective : BitVec 2 := if level.toNat < r.ceiling.toNat then level.setWidth 2 else r.ceiling
        (∀ u, s.au.arrive x.address effective code = some u →
          (replyEffect x .alert reply s).st.find x.address = some { r with inToggle := some t } ∧
          { replyEffect x .alert reply s with st := s.st } = { s with au := u }) ∧
        (s.au.arrive x.address effective code = none →
          (replyEffect x .alert reply s).st.find x.address = some { r with refusals := satInc r.refusals } ∧
          { replyEffect x .alert reply s with st := s.st } = s)) ∧
    ∀ tag e, x.entry = some tag → s.oq.filter (fun d => d.tag == tag) = [e] →
      ((replyEffect x .taken reply s).st.find x.address = some { r with outToggle := !r.outToggle } ∧
        { replyEffect x .taken reply s with st := s.st } = { s with
          oq := s.oq.filter (fun d => d.tag != tag)
          rq := s.rq ++ [.done e.destination tag .taken e.attempts] }) ∧
      ∀ defers : BitVec 4, defers = (if e.defers = 15 then 15 else e.defers + 1) →
        (s.cfg.deferLimit ≠ 0 → s.cfg.deferLimit.toNat ≤ defers.toNat →
          replyEffect x .defer reply s = { s with
            oq := s.oq.filter (fun d => d.tag != tag)
            rq := s.rq ++ [.done e.destination tag .refused e.attempts] }) ∧
        (s.cfg.deferLimit = 0 ∨ defers.toNat < s.cfg.deferLimit.toNat →
          replyEffect x .defer reply s = { s with
            oq := s.oq.map (fun d =>
              if d.tag = tag then { d with defers := defers, status := .queued, attempts := 0 } else d) })) ∧
  ∀ (s : State) (x : Exchange) (turn : Turn) (r : StationRecord) (samples : CharSamples) (begun : Nat) (c : RxChar)
    (k : ReplyKind),
    s.inReset = false → s.ee.receiver = .assembling → s.ee.state = .receive → startIsFalse samples = false →
    receivedChar samples = c → c.mark = false → s.ee.exchange = some x → x.kind = .write ∨ x.kind = .sync →
    x.address ≠ 0 → s.ps.turn = some turn → s.ps.phase = .walking →
    frameComplete (s.ee.buffer ++ [c]) = true → replyFault s x .complete (s.ee.buffer ++ [c]) = .none →
    replyKindOf (replyOf (s.ee.buffer ++ [c])).ctrl = some k →
    let u : State := replyEffect x k (replyOf (s.ee.buffer ++ [c])) s
    u.st.find x.address = some r →
    ∃ t, exec (.characterDelivered ⟨samples, begun⟩) s = .next t ∧
      ExchangeEnds .good x (replyCounted x k c u) t ∧
      (s.lc.mode = .run →
        t.st.find x.address = some { r with accepted := satInc r.accepted, lastReply := k } ∧
        OtherRecordsKept x.address s t ∧ t.rq = u.rq ∧ t.au = s.au ∧ t.ps.turn.map (·.address) = some turn.address) ∧
      (s.lc.mode = .run → s.lc.announcement = .none → x.kind = .write →
        t.oq = u.oq ∧
        t.ee.exchange = some { broadcastExchange s .poll none with
          address := turn.address, allowance := if turn.kind = .recovery then 1 else s.cfg.retryLimit.toNat + 1 })

/-- A good POLL, answered by a NIL, a REPORT or an ALERT, new, refused or duplicate, closes its turn a success. The reply
has the effects that GoodReplyEffects states, on the in-toggle, the duplicates and refusals of the record at most; the
accepted counter advances and the last reply kind is the reply's; the miss count is 0, the station is ONLINE, and one that
was LOST hands STATION-BACK after the reply's own arrival (R24, R36, R49, R52, R78). A leave pending is completed after that
result and latches TABLE: a PARK parks the station; a REMOVE completes its entries REMOVED in queue order, after the reply's
own record, and removes it; either takes the address off the poll list (R29, R31, R33). In STOPPING the stop is completed
after that: OFF with stop cause HOST, LINE latched, the phase NONE (R58, R59, R143). -/
def Obligations.GoodPollIsASuccess : Prop :=
  ∀ (s : State) (x : Exchange) (turn : Turn) (r r' : StationRecord) (samples : CharSamples) (begun : Nat) (c : RxChar)
    (k : ReplyKind),
    s.inReset = false → s.ee.receiver = .assembling → s.ee.state = .receive → startIsFalse samples = false →
    receivedChar samples = c → c.mark = false → s.ee.exchange = some x → x.kind = .poll →
    x.address ≠ 0 → s.ps.turn = some turn → turn.address = x.address → s.st.find x.address = some r →
    r.state ≠ .parked → frameComplete (s.ee.buffer ++ [c]) = true →
    replyFault s x .complete (s.ee.buffer ++ [c]) = .none →
    replyKindOf (replyOf (s.ee.buffer ++ [c])).ctrl = some k →
    let u : State := replyEffect x k (replyOf (s.ee.buffer ++ [c])) s
    u.st.find x.address = some r' →
    ∃ t, exec (.characterDelivered ⟨samples, begun⟩) s = .next t ∧
      (k = .nil ∨ k = .report ∨ k = .alert) ∧
      r' = { r with inToggle := r'.inToggle, duplicates := r'.duplicates, refusals := r'.refusals } ∧
      (replyCounted x k c u).st.find x.address = some { r' with accepted := satInc r.accepted, lastReply := k } ∧
      turnResultOf s.lc.mode .good x = some .success ∧
      ExchangeEnds .good x (replyCounted x k c u) t

/-! ### Frames (spec/01) -/

/-- What is framed is what is read back: for every address, control character and payload of up to 32 bytes, the frame
has n + 5 characters, the head alone is marked, and a receiver that hears it right finds it complete at its last
character and at no earlier one, reads the same address, control character and payload from it, and finds the check
right (R4 to R6). -/
def Obligations.FrameReadsBack : Prop :=
  ∀ (address : Address) (ctrl : Byte) (payload : List Byte), payload.length ≤ 32 →
    let frame := frameOf address ctrl payload
    let heard := frame.map (fun ch => ({ data := ch.data, mark := ch.mark, noise := false, framing := false } : RxChar))
    frame.length = payload.length + 5 ∧
      (∀ i ch, frame[i]? = some ch → (ch.mark = true ↔ i = 0)) ∧
      (replyOf heard).head = address.setWidth 8 ∧ (replyOf heard).ctrl = ctrl ∧ (replyOf heard).payload = payload ∧
      (replyOf heard).len.toNat = payload.length ∧
      frameComplete heard = true ∧ checkDiffers (replyOf heard) = false ∧
      ∀ n, n < frame.length → frameComplete (heard.take n) = false ∧ lengthTooLong (heard.take n) = false

/-- The frames the controller composes: the address, the control character with T, A and Q as R7 states them and the
reserved bit 0, and the payload, which is the entry's for a WRITE, the hold cause code for a HOLD and empty for the others
(R7, R9, R11, R92); and the check as R6 states it: it starts at /FFFF, each character goes into the high byte, eight shifts
follow, each combined with /1021 when the bit shifted out was 1; with the worked example of the POLL to station 5. -/
def Obligations.ControlCharacterAndCheck : Prop :=
  (∀ (s : State) (x : Exchange),
      let bit : Bool → Nat → Nat := fun b n => if b then n else 0
      let ctrl : Nat :=
        match x.kind with
        | .poll =>
          0x10 + bit (match (s.st.find x.address).bind (fun r => r.inToggle) with | none => true | some t => t) 4 +
            bit (decide (s.rq.length + s.oq.length = 24)) 2
        | .write =>
          0x20 + bit (decide (x.address ≠ 0) &&
            (match s.st.find x.address with | none => false | some r => r.outToggle)) 8
        | .sync => 0x30
        | .hold => 0x40
        | .free => 0x50
      let payload : List Byte :=
        match x.kind with
        | .write => ((s.oq.find? (fun e => x.entry == some e.tag)).map (fun e => e.payload)).getD []
        | .hold => [BitVec.ofNat 8 (bit s.lc.causeHost 1 + bit s.lc.causeSupervision 2)]
        | .poll | .sync | .free => []
      composeFrame s x = frameOf x.address (BitVec.ofNat 8 ctrl) payload) ∧
  crc [] = 0xFFFF ∧
  (∀ (bytes : List Byte) (b : Byte),
    crc (bytes ++ [b]) = crcShift (crcShift (crcShift (crcShift (crcShift (crcShift (crcShift (crcShift
      (crc bytes ^^^ (b.setWidth 16 <<< 8))))))))) ) ∧
  (∀ r : Word, crcShift r = if r.getLsbD 15 then (r <<< 1) ^^^ 0x1021 else r <<< 1) ∧
  crc [0x05] = 0xB155 ∧ crc [0x05, 0x14] = 0xB04F ∧ crc [0x05, 0x14, 0x00] = 0xE8DB

/-! ### What every command keeps -/

/-- The shared sum never exceeds 24, and changes on the events R105 lists and on no others, each moving the two queues as
its row says: an accepted SUBMIT adds an entry; an admitted REPORT adds its record, whatever completes in the same step;
completions move entries across; TAKE-RETURN takes the head; the three resets empty both. The host reads it as the OQ count
and the RQ count of STATUS, bits 10 to 6 and 15 to 11, added together. -/
def Obligations.SharedSumFollowsR105 : Prop :=
  (∀ s : State, s.inReset = false → s.oq.length ≤ 16 → s.rq.length ≤ 24 →
    ((readWord s 0x01).extractLsb' 6 5).toNat + ((readWord s 0x01).extractLsb' 11 5).toNat = sharedSum s) ∧
  ∀ (c : Instr) (s t : State), exec c s = .next t →
    (sharedSum s ≤ 24 → sharedSum t ≤ 24) ∧
    ((∃ moved : List ReturnRecord, t.rq = s.rq ++ moved ∧ t.oq.length + moved.length = s.oq.length ∧
        ∀ d ∈ moved, ∃ a tag outcome attempts, d = .done a tag outcome attempts) ∨
      (c = .submit ∧ t.rw.result = .ok ∧ sharedSum s < 24 ∧ t.rq = s.rq ∧ t.oq.length = s.oq.length + 1) ∨
      ((∃ delivery, c = .characterDelivered delivery) ∧ sharedSum s < 24 ∧
        ∃ a payload cycle, ∃ moved : List ReturnRecord, t.rq = s.rq ++ .report a payload cycle :: moved ∧
          t.oq.length + moved.length = s.oq.length ∧
          ∀ d ∈ moved, ∃ b tag outcome attempts, d = .done b tag outcome attempts) ∨
      (c = .takeReturn ∧ s.rq ≠ [] ∧ t.rq = s.rq.tail ∧ t.oq = s.oq) ∨
      ((c = .powerOn ∨ c = .pinReset ∨ c = .clear) ∧ t.oq = [] ∧ t.rq = []))

/-- No message is lost: but for CLEAR and the two resets, every outbound entry is still queued after a command, with its
tag, destination and payload, or its DONE record has joined the tail of the Return Queue; and the Return Queue keeps its
records in their order, TAKE-RETURN alone taking one, from the head (R86, R93, R103, R111). -/
def Obligations.EveryEntryEndsInADoneRecord : Prop :=
  ∀ (c : Instr) (s t : State), exec c s = .next t → c ≠ .powerOn → c ≠ .pinReset → c ≠ .clear →
    ∃ joined : List ReturnRecord,
      (t.rq = s.rq ++ joined ∨ (c = .takeReturn ∧ joined = [] ∧ t.rq = s.rq.tail)) ∧
      ∀ e ∈ s.oq,
        (∃ f ∈ t.oq, f.tag = e.tag ∧ f.destination = e.destination ∧ f.payload = e.payload) ∨
          ∃ outcome attempts, .done e.destination e.tag outcome attempts ∈ joined

/-- Every command keeps the table and the poll list, at most 32 records, distinct addresses of 1 to 126, and on the poll
list each once exactly the addresses of the records that are not PARKED (R19, R21); and the miss count of every record
fitting its state under the miss limit, LOST exactly at the limit (R22, R39). -/
def Obligations.StationTableLawsAreKept : Prop :=
  ∀ (c : Instr) (s t : State), TableLaw s → exec c s = .next t →
    TableLaw t ∧ (PollListLaw s → PollListLaw t) ∧ (MissLaw s → MissLaw t)

/-- Every command keeps the bounds of the two message queues, with no tag twice (R85, R105); the attention queue within
its bounds without two equal entries, and the service stack of strictly rising levels and at most four entries (R116,
R128); the hold and the announcement pending in agreement (R139); and the supervision state in agreement with its mode, the
period above 0, and no counting stage at 0 (R155, R156). -/
def Obligations.QueueAttentionHoldAndSupervisionLawsAreKept : Prop :=
  ∀ (c : Instr) (s t : State), exec c s = .next t →
    (QueueLaw s → QueueLaw t) ∧ (AttentionLaw s.au → AttentionLaw t.au) ∧ (HoldLaw s.lc → HoldLaw t.lc) ∧
      (SupervisionLaw s.sv → SupervisionLaw t.sv)

/-- Every step keeps all the laws together: those above, the agreement of line mode, phase, turn and exchange, leave
pending in turn alone, at most one IN-FLIGHT entry with its exchange, the walk cursor on the poll list, and the pause timer
running in PAUSING alone and above 0 (R23, R40, R44, R57, R66, R86, R92, R139). -/
def Obligations.EveryStepIsLawful : Prop :=
  ∀ s t : State, Lawful s → step s = .next t → Lawful t

/-- The laws hold at reset. -/
def Obligations.ResetIsLawful : Prop := Lawful State.reset

end
end

