-- ==== Sys2Proof/Laws/State.lean ====
section
/-! SUPPORT. One lemma per field per update: what each operation leaves as it stands. -/

namespace Sys2Proof.Machine

@[simp] theorem updateStation_inReset (a : Address) (f : StationRecord → StationRecord) (s : State) : (updateStation a f s).inReset = s.inReset := rfl
@[simp] theorem updateStation_rw (a : Address) (f : StationRecord → StationRecord) (s : State) : (updateStation a f s).rw = s.rw := rfl
@[simp] theorem updateStation_cfg (a : Address) (f : StationRecord → StationRecord) (s : State) : (updateStation a f s).cfg = s.cfg := rfl
@[simp] theorem updateStation_ps (a : Address) (f : StationRecord → StationRecord) (s : State) : (updateStation a f s).ps = s.ps := rfl
@[simp] theorem updateStation_ee (a : Address) (f : StationRecord → StationRecord) (s : State) : (updateStation a f s).ee = s.ee := rfl
@[simp] theorem updateStation_oq (a : Address) (f : StationRecord → StationRecord) (s : State) : (updateStation a f s).oq = s.oq := rfl
@[simp] theorem updateStation_rq (a : Address) (f : StationRecord → StationRecord) (s : State) : (updateStation a f s).rq = s.rq := rfl
@[simp] theorem updateStation_latch (a : Address) (f : StationRecord → StationRecord) (s : State) : (updateStation a f s).latch = s.latch := rfl
@[simp] theorem updateStation_au (a : Address) (f : StationRecord → StationRecord) (s : State) : (updateStation a f s).au = s.au := rfl
@[simp] theorem updateStation_lc (a : Address) (f : StationRecord → StationRecord) (s : State) : (updateStation a f s).lc = s.lc := rfl
@[simp] theorem updateStation_sv (a : Address) (f : StationRecord → StationRecord) (s : State) : (updateStation a f s).sv = s.sv := rfl
@[simp] theorem updateStation_pending (a : Address) (f : StationRecord → StationRecord) (s : State) : (updateStation a f s).pending = s.pending := rfl

@[simp] theorem leavePollList_inReset (a : Address) (s : State) : (leavePollList a s).inReset = s.inReset := rfl
@[simp] theorem leavePollList_rw (a : Address) (s : State) : (leavePollList a s).rw = s.rw := rfl
@[simp] theorem leavePollList_cfg (a : Address) (s : State) : (leavePollList a s).cfg = s.cfg := rfl
@[simp] theorem leavePollList_ee (a : Address) (s : State) : (leavePollList a s).ee = s.ee := rfl
@[simp] theorem leavePollList_oq (a : Address) (s : State) : (leavePollList a s).oq = s.oq := rfl
@[simp] theorem leavePollList_rq (a : Address) (s : State) : (leavePollList a s).rq = s.rq := rfl
@[simp] theorem leavePollList_latch (a : Address) (s : State) : (leavePollList a s).latch = s.latch := rfl
@[simp] theorem leavePollList_au (a : Address) (s : State) : (leavePollList a s).au = s.au := rfl
@[simp] theorem leavePollList_lc (a : Address) (s : State) : (leavePollList a s).lc = s.lc := rfl
@[simp] theorem leavePollList_sv (a : Address) (s : State) : (leavePollList a s).sv = s.sv := rfl
@[simp] theorem leavePollList_pending (a : Address) (s : State) : (leavePollList a s).pending = s.pending := rfl

@[simp] theorem joinPollList_inReset (a : Address) (s : State) : (joinPollList a s).inReset = s.inReset := rfl
@[simp] theorem joinPollList_rw (a : Address) (s : State) : (joinPollList a s).rw = s.rw := rfl
@[simp] theorem joinPollList_cfg (a : Address) (s : State) : (joinPollList a s).cfg = s.cfg := rfl
@[simp] theorem joinPollList_ee (a : Address) (s : State) : (joinPollList a s).ee = s.ee := rfl
@[simp] theorem joinPollList_oq (a : Address) (s : State) : (joinPollList a s).oq = s.oq := rfl
@[simp] theorem joinPollList_rq (a : Address) (s : State) : (joinPollList a s).rq = s.rq := rfl
@[simp] theorem joinPollList_latch (a : Address) (s : State) : (joinPollList a s).latch = s.latch := rfl
@[simp] theorem joinPollList_au (a : Address) (s : State) : (joinPollList a s).au = s.au := rfl
@[simp] theorem joinPollList_lc (a : Address) (s : State) : (joinPollList a s).lc = s.lc := rfl
@[simp] theorem joinPollList_sv (a : Address) (s : State) : (joinPollList a s).sv = s.sv := rfl
@[simp] theorem joinPollList_pending (a : Address) (s : State) : (joinPollList a s).pending = s.pending := rfl

@[simp] theorem completeWhere_inReset (p : OutboundEntry → Bool) (o : MessageOutcome) (s : State) : (completeWhere p o s).inReset = s.inReset := rfl
@[simp] theorem completeWhere_rw (p : OutboundEntry → Bool) (o : MessageOutcome) (s : State) : (completeWhere p o s).rw = s.rw := rfl
@[simp] theorem completeWhere_cfg (p : OutboundEntry → Bool) (o : MessageOutcome) (s : State) : (completeWhere p o s).cfg = s.cfg := rfl
@[simp] theorem completeWhere_st (p : OutboundEntry → Bool) (o : MessageOutcome) (s : State) : (completeWhere p o s).st = s.st := rfl
@[simp] theorem completeWhere_ps (p : OutboundEntry → Bool) (o : MessageOutcome) (s : State) : (completeWhere p o s).ps = s.ps := rfl
@[simp] theorem completeWhere_ee (p : OutboundEntry → Bool) (o : MessageOutcome) (s : State) : (completeWhere p o s).ee = s.ee := rfl
@[simp] theorem completeWhere_latch (p : OutboundEntry → Bool) (o : MessageOutcome) (s : State) : (completeWhere p o s).latch = s.latch := rfl
@[simp] theorem completeWhere_au (p : OutboundEntry → Bool) (o : MessageOutcome) (s : State) : (completeWhere p o s).au = s.au := rfl
@[simp] theorem completeWhere_lc (p : OutboundEntry → Bool) (o : MessageOutcome) (s : State) : (completeWhere p o s).lc = s.lc := rfl
@[simp] theorem completeWhere_sv (p : OutboundEntry → Bool) (o : MessageOutcome) (s : State) : (completeWhere p o s).sv = s.sv := rfl
@[simp] theorem completeWhere_pending (p : OutboundEntry → Bool) (o : MessageOutcome) (s : State) : (completeWhere p o s).pending = s.pending := rfl

@[simp] theorem updateEntry_inReset (tag : Byte) (f : OutboundEntry → OutboundEntry) (s : State) : (updateEntry tag f s).inReset = s.inReset := rfl
@[simp] theorem updateEntry_rw (tag : Byte) (f : OutboundEntry → OutboundEntry) (s : State) : (updateEntry tag f s).rw = s.rw := rfl
@[simp] theorem updateEntry_cfg (tag : Byte) (f : OutboundEntry → OutboundEntry) (s : State) : (updateEntry tag f s).cfg = s.cfg := rfl
@[simp] theorem updateEntry_st (tag : Byte) (f : OutboundEntry → OutboundEntry) (s : State) : (updateEntry tag f s).st = s.st := rfl
@[simp] theorem updateEntry_ps (tag : Byte) (f : OutboundEntry → OutboundEntry) (s : State) : (updateEntry tag f s).ps = s.ps := rfl
@[simp] theorem updateEntry_ee (tag : Byte) (f : OutboundEntry → OutboundEntry) (s : State) : (updateEntry tag f s).ee = s.ee := rfl
@[simp] theorem updateEntry_rq (tag : Byte) (f : OutboundEntry → OutboundEntry) (s : State) : (updateEntry tag f s).rq = s.rq := rfl
@[simp] theorem updateEntry_latch (tag : Byte) (f : OutboundEntry → OutboundEntry) (s : State) : (updateEntry tag f s).latch = s.latch := rfl
@[simp] theorem updateEntry_au (tag : Byte) (f : OutboundEntry → OutboundEntry) (s : State) : (updateEntry tag f s).au = s.au := rfl
@[simp] theorem updateEntry_lc (tag : Byte) (f : OutboundEntry → OutboundEntry) (s : State) : (updateEntry tag f s).lc = s.lc := rfl
@[simp] theorem updateEntry_sv (tag : Byte) (f : OutboundEntry → OutboundEntry) (s : State) : (updateEntry tag f s).sv = s.sv := rfl
@[simp] theorem updateEntry_pending (tag : Byte) (f : OutboundEntry → OutboundEntry) (s : State) : (updateEntry tag f s).pending = s.pending := rfl

@[simp] theorem controllerEvent_inReset (a : Address) (l : BitVec 2) (c : Byte) (s : State) : (controllerEvent a l c s).inReset = s.inReset := rfl
@[simp] theorem controllerEvent_rw (a : Address) (l : BitVec 2) (c : Byte) (s : State) : (controllerEvent a l c s).rw = s.rw := rfl
@[simp] theorem controllerEvent_cfg (a : Address) (l : BitVec 2) (c : Byte) (s : State) : (controllerEvent a l c s).cfg = s.cfg := rfl
@[simp] theorem controllerEvent_st (a : Address) (l : BitVec 2) (c : Byte) (s : State) : (controllerEvent a l c s).st = s.st := rfl
@[simp] theorem controllerEvent_ps (a : Address) (l : BitVec 2) (c : Byte) (s : State) : (controllerEvent a l c s).ps = s.ps := rfl
@[simp] theorem controllerEvent_ee (a : Address) (l : BitVec 2) (c : Byte) (s : State) : (controllerEvent a l c s).ee = s.ee := rfl
@[simp] theorem controllerEvent_oq (a : Address) (l : BitVec 2) (c : Byte) (s : State) : (controllerEvent a l c s).oq = s.oq := rfl
@[simp] theorem controllerEvent_rq (a : Address) (l : BitVec 2) (c : Byte) (s : State) : (controllerEvent a l c s).rq = s.rq := rfl
@[simp] theorem controllerEvent_latch (a : Address) (l : BitVec 2) (c : Byte) (s : State) : (controllerEvent a l c s).latch = s.latch := rfl
@[simp] theorem controllerEvent_lc (a : Address) (l : BitVec 2) (c : Byte) (s : State) : (controllerEvent a l c s).lc = s.lc := rfl
@[simp] theorem controllerEvent_sv (a : Address) (l : BitVec 2) (c : Byte) (s : State) : (controllerEvent a l c s).sv = s.sv := rfl
@[simp] theorem controllerEvent_pending (a : Address) (l : BitVec 2) (c : Byte) (s : State) : (controllerEvent a l c s).pending = s.pending := rfl

@[simp] theorem latchLine_inReset (s : State) : (latchLine s).inReset = s.inReset := rfl
@[simp] theorem latchLine_cfg (s : State) : (latchLine s).cfg = s.cfg := rfl
@[simp] theorem latchLine_st (s : State) : (latchLine s).st = s.st := rfl
@[simp] theorem latchLine_ps (s : State) : (latchLine s).ps = s.ps := rfl
@[simp] theorem latchLine_ee (s : State) : (latchLine s).ee = s.ee := rfl
@[simp] theorem latchLine_oq (s : State) : (latchLine s).oq = s.oq := rfl
@[simp] theorem latchLine_rq (s : State) : (latchLine s).rq = s.rq := rfl
@[simp] theorem latchLine_latch (s : State) : (latchLine s).latch = s.latch := rfl
@[simp] theorem latchLine_au (s : State) : (latchLine s).au = s.au := rfl
@[simp] theorem latchLine_lc (s : State) : (latchLine s).lc = s.lc := rfl
@[simp] theorem latchLine_sv (s : State) : (latchLine s).sv = s.sv := rfl
@[simp] theorem latchLine_pending (s : State) : (latchLine s).pending = s.pending := rfl

@[simp] theorem latchTable_inReset (s : State) : (latchTable s).inReset = s.inReset := rfl
@[simp] theorem latchTable_cfg (s : State) : (latchTable s).cfg = s.cfg := rfl
@[simp] theorem latchTable_st (s : State) : (latchTable s).st = s.st := rfl
@[simp] theorem latchTable_ps (s : State) : (latchTable s).ps = s.ps := rfl
@[simp] theorem latchTable_ee (s : State) : (latchTable s).ee = s.ee := rfl
@[simp] theorem latchTable_oq (s : State) : (latchTable s).oq = s.oq := rfl
@[simp] theorem latchTable_rq (s : State) : (latchTable s).rq = s.rq := rfl
@[simp] theorem latchTable_latch (s : State) : (latchTable s).latch = s.latch := rfl
@[simp] theorem latchTable_au (s : State) : (latchTable s).au = s.au := rfl
@[simp] theorem latchTable_lc (s : State) : (latchTable s).lc = s.lc := rfl
@[simp] theorem latchTable_sv (s : State) : (latchTable s).sv = s.sv := rfl
@[simp] theorem latchTable_pending (s : State) : (latchTable s).pending = s.pending := rfl

@[simp] theorem latchHoldSent_inReset (s : State) : (latchHoldSent s).inReset = s.inReset := rfl
@[simp] theorem latchHoldSent_cfg (s : State) : (latchHoldSent s).cfg = s.cfg := rfl
@[simp] theorem latchHoldSent_st (s : State) : (latchHoldSent s).st = s.st := rfl
@[simp] theorem latchHoldSent_ps (s : State) : (latchHoldSent s).ps = s.ps := rfl
@[simp] theorem latchHoldSent_ee (s : State) : (latchHoldSent s).ee = s.ee := rfl
@[simp] theorem latchHoldSent_oq (s : State) : (latchHoldSent s).oq = s.oq := rfl
@[simp] theorem latchHoldSent_rq (s : State) : (latchHoldSent s).rq = s.rq := rfl
@[simp] theorem latchHoldSent_latch (s : State) : (latchHoldSent s).latch = s.latch := rfl
@[simp] theorem latchHoldSent_au (s : State) : (latchHoldSent s).au = s.au := rfl
@[simp] theorem latchHoldSent_lc (s : State) : (latchHoldSent s).lc = s.lc := rfl
@[simp] theorem latchHoldSent_sv (s : State) : (latchHoldSent s).sv = s.sv := rfl
@[simp] theorem latchHoldSent_pending (s : State) : (latchHoldSent s).pending = s.pending := rfl

@[simp] theorem latchCfg_inReset (s : State) : (latchCfg s).inReset = s.inReset := rfl
@[simp] theorem latchCfg_cfg (s : State) : (latchCfg s).cfg = s.cfg := rfl
@[simp] theorem latchCfg_st (s : State) : (latchCfg s).st = s.st := rfl
@[simp] theorem latchCfg_ps (s : State) : (latchCfg s).ps = s.ps := rfl
@[simp] theorem latchCfg_ee (s : State) : (latchCfg s).ee = s.ee := rfl
@[simp] theorem latchCfg_oq (s : State) : (latchCfg s).oq = s.oq := rfl
@[simp] theorem latchCfg_rq (s : State) : (latchCfg s).rq = s.rq := rfl
@[simp] theorem latchCfg_latch (s : State) : (latchCfg s).latch = s.latch := rfl
@[simp] theorem latchCfg_au (s : State) : (latchCfg s).au = s.au := rfl
@[simp] theorem latchCfg_lc (s : State) : (latchCfg s).lc = s.lc := rfl
@[simp] theorem latchCfg_sv (s : State) : (latchCfg s).sv = s.sv := rfl
@[simp] theorem latchCfg_pending (s : State) : (latchCfg s).pending = s.pending := rfl

@[simp] theorem lineOff_inReset (c : StopCause) (s : State) : (lineOff c s).inReset = s.inReset := rfl
@[simp] theorem lineOff_cfg (c : StopCause) (s : State) : (lineOff c s).cfg = s.cfg := rfl
@[simp] theorem lineOff_st (c : StopCause) (s : State) : (lineOff c s).st = s.st := rfl
@[simp] theorem lineOff_ps (c : StopCause) (s : State) : (lineOff c s).ps = s.ps := rfl
@[simp] theorem lineOff_ee (c : StopCause) (s : State) : (lineOff c s).ee = s.ee := rfl
@[simp] theorem lineOff_oq (c : StopCause) (s : State) : (lineOff c s).oq = s.oq := rfl
@[simp] theorem lineOff_rq (c : StopCause) (s : State) : (lineOff c s).rq = s.rq := rfl
@[simp] theorem lineOff_latch (c : StopCause) (s : State) : (lineOff c s).latch = s.latch := rfl
@[simp] theorem lineOff_au (c : StopCause) (s : State) : (lineOff c s).au = s.au := rfl
@[simp] theorem lineOff_sv (c : StopCause) (s : State) : (lineOff c s).sv = s.sv := rfl
@[simp] theorem lineOff_pending (c : StopCause) (s : State) : (lineOff c s).pending = s.pending := rfl

@[simp] theorem handExchange_inReset (k : FrameKind) (a : Address) (e : Option Byte) (n : Nat) (s : State) : (handExchange k a e n s).inReset = s.inReset := rfl
@[simp] theorem handExchange_rw (k : FrameKind) (a : Address) (e : Option Byte) (n : Nat) (s : State) : (handExchange k a e n s).rw = s.rw := rfl
@[simp] theorem handExchange_cfg (k : FrameKind) (a : Address) (e : Option Byte) (n : Nat) (s : State) : (handExchange k a e n s).cfg = s.cfg := rfl
@[simp] theorem handExchange_st (k : FrameKind) (a : Address) (e : Option Byte) (n : Nat) (s : State) : (handExchange k a e n s).st = s.st := rfl
@[simp] theorem handExchange_oq (k : FrameKind) (a : Address) (e : Option Byte) (n : Nat) (s : State) : (handExchange k a e n s).oq = s.oq := rfl
@[simp] theorem handExchange_rq (k : FrameKind) (a : Address) (e : Option Byte) (n : Nat) (s : State) : (handExchange k a e n s).rq = s.rq := rfl
@[simp] theorem handExchange_latch (k : FrameKind) (a : Address) (e : Option Byte) (n : Nat) (s : State) : (handExchange k a e n s).latch = s.latch := rfl
@[simp] theorem handExchange_au (k : FrameKind) (a : Address) (e : Option Byte) (n : Nat) (s : State) : (handExchange k a e n s).au = s.au := rfl
@[simp] theorem handExchange_lc (k : FrameKind) (a : Address) (e : Option Byte) (n : Nat) (s : State) : (handExchange k a e n s).lc = s.lc := rfl
@[simp] theorem handExchange_sv (k : FrameKind) (a : Address) (e : Option Byte) (n : Nat) (s : State) : (handExchange k a e n s).sv = s.sv := rfl
@[simp] theorem handExchange_pending (k : FrameKind) (a : Address) (e : Option Byte) (n : Nat) (s : State) : (handExchange k a e n s).pending = s.pending := rfl

@[simp] theorem handAnnouncement_inReset (s : State) : (handAnnouncement s).inReset = s.inReset := rfl
@[simp] theorem handAnnouncement_rw (s : State) : (handAnnouncement s).rw = s.rw := rfl
@[simp] theorem handAnnouncement_cfg (s : State) : (handAnnouncement s).cfg = s.cfg := rfl
@[simp] theorem handAnnouncement_st (s : State) : (handAnnouncement s).st = s.st := rfl
@[simp] theorem handAnnouncement_oq (s : State) : (handAnnouncement s).oq = s.oq := rfl
@[simp] theorem handAnnouncement_rq (s : State) : (handAnnouncement s).rq = s.rq := rfl
@[simp] theorem handAnnouncement_latch (s : State) : (handAnnouncement s).latch = s.latch := rfl
@[simp] theorem handAnnouncement_au (s : State) : (handAnnouncement s).au = s.au := rfl
@[simp] theorem handAnnouncement_sv (s : State) : (handAnnouncement s).sv = s.sv := rfl
@[simp] theorem handAnnouncement_pending (s : State) : (handAnnouncement s).pending = s.pending := rfl

@[simp] theorem atStage_inReset (g : Stage) (s : State) : (atStage g s).inReset = s.inReset := rfl
@[simp] theorem atStage_rw (g : Stage) (s : State) : (atStage g s).rw = s.rw := rfl
@[simp] theorem atStage_cfg (g : Stage) (s : State) : (atStage g s).cfg = s.cfg := rfl
@[simp] theorem atStage_st (g : Stage) (s : State) : (atStage g s).st = s.st := rfl
@[simp] theorem atStage_ee (g : Stage) (s : State) : (atStage g s).ee = s.ee := rfl
@[simp] theorem atStage_oq (g : Stage) (s : State) : (atStage g s).oq = s.oq := rfl
@[simp] theorem atStage_rq (g : Stage) (s : State) : (atStage g s).rq = s.rq := rfl
@[simp] theorem atStage_latch (g : Stage) (s : State) : (atStage g s).latch = s.latch := rfl
@[simp] theorem atStage_au (g : Stage) (s : State) : (atStage g s).au = s.au := rfl
@[simp] theorem atStage_lc (g : Stage) (s : State) : (atStage g s).lc = s.lc := rfl
@[simp] theorem atStage_sv (g : Stage) (s : State) : (atStage g s).sv = s.sv := rfl
@[simp] theorem atStage_pending (g : Stage) (s : State) : (atStage g s).pending = s.pending := rfl

@[simp] theorem toStage_inReset (g : Stage) (s : State) : (toStage g s).inReset = s.inReset := rfl
@[simp] theorem toStage_rw (g : Stage) (s : State) : (toStage g s).rw = s.rw := rfl
@[simp] theorem toStage_cfg (g : Stage) (s : State) : (toStage g s).cfg = s.cfg := rfl
@[simp] theorem toStage_st (g : Stage) (s : State) : (toStage g s).st = s.st := rfl
@[simp] theorem toStage_ee (g : Stage) (s : State) : (toStage g s).ee = s.ee := rfl
@[simp] theorem toStage_oq (g : Stage) (s : State) : (toStage g s).oq = s.oq := rfl
@[simp] theorem toStage_rq (g : Stage) (s : State) : (toStage g s).rq = s.rq := rfl
@[simp] theorem toStage_latch (g : Stage) (s : State) : (toStage g s).latch = s.latch := rfl
@[simp] theorem toStage_au (g : Stage) (s : State) : (toStage g s).au = s.au := rfl
@[simp] theorem toStage_lc (g : Stage) (s : State) : (toStage g s).lc = s.lc := rfl
@[simp] theorem toStage_sv (g : Stage) (s : State) : (toStage g s).sv = s.sv := rfl
@[simp] theorem toStage_pending (g : Stage) (s : State) : (toStage g s).pending = s.pending := rfl

@[simp] theorem startPause_inReset (n : Byte) (s : State) : (startPause n s).inReset = s.inReset := rfl
@[simp] theorem startPause_rw (n : Byte) (s : State) : (startPause n s).rw = s.rw := rfl
@[simp] theorem startPause_cfg (n : Byte) (s : State) : (startPause n s).cfg = s.cfg := rfl
@[simp] theorem startPause_st (n : Byte) (s : State) : (startPause n s).st = s.st := rfl
@[simp] theorem startPause_ee (n : Byte) (s : State) : (startPause n s).ee = s.ee := rfl
@[simp] theorem startPause_oq (n : Byte) (s : State) : (startPause n s).oq = s.oq := rfl
@[simp] theorem startPause_rq (n : Byte) (s : State) : (startPause n s).rq = s.rq := rfl
@[simp] theorem startPause_latch (n : Byte) (s : State) : (startPause n s).latch = s.latch := rfl
@[simp] theorem startPause_au (n : Byte) (s : State) : (startPause n s).au = s.au := rfl
@[simp] theorem startPause_lc (n : Byte) (s : State) : (startPause n s).lc = s.lc := rfl
@[simp] theorem startPause_sv (n : Byte) (s : State) : (startPause n s).sv = s.sv := rfl
@[simp] theorem startPause_pending (n : Byte) (s : State) : (startPause n s).pending = s.pending := rfl

@[simp] theorem discardExchange_inReset (s : State) : (discardExchange s).inReset = s.inReset := rfl
@[simp] theorem discardExchange_rw (s : State) : (discardExchange s).rw = s.rw := rfl
@[simp] theorem discardExchange_cfg (s : State) : (discardExchange s).cfg = s.cfg := rfl
@[simp] theorem discardExchange_st (s : State) : (discardExchange s).st = s.st := rfl
@[simp] theorem discardExchange_ps (s : State) : (discardExchange s).ps = s.ps := rfl
@[simp] theorem discardExchange_oq (s : State) : (discardExchange s).oq = s.oq := rfl
@[simp] theorem discardExchange_rq (s : State) : (discardExchange s).rq = s.rq := rfl
@[simp] theorem discardExchange_latch (s : State) : (discardExchange s).latch = s.latch := rfl
@[simp] theorem discardExchange_au (s : State) : (discardExchange s).au = s.au := rfl
@[simp] theorem discardExchange_lc (s : State) : (discardExchange s).lc = s.lc := rfl
@[simp] theorem discardExchange_sv (s : State) : (discardExchange s).sv = s.sv := rfl
@[simp] theorem discardExchange_pending (s : State) : (discardExchange s).pending = s.pending := rfl

@[simp] theorem enterSettle_inReset (s : State) : (enterSettle s).inReset = s.inReset := rfl
@[simp] theorem enterSettle_rw (s : State) : (enterSettle s).rw = s.rw := rfl
@[simp] theorem enterSettle_cfg (s : State) : (enterSettle s).cfg = s.cfg := rfl
@[simp] theorem enterSettle_st (s : State) : (enterSettle s).st = s.st := rfl
@[simp] theorem enterSettle_ps (s : State) : (enterSettle s).ps = s.ps := rfl
@[simp] theorem enterSettle_oq (s : State) : (enterSettle s).oq = s.oq := rfl
@[simp] theorem enterSettle_rq (s : State) : (enterSettle s).rq = s.rq := rfl
@[simp] theorem enterSettle_latch (s : State) : (enterSettle s).latch = s.latch := rfl
@[simp] theorem enterSettle_au (s : State) : (enterSettle s).au = s.au := rfl
@[simp] theorem enterSettle_lc (s : State) : (enterSettle s).lc = s.lc := rfl
@[simp] theorem enterSettle_sv (s : State) : (enterSettle s).sv = s.sv := rfl
@[simp] theorem enterSettle_pending (s : State) : (enterSettle s).pending = s.pending := rfl

@[simp] theorem countStray_inReset (s : State) : (countStray s).inReset = s.inReset := rfl
@[simp] theorem countStray_rw (s : State) : (countStray s).rw = s.rw := rfl
@[simp] theorem countStray_cfg (s : State) : (countStray s).cfg = s.cfg := rfl
@[simp] theorem countStray_st (s : State) : (countStray s).st = s.st := rfl
@[simp] theorem countStray_ps (s : State) : (countStray s).ps = s.ps := rfl
@[simp] theorem countStray_oq (s : State) : (countStray s).oq = s.oq := rfl
@[simp] theorem countStray_rq (s : State) : (countStray s).rq = s.rq := rfl
@[simp] theorem countStray_latch (s : State) : (countStray s).latch = s.latch := rfl
@[simp] theorem countStray_au (s : State) : (countStray s).au = s.au := rfl
@[simp] theorem countStray_lc (s : State) : (countStray s).lc = s.lc := rfl
@[simp] theorem countStray_sv (s : State) : (countStray s).sv = s.sv := rfl
@[simp] theorem countStray_pending (s : State) : (countStray s).pending = s.pending := rfl

@[simp] theorem replyHead_inReset (c : RxChar) (s : State) : (replyHead c s).inReset = s.inReset := rfl
@[simp] theorem replyHead_rw (c : RxChar) (s : State) : (replyHead c s).rw = s.rw := rfl
@[simp] theorem replyHead_cfg (c : RxChar) (s : State) : (replyHead c s).cfg = s.cfg := rfl
@[simp] theorem replyHead_st (c : RxChar) (s : State) : (replyHead c s).st = s.st := rfl
@[simp] theorem replyHead_ps (c : RxChar) (s : State) : (replyHead c s).ps = s.ps := rfl
@[simp] theorem replyHead_oq (c : RxChar) (s : State) : (replyHead c s).oq = s.oq := rfl
@[simp] theorem replyHead_rq (c : RxChar) (s : State) : (replyHead c s).rq = s.rq := rfl
@[simp] theorem replyHead_latch (c : RxChar) (s : State) : (replyHead c s).latch = s.latch := rfl
@[simp] theorem replyHead_au (c : RxChar) (s : State) : (replyHead c s).au = s.au := rfl
@[simp] theorem replyHead_lc (c : RxChar) (s : State) : (replyHead c s).lc = s.lc := rfl
@[simp] theorem replyHead_sv (c : RxChar) (s : State) : (replyHead c s).sv = s.sv := rfl
@[simp] theorem replyHead_pending (c : RxChar) (s : State) : (replyHead c s).pending = s.pending := rfl

@[simp] theorem frameSent_inReset (s : State) : (frameSent s).inReset = s.inReset := rfl
@[simp] theorem frameSent_rw (s : State) : (frameSent s).rw = s.rw := rfl
@[simp] theorem frameSent_cfg (s : State) : (frameSent s).cfg = s.cfg := rfl
@[simp] theorem frameSent_st (s : State) : (frameSent s).st = s.st := rfl
@[simp] theorem frameSent_ps (s : State) : (frameSent s).ps = s.ps := rfl
@[simp] theorem frameSent_oq (s : State) : (frameSent s).oq = s.oq := rfl
@[simp] theorem frameSent_rq (s : State) : (frameSent s).rq = s.rq := rfl
@[simp] theorem frameSent_latch (s : State) : (frameSent s).latch = s.latch := rfl
@[simp] theorem frameSent_au (s : State) : (frameSent s).au = s.au := rfl
@[simp] theorem frameSent_lc (s : State) : (frameSent s).lc = s.lc := rfl
@[simp] theorem frameSent_sv (s : State) : (frameSent s).sv = s.sv := rfl
@[simp] theorem frameSent_pending (s : State) : (frameSent s).pending = s.pending := rfl

@[simp] theorem removeStation_inReset (a : Address) (s : State) : (removeStation a s).inReset = s.inReset := rfl
@[simp] theorem removeStation_rw (a : Address) (s : State) : (removeStation a s).rw = s.rw := rfl
@[simp] theorem removeStation_cfg (a : Address) (s : State) : (removeStation a s).cfg = s.cfg := rfl
@[simp] theorem removeStation_ee (a : Address) (s : State) : (removeStation a s).ee = s.ee := rfl
@[simp] theorem removeStation_latch (a : Address) (s : State) : (removeStation a s).latch = s.latch := rfl
@[simp] theorem removeStation_au (a : Address) (s : State) : (removeStation a s).au = s.au := rfl
@[simp] theorem removeStation_lc (a : Address) (s : State) : (removeStation a s).lc = s.lc := rfl
@[simp] theorem removeStation_sv (a : Address) (s : State) : (removeStation a s).sv = s.sv := rfl
@[simp] theorem removeStation_pending (a : Address) (s : State) : (removeStation a s).pending = s.pending := rfl

@[simp] theorem parkStation_inReset (a : Address) (s : State) : (parkStation a s).inReset = s.inReset := rfl
@[simp] theorem parkStation_rw (a : Address) (s : State) : (parkStation a s).rw = s.rw := rfl
@[simp] theorem parkStation_cfg (a : Address) (s : State) : (parkStation a s).cfg = s.cfg := rfl
@[simp] theorem parkStation_ee (a : Address) (s : State) : (parkStation a s).ee = s.ee := rfl
@[simp] theorem parkStation_oq (a : Address) (s : State) : (parkStation a s).oq = s.oq := rfl
@[simp] theorem parkStation_rq (a : Address) (s : State) : (parkStation a s).rq = s.rq := rfl
@[simp] theorem parkStation_latch (a : Address) (s : State) : (parkStation a s).latch = s.latch := rfl
@[simp] theorem parkStation_au (a : Address) (s : State) : (parkStation a s).au = s.au := rfl
@[simp] theorem parkStation_lc (a : Address) (s : State) : (parkStation a s).lc = s.lc := rfl
@[simp] theorem parkStation_sv (a : Address) (s : State) : (parkStation a s).sv = s.sv := rfl
@[simp] theorem parkStation_pending (a : Address) (s : State) : (parkStation a s).pending = s.pending := rfl

end Sys2Proof.Machine
end

