-- ==== Sys2Proof/Laws/Collections.lean ====
section
/-! SUPPORT. What the operations of the collections do: the table and its poll list, the two queues, arrivals at the
Attention Unit. -/

namespace Sys2Proof.Machine

/-! ### Saturating counters -/

/-- A saturating counter counts up to its largest value and holds it. -/
theorem satInc_toNat {n : Nat} (x : BitVec n) : (satInc x).toNat = min (2 ^ n - 1) (x.toNat + 1) := by
  have hx := x.isLt
  unfold satInc
  split
  · next h => subst h; simp only [BitVec.toNat_allOnes]; omega
  · next h =>
    have h' : x.toNat ≠ 2 ^ n - 1 := fun hh => h (BitVec.eq_of_toNat_eq (by simpa [BitVec.toNat_allOnes] using hh))
    have h1 : (1 : BitVec n).toNat = 1 % 2 ^ n := by exact BitVec.toNat_ofNat 1 n
    rw [BitVec.toNat_add, h1, Nat.add_mod_mod, Nat.mod_eq_of_lt (by omega)]
    omega

/-! ### The station table -/

/-- A record found is in the table under its address. -/
theorem find_some {t : StationTable} {a : Address} {r : StationRecord} (h : t.find a = some r) :
    r ∈ t.records ∧ r.address = a := by
  refine ⟨List.mem_of_find?_eq_some h, ?_⟩
  simpa using List.find?_some h

/-- No record is found exactly when none bears the address. -/
theorem find_none {t : StationTable} {a : Address} : t.find a = none ↔ ∀ r ∈ t.records, r.address ≠ a := by
  simp [StationTable.find]

/-- In a table in rising order, a record of the table is the one found under its address. -/
theorem find_of_mem {t : StationTable} (hs : t.records.Pairwise (fun r q => r.address < q.address))
    {r : StationRecord} (h : r ∈ t.records) : t.find r.address = some r := by
  obtain ⟨l⟩ := t
  simp only [StationTable.find] at *
  induction l with
  | nil => cases h
  | cons x xs ih =>
    rw [List.pairwise_cons] at hs
    rcases List.mem_cons.1 h with rfl | hx
    · simp
    · have hne : x.address ≠ r.address := fun e => by
        have := hs.1 r hx
        rw [e] at this
        exact absurd this (BitVec.lt_irrefl _)
      rw [List.find?_cons_of_neg (by simpa using hne)]
      exact ih hs.2 hx

/-- The records of an updated table. -/
theorem mem_update {t : StationTable} {a : Address} {f : StationRecord → StationRecord} {q : StationRecord} :
    q ∈ (t.update a f).records ↔ ∃ r ∈ t.records, q = if r.address = a then f r else r := by
  simp only [StationTable.update, List.mem_map, beq_iff_eq]
  constructor <;> rintro ⟨r, h, e⟩ <;> exact ⟨r, h, e.symm⟩

/-- Another address is found as before. -/
theorem find_update_other {t : StationTable} {a b : Address} {f : StationRecord → StationRecord}
    (hf : ∀ r, (f r).address = r.address) (h : b ≠ a) : (t.update a f).find b = t.find b := by
  obtain ⟨l⟩ := t
  simp only [StationTable.update, StationTable.find]
  induction l with
  | nil => rfl
  | cons x xs ih =>
    rw [List.map_cons, List.find?_cons, List.find?_cons, ih]
    by_cases hx : x.address = a
    · have hxb : (x.address == b) = false := by simpa [hx] using fun e => h e.symm
      have hfb : ((f x).address == b) = false := by rw [hf]; exact hxb
      simp only [hx, beq_self_eq_true, if_true, hfb]
      rw [hx] at hxb
      rw [hxb]
    · simp [hx]

/-- The address updated is found with its change. -/
theorem find_update_same {t : StationTable} {a : Address} {f : StationRecord → StationRecord}
    (hf : ∀ r, (f r).address = r.address) : (t.update a f).find a = (t.find a).map f := by
  obtain ⟨l⟩ := t
  simp only [StationTable.update, StationTable.find]
  induction l with
  | nil => rfl
  | cons x xs ih =>
    rw [List.map_cons, List.find?_cons, List.find?_cons, ih]
    by_cases hx : x.address = a
    · simp [hx, hf]
    · have hxa : (x.address == a) = false := by simpa using hx
      simp [hxa]

/-- The poll list is no part of an update of a record. -/
@[simp] theorem update_pollList (t : StationTable) (a : Address) (f : StationRecord → StationRecord) :
    (t.update a f).pollList = t.pollList := rfl

/-- The records after an insertion. -/
theorem mem_insertRecord {r q : StationRecord} {l : List StationRecord} :
    q ∈ insertRecord r l ↔ q = r ∨ q ∈ l := by
  induction l with
  | nil => simp [insertRecord]
  | cons x xs ih =>
    simp only [insertRecord]
    split
    · simp
    · simp only [List.mem_cons, ih]; tauto

/-- An insertion adds one record. -/
theorem length_insertRecord (r : StationRecord) (l : List StationRecord) :
    (insertRecord r l).length = l.length + 1 := by
  induction l with
  | nil => rfl
  | cons x xs ih =>
    simp only [insertRecord]
    split
    · simp
    · simp [ih]

/-- A record of a new address goes to its place in the rising order. -/
theorem pairwise_insertRecord {r : StationRecord} {l : List StationRecord}
    (hs : l.Pairwise (fun p q => p.address < q.address)) (hn : ∀ q ∈ l, q.address ≠ r.address) :
    (insertRecord r l).Pairwise (fun p q => p.address < q.address) := by
  induction l with
  | nil => simp [insertRecord]
  | cons x xs ih =>
    rw [List.pairwise_cons] at hs
    simp only [insertRecord]
    split
    · next hlt =>
      refine List.pairwise_cons.2 ⟨?_, List.pairwise_cons.2 hs⟩
      intro q hq
      rcases List.mem_cons.1 hq with rfl | hq
      · exact hlt
      · exact BitVec.lt_trans hlt (hs.1 q hq)
    · next hge =>
      refine List.pairwise_cons.2 ⟨?_, ih hs.2 (fun q hq => hn q (List.mem_cons_of_mem _ hq))⟩
      intro q hq
      rcases mem_insertRecord.1 hq with rfl | hq
      · have hne := hn x (List.mem_cons_self ..)
        rw [BitVec.not_lt] at hge
        have : x.address.toNat ≠ q.address.toNat := fun e => hne (BitVec.eq_of_toNat_eq e)
        rw [BitVec.lt_def]; rw [BitVec.le_def] at hge; omega
      · exact hs.1 q hq

/-- The address after another in the poll list is another address of the list. -/
theorem following_mem {a b : Address} {l : List Address} (hl : l.Nodup) (h : following a l = some b) :
    b ∈ l ∧ b ≠ a := by
  induction l with
  | nil => simp [following] at h
  | cons x xs ih =>
    rw [List.nodup_cons] at hl
    by_cases hx : x = a
    · subst hx
      simp only [following, List.dropWhile_cons, bne_self_eq_false, Bool.false_eq_true, if_false,
        List.tail_cons] at h
      have hb := List.mem_of_head? h
      exact ⟨List.mem_cons_of_mem _ hb, fun e => hl.1 (e ▸ hb)⟩
    · have : following a (x :: xs) = following a xs := by simp [following, hx]
      rw [this] at h
      exact ⟨List.mem_cons_of_mem _ (ih hl.2 h).1, (ih hl.2 h).2⟩

/-! ### The two queues -/

/-- A completion moves entries across and leaves the shared sum as it was (R93, R105). -/
theorem sharedSum_completeWhere (p : OutboundEntry → Bool) (o : MessageOutcome) (s : State) :
    sharedSum (completeWhere p o s) = sharedSum s := by
  have h : ∀ l : List OutboundEntry, (l.filter p).length + (l.filter (fun e => !p e)).length = l.length := by
    intro l
    induction l with
    | nil => rfl
    | cons x xs ih => by_cases hx : p x <;> simp [hx] <;> omega
  have := h s.oq
  simp only [sharedSum, completeWhere, List.length_append, List.length_map]
  omega

/-- A change of entries leaves the number of entries. -/
@[simp] theorem length_updateEntry (tag : Byte) (f : OutboundEntry → OutboundEntry) (s : State) :
    (updateEntry tag f s).oq.length = s.oq.length := by simp [updateEntry]

/-- The entries after a change. -/
theorem mem_updateEntry {tag : Byte} {f : OutboundEntry → OutboundEntry} {s : State} {e : OutboundEntry} :
    e ∈ (updateEntry tag f s).oq ↔ ∃ d ∈ s.oq, e = if d.tag = tag then f d else d := by
  simp only [updateEntry, List.mem_map, beq_iff_eq]
  constructor <;> rintro ⟨r, h, q⟩ <;> exact ⟨r, h, q.symm⟩

/-- The entries left by a completion. -/
theorem mem_completeWhere {p : OutboundEntry → Bool} {o : MessageOutcome} {s : State} {e : OutboundEntry} :
    e ∈ (completeWhere p o s).oq ↔ e ∈ s.oq ∧ p e = false := by
  simp [completeWhere, List.mem_filter]

/-- The records of the Return Queue after a completion. -/
theorem mem_rq_completeWhere {p : OutboundEntry → Bool} {o : MessageOutcome} {s : State} {r : ReturnRecord} :
    r ∈ (completeWhere p o s).rq ↔ r ∈ s.rq ∨ ∃ e ∈ s.oq, p e = true ∧ r = doneRecord o e := by
  simp only [completeWhere, List.mem_append, List.mem_map, List.mem_filter]
  constructor
  · rintro (h | ⟨e, ⟨h1, h2⟩, rfl⟩)
    · exact .inl h
    · exact .inr ⟨e, h1, h2, rfl⟩
  · rintro (h | ⟨e, h1, h2, rfl⟩)
    · exact .inl h
    · exact .inr ⟨e, ⟨h1, h2⟩, rfl⟩

/-- What the admission of a report answers: refused at the limit, else one record at the tail (R107). -/
theorem admitReport_eq (a : Address) (payload : List Byte) (s : State) :
    admitReport a payload s =
      if sharedSum s < 24 then some { s with rq := s.rq ++ [.report a payload s.ps.cycle] } else none := rfl

/-! ### The Attention Unit -/

/-- Two entries agree in source, level and code. -/
theorem sameAs_iff {e : AttentionEntry} {a : Address} {l : BitVec 2} {c : Byte} :
    e.sameAs a l c = true ↔ e.source = a ∧ e.level = l ∧ e.code = c := by
  simp [AttentionEntry.sameAs, and_assoc]

/-- What an arrival does when it is taken: it merges into its equal, or it is appended where there is room with the
next stamp (R118 to R120). -/
theorem arrive_cases {u v : AttentionUnit} {a : Address} {l : BitVec 2} {c : Byte} (h : u.arrive a l c = some v) :
    ((∃ e ∈ u.queue, e.sameAs a l c = true) ∧
        v = { u with
          queue := u.queue.map (fun e => if e.sameAs a l c then { e with repeats := satInc e.repeats } else e) }) ∨
      ((∀ e ∈ u.queue, e.sameAs a l c = false) ∧ attentionRoom u.queue l = true ∧
        v = { u with
          queue := u.queue ++ [{ source := a, level := l, code := c, repeats := 0, stamp := u.arrivals + 1 }]
          arrivals := u.arrivals + 1 }) := by
  unfold AttentionUnit.arrive at h
  split at h
  · next hm => exact .inl ⟨List.any_eq_true.1 hm, (Option.some.inj h).symm⟩
  · next hm =>
    split at h
    · next hr =>
      refine .inr ⟨fun e he => ?_, hr, (Option.some.inj h).symm⟩
      simpa using fun hh => hm (List.any_eq_true.2 ⟨e, he, hh⟩)
    · cases h

/-- An arrival is turned away exactly when it has neither an equal entry nor room (R119, R121). -/
theorem arrive_none_iff {u : AttentionUnit} {a : Address} {l : BitVec 2} {c : Byte} :
    u.arrive a l c = none ↔ (∀ e ∈ u.queue, e.sameAs a l c = false) ∧ attentionRoom u.queue l = false := by
  unfold AttentionUnit.arrive
  split
  · next hm =>
    simp only [reduceCtorEq, false_iff]
    obtain ⟨e, he, hs⟩ := List.any_eq_true.1 hm
    exact fun hh => by simp [hh.1 e he] at hs
  · next hm =>
    have hall : ∀ e ∈ u.queue, e.sameAs a l c = false := fun e he => by
      simpa using fun hh => hm (List.any_eq_true.2 ⟨e, he, hh⟩)
    split <;> simp_all

/-- A merge changes the repeat counts alone, so it keeps the law of the queue. -/
theorem attentionLaw_merge {u : AttentionUnit} {f : AttentionEntry → AttentionEntry}
    (hf : ∀ e, (f e).source = e.source ∧ (f e).level = e.level ∧ (f e).code = e.code) (h : AttentionLaw u) :
    AttentionLaw { u with queue := u.queue.map f } := by
  obtain ⟨h1, h2, h3, h4⟩ := h
  refine ⟨by simpa using h1, ?_, ?_, h4⟩
  · simpa [lowEntries, List.countP_map, Function.comp_def, hf] using h2
  · rw [List.pairwise_map]
    exact h3.imp (fun {e g} hne => by simpa [hf] using hne)

/-- An arrival keeps the law of the attention queue (R116). -/
theorem attentionLaw_arrive {u v : AttentionUnit} {a : Address} {l : BitVec 2} {c : Byte}
    (h : u.arrive a l c = some v) (hu : AttentionLaw u) : AttentionLaw v := by
  rcases arrive_cases h with ⟨-, rfl⟩ | ⟨hnew, hroom, rfl⟩
  · exact attentionLaw_merge (fun e => by split <;> simp) hu
  · obtain ⟨h1, h2, h3, h4⟩ := hu
    have hr : u.queue.length < 16 ∧ (l = 3 ∨ lowEntries u.queue < 12) := by
      simp only [attentionRoom, Bool.and_eq_true, Bool.or_eq_true, decide_eq_true_eq, beq_iff_eq] at hroom
      exact hroom
    refine ⟨?_, ?_, ?_, h4⟩
    · simp only [List.length_append, List.length_singleton]; omega
    · simp only [lowEntries, List.countP_append, List.countP_singleton] at *
      rcases hr.2 with h | h
      · subst h; simpa using h2
      · split <;> omega
    · rw [List.pairwise_append]
      refine ⟨h3, List.pairwise_singleton .., fun e he g hg => ?_⟩
      rw [List.mem_singleton] at hg
      subst hg
      intro heq
      have := hnew e he
      rw [← Bool.not_eq_true, sameAs_iff] at this
      exact this heq

/-- The presented entry is queued, its level is open, it is the oldest of its level, and no higher open level holds an
entry (R126). -/
theorem presented_some {u : AttentionUnit} {e : AttentionEntry} (h : presented u = some e) :
    e ∈ u.queue ∧ levelOpen u e.level = true ∧ oldestAt u e.level = some e ∧
      ∀ l, e.level < l → levelOpen u l = true → oldestAt u l = none := by
  have key : ∀ (l : BitVec 2), (if levelOpen u l then oldestAt u l else none) = some e →
      e ∈ u.queue ∧ levelOpen u e.level = true ∧ oldestAt u e.level = some e ∧ l = e.level := by
    intro l hl
    split at hl
    · next ho =>
      have hlev : e.level = l := by simpa using List.find?_some hl
      refine ⟨List.mem_of_find?_eq_some hl, hlev ▸ ho, hlev ▸ hl, hlev.symm⟩
    · cases hl
  have up : ∀ l : BitVec 2, (if levelOpen u l then oldestAt u l else none) = none → levelOpen u l = true →
      oldestAt u l = none := by
    intro l hl ho; simpa [ho] using hl
  have all : ∀ l : BitVec 2, l = 0 ∨ l = 1 ∨ l = 2 ∨ l = 3 := by decide
  simp only [presented, List.findSome?_cons, List.findSome?_nil] at h
  split at h
  · next hs =>
    obtain ⟨a, b, c, d⟩ := key 3 (by rw [hs, h])
    refine ⟨a, b, c, fun l hl _ => absurd hl ?_⟩
    rw [← d]
    rcases all l with rfl | rfl | rfl | rfl <;> decide
  · next n3 =>
    split at h
    · next hs =>
      obtain ⟨a, b, c, d⟩ := key 2 (by rw [hs, h])
      refine ⟨a, b, c, fun l hl ho => ?_⟩
      rw [← d] at hl
      rcases all l with rfl | rfl | rfl | rfl
      · exact absurd hl (by decide)
      · exact absurd hl (by decide)
      · exact absurd hl (by decide)
      · exact up 3 n3 ho
    · next n2 =>
      split at h
      · next hs =>
        obtain ⟨a, b, c, d⟩ := key 1 (by rw [hs, h])
        refine ⟨a, b, c, fun l hl ho => ?_⟩
        rw [← d] at hl
        rcases all l with rfl | rfl | rfl | rfl
        · exact absurd hl (by decide)
        · exact absurd hl (by decide)
        · exact up 2 n2 ho
        · exact up 3 n3 ho
      · next n1 =>
        split at h
        · next hs =>
          obtain ⟨a, b, c, d⟩ := key 0 (by rw [hs, h])
          refine ⟨a, b, c, fun l hl ho => ?_⟩
          rw [← d] at hl
          rcases all l with rfl | rfl | rfl | rfl
          · exact absurd hl (by decide)
          · exact up 1 n1 ho
          · exact up 2 n2 ho
          · exact up 3 n3 ho
        · cases h

/-- No entry is presented exactly when no open level holds one (R126). -/
theorem presented_none {u : AttentionUnit} :
    presented u = none ↔ ∀ e ∈ u.queue, levelOpen u e.level = false := by
  simp only [presented, List.findSome?_eq_none_iff, List.mem_cons, List.not_mem_nil, or_false]
  constructor
  · intro h e he
    have all : ∀ l : BitVec 2, l = 3 ∨ l = 2 ∨ l = 1 ∨ l = 0 := by decide
    have := h e.level (all _)
    by_contra ho
    rw [Bool.not_eq_false] at ho
    rw [ho, if_pos rfl, oldestAt, List.find?_eq_none] at this
    exact this e he (by simp)
  · intro h l _
    split
    · next ho =>
      rw [oldestAt, List.find?_eq_none]
      intro e he hl
      have hl' : e.level = l := by simpa using hl
      have := h e he
      rw [hl', ho] at this
      cases this
    · rfl

end Sys2Proof.Machine
end

