-- ==== Sys2Proof/Laws/Commands.lean ====
section
/-! SUPPORT. How a command, an access or an event is taken, and what its argument words spell: one lemma per shared
operation. -/

namespace Sys2Proof.Machine

/-! ### Taking -/

/-- A command that is taken leaves its block's answer, with CMD, RESULT and the result words set (R175). -/
theorem takeCommand_running {code : Byte} {body : State → Answer} {s : State} (h : s.inReset = false) :
    takeCommand code body s = .next (answered code (body s).result (body s).words (body s).state) := by
  simp [takeCommand, answered, h]

/-- A command is lost while a reset lasts (R168). -/
theorem takeCommand_inReset {code : Byte} {body : State → Answer} {s : State} (h : s.inReset = true) :
    takeCommand code body s = .next s := by
  simp [takeCommand, h]

/-- Everything a command can answer. -/
theorem takeCommand_next {code : Byte} {body : State → Answer} {s t : State} (h : takeCommand code body s = .next t) :
    (s.inReset = true ∧ t = s) ∨
      (s.inReset = false ∧ t = answered code (body s).result (body s).words (body s).state) := by
  cases hr : s.inReset with
  | true => rw [takeCommand_inReset hr] at h; cases h; exact .inl ⟨rfl, rfl⟩
  | false => rw [takeCommand_running hr] at h; cases h; exact .inr ⟨rfl, rfl⟩

/-- An access or event that is taken. -/
theorem whenRunning_running {f : State → State} {s : State} (h : s.inReset = false) :
    whenRunning f s = .next (f s) := by
  simp [whenRunning, h]

/-- An access or event is lost while a reset lasts (R168, R182). -/
theorem whenRunning_inReset {f : State → State} {s : State} (h : s.inReset = true) : whenRunning f s = .next s := by
  simp [whenRunning, h]

/-- Everything an access or event can answer. -/
theorem whenRunning_next {f : State → State} {s t : State} (h : whenRunning f s = .next t) :
    (s.inReset = true ∧ t = s) ∨ (s.inReset = false ∧ t = f s) := by
  cases hr : s.inReset with
  | true => rw [whenRunning_inReset hr] at h; cases h; exact .inl ⟨rfl, rfl⟩
  | false => rw [whenRunning_running hr] at h; cases h; exact .inr ⟨rfl, rfl⟩

/-! ### What an answer leaves outside the window -/

section
variable (code : Byte) (result : ResultCode) (words : FourWords) (s : State)
@[simp] theorem answered_inReset : (answered code result words s).inReset = s.inReset := rfl
@[simp] theorem answered_cfg : (answered code result words s).cfg = s.cfg := rfl
@[simp] theorem answered_st : (answered code result words s).st = s.st := rfl
@[simp] theorem answered_ps : (answered code result words s).ps = s.ps := rfl
@[simp] theorem answered_ee : (answered code result words s).ee = s.ee := rfl
@[simp] theorem answered_oq : (answered code result words s).oq = s.oq := rfl
@[simp] theorem answered_rq : (answered code result words s).rq = s.rq := rfl
@[simp] theorem answered_latch : (answered code result words s).latch = s.latch := rfl
@[simp] theorem answered_au : (answered code result words s).au = s.au := rfl
@[simp] theorem answered_lc : (answered code result words s).lc = s.lc := rfl
@[simp] theorem answered_sv : (answered code result words s).sv = s.sv := rfl
@[simp] theorem answered_pending : (answered code result words s).pending = s.pending := rfl
@[simp] theorem answered_latched : (answered code result words s).rw.latched = s.rw.latched := rfl
@[simp] theorem answered_args : (answered code result words s).rw.args = s.rw.args := rfl
@[simp] theorem answered_result : (answered code result words s).rw.result = result := rfl
end

/-! ### Argument words -/

/-- A word that spells a station address is that address, 1 to 126. -/
theorem stationAddress_eq_some {w : Word} {a : Address} :
    stationAddress w = some a ↔ w = a.setWidth 16 ∧ 1 ≤ a.toNat ∧ a.toNat ≤ 126 := by
  unfold stationAddress
  constructor
  · intro h
    split at h
    · next hw =>
      cases h
      have : w.toNat % 128 = w.toNat := Nat.mod_eq_of_lt (by omega)
      refine ⟨?_, ?_, ?_⟩
      · apply BitVec.eq_of_toNat_eq; simp [BitVec.toNat_setWidth, this]; omega
      · simpa [BitVec.toNat_setWidth, this] using hw.1
      · simpa [BitVec.toNat_setWidth, this] using hw.2
    · cases h
  · rintro ⟨rfl, h1, h2⟩
    have ht : (a.setWidth 16).toNat = a.toNat := by
      simp only [BitVec.toNat_setWidth]; exact Nat.mod_eq_of_lt (by have := a.isLt; omega)
    rw [if_pos (by omega)]
    congr 1
    apply BitVec.eq_of_toNat_eq
    simp only [BitVec.toNat_setWidth (x := BitVec.setWidth 16 a), ht]
    exact Nat.mod_eq_of_lt a.isLt

/-- A word spells no station address exactly outside 1 to 126. -/
theorem stationAddress_eq_none {w : Word} : stationAddress w = none ↔ w.toNat = 0 ∨ 126 < w.toNat := by
  unfold stationAddress
  split <;> simp <;> omega

/-- A word that spells 0 or a station address is that address, at most 126. -/
theorem lineAddress_eq_some {w : Word} {a : Address} :
    lineAddress w = some a ↔ w = a.setWidth 16 ∧ a.toNat ≤ 126 := by
  unfold lineAddress
  constructor
  · intro h
    split at h
    · next hw =>
      cases h
      have : w.toNat % 128 = w.toNat := Nat.mod_eq_of_lt (by omega)
      refine ⟨?_, ?_⟩
      · apply BitVec.eq_of_toNat_eq; simp [BitVec.toNat_setWidth, this]; omega
      · simpa [BitVec.toNat_setWidth, this] using hw
    · cases h
  · rintro ⟨rfl, h2⟩
    have ht : (a.setWidth 16).toNat = a.toNat := by
      simp only [BitVec.toNat_setWidth]; exact Nat.mod_eq_of_lt (by have := a.isLt; omega)
    rw [if_pos (by omega)]
    congr 1
    apply BitVec.eq_of_toNat_eq
    simp only [BitVec.toNat_setWidth (x := BitVec.setWidth 16 a), ht]
    exact Nat.mod_eq_of_lt a.isLt

/-- A word spells neither 0 nor a station address exactly above 126. -/
theorem lineAddress_eq_none {w : Word} : lineAddress w = none ↔ 126 < w.toNat := by
  unfold lineAddress
  split <;> simp <;> omega

/-- The mode argument of SUP-SET is out of range exactly above 2. -/
theorem supervisionModeOf_eq_none {w : Word} : supervisionModeOf w = none ↔ 2 < w.toNat := by
  unfold supervisionModeOf
  split
  · next h => subst h; simp
  · split
    · next h => subst h; simp
    · split
      · next h => subst h; simp
      · next h0 h1 h2 =>
        have e : ∀ n : Nat, n < 65536 → w.toNat = n → w = BitVec.ofNat 16 n := fun n hn h =>
          BitVec.eq_of_toNat_eq (by rw [h]; simp; omega)
        simp only [true_iff]
        by_contra hc
        have : w.toNat = 0 ∨ w.toNat = 1 ∨ w.toNat = 2 := by omega
        rcases this with h | h | h
        · exact h0 (e 0 (by omega) h)
        · exact h1 (e 1 (by omega) h)
        · exact h2 (e 2 (by omega) h)

end Sys2Proof.Machine
end

