-- ==== Sys2Proof/Laws/Scheduler.lean ====
section
/-! SUPPORT. What the scheduler can change between two exchanges: one equation per operation, and one lemma per field
read off it. -/

namespace Sys2Proof.Machine

/-- An entry without the fields that the handing of its WRITE sets. -/
def OutboundEntry.unsent (e : OutboundEntry) : OutboundEntry := { e with status := .queued, attempts := 0 }

/-- A record without its skip countdown. -/
def StationRecord.uncounted (r : StationRecord) : StationRecord := { r with countdown := 0 }

/-- The state without what the scheduler can change: its own state, the exchange record with SETTLE's fields, the
announcement in flight, the status of entries, and skip countdowns. -/
def apartFromScheduler (s : State) : State :=
  { s with
    ps := Scheduler.reset
    ee := { s.ee with state := .idle, exchange := none, turnCount := .stopped, settleTimer := .stopped }
    lc := { s.lc with inFlight := none }
    oq := s.oq.map OutboundEntry.unsent
    st := { s.st with records := s.st.records.map StationRecord.uncounted } }

/-- A change of entries in status and attempts alone is the scheduler's. -/
theorem apart_updateEntry {tag : Byte} {f : OutboundEntry → OutboundEntry} (hf : ∀ e, (f e).unsent = e.unsent)
    (s : State) : apartFromScheduler (updateEntry tag f s) = apartFromScheduler s := by
  simp only [apartFromScheduler, updateEntry, List.map_map]
  congr 1
  refine List.map_congr_left fun e _ => ?_
  simp only [Function.comp_apply]
  split <;> simp [hf]

/-- A change of a countdown is the scheduler's. -/
theorem apart_updateStation {a : Address} {f : StationRecord → StationRecord}
    (hf : ∀ r, (f r).uncounted = r.uncounted) (s : State) :
    apartFromScheduler (updateStation a f s) = apartFromScheduler s := by
  have h : ∀ l : List StationRecord,
      (l.map (fun r => if r.address == a then f r else r)).map StationRecord.uncounted =
        l.map StationRecord.uncounted := by
    intro l
    rw [List.map_map]
    refine List.map_congr_left fun r _ => ?_
    simp only [Function.comp_apply]
    split <;> simp [hf]
  simp only [apartFromScheduler, updateStation, StationTable.update, h]

@[simp] theorem apart_sendEntry (tag : Byte) (s : State) :
    apartFromScheduler (sendEntry tag s) = apartFromScheduler s := by
  refine apart_updateEntry ?_ s
  exact fun _ => rfl

@[simp] theorem apart_handExchange (k : FrameKind) (a : Address) (e : Option Byte) (n : Nat) (s : State) :
    apartFromScheduler (handExchange k a e n s) = apartFromScheduler s := rfl

@[simp] theorem apart_handAnnouncement (s : State) :
    apartFromScheduler (handAnnouncement s) = apartFromScheduler s := rfl

@[simp] theorem apart_atStage (g : Stage) (s : State) : apartFromScheduler (atStage g s) = apartFromScheduler s := rfl

@[simp] theorem apart_startPause (n : Byte) (s : State) :
    apartFromScheduler (startPause n s) = apartFromScheduler s := rfl

@[simp] theorem apart_withScheduler (s : State) (q : Scheduler) :
    apartFromScheduler { s with ps := q } = apartFromScheduler s := rfl

@[simp] theorem apart_handPoll (t : Turn) (s : State) :
    apartFromScheduler (handPoll t s) = apartFromScheduler s := rfl

@[simp] theorem apart_handStage (t : Turn) (s : State) :
    apartFromScheduler (handStage t s) = apartFromScheduler s := by
  unfold handStage
  split
  · rfl
  · split <;> simp
  · rfl

@[simp] theorem apart_decideTurn (t : Turn) (s : State) :
    apartFromScheduler (decideTurn t s) = apartFromScheduler s := by
  unfold decideTurn; split <;> simp

@[simp] theorem apart_beginTurn (r : StationRecord) (k : TurnKind) (s : State) :
    apartFromScheduler (beginTurn r k s) = apartFromScheduler s := by
  simp [beginTurn]

/-- The walk changes only what is the scheduler's, if the tail does. -/
theorem apart_walkFrom {tail : State → State} (ht : ∀ s, apartFromScheduler (tail s) = apartFromScheduler s)
    (l : List Address) (s : State) : apartFromScheduler (walkFrom tail l s) = apartFromScheduler s := by
  induction l generalizing s with
  | nil => simp [walkFrom, ht]
  | cons a rest ih =>
    simp only [walkFrom]
    repeat' split
    all_goals simp [ih]
    all_goals exact (apart_updateStation (by exact fun _ => rfl) _).trans rfl

/-- The opening changes only what is the scheduler's, if the tail does. -/
theorem apart_openingMessage {tail : State → State} (ht : ∀ s, apartFromScheduler (tail s) = apartFromScheduler s)
    (s : State) : apartFromScheduler (openingMessage tail s) = apartFromScheduler s := by
  unfold openingMessage
  repeat' split
  all_goals simp [apart_walkFrom ht]

@[simp] theorem apart_passTailUnhanded (s : State) :
    apartFromScheduler (passTailUnhanded s) = apartFromScheduler s := by
  unfold passTailUnhanded; split <;> simp

/-- A cycle's start changes only what is the scheduler's. -/
@[simp] theorem apart_startCycle (s : State) : apartFromScheduler (startCycle s) = apartFromScheduler s := by
  unfold startCycle
  simp only
  repeat' split
  all_goals simp [apart_openingMessage apart_passTailUnhanded]

/-- The tail of a walk changes only what is the scheduler's. -/
@[simp] theorem apart_passTail (s : State) : apartFromScheduler (passTail s) = apartFromScheduler s := by
  unfold passTail
  repeat' split
  all_goals simp

/-- Carrying on after an exchange changes only what is the scheduler's. -/
@[simp] theorem apart_resume (x : Exchange) (s : State) :
    apartFromScheduler (resume x s) = apartFromScheduler s := by
  unfold resume
  repeat' split
  all_goals simp [apart_walkFrom apart_passTail, apart_openingMessage apart_passTail]

/-! ### What two states that differ by the scheduler's work agree in -/

section
variable {s t : State} (h : apartFromScheduler t = apartFromScheduler s)
include h

theorem apart_inReset : t.inReset = s.inReset := by have k := congrArg State.inReset h; exact k
theorem apart_rw : t.rw = s.rw := by have k := congrArg State.rw h; exact k
theorem apart_cfg : t.cfg = s.cfg := by have k := congrArg State.cfg h; exact k
theorem apart_rq : t.rq = s.rq := by have k := congrArg State.rq h; exact k
theorem apart_latch : t.latch = s.latch := by have k := congrArg State.latch h; exact k
theorem apart_au : t.au = s.au := by have k := congrArg State.au h; exact k
theorem apart_sv : t.sv = s.sv := by have k := congrArg State.sv h; exact k
theorem apart_pending : t.pending = s.pending := by have k := congrArg State.pending h; exact k
theorem apart_pollList : t.st.pollList = s.st.pollList := by have k := congrArg (fun u => u.st.pollList) h; exact k
theorem apart_mode : t.lc.mode = s.lc.mode := by have k := congrArg (fun u => u.lc.mode) h; exact k
theorem apart_stopCause : t.lc.stopCause = s.lc.stopCause := by have k := congrArg (fun u => u.lc.stopCause) h; exact k
theorem apart_holdInForce : t.lc.holdInForce = s.lc.holdInForce := by have k := congrArg (fun u => u.lc.holdInForce) h; exact k
theorem apart_causeHost : t.lc.causeHost = s.lc.causeHost := by have k := congrArg (fun u => u.lc.causeHost) h; exact k
theorem apart_causeSupervision : t.lc.causeSupervision = s.lc.causeSupervision := by have k := congrArg (fun u => u.lc.causeSupervision) h; exact k
theorem apart_announcement : t.lc.announcement = s.lc.announcement := by have k := congrArg (fun u => u.lc.announcement) h; exact k
theorem apart_receiver : t.ee.receiver = s.ee.receiver := by have k := congrArg (fun u => u.ee.receiver) h; exact k
theorem apart_driverEnable : t.ee.driverEnable = s.ee.driverEnable := by have k := congrArg (fun u => u.ee.driverEnable) h; exact k
theorem apart_faults : t.ee.faults = s.ee.faults := by have k := congrArg (fun u => u.ee.faults) h; exact k
theorem apart_strays : t.ee.strays = s.ee.strays := by have k := congrArg (fun u => u.ee.strays) h; exact k
theorem apart_noise : t.ee.noise = s.ee.noise := by have k := congrArg (fun u => u.ee.noise) h; exact k
theorem apart_faultStreak : t.ee.faultStreak = s.ee.faultStreak := by have k := congrArg (fun u => u.ee.faultStreak) h; exact k
theorem apart_lastFailure : t.ee.lastFailure = s.ee.lastFailure := by have k := congrArg (fun u => u.ee.lastFailure) h; exact k

/-- The entries agree but for status and attempts. -/
theorem apart_entries : t.oq.map OutboundEntry.unsent = s.oq.map OutboundEntry.unsent := by have k := congrArg State.oq h; exact k

/-- The records agree but for their countdowns. -/
theorem apart_records : t.st.records.map StationRecord.uncounted = s.st.records.map StationRecord.uncounted := by have k := congrArg (fun u => u.st.records) h; exact k

theorem apart_oq_length : t.oq.length = s.oq.length := by
  simpa using congrArg List.length (apart_entries h)

theorem apart_sharedSum : sharedSum t = sharedSum s := by
  simp [sharedSum, apart_rq h, apart_oq_length h]

theorem apart_records_length : t.st.records.length = s.st.records.length := by
  simpa using congrArg List.length (apart_records h)

/-- A record found has its counterpart, equal but for the countdown. -/
theorem apart_find (a : Address) : (t.st.find a).map StationRecord.uncounted =
    (s.st.find a).map StationRecord.uncounted := by
  have key : ∀ l : List StationRecord, (l.find? (fun r => r.address == a)).map StationRecord.uncounted =
      (l.map StationRecord.uncounted).find? (fun r => r.address == a) := by
    intro l
    induction l with
    | nil => rfl
    | cons x xs ih =>
      rw [List.find?_cons, List.map_cons, List.find?_cons, ← ih]
      have : (x.uncounted.address == a) = (x.address == a) := rfl
      rw [this]
      cases x.address == a <;> rfl
  rw [StationTable.find, StationTable.find, key, key, apart_records h]

/-- An entry of the one queue has its counterpart in the other, equal but for status and attempts. -/
theorem apart_entry {e : OutboundEntry} (he : e ∈ s.oq) : ∃ f ∈ t.oq, f.unsent = e.unsent := by
  have : e.unsent ∈ t.oq.map OutboundEntry.unsent := by
    rw [apart_entries h]; exact List.mem_map_of_mem he
  simpa using this

/-- A record of the one table has its counterpart in the other, equal but for the countdown. -/
theorem apart_record {r : StationRecord} (hr : r ∈ s.st.records) :
    ∃ q ∈ t.st.records, q.uncounted = r.uncounted := by
  have : r.uncounted ∈ t.st.records.map StationRecord.uncounted := by
    rw [apart_records h]; exact List.mem_map_of_mem hr
  simpa using this

end

end Sys2Proof.Machine
end

