-- ==== Sys2Proof/Laws/Handing.lean ====
section
/-! SUPPORT. What the scheduler hands between two exchanges: the engine, the entry carried and the announcement in flight. -/

namespace Sys2Proof.Machine

/-! ### What the scheduler hands -/

/-- The engine as the outcome of an exchange leaves it (R79). -/
def Engine.AtRest (e : Engine) : Prop := e.exchange = none ∧ e.state = .idle ∧ e.settleTimer = .stopped

/-- From entries, an engine and a Line Control the scheduler has come to rest at `t`: no exchange, or one that begins in
SETTLE; the entry it carries is IN-FLIGHT, and under hold it carries none; nothing but a pending announcement has become
the announcement in flight. -/
structure Handed (t : State) (entries : List OutboundEntry) (e : Engine) (l : LineControl) : Prop where
  entries : QueueHolds entries t
  engine : t.ee = { e with
    state := if t.ee.exchange = none then .idle else .settle
    exchange := t.ee.exchange
    turnCount := t.ee.turnCount
    settleTimer := if t.ee.exchange = none then .stopped else .running }
  begun : ∀ y, t.ee.exchange = some y → y.begun = 0 ∧ t.ee.turnCount = .running
  hold : l.holdInForce = true → t.ee.exchange.bind (·.entry) = none
  flight : l.announcement = .none → t.lc.inFlight = l.inFlight

/-- Nothing is handed. -/
theorem handed_nothing {s : State} (h : s.ee.AtRest) (q : Scheduler) : Handed { s with ps := q } s.oq s.ee s.lc := by
  refine ⟨?_, ?_, ?_, ?_, fun _ => rfl⟩
  · simp [QueueHolds, h.1]
  · obtain ⟨h1, h2, h3⟩ := h
    cases s with | mk _ _ _ _ _ ee => cases ee; simp_all
  · intro y hy; simp [h.1] at hy
  · intro _; simp [h.1]

/-- An exchange without an entry is handed. -/
theorem handed_plain {k : FrameKind} {a : Address} {n : Nat} (s : State) : Handed (handExchange k a none n s) s.oq s.ee s.lc := by
  refine ⟨?_, ?_, ?_, ?_, fun _ => rfl⟩
  · simp [QueueHolds, handExchange]
  · simp [handExchange]
  · rintro y hy; cases hy; exact ⟨rfl, rfl⟩
  · intro _; rfl

/-- A pending announcement is handed. -/
theorem handed_announcement {s : State} (ha : s.lc.announcement ≠ .none) : Handed (handAnnouncement s) s.oq s.ee s.lc := by
  obtain ⟨h1, h2, h3, h4, _⟩ :=
    handed_plain (k := announcementKind s.lc.announcement) (a := 0) (n := fullAllowance s)
      { s with lc := { s.lc with inFlight := some false } }
  exact ⟨h1, h2, h3, h4, fun k => absurd k ha⟩

/-- A WRITE is handed with its entry, without hold. -/
theorem handed_write {a : Address} {tag : Byte} {n : Nat} {s : State} (hh : s.lc.holdInForce = false) :
    Handed (handExchange .write a (some tag) n (sendEntry tag s)) s.oq s.ee s.lc := by
  refine ⟨?_, ?_, ?_, ?_, fun _ => rfl⟩
  · simp only [QueueHolds, handExchange, sendEntry, updateEntry]
    refine List.map_congr_left fun e _ => ?_
    by_cases k : e.tag = tag
    · simp [k]
    · simp [k, Ne.symm k]
  · simp [handExchange, sendEntry, updateEntry]
  · rintro y hy; cases hy; exact ⟨rfl, rfl⟩
  · intro k; simp [hh] at k

/-- The exchange of the stage that stands next. -/
theorem handed_stage (t : Turn) (s : State) : Handed (handStage t s) s.oq s.ee s.lc := by
  unfold handStage
  split
  · exact handed_plain (atStage .sync s)
  · split
    · next e he =>
      have hh : s.lc.holdInForce = false := by
        cases k : s.lc.holdInForce with
        | false => rfl
        | true => simp [writeStageEntry, k] at he
      exact handed_write (s := atStage .write s) hh
    · exact handed_plain (atStage .poll s)
  · exact handed_plain (atStage .poll s)

/-- The boundary before an exchange of a turn. -/
theorem handed_turn (t : Turn) (s : State) : Handed (decideTurn t s) s.oq s.ee s.lc := by
  unfold decideTurn
  split
  · next h => exact handed_announcement h
  · exact handed_stage t s

/-- A station found due begins its turn. -/
theorem handed_beginTurn (r : StationRecord) (k : TurnKind) (s : State) :
    Handed (beginTurn r k s) s.oq s.ee s.lc :=
  handed_turn _ { s with ps := { s.ps with turn := some (newTurn r k) } }

/-- The walk, if the tail comes to rest. -/
theorem handed_walkFrom {tail : State → State} (ht : ∀ s, s.ee.AtRest → Handed (tail s) s.oq s.ee s.lc) (l : List Address)
    {s : State} (h : s.ee.AtRest) : Handed (walkFrom tail l s) s.oq s.ee s.lc := by
  induction l generalizing s with
  | nil => exact ht { s with ps := { s.ps with cursor := none } } h
  | cons a rest ih =>
    simp only [walkFrom]
    repeat' split
    all_goals first
      | exact handed_beginTurn _ _ _
      | exact ih (by exact h)

/-- The second act of the opening, if the tail comes to rest. -/
theorem handed_openingMessage {tail : State → State} (ht : ∀ s, s.ee.AtRest → Handed (tail s) s.oq s.ee s.lc) {s : State}
    (h : s.ee.AtRest) : Handed (openingMessage tail s) s.oq s.ee s.lc := by
  unfold openingMessage
  split
  · next e he =>
    split
    · next k => exact handed_announcement k
    · have hh : s.lc.holdInForce = false := by
        cases k : s.lc.holdInForce with
        | false => rfl
        | true => simp [k] at he
      exact handed_write hh
  · exact handed_walkFrom ht _ (by exact h)

/-- The tail of a cycle that has handed nothing. -/
theorem handed_passTailUnhanded {s : State} (h : s.ee.AtRest) : Handed (passTailUnhanded s) s.oq s.ee s.lc := by
  unfold passTailUnhanded
  split
  · next k => exact handed_announcement k
  · exact handed_nothing h _

/-- The start of a cycle. -/
theorem handed_startCycle {s : State} (h : s.ee.AtRest) : Handed (startCycle s) s.oq s.ee s.lc := by
  unfold startCycle
  simp only
  split
  · next k => exact handed_announcement k
  · split
    · exact handed_plain _
    · exact handed_openingMessage (fun _ => handed_passTailUnhanded) (by exact h)

/-- The tail of a walk. -/
theorem handed_passTail {s : State} (h : s.ee.AtRest) : Handed (passTail s) s.oq s.ee s.lc := by
  unfold passTail
  repeat' split
  · next k => exact handed_announcement k
  · exact handed_startCycle h
  · exact handed_nothing h _
  · exact handed_nothing h _

/-- Carrying on after an exchange. -/
theorem handed_resume (x : Exchange) {s : State} (h : s.ee.AtRest) : Handed (resume x s) s.oq s.ee s.lc := by
  unfold resume
  repeat' split
  · exact handed_walkFrom (fun _ => handed_passTail) _ (by exact h)
  · exact handed_openingMessage (fun _ => handed_passTail) h
  · exact handed_turn _ _
  · exact handed_walkFrom (fun _ => handed_passTail) _ (by exact h)
  all_goals exact handed_nothing h s.ps

end Sys2Proof.Machine
end

