-- ==== Sys2Proof/Laws/Turns.lean ====
section
/-! SUPPORT. What leaving the table, parking and the end of a turn do to the station they concern, and that they leave
every other record. -/

namespace Sys2Proof.Machine

/-- A station is in turn exactly when the turn record bears its address (R23). -/
theorem inTurn_iff {s : State} {a : Address} : inTurn s a = true ↔ ∃ t, s.ps.turn = some t ∧ t.address = a := by
  unfold inTurn
  cases h : s.ps.turn with
  | none => simp
  | some t => simp

/-- No station is in turn exactly without a turn record. -/
theorem inTurn_none {s : State} (h : s.ps.turn = none) (a : Address) : inTurn s a = false := by
  simp [inTurn, h]

/-! ### Records by address -/

/-- An update of one record keeps the others. -/
theorem othersKept_updateStation (a : Address) (f : StationRecord → StationRecord) (hf : ∀ r, (f r).address = r.address)
    (s : State) : OtherRecordsKept a s (updateStation a f s) :=
  fun _ hb => find_update_other hf hb

/-- A table without one address finds every other record. -/
theorem find_filter_other {records : List StationRecord} {pollList : List Address} {a b : Address} (hb : b ≠ a) :
    StationTable.find { records := records.filter (fun r => r.address != a), pollList } b =
      StationTable.find { records, pollList } b := by
  simp only [StationTable.find]
  induction records with
  | nil => rfl
  | cons r l ih =>
    by_cases h : r.address = a
    · subst h
      simp only [bne_self_eq_false, Bool.false_eq_true, not_false_iff, List.filter_cons_of_neg, ih]
      rw [List.find?_cons_of_neg]
      simpa using fun h => hb h.symm
    · rw [List.filter_cons_of_pos (by simpa using h)]
      by_cases hrb : r.address = b
      · rw [List.find?_cons_of_pos (by simpa using hrb), List.find?_cons_of_pos (by simpa using hrb)]
      · rw [List.find?_cons_of_neg (by simpa using hrb), List.find?_cons_of_neg (by simpa using hrb), ih]

/-- A table without one address does not find it. -/
theorem find_filter_same {records : List StationRecord} {pollList : List Address} {a : Address} :
    StationTable.find { records := records.filter (fun r => r.address != a), pollList } a = none := by
  rw [find_none]
  intro r hr
  simpa using (List.mem_filter.1 hr).2

/-- A removal takes the record of its address and keeps the others (R31). -/
theorem find_removeStation (a : Address) (s : State) :
    (removeStation a s).st.find a = none ∧ OtherRecordsKept a s (removeStation a s) :=
  ⟨find_filter_same, fun _ hb => find_filter_other hb⟩

/-- A park sets the state, the miss count and the leave pending of its record and keeps the others (R33). -/
theorem find_parkStation {a : Address} {s : State} {r : StationRecord} (h : s.st.find a = some r) :
    (parkStation a s).st.find a = some { r with state := .parked, missCount := 0, leave := .absent } ∧
      OtherRecordsKept a s (parkStation a s) := by
  have hl : (leavePollList a s).st.find a = some r := h
  refine ⟨?_, fun b hb => ?_⟩
  · have k := find_update_same (t := (leavePollList a s).st) (a := a)
      (f := fun r => { r with state := .parked, missCount := 0, leave := .absent }) (fun _ => rfl)
    rw [hl] at k
    exact k
  · exact find_update_other (fun _ => rfl) hb

/-! ### The end of a turn -/

/-- Without a leave pending a turn's end completes nothing (R29). -/
theorem completeLeave_absent {a : Address} {s : State} {r : StationRecord} (h : s.st.find a = some r)
    (hl : r.leave = .absent) : completeLeave a s = s := by
  simp [completeLeave, h, hl]

/-- With a REMOVE pending the station is removed and TABLE is latched (R29). -/
theorem completeLeave_remove {a : Address} {s : State} {r : StationRecord} (h : s.st.find a = some r)
    (hl : r.leave = .remove) : completeLeave a s = latchTable (removeStation a s) := by
  simp [completeLeave, h, hl]

/-- With a PARK pending the station is parked and TABLE is latched (R29). -/
theorem completeLeave_park {a : Address} {s : State} {r : StationRecord} (h : s.st.find a = some r)
    (hl : r.leave = .park) : completeLeave a s = latchTable (parkStation a s) := by
  simp [completeLeave, h, hl]

/-- An unfinished turn changes nothing of its station (R28). -/
theorem applyTurnResult_unfinished (a : Address) (s : State) : applyTurnResult .unfinished a s = s := by
  unfold applyTurnResult
  cases s.st.find a <;> rfl

/-- A success makes the station ONLINE with a miss count of 0, and keeps the others (R24). -/
theorem find_applyTurnResult_success {a : Address} {s : State} {r : StationRecord} (h : s.st.find a = some r)
    (hp : r.state ≠ .parked) :
    (applyTurnResult .success a s).st.find a = some { r with missCount := 0, state := .online } ∧
      OtherRecordsKept a s (applyTurnResult .success a s) := by
  obtain rfl : r.address = a := (find_some h).2
  have hs : ∀ u : State, (if r.state = .lost then stationBackEvent r.address u else u).st = u.st := by
    intro u; split <;> rfl
  simp only [applyTurnResult, h, turnSuccess, OtherRecordsKept, hs]
  refine ⟨?_, fun b hb => find_update_other (fun _ => rfl) hb⟩
  have k := find_update_same (t := s.st) (a := r.address)
    (f := fun r => { r with missCount := 0, state := if r.state = .parked then .parked else .online }) (fun _ => rfl)
  simp only [h, Option.map_some, if_neg hp] at k
  exact k

/-- A miss below the limit makes the station SUSPECT (R25). -/
theorem applyTurnResult_suspect {a : Address} {s : State} {r : StationRecord} (h : s.st.find a = some r)
    (hl : r.state ≠ .lost) (hp : r.state ≠ .parked) (hm : r.missCount + 1 ≠ s.cfg.missLimit) :
    applyTurnResult .miss a s =
      updateStation a (fun r => { r with state := .suspect, missCount := r.missCount + 1 }) s := by
  obtain rfl : r.address = a := (find_some h).2
  simp only [applyTurnResult, h, turnMiss]
  rw [if_neg (by simp [hl, hp]), if_neg hm]

/-- A miss that reaches the limit loses the station (R25, R26). -/
theorem applyTurnResult_lost {a : Address} {s : State} {r : StationRecord} (h : s.st.find a = some r)
    (hl : r.state ≠ .lost) (hp : r.state ≠ .parked) (hm : r.missCount + 1 = s.cfg.missLimit) :
    applyTurnResult .miss a s = loseStation a s := by
  obtain rfl : r.address = a := (find_some h).2
  simp only [applyTurnResult, h, turnMiss]
  rw [if_neg (by simp [hl, hp]), if_pos hm]

/-- A miss of a LOST station changes nothing (R27). -/
theorem applyTurnResult_miss_lost {a : Address} {s : State} {r : StationRecord} (h : s.st.find a = some r)
    (hl : r.state = .lost) : applyTurnResult .miss a s = s := by
  simp [applyTurnResult, h, turnMiss, hl]

end Sys2Proof.Machine
end

