-- ==== Sys2Proof/Laws/Ending.lean ====
section
/-! SUPPORT. What the end of a turn, of an exchange and of a failed attempt does, each as a whole: the shapes of
Sys2Proof/Safety.lean, proved of the operations. -/

namespace Sys2Proof.Machine

/-! ### The end of a turn -/

/-- The result of a turn, whole: the record judged, the events, the entries of a station that is lost. -/
theorem applyTurnResult_does {result : TurnResult} {a : Address} {w : State} {r : StationRecord}
    (hf : w.st.find a = some r) (hp : r.state ≠ .parked) :
    let j := applyTurnResult result a w
    let lost := losesStation w.cfg.missLimit result r
    let stranded : OutboundEntry → Bool := fun e => lost && e.destination == a && e.status == .queued
    j.st.find a = some (judgedRecord w.cfg.missLimit result r) ∧ OtherRecordsKept a w j ∧
      j.st.pollList = w.st.pollList ∧ j.rw = w.rw ∧
      j.oq = w.oq.filter (fun e => !stranded e) ∧
      j.rq = w.rq ++ (w.oq.filter stranded).map (fun e => .done e.destination e.tag .stranded e.attempts) ∧
      (lost = true → j.au = (controllerEvent a 3 0x01 w).au) ∧
      (result = .success ∧ r.state = .lost → j.au = (controllerEvent a 1 0x02 w).au) ∧
      (lost = false → ¬(result = .success ∧ r.state = .lost) → j.au = w.au) := by
  obtain rfl : r.address = a := (find_some hf).2
  dsimp only
  cases result with
  | success =>
    have hl : losesStation w.cfg.missLimit .success r = false := rfl
    obtain ⟨k1, k2⟩ := find_applyTurnResult_success hf hp
    rw [hl]
    refine ⟨k1, k2, ?_⟩
    by_cases k : r.state = .lost <;>
      simp [applyTurnResult, hf, turnSuccess, k, stationBackEvent, controllerEvent, updateStation, StationTable.update]
  | unfinished =>
    have hl : losesStation w.cfg.missLimit .unfinished r = false := rfl
    rw [applyTurnResult_unfinished, hl]
    simp [hf, judgedRecord, OtherRecordsKept]
  | miss =>
    by_cases hs : r.state = .lost
    · have hl : losesStation w.cfg.missLimit .miss r = false := by simp [losesStation, hs]
      rw [applyTurnResult_miss_lost hf hs, hl]
      simp [hf, judgedRecord, OtherRecordsKept, hs]
    · by_cases hm : r.missCount + 1 = w.cfg.missLimit
      · have hl : losesStation w.cfg.missLimit .miss r = true := by
          rw [losesStation, hm]; simp [hs]
        have k := find_update_same (t := w.st) (a := r.address)
          (f := fun r => { r with state := .lost, syncPending := true, missCount := w.cfg.missLimit }) (fun _ => rfl)
        rw [hf] at k
        rw [applyTurnResult_lost hf hs hp hm, hl, judgedRecord, if_neg hs, if_pos hm]
        refine ⟨k, fun b hb => find_update_other (fun _ => rfl) hb, rfl, rfl, ?_, ?_, fun _ => rfl, ?_, ?_⟩
        · simp [loseStation, completeWhere, stationLostEvent, controllerEvent, updateStation]
        · simp [loseStation, completeWhere, stationLostEvent, controllerEvent, updateStation, doneRecord]
        · rintro ⟨k, _⟩; cases k
        · intro k; cases k
      · have hl : losesStation w.cfg.missLimit .miss r = false := by
          rw [losesStation, beq_eq_false_iff_ne.2 hm, Bool.and_false]
        have k := find_update_same (t := w.st) (a := r.address)
          (f := fun r => { r with state := .suspect, missCount := r.missCount + 1 }) (fun _ => rfl)
        rw [hf] at k
        rw [applyTurnResult_suspect hf hs hp hm, hl, judgedRecord, if_neg hs, if_neg hm]
        refine ⟨k, fun b hb => find_update_other (fun _ => rfl) hb, rfl, rfl, ?_⟩
        simp [updateStation]

/-- A turn's result keeps the leave pending and the skip countdown. -/
theorem judgedRecord_keeps (limit : BitVec 4) (result : TurnResult) (r : StationRecord) :
    (judgedRecord limit result r).leave = r.leave ∧ (judgedRecord limit result r).countdown = r.countdown := by
  unfold judgedRecord
  repeat' split
  all_goals exact ⟨rfl, rfl⟩

/-- Records equal but for their countdowns, with one countdown for both. -/
theorem recounted {o : Option StationRecord} {f : StationRecord} {n : BitVec 4}
    (h : o.map StationRecord.uncounted = (some f).map StationRecord.uncounted) (hn : f.countdown = n) :
    o.map (fun q => { q with countdown := n }) = some f := by
  subst hn
  cases o with
  | none => simp at h
  | some q =>
    have k : q.uncounted = f.uncounted := by simpa using h
    have e : { q with countdown := f.countdown } = { q.uncounted with countdown := f.countdown } := rfl
    simp only [Option.map_some, Option.some.injEq]
    rw [e, k]
    rfl

/-- The end of a turn, whole, as seen in a state `t` that differs from it by the scheduler's work. -/
theorem turnEnds_endTurn {result : TurnResult} {turn : Turn} {w t : State} {r : StationRecord}
    (hturn : w.ps.turn = some turn) (hf : w.st.find turn.address = some r) (hp : r.state ≠ .parked)
    (hq : QueueHolds (endTurn result w).oq t) (hrq : t.rq = (endTurn result w).rq) (hau : t.au = (endTurn result w).au)
    (htable : t.rw.latched.table = (endTurn result w).rw.latched.table)
    (hpoll : t.st.pollList = (endTurn result w).st.pollList)
    (hfind : (t.st.find turn.address).map StationRecord.uncounted =
      ((endTurn result w).st.find turn.address).map StationRecord.uncounted) :
    TurnEnds result turn.address r w t := by
  obtain ⟨jf, _, jpoll, jrw, joq, jrq, jau⟩ := applyTurnResult_does (result := result) hf hp
  obtain ⟨jl, jc⟩ := judgedRecord_keeps w.cfg.missLimit result r
  have hv : endTurn result w =
      { completeLeave turn.address (applyTurnResult result turn.address w) with
        ps := { (completeLeave turn.address (applyTurnResult result turn.address w)).ps with turn := none } } := by
    simp [endTurn, hturn]
  simp only [hv] at hq hrq hau htable hpoll hfind
  have jl' := jl
  cases hl : r.leave with
  | absent =>
    rw [completeLeave_absent jf (jl.trans hl)] at hq hrq hau htable hpoll hfind
    rw [jf] at hfind
    refine ⟨fun k => hau.trans (jau.1 k), fun k => hau.trans (jau.2.1 k), fun k k' => hau.trans (jau.2.2 k k'), ?_, ?_,
      fun _ => ⟨hrq.trans jrq, joq ▸ hq, ?_⟩, fun k => ?_⟩
    · rw [htable, jrw, hl]; simp
    · rw [hpoll, jpoll, if_pos hl]
    · rw [hl, if_neg (by decide)]; exact recounted hfind jc
    · rw [hl] at k; cases k
  | park =>
    rw [completeLeave_park jf (jl.trans hl)] at hq hrq hau htable hpoll hfind
    have jp := (find_parkStation jf).1
    rw [show (latchTable (parkStation turn.address (applyTurnResult result turn.address w))).st =
      (parkStation turn.address (applyTurnResult result turn.address w)).st from rfl, jp] at hfind
    refine ⟨fun k => hau.trans (jau.1 k), fun k => hau.trans (jau.2.1 k), fun k k' => hau.trans (jau.2.2 k k'), ?_, ?_,
      fun _ => ⟨hrq.trans jrq, joq ▸ hq, ?_⟩, fun k => ?_⟩
    · rw [htable, hl]; simp [latchTable]
    · rw [hpoll, if_neg (by rw [hl]; decide), ← jpoll]; rfl
    · rw [if_pos hl]; exact recounted hfind jc
    · rw [hl] at k; cases k
  | remove =>
    rw [completeLeave_remove jf (jl.trans hl)] at hq hrq hau htable hpoll hfind
    have jr := (find_removeStation turn.address (applyTurnResult result turn.address w)).1
    rw [show (latchTable (removeStation turn.address (applyTurnResult result turn.address w))).st =
      (removeStation turn.address (applyTurnResult result turn.address w)).st from rfl, jr] at hfind
    refine ⟨fun k => hau.trans (jau.1 k), fun k => hau.trans (jau.2.1 k), fun k k' => hau.trans (jau.2.2 k k'), ?_, ?_,
      fun k => absurd hl k, fun _ => ⟨?_, ?_, ?_⟩⟩
    · rw [htable, hl]; simp [latchTable]
    · rw [hpoll, if_neg (by rw [hl]; decide), ← jpoll]; rfl
    · simpa using hfind
    · rw [← joq]; exact hq
    · rw [← joq, ← jrq]; exact hrq

/-- The end of a turn changes records, queues, the Attention Unit, TABLE and the scheduler's state alone; it keeps every
record but that of the turn's station. -/
theorem endTurn_shape (result : TurnResult) (w : State) : ∃ st ps oq rq au table,
    endTurn result w = { w with
      st := st, ps := ps, oq := oq, rq := rq, au := au
      rw := { w.rw with latched := { w.rw.latched with table := table } } } ∧
    ps.turn = none ∧ ps.phase = w.ps.phase ∧ ps.cycle = w.ps.cycle ∧ ps.exchangeHanded = w.ps.exchangeHanded ∧
    ∀ b, (∀ turn, w.ps.turn = some turn → b ≠ turn.address) → st.find b = w.st.find b := by
  unfold endTurn
  split
  · next h => exact ⟨w.st, w.ps, w.oq, w.rq, w.au, w.rw.latched.table, rfl, h, rfl, rfl, rfl, fun _ _ => rfl⟩
  · next turn h =>
    have hr : ∃ st oq rq au, applyTurnResult result turn.address w =
        { w with st := st, oq := oq, rq := rq, au := au } ∧ ∀ b, b ≠ turn.address → st.find b = w.st.find b := by
      unfold applyTurnResult
      split
      · exact ⟨_, _, _, _, rfl, fun _ _ => rfl⟩
      · next r hf =>
        have ha := (find_some hf).2
        cases result with
        | success =>
          simp only [turnSuccess]
          split <;> exact ⟨_, _, _, _, rfl, fun b hb => find_update_other (fun _ => rfl) (ha ▸ hb)⟩
        | unfinished => exact ⟨_, _, _, _, rfl, fun _ _ => rfl⟩
        | miss =>
          simp only [turnMiss]
          repeat' split
          · exact ⟨_, _, _, _, rfl, fun _ _ => rfl⟩
          · exact ⟨_, _, _, _, rfl, fun b hb => find_update_other (fun _ => rfl) (ha ▸ hb)⟩
          · exact ⟨_, _, _, _, rfl, fun b hb => find_update_other (fun _ => rfl) (ha ▸ hb)⟩
    obtain ⟨st, oq, rq, au, e, hst⟩ := hr
    rw [e]
    simp only [completeLeave]
    have hb : ∀ b, (∀ u, w.ps.turn = some u → b ≠ u.address) → b ≠ turn.address := fun b k => k turn h
    repeat' split
    · exact ⟨_, _, _, _, _, w.rw.latched.table, rfl, rfl, rfl, rfl, rfl, fun b k => hst b (hb b k)⟩
    · exact ⟨_, _, _, _, _, w.rw.latched.table, rfl, rfl, rfl, rfl, rfl, fun b k => hst b (hb b k)⟩
    · exact ⟨_, _, _, _, _, true, rfl, rfl, rfl, rfl, rfl,
        fun b k => (find_filter_other (hb b k)).trans (hst b (hb b k))⟩
    · exact ⟨_, _, _, _, _, true, rfl, rfl, rfl, rfl, rfl,
        fun b k => ((find_update_other (f := fun r => { r with state := .parked, missCount := 0, leave := .absent })
          (fun _ => rfl) (hb b k))).trans (hst b (hb b k))⟩

/-- A turn that ends unfinished with no leave pending changes nothing but the turn record (R28, R29). -/
theorem endTurn_unfinished_absent {w : State}
    (h : ∀ turn, w.ps.turn = some turn → ∀ r, w.st.find turn.address = some r → r.leave = .absent) :
    endTurn .unfinished w = { w with ps := { w.ps with turn := none } } := by
  unfold endTurn
  split
  · next k => rw [← k]
  · next turn k =>
    rw [applyTurnResult_unfinished]
    unfold completeLeave
    split
    · rfl
    · next r hf => rw [h turn k r hf]

/-- The entry's part of an outcome: the entries and DONE records as the rules state them, and sync pending for a FAILED
addressed WRITE (R77). -/
theorem entryOutcome_does (x : Exchange) (o : ExchangeOutcome) (s : State) :
    entryOutcome x o s = { withEntriesAfter o x s with
      st := if o = .failed ∧ x.address ≠ 0 ∧ x.entry ≠ none then
          s.st.update x.address (fun r => { r with syncPending := true })
        else s.st } := by
  have ha : (x.address = 0) = True ∨ (x.address = 0) = False := by
    by_cases h : x.address = 0
    · exact .inl (eq_true h)
    · exact .inr (eq_false h)
  cases hx : x.entry with
  | none =>
    have hn : ∀ e : OutboundEntry, ((none : Option Byte) != some e.tag) = true := fun _ => rfl
    simp only [entryOutcome, hx, withEntriesAfter, entriesAfter, donesAfter, messageOutcomeOf, hn]
    cases o <;> rcases ha with h | h <;> simp only [h] <;> simp
  | some tag =>
    have hc : ∀ e : OutboundEntry, (some tag == some e.tag) = (e.tag == tag) := by
      intro e; by_cases k : e.tag = tag
      · simp [k]
      · simp [k, Ne.symm k]
    have hn : ∀ e : OutboundEntry, (some tag != some e.tag) = !(e.tag == tag) := fun e => by rw [bne, hc]
    have hd : ∀ m, doneRecord m = fun e => .done e.destination e.tag m e.attempts := fun _ => rfl
    simp only [entryOutcome, hx, withEntriesAfter, entriesAfter, donesAfter, messageOutcomeOf, hc, hn]
    cases o <;> rcases ha with h | h <;> simp only [h, ne_eq] <;>
      simp [completeTag, completeWhere, hd, updateStation, requeueEntry, updateEntry]

/-! ### From the end of a turn to the next handing, the pause or the stop -/

/-- The scheduler comes to rest at `t` from a state `v` in which the outcome of an exchange has been taken. -/
structure SettledFrom (v t : State) : Prop where
  untouched : t.inReset = v.inReset ∧ t.cfg = v.cfg ∧ t.latch = v.latch ∧ t.sv = v.sv ∧ t.pending = v.pending
  handed : Handed t v.oq v.ee v.lc
  rw' : t.rw = v.rw
  rq : t.rq = v.rq
  au : t.au = v.au
  lc : t.lc = { v.lc with inFlight := t.lc.inFlight }
  pollList : t.st.pollList = v.st.pollList
  find : ∀ b, (t.st.find b).map StationRecord.uncounted = (v.st.find b).map StationRecord.uncounted

/-- A running line carries on. -/
theorem settled_resume {x : Exchange} {v : State} (h : v.ee.AtRest) : SettledFrom v (resume x v) := by
  have k := apart_resume x v
  refine ⟨⟨apart_inReset k, apart_cfg k, apart_latch k, apart_sv k, apart_pending k⟩, handed_resume x h, apart_rw k,
    apart_rq k, apart_au k, ?_, apart_pollList k, apart_find k⟩
  have e := congrArg (fun u => u.lc) k
  have e' : ({ (resume x v).lc with inFlight := none } : LineControl) = { v.lc with inFlight := none } := e
  calc (resume x v).lc
      = { ({ (resume x v).lc with inFlight := none } : LineControl) with inFlight := (resume x v).lc.inFlight } := rfl
    _ = _ := by rw [e']

/-- A line that is OFF hands nothing. -/
theorem settled_idle {v : State} (h : v.ee.AtRest) (q : Scheduler) : SettledFrom v { v with ps := q } :=
  ⟨⟨rfl, rfl, rfl, rfl, rfl⟩, handed_nothing h q, rfl, rfl, rfl, rfl, rfl, fun _ => rfl⟩

/-- The engine at the outcome of an exchange (R79). -/
def Engine.atOutcome (e : Engine) : Engine :=
  { e.releaseLine with
    state := .idle, exchange := none, turnCount := .stopped, settleTimer := .stopped, replyTimer := .stopped
    gapTimer := .stopped }

/-- The state in which an outcome finds the turn and Line Control: the entry's part is done and the engine IDLE. -/
theorem discardExchange_does (x : Exchange) (o : ExchangeOutcome) (s : State) :
    discardExchange (entryOutcome x o s) = { withEntriesAfter o x s with
      st := if o = .failed ∧ x.address ≠ 0 ∧ x.entry ≠ none then
          s.st.update x.address (fun r => { r with syncPending := true })
        else s.st
      ee := s.ee.atOutcome } := by
  rw [entryOutcome_does]
  rfl

/-- What the outcome of a broadcast does to Line Control and to HOLDSENT (R42, R151). -/
theorem broadcastEnded_does (o : ExchangeOutcome) (w : State) : broadcastEnded o w = { w with
    lc := { w.lc with
      announcement := if o = .good ∧ w.lc.inFlight = some false then .none else w.lc.announcement
      inFlight := none }
    rw := { w.rw with
      latched := { w.rw.latched with holdSent := w.rw.latched.holdSent || (o == .good && w.lc.inFlight.isSome) } } } := by
  unfold broadcastEnded
  cases h : w.lc.inFlight with
  | none =>
    simp only [Option.isSome_none, Bool.false_eq_true, if_false, Bool.and_false, Bool.or_false]
    obtain ⟨_, _, _, _, _, _, _, _, _, _, lc, _, _⟩ := w
    obtain ⟨_, _, _, _, _, _, _⟩ := lc
    simp only at h
    subst h
    simp
  | some renewed =>
    have hf : (ExchangeOutcome.failed == .good) = false ∧ (ExchangeOutcome.withdrawn == .good) = false ∧
      (ExchangeOutcome.cut == .good) = false := ⟨rfl, rfl, rfl⟩
    cases o <;> cases renewed <;> simp [LineControl.announcementEnds, latchHoldSent, h, hf]

/-- The state in which an outcome finds the turn and Line Control. -/
def outcomeFinds (x : Exchange) (o : ExchangeOutcome) (s : State) : State := discardExchange (entryOutcome x o s)

section
variable (x : Exchange) (o : ExchangeOutcome) (s : State)

@[simp] theorem outcomeFinds_inReset : (outcomeFinds x o s).inReset = s.inReset := by
  rw [outcomeFinds, discardExchange_does]; rfl
@[simp] theorem outcomeFinds_rw : (outcomeFinds x o s).rw = s.rw := by
  rw [outcomeFinds, discardExchange_does]; rfl
@[simp] theorem outcomeFinds_cfg : (outcomeFinds x o s).cfg = s.cfg := by
  rw [outcomeFinds, discardExchange_does]; rfl
@[simp] theorem outcomeFinds_ps : (outcomeFinds x o s).ps = s.ps := by
  rw [outcomeFinds, discardExchange_does]; rfl
@[simp] theorem outcomeFinds_ee : (outcomeFinds x o s).ee = s.ee.atOutcome := by
  rw [outcomeFinds, discardExchange_does]
@[simp] theorem outcomeFinds_latch : (outcomeFinds x o s).latch = s.latch := by
  rw [outcomeFinds, discardExchange_does]; rfl
@[simp] theorem outcomeFinds_au : (outcomeFinds x o s).au = s.au := by
  rw [outcomeFinds, discardExchange_does]; rfl
@[simp] theorem outcomeFinds_lc : (outcomeFinds x o s).lc = s.lc := by
  rw [outcomeFinds, discardExchange_does]; rfl
@[simp] theorem outcomeFinds_sv : (outcomeFinds x o s).sv = s.sv := by
  rw [outcomeFinds, discardExchange_does]; rfl
@[simp] theorem outcomeFinds_pending : (outcomeFinds x o s).pending = s.pending := by
  rw [outcomeFinds, discardExchange_does]; rfl
@[simp] theorem outcomeFinds_oq : (outcomeFinds x o s).oq = entriesAfter o x s.oq := by
  rw [outcomeFinds, discardExchange_does]; rfl
@[simp] theorem outcomeFinds_rq : (outcomeFinds x o s).rq = s.rq ++ donesAfter o x s.oq := by
  rw [outcomeFinds, discardExchange_does]; rfl

@[simp] theorem outcomeFinds_st : (outcomeFinds x o s).st =
    if o = .failed ∧ x.address ≠ 0 ∧ x.entry ≠ none then
      s.st.update x.address (fun r => { r with syncPending := true })
    else s.st := by
  rw [outcomeFinds, discardExchange_does]

end

/-- The outcome taken by Line Control or by the turn (R49, R151). -/
def outcomeTaken (x : Exchange) (o : ExchangeOutcome) (s : State) : State :=
  if x.address = 0 then broadcastEnded o (outcomeFinds x o s) else turnCourse x.kind o (outcomeFinds x o s)

/-- Where the line does not run on it is OFF and the turn has ended (R59, R143). -/
def lineSettled (z : State) : State :=
  match z.lc.mode with
  | .run => z
  | .stopping => endTurn .unfinished (lineOff .host z)
  | .off => endTurn .unfinished z

/-- The end of a turn keeps the line mode. -/
theorem endTurn_lc (result : TurnResult) (w : State) : (endTurn result w).lc = w.lc := by
  obtain ⟨_, _, _, _, _, _, e, _⟩ := endTurn_shape result w
  rw [e]

/-- The end of an exchange is the scheduler's work from there, or the abandonment of the cycle. -/
theorem endExchange_from (x : Exchange) (o : ExchangeOutcome) (s : State) :
    endExchange x o s =
      if (outcomeTaken x o s).lc.mode = .run then resume x (outcomeTaken x o s)
      else { lineSettled (outcomeTaken x o s) with
        ps := { (lineSettled (outcomeTaken x o s)).ps with phase := .none, cursor := none, pauseTimer := none } } := by
  show (match (outcomeTaken x o s).lc.mode with
    | .run => resume x (outcomeTaken x o s)
    | .stopping => abandonCycle (lineOff .host (outcomeTaken x o s))
    | .off => abandonCycle (outcomeTaken x o s)) = _
  unfold lineSettled
  cases (outcomeTaken x o s).lc.mode <;> rfl

/-- The outcome taken: what Line Control and the turn make of it, the rest as the outcome found it. -/
theorem outcomeTaken_shape (x : Exchange) (o : ExchangeOutcome) (s : State) : ∃ st ps oq rq au table,
    outcomeTaken x o s = { s with
      st := st, ps := ps, oq := oq, rq := rq, au := au, ee := s.ee.atOutcome
      lc := { s.lc with
        announcement := if x.address = 0 ∧ o = .good ∧ s.lc.inFlight = some false then .none else s.lc.announcement
        inFlight := if x.address = 0 then none else s.lc.inFlight }
      rw := { s.rw with
        latched := { s.rw.latched with
          table := table
          holdSent := s.rw.latched.holdSent || (x.address == 0 && o == .good && s.lc.inFlight.isSome) } } } ∧
    (ps.phase = s.ps.phase ∧ ps.cycle = s.ps.cycle ∧ ps.exchangeHanded = s.ps.exchangeHanded ∧
      (ps.turn = none ∨ ps.turn.map (·.address) = s.ps.turn.map (·.address))) ∧
    ∀ b, (∀ turn, s.ps.turn = some turn → b ≠ turn.address) → st.find b = (outcomeFinds x o s).st.find b := by
  unfold outcomeTaken
  by_cases ha : x.address = 0
  · rw [if_pos ha, broadcastEnded_does]
    refine ⟨(outcomeFinds x o s).st, s.ps, (outcomeFinds x o s).oq, (outcomeFinds x o s).rq, s.au, s.rw.latched.table,
      ?_, ⟨rfl, rfl, rfl, .inr rfl⟩, fun _ _ => rfl⟩
    simp only [outcomeFinds_inReset, outcomeFinds_rw, outcomeFinds_cfg, outcomeFinds_ps, outcomeFinds_ee,
      outcomeFinds_latch, outcomeFinds_au, outcomeFinds_lc, outcomeFinds_sv, outcomeFinds_pending, ha, true_and, if_true,
      beq_self_eq_true, Bool.true_and]
  · rw [if_neg ha]
    have hb : (x.address == 0) = false := by simpa using ha
    have hturn : ∀ result, ∃ st ps oq rq au table, endTurn result (outcomeFinds x o s) = { outcomeFinds x o s with
        st := st, ps := ps, oq := oq, rq := rq, au := au
        rw := { s.rw with latched := { s.rw.latched with table := table } } } ∧
        (ps.phase = s.ps.phase ∧ ps.cycle = s.ps.cycle ∧ ps.exchangeHanded = s.ps.exchangeHanded ∧
          (ps.turn = none ∨ ps.turn.map (·.address) = s.ps.turn.map (·.address))) ∧
        ∀ b, (∀ turn, s.ps.turn = some turn → b ≠ turn.address) → st.find b = (outcomeFinds x o s).st.find b := by
      intro result
      obtain ⟨st, ps, oq, rq, au, table, e, h1, h2, h3, h4, h5⟩ := endTurn_shape result (outcomeFinds x o s)
      rw [outcomeFinds_ps] at h2 h3 h4 h5
      rw [outcomeFinds_rw] at e
      exact ⟨st, ps, oq, rq, au, table, e, ⟨h2, h3, h4, .inl h1⟩, h5⟩
    have hstage : ∀ stage, ∃ st ps oq rq au table, toStage stage (outcomeFinds x o s) = { outcomeFinds x o s with
        st := st, ps := ps, oq := oq, rq := rq, au := au
        rw := { s.rw with latched := { s.rw.latched with table := table } } } ∧
        (ps.phase = s.ps.phase ∧ ps.cycle = s.ps.cycle ∧ ps.exchangeHanded = s.ps.exchangeHanded ∧
          (ps.turn = none ∨ ps.turn.map (·.address) = s.ps.turn.map (·.address))) ∧
        ∀ b, (∀ turn, s.ps.turn = some turn → b ≠ turn.address) → st.find b = (outcomeFinds x o s).st.find b := by
      intro stage
      refine ⟨(outcomeFinds x o s).st, (toStage stage (outcomeFinds x o s)).ps, (outcomeFinds x o s).oq,
        (outcomeFinds x o s).rq, (outcomeFinds x o s).au, s.rw.latched.table, ?_, ⟨?_, ?_, ?_, .inr ?_⟩, fun _ _ => rfl⟩
      · rw [← outcomeFinds_rw x o s]; rfl
      all_goals simp only [toStage, outcomeFinds_ps]
      cases s.ps.turn <;> rfl
    have key : ∃ st ps oq rq au table, turnCourse x.kind o (outcomeFinds x o s) = { outcomeFinds x o s with
        st := st, ps := ps, oq := oq, rq := rq, au := au
        rw := { s.rw with latched := { s.rw.latched with table := table } } } ∧
        (ps.phase = s.ps.phase ∧ ps.cycle = s.ps.cycle ∧ ps.exchangeHanded = s.ps.exchangeHanded ∧
          (ps.turn = none ∨ ps.turn.map (·.address) = s.ps.turn.map (·.address))) ∧
        ∀ b, (∀ turn, s.ps.turn = some turn → b ≠ turn.address) → st.find b = (outcomeFinds x o s).st.find b := by
      unfold turnCourse
      split
      all_goals first
        | exact hturn _
        | exact hstage _
    obtain ⟨st, ps, oq, rq, au, table, e, h1, h2⟩ := key
    refine ⟨st, ps, oq, rq, au, table, e.trans ?_, h1, h2⟩
    simp only [outcomeFinds_inReset, outcomeFinds_cfg, outcomeFinds_ee, outcomeFinds_latch, outcomeFinds_lc,
      outcomeFinds_sv, outcomeFinds_pending, ha, hb, false_and, if_false, Bool.false_and, Bool.or_false]

/-- The state between two exchanges, whole: Line Control, the causes and the engine as the rules state them. -/
theorem lineSettled_shape (x : Exchange) (o : ExchangeOutcome) (s : State) : ∃ st ps oq rq au table,
    lineSettled (outcomeTaken x o s) = { s with
      st := st, ps := ps, oq := oq, rq := rq, au := au, ee := s.ee.atOutcome
      lc := { s.lc with
        mode := if s.lc.mode = .run then .run else .off
        stopCause := if s.lc.mode = .stopping then .host else s.lc.stopCause
        announcement := if x.address = 0 ∧ o = .good ∧ s.lc.inFlight = some false then .none else s.lc.announcement
        inFlight := if x.address = 0 then none else s.lc.inFlight }
      rw := { s.rw with
        latched := { s.rw.latched with
          line := s.rw.latched.line || s.lc.mode == .stopping
          table := table
          holdSent := s.rw.latched.holdSent || (x.address == 0 && o == .good && s.lc.inFlight.isSome) } } } ∧
    (ps.cycle = s.ps.cycle ∧ ps.exchangeHanded = s.ps.exchangeHanded ∧ (s.lc.mode ≠ .run → ps.turn = none)) ∧
    ∀ b, (∀ turn, s.ps.turn = some turn → b ≠ turn.address) → st.find b = (outcomeFinds x o s).st.find b := by
  obtain ⟨st, ps, oq, rq, au, table, e, ⟨_, h2, h3, h4⟩, h5⟩ := outcomeTaken_shape x o s
  have hr : (LineMode.run == LineMode.stopping) = false ∧ (LineMode.off == LineMode.stopping) = false := ⟨rfl, rfl⟩
  have hn : ∀ b, (∀ turn, s.ps.turn = some turn → b ≠ turn.address) → ∀ turn, ps.turn = some turn → b ≠ turn.address := by
    intro b hb turn ht
    rcases h4 with k | k
    · rw [k] at ht; cases ht
    · rw [ht] at k
      cases hs : s.ps.turn with
      | none => rw [hs] at k; cases k
      | some u =>
        rw [hs] at k
        have : turn.address = u.address := by simpa using k
        exact this ▸ hb u hs
  unfold lineSettled
  rw [e]
  dsimp only
  cases hm : s.lc.mode with
  | run =>
    refine ⟨st, ps, oq, rq, au, table, ?_, ⟨h2, h3, fun k => absurd rfl k⟩, h5⟩
    simp [hr]
  | stopping =>
    dsimp only
    rw [← hm]
    obtain ⟨st', ps', oq', rq', au', table', e', g1, _, g3, g4, g5⟩ := endTurn_shape .unfinished
      (lineOff .host { s with
        st := st, ps := ps, oq := oq, rq := rq, au := au, ee := s.ee.atOutcome
        lc := { s.lc with
          announcement := if x.address = 0 ∧ o = .good ∧ s.lc.inFlight = some false then .none else s.lc.announcement
          inFlight := if x.address = 0 then none else s.lc.inFlight }
        rw := { s.rw with
          latched := { s.rw.latched with
            table := table
            holdSent := s.rw.latched.holdSent || (x.address == 0 && o == .good && s.lc.inFlight.isSome) } } })
    refine ⟨st', ps', oq', rq', au', table', ?_, ⟨g3.trans h2, g4.trans h3, fun _ => g1⟩,
      fun b hb => (g5 b (hn b hb)).trans (h5 b hb)⟩
    refine e'.trans ?_
    simp [lineOff, latchLine, hm]
  | off =>
    dsimp only
    rw [← hm]
    obtain ⟨st', ps', oq', rq', au', table', e', g1, _, g3, g4, g5⟩ := endTurn_shape .unfinished
      { s with
        st := st, ps := ps, oq := oq, rq := rq, au := au, ee := s.ee.atOutcome
        lc := { s.lc with
          announcement := if x.address = 0 ∧ o = .good ∧ s.lc.inFlight = some false then .none else s.lc.announcement
          inFlight := if x.address = 0 then none else s.lc.inFlight }
        rw := { s.rw with
          latched := { s.rw.latched with
            table := table
            holdSent := s.rw.latched.holdSent || (x.address == 0 && o == .good && s.lc.inFlight.isSome) } } }
    refine ⟨st', ps', oq', rq', au', table', ?_, ⟨g3.trans h2, g4.trans h3, fun _ => g1⟩,
      fun b hb => (g5 b (hn b hb)).trans (h5 b hb)⟩
    refine e'.trans ?_
    simp [hm, hr]

/-- From there the scheduler comes to rest, and where the line does not run nothing but the cycle is left to end. -/
theorem settled_endExchange (x : Exchange) (o : ExchangeOutcome) (s : State) :
    SettledFrom (lineSettled (outcomeTaken x o s)) (endExchange x o s) ∧
      (s.lc.mode = .run → lineSettled (outcomeTaken x o s) = outcomeTaken x o s ∧
        endExchange x o s = resume x (outcomeTaken x o s)) ∧
      (s.lc.mode ≠ .run → endExchange x o s = { lineSettled (outcomeTaken x o s) with
        ps := { (lineSettled (outcomeTaken x o s)).ps with phase := .none, cursor := none, pauseTimer := none } }) := by
  have hrest : (lineSettled (outcomeTaken x o s)).ee.AtRest := by
    obtain ⟨_, _, _, _, _, _, e, _⟩ := lineSettled_shape x o s
    rw [e]; exact ⟨rfl, rfl, rfl⟩
  have hmode : (outcomeTaken x o s).lc.mode = s.lc.mode := by
    obtain ⟨_, _, _, _, _, _, e, _⟩ := outcomeTaken_shape x o s
    rw [e]
  have hrun : s.lc.mode = .run → lineSettled (outcomeTaken x o s) = outcomeTaken x o s := by
    intro h
    unfold lineSettled
    rw [hmode, h]
  rw [endExchange_from, hmode]
  by_cases h : s.lc.mode = .run
  · rw [if_pos h]
    refine ⟨?_, fun _ => ⟨hrun h, rfl⟩, fun k => absurd h k⟩
    rw [hrun h] at hrest ⊢
    exact settled_resume hrest
  · rw [if_neg h]
    exact ⟨settled_idle hrest _, fun k => absurd k h, fun _ => rfl⟩

/-- Two states agree in the queues, the table, the Attention Unit and TABLE. -/
abbrev SameOutside (w z : State) : Prop :=
  z.oq = w.oq ∧ z.rq = w.rq ∧ z.st = w.st ∧ z.au = w.au ∧ z.rw.latched.table = w.rw.latched.table

/-- A turn that has no station to leave, or that goes on, takes an outcome without a change of the queues, of the table or
of the Attention Unit. -/
theorem outcomeTaken_quiet {x : Exchange} {o : ExchangeOutcome} {s : State}
    (h : x.address = 0 ∨ s.ps.turn = none ∨
      ((o = .withdrawn ∨ o = .cut) ∧
        ∀ turn, s.ps.turn = some turn → ∀ r, s.st.find turn.address = some r → r.leave = .absent) ∨
      (o = .good ∧ (x.kind = .sync ∨ x.kind = .write)) ∨ (o = .withdrawn ∧ x.kind = .write)) :
    SameOutside (outcomeFinds x o s) (outcomeTaken x o s) := by
  unfold outcomeTaken
  by_cases ha : x.address = 0
  · rw [if_pos ha, broadcastEnded_does]
    exact ⟨rfl, rfl, rfl, rfl, rfl⟩
  · rw [if_neg ha]
    have hnone : s.ps.turn = none → ∀ result, endTurn result (outcomeFinds x o s) = outcomeFinds x o s := by
      intro k result
      unfold endTurn
      rw [outcomeFinds_ps, k]
    have habs : (o = .withdrawn ∨ o = .cut) →
        (∀ turn, s.ps.turn = some turn → ∀ r, s.st.find turn.address = some r → r.leave = .absent) →
        endTurn .unfinished (outcomeFinds x o s) =
          { outcomeFinds x o s with ps := { (outcomeFinds x o s).ps with turn := none } } := by
      intro ho k
      refine endTurn_unfinished_absent fun turn ht r hr => k turn (by rwa [outcomeFinds_ps] at ht) r ?_
      rw [outcomeFinds_st, if_neg (by rintro ⟨rfl, _⟩; rcases ho with k | k <;> cases k)] at hr
      exact hr
    unfold turnCourse
    split
    all_goals first
      | exact ⟨rfl, rfl, rfl, rfl, rfl⟩
      | rcases h with h | h | ⟨ho, h⟩ | ⟨ho, hk⟩ | ⟨ho, hk⟩
        · exact absurd h ha
        · rw [hnone h]; exact ⟨rfl, rfl, rfl, rfl, rfl⟩
        · first
            | rw [habs ho h]; exact ⟨rfl, rfl, rfl, rfl, rfl⟩
            | simp at ho
        all_goals simp_all

/-- Where no leave is pending the line settles without a change of the queues, of the table or of the Attention Unit. -/
theorem lineSettled_quiet {z : State}
    (h : ∀ turn, z.ps.turn = some turn → ∀ r, z.st.find turn.address = some r → r.leave = .absent) :
    SameOutside z (lineSettled z) := by
  unfold lineSettled
  split
  · exact ⟨rfl, rfl, rfl, rfl, rfl⟩
  · rw [endTurn_unfinished_absent (w := Machine.lineOff .host z) (by exact h)]
    exact ⟨rfl, rfl, rfl, rfl, rfl⟩
  · rw [endTurn_unfinished_absent h]
    exact ⟨rfl, rfl, rfl, rfl, rfl⟩

/-- The end of a turn reads of the state before it the queues, the Attention Unit, the settings, TABLE and the poll list. -/
theorem TurnEnds.congr {result : TurnResult} {a : Address} {r : StationRecord} {w u t : State}
    (h : TurnEnds result a r w t) (hoq : u.oq = w.oq) (hrq : u.rq = w.rq) (hau : u.au = w.au) (hcfg : u.cfg = w.cfg)
    (htable : u.rw.latched.table = w.rw.latched.table) (hpoll : u.st.pollList = w.st.pollList) :
    TurnEnds result a r u t := by
  unfold TurnEnds at h ⊢
  simp only [controllerEvent] at h ⊢
  rw [hoq, hrq, hau, hcfg, htable, hpoll]
  exact h

/-- The record of the station in turn when the outcome is taken (R16). -/
theorem outcomeFinds_find {x : Exchange} {o : ExchangeOutcome} {s : State} {a : Address} {r : StationRecord}
    (ha : x.address = a ∨ x.address = 0) (hf : s.st.find a = some r) :
    (outcomeFinds x o s).st.find a =
      some { r with syncPending := r.syncPending || (o == .failed && x.address != 0 && x.entry.isSome) } := by
  rw [outcomeFinds_st]
  split
  · next k =>
    obtain ⟨k1, k2, k3⟩ := k
    rcases ha with rfl | ha
    · have e := find_update_same (t := s.st) (a := x.address) (f := fun r => { r with syncPending := true }) (fun _ => rfl)
      rw [hf] at e
      have hx : x.entry.isSome = true := by
        cases k : x.entry with
        | none => exact absurd k k3
        | some _ => rfl
      have h0 : (x.address != 0) = true := by simpa using k2
      rw [e, k1, hx, h0]
      simp
    · exact absurd ha k2
  · next k =>
    have : (o == .failed && x.address != 0 && x.entry.isSome) = false := by
      by_contra c
      have c' : (o == .failed && x.address != 0 && x.entry.isSome) = true := by
        cases d : (o == .failed && x.address != 0 && x.entry.isSome) with
        | true => rfl
        | false => exact absurd d c
      simp only [Bool.and_eq_true, beq_iff_eq, bne_iff_ne, ne_eq] at c'
      refine k ⟨c'.1.1, c'.1.2, ?_⟩
      intro hx
      rw [hx] at c'
      cases c'.2
    rw [this, hf]
    simp

/-- A turn that goes on goes to the boundary of its next exchange. -/
theorem decideTurn_goes {turn : Turn} {z : State} (hturn : z.ps.turn = some turn) :
    (decideTurn turn z).st = z.st ∧ (decideTurn turn z).ps.turn.map (·.address) = some turn.address := by
  unfold decideTurn handStage
  repeat' split
  all_goals simp [handAnnouncement, handExchange, atStage, sendEntry, updateEntry, handPoll, hturn]

/-- After a WRITE a pending announcement is handed, else the POLL (R49, R55). -/
theorem decideTurn_poll {turn : Turn} {z : State} (hnext : turn.next = .poll) :
    (decideTurn turn z).ee.exchange.map (fun y => (y.kind, y.address)) = some
      (match z.lc.announcement with
        | .none => (.poll, turn.address)
        | .hold => (.hold, 0)
        | .free => (.free, 0)) := by
  unfold decideTurn handStage
  rw [hnext]
  cases h : z.lc.announcement <;>
    simp [handAnnouncement, handExchange, announcementKind, handPoll, h]

/-- The course of a turn by the result the rules give it. -/
theorem turnCourse_of_result {x : Exchange} {o : ExchangeOutcome} {w : State} (ha : x.address ≠ 0)
    (hk : x.kind = .poll ∨ x.kind = .write ∨ x.kind = .sync) (hw : o = .withdrawn → x.kind = .write) :
    (∀ result, turnResultOf .run o x = some result → turnCourse x.kind o w = endTurn result w) ∧
      (turnResultOf .run o x = none → (o = .good ∧ (x.kind = .sync ∨ x.kind = .write) ∨ o = .withdrawn ∧ x.kind = .write) ∧
        ∃ stage, turnCourse x.kind o w = toStage stage w ∧ (x.kind = .write → stage = .poll)) := by
  simp only [turnResultOf, if_neg ha, if_true]
  rcases hk with hk | hk | hk <;> cases o <;> simp [hk, turnCourse] at hw ⊢
  all_goals first
    | exact ⟨.poll, rfl⟩
    | exact ⟨.write, rfl⟩

/-- Where the line does not run, a turn that would go on ends unfinished (R58, R59). -/
theorem turnResultOf_mode (mode : LineMode) (o : ExchangeOutcome) (x : Exchange) : turnResultOf mode o x =
    if mode = .run then turnResultOf .run o x else some ((turnResultOf .run o x).getD .unfinished) := by
  unfold turnResultOf
  rw [if_pos rfl]

/-- Where the line does not run, settling it ends the turn unfinished. -/
theorem lineSettled_off {z : State} (h : z.lc.mode ≠ .run) : ∃ w, lineSettled z = endTurn .unfinished w ∧
    w.ps = z.ps ∧ w.st = z.st ∧ w.oq = z.oq ∧ w.rq = z.rq ∧ w.au = z.au ∧ w.cfg = z.cfg ∧
    w.rw.latched.table = z.rw.latched.table := by
  unfold lineSettled
  split
  · next k => exact absurd k h
  · exact ⟨_, rfl, rfl, rfl, rfl, rfl, rfl, rfl, rfl⟩
  · exact ⟨_, rfl, rfl, rfl, rfl, rfl, rfl, rfl, rfl⟩

/-- The end of an exchange, whole. -/
theorem exchangeEnds_endExchange {x : Exchange} {o : ExchangeOutcome} {s : State}
    (hw : o = .withdrawn → x.kind = .write ∨ x.kind = .hold) : ExchangeEnds o x s (endExchange x o s) := by
  obtain ⟨settled, hrun, hoff⟩ := settled_endExchange x o s
  obtain ⟨st, ps, oq, rq, au, table, e, ⟨g1, g2, g3⟩, g4⟩ := lineSettled_shape x o s
  -- the queues, the table and the Attention Unit where neither Line Control nor a turn changes them
  have quiet : (x.address = 0 ∨ s.ps.turn = none ∨
      ((o = .withdrawn ∨ o = .cut) ∧
        ∀ turn, s.ps.turn = some turn → ∀ r, s.st.find turn.address = some r → r.leave = .absent) ∨
      (o = .good ∧ (x.kind = .sync ∨ x.kind = .write)) ∨ (o = .withdrawn ∧ x.kind = .write)) →
      (s.lc.mode = .run ∨ ∀ turn, s.ps.turn = some turn → ∀ r,
        (outcomeFinds x o s).st.find turn.address = some r → r.leave = .absent) →
      let v := lineSettled (outcomeTaken x o s)
      v.oq = entriesAfter o x s.oq ∧ v.rq = s.rq ++ donesAfter o x s.oq ∧ v.st = (outcomeFinds x o s).st ∧
        v.au = s.au ∧ v.rw.latched.table = s.rw.latched.table := by
    intro h k
    obtain ⟨a1, a2, a3, a4, a5⟩ := outcomeTaken_quiet h
    rw [outcomeFinds_oq] at a1
    rw [outcomeFinds_rq] at a2
    rw [outcomeFinds_au] at a4
    rw [outcomeFinds_rw] at a5
    rcases k with k | k
    · rw [(hrun k).1]; exact ⟨a1, a2, a3, a4, a5⟩
    · obtain ⟨_, zps, _, _, _, _, ze, ⟨_, _, _, z4⟩, _⟩ := outcomeTaken_shape x o s
      have hz : (outcomeTaken x o s).ps = zps := by rw [ze]
      obtain ⟨b1, b2, b3, b4, b5⟩ := lineSettled_quiet (z := outcomeTaken x o s) (by
        intro turn ht r hr
        rw [hz] at ht
        rw [a3] at hr
        rcases z4 with z4 | z4
        · rw [z4] at ht; cases ht
        · rw [ht] at z4
          cases hs : s.ps.turn with
          | none => rw [hs] at z4; cases z4
          | some u =>
            rw [hs] at z4
            have hu : turn.address = u.address := by simpa using z4
            exact k u hs r (hu ▸ hr))
      exact ⟨b1.trans a1, b2.trans a2, b3.trans a3, b4.trans a4, b5.trans a5⟩
  refine ⟨?_, ?_, ?_, ?_, ?_, ?_, ?_, ?_, ?_, ?_, ?_, ?_⟩
  · -- untouched
    obtain ⟨h1, h2, h3, h4, h5⟩ := settled.untouched
    rw [e] at h1 h2 h3 h4 h5
    exact ⟨h1, h2, h3, h4, h5⟩
  · -- engine
    have h := settled.handed.engine
    rw [e] at h
    exact h
  · exact settled.handed.begun
  · intro h
    have k := settled.handed.hold
    rw [e] at k
    exact k h
  · have h := settled.lc
    rw [e] at h
    exact h
  · intro h
    rcases h with h | h
    · rw [hoff h, e]
    · have k := settled.handed.flight
      have k' := congrArg LineControl.announcement settled.lc
      rw [e] at k k'
      exact k (k'.symm.trans h)
  · have h := settled.rw'
    have h' := congrArg (fun w => w.latched.table) h
    rw [e] at h h'
    dsimp only at h'
    rw [h', h]
  · intro h
    rw [hoff h, e]
    refine ⟨rfl, ?_⟩
    dsimp only
    rw [g3 h, g1, g2]
  · intro b hb hturn
    have h := settled.find b
    rw [e] at h
    dsimp only at h
    rw [g4 b hturn] at h
    refine h.trans (congrArg (Option.map StationRecord.uncounted) ?_)
    rw [outcomeFinds_st]
    split
    · exact find_update_other (fun _ => rfl) hb
    · rfl
  · intro ho habs
    have hst : (outcomeFinds x o s).st = s.st := by
      rw [outcomeFinds_st, if_neg (by rintro ⟨rfl, _⟩; rcases ho with k | k <;> cases k)]
    obtain ⟨a1, a2, _⟩ := quiet (.inr (.inr (.inl ⟨ho, habs⟩))) (.inr (by rw [hst]; exact habs))
    refine ⟨settled.rq.trans (a2.trans ?_), a1 ▸ settled.handed.entries⟩
    rcases ho with rfl | rfl <;> simp [donesAfter, messageOutcomeOf]
  · intro hn
    obtain ⟨a1, a2, a3, a4, a5⟩ := quiet (.inr (.inl hn)) (.inr (by intro turn ht; rw [hn] at ht; cases ht))
    refine ⟨settled.rq.trans a2, a1 ▸ settled.handed.entries, settled.au.trans a4, ?_, ?_⟩
    · rw [settled.rw', a5]
    · rw [settled.pollList, a3, outcomeFinds_st]; split <;> rfl
  · intro turn hturn ha hkind r hf hp
    have hfind := outcomeFinds_find (o := o) ha hf
    have hpoll : (outcomeFinds x o s).st.pollList = s.st.pollList := by
      rw [outcomeFinds_st]; split <;> rfl
    have hmode : (outcomeTaken x o s).lc.mode = s.lc.mode := by
      obtain ⟨_, _, _, _, _, _, ze, _⟩ := outcomeTaken_shape x o s
      rw [ze]
    have hcfg : (outcomeTaken x o s).cfg = s.cfg := by
      obtain ⟨_, _, _, _, _, _, ze, _⟩ := outcomeTaken_shape x o s
      rw [ze]
    -- a turn that ends, on the state `w` its exchanges left
    have ends : ∀ (result : TurnResult) (w : State) (turn' : Turn), turn'.address = turn.address →
        w.ps.turn = some turn' → w.st = (outcomeFinds x o s).st → w.oq = entriesAfter o x s.oq →
        w.rq = s.rq ++ donesAfter o x s.oq → w.au = s.au → w.cfg = s.cfg →
        w.rw.latched.table = s.rw.latched.table →
        SameOutside (endTurn result w) (lineSettled (outcomeTaken x o s)) →
        TurnEnds result turn.address
          { r with syncPending := r.syncPending || (o == .failed && x.address != 0 && x.entry.isSome) }
          (withEntriesAfter o x s) (endExchange x o s) := by
      intro result w turn' hta h1 h2 h3 h4 h5 h6 h7 ⟨v1, v2, v3, v4, v5⟩
      rw [← hta] at hfind ⊢
      refine TurnEnds.congr (w := w) (turnEnds_endTurn h1 (by rw [h2]; exact hfind) hp ?_ ?_ ?_ ?_ ?_ ?_) h3.symm h4.symm
        h5.symm h6.symm h7.symm ?_
      · rw [← v1]; exact settled.handed.entries
      · rw [← v2]; exact settled.rq
      · rw [← v4]; exact settled.au
      · rw [← v5, settled.rw']
      · rw [← v3]; exact settled.pollList
      · rw [← v3]; exact settled.find _
      · rw [h2, hpoll]; rfl
    -- a turn that goes on, or that the stop cuts short
    have goes : ∀ (next : Stage), (x.address ≠ 0 → x.kind = .write → next = .poll) →
        (outcomeTaken x o s).ps.turn = some { turn with next := next } →
        (outcomeTaken x o s).ps.phase = s.ps.phase →
        (x.address = 0 ∨ (o = .good ∧ (x.kind = .sync ∨ x.kind = .write)) ∨ (o = .withdrawn ∧ x.kind = .write)) →
        turnResultOf .run o x = none → o ≠ .failed ∨ x.address = 0 →
        (∀ result, turnResultOf s.lc.mode o x = some result → TurnEnds result turn.address
          { r with syncPending := r.syncPending || (o == .failed && x.address != 0 && x.entry.isSome) }
          (withEntriesAfter o x s) (endExchange x o s)) ∧
        (turnResultOf s.lc.mode o x = none → s.ps.phase = .walking →
          TurnGoesOn x turn r (withEntriesAfter o x s) (endExchange x o s)) := by
      intro next hnext hzturn hzphase hquiet hres hfailed
      have hq := outcomeTaken_quiet (x := x) (o := o) (s := s) (by
        rcases hquiet with k | k | k
        · exact .inl k
        · exact .inr (.inr (.inr (.inl k)))
        · exact .inr (.inr (.inr (.inr k))))
      obtain ⟨a1, a2, a3, a4, a5⟩ := hq
      rw [outcomeFinds_oq] at a1
      rw [outcomeFinds_rq] at a2
      rw [outcomeFinds_au] at a4
      rw [outcomeFinds_rw] at a5
      rw [turnResultOf_mode, hres]
      by_cases hm : s.lc.mode = .run
      · rw [if_pos hm]
        refine ⟨fun _ k => (nomatch k), fun _ hwalk => ?_⟩
        obtain ⟨hv, ht⟩ := hrun hm
        have hgo : endExchange x o s = decideTurn { turn with next := next } (outcomeTaken x o s) := by
          rw [ht]
          unfold resume
          rw [hzphase, hwalk, hzturn]
        obtain ⟨d1, d2⟩ := decideTurn_goes hzturn
        have hr : (outcomeFinds x o s).st.find turn.address = some r := by
          rw [hfind]
          rcases hfailed with k | k
          · have : (o == .failed) = false := by simpa using k
            rw [this]; simp
          · rw [k]; simp
        refine ⟨?_, ?_, ?_, ?_, ?_, ?_, ?_, ?_⟩
        · rw [settled.rq, hv, a2]; rfl
        · have k := settled.handed.entries
          rw [hv, a1] at k
          exact k
        · rw [settled.au, hv, a4]; rfl
        · rw [settled.rw', hv, a5]; rfl
        · rw [settled.pollList, hv, a3, hpoll]; rfl
        · rw [hgo, d1, a3]; exact hr
        · rw [hgo, d2]
        · intro h0 hk
          obtain ⟨_, _, _, _, _, _, ze, _⟩ := outcomeTaken_shape x o s
          have hann : (outcomeTaken x o s).lc.announcement = s.lc.announcement := by
            rw [ze]
            exact if_neg fun k => h0 k.1
          have k := decideTurn_poll (turn := { turn with next := next }) (z := outcomeTaken x o s) (hnext h0 hk)
          rw [hann] at k
          rw [hgo]
          exact k
      · rw [if_neg hm]
        refine ⟨fun result hresult => ?_, fun k => (nomatch k)⟩
        obtain rfl : TurnResult.unfinished = result := by simpa using hresult
        obtain ⟨w, w1, w2, w3, w4, w5, w6, w7, w8⟩ := lineSettled_off (z := outcomeTaken x o s) (by rw [hmode]; exact hm)
        refine ends .unfinished w { turn with next := next } rfl (by rw [w2, hzturn]) (w3.trans a3) (w4.trans a1)
          (w5.trans a2) (w6.trans a4) (w7.trans hcfg) (w8.trans a5) ?_
        rw [w1]
        exact ⟨rfl, rfl, rfl, rfl, rfl⟩
    by_cases h0 : x.address = 0
    · have hz : (outcomeTaken x o s).ps = s.ps := by
        unfold outcomeTaken
        rw [if_pos h0, broadcastEnded_does]
        exact outcomeFinds_ps x o s
      refine goes turn.next (fun k => absurd h0 k) (by rw [hz, hturn]) (by rw [hz]) (.inl h0) ?_ (.inr h0)
      simp [turnResultOf, h0]
    · have hk : x.kind = .poll ∨ x.kind = .write ∨ x.kind = .sync := by
        cases k : x.kind with
        | poll => exact .inl rfl
        | write => exact .inr (.inl rfl)
        | sync => exact .inr (.inr rfl)
        | hold => exact absurd (hkind (.inl k)) h0
        | free => exact absurd (hkind (.inr k)) h0
      have hz : outcomeTaken x o s = turnCourse x.kind o (outcomeFinds x o s) := if_neg h0
      obtain ⟨c1, c2⟩ := turnCourse_of_result (o := o) (w := outcomeFinds x o s) h0 hk (by
        intro k
        rcases hw k with k | k
        · exact k
        · exact absurd (hkind (.inl k)) h0)
      cases hres : turnResultOf .run o x with
      | none =>
        obtain ⟨hgoes, stage, hstage, hpollStage⟩ := c2 hres
        refine goes stage (fun _ => hpollStage) ?_ ?_ (.inr hgoes) hres (.inl ?_)
        · rw [hz, hstage]; simp [toStage, hturn]
        · rw [hz, hstage]; simp [toStage]
        · rcases hgoes with ⟨k, _⟩ | ⟨k, _⟩ <;> rw [k] <;> decide
      | some own =>
        have hmode' : turnResultOf s.lc.mode o x = some own := by
          rw [turnResultOf_mode, hres]; split <;> rfl
        rw [hmode']
        refine ⟨fun result hresult => ?_, fun k => (nomatch k)⟩
        obtain rfl : own = result := by simpa using hresult
        rw [c1 own hres] at hz
        refine ends own (outcomeFinds x o s) turn rfl (by rw [outcomeFinds_ps, hturn]) rfl (outcomeFinds_oq x o s)
          (outcomeFinds_rq x o s) (outcomeFinds_au x o s) (outcomeFinds_cfg x o s) (by rw [outcomeFinds_rw]) ?_
        rw [hz]
        refine lineSettled_quiet fun t ht => ?_
        obtain ⟨_, _, _, _, _, _, te, tn, _⟩ := endTurn_shape own (outcomeFinds x o s)
        rw [te] at ht
        dsimp only at ht
        rw [tn] at ht
        cases ht

/-! ### The course after a failed attempt -/

/-- The course of an exchange after a failed attempt, whole (R77). -/
theorem courseAfterFailure_attemptCourse (x : Exchange) (u : State) : CourseAfterFailure x u (attemptCourse x u) := by
  have hf : holdForbids u x = true ↔
      (x.kind = .write ∧ u.lc.holdInForce = true) ∨ (x.kind = .hold ∧ u.lc.holdInForce = false) := by
    simp [holdForbids]
  refine ⟨fun h => ?_, fun h k => ?_, fun h k b => ?_, fun h k b => ?_⟩
  · rw [attemptCourse, if_pos h]
    exact exchangeEnds_endExchange fun k => nomatch k
  · rw [attemptCourse, if_neg (not_not.2 h), if_pos (hf.2 k)]
    exact exchangeEnds_endExchange fun _ => k.imp And.left And.left
  · rw [attemptCourse, if_neg (not_not.2 h), if_neg (fun c => k (hf.1 c)), if_pos b]
    exact exchangeEnds_endExchange fun k => nomatch k
  · rw [attemptCourse, if_neg (not_not.2 h), if_neg (fun c => k (hf.1 c)), if_neg b]
    rfl

/-- A failed attempt is counted on the record addressed and in the last failure (R36, R81). -/
theorem countFailed_does (reason : FailReason) (x : Exchange) (s : State) :
    { countFailed x s with ee := { (countFailed x s).ee with lastFailure := { reason, address := x.address } } } =
      failureCounted reason x s := by
  unfold failureCounted
  by_cases h : x.address = 0
  · rw [countFailed, if_pos h]
    simp [h]
  · rw [countFailed, if_neg h]
    simp only [updateStation, StationTable.update, ne_eq, h, not_false_eq_true, true_and, beq_iff_eq]

end Sys2Proof.Machine
end

