-- ==== Sys2Proof/Laws/Line.lean ====
section
/-! SUPPORT. What the events of the line and of the scheduler can do, said once: each is made of a few moves, so a
property that every move keeps is kept by every such event. -/

namespace Sys2Proof.Machine

/-- A change of a record that leaves its address and its standing. -/
def KeepsStanding (f : StationRecord → StationRecord) : Prop :=
  ∀ r, (f r).address = r.address ∧ (f r).state = r.state ∧ (f r).leave = r.leave ∧ (f r).missCount = r.missCount

/-- A change of an entry that leaves what SUBMIT set (R86). -/
def KeepsMessage (f : OutboundEntry → OutboundEntry) : Prop :=
  ∀ e, (f e).tag = e.tag ∧ (f e).destination = e.destination ∧ (f e).payload = e.payload

/-- A property that every move of a line event keeps. -/
structure KeptByLine (P : State → Prop) : Prop where
  /-- The scheduler's work between two exchanges. -/
  scheduler : ∀ s t, apartFromScheduler t = apartFromScheduler s → P s → P t
  /-- Any change of the Exchange Engine. -/
  engine : ∀ s e, P s → P { s with ee := e }
  /-- A latched cause. -/
  latched : ∀ s l, P s → P { s with rw := { s.rw with latched := l } }
  /-- The line mode and the stop cause. -/
  lineMode : ∀ s m c, P s → P { s with lc := { s.lc with mode := m, stopCause := c } }
  /-- The outcome of an announcement (R151). -/
  announcement : ∀ s good, P s → P { s with lc := s.lc.announcementEnds good }
  /-- A field of a record that is no part of its standing. -/
  station : ∀ s a f, KeepsStanding f → P s → P (updateStation a f s)
  /-- The result of a turn (R24 to R28). -/
  turnResult : ∀ s result a, P s → P (applyTurnResult result a s)
  /-- The completion of a leave pending (R29). -/
  leave : ∀ s a, P s → P (completeLeave a s)
  /-- The completion of entries (R93). -/
  complete : ∀ s p o, P s → P (completeWhere p o s)
  /-- The fields of an entry that change while it is carried. -/
  entry : ∀ s tag f, KeepsMessage f → P s → P (updateEntry tag f s)
  /-- The admission of a REPORT (R107). -/
  report : ∀ s t a payload, admitReport a payload s = some t → P s → P t
  /-- An arrival taken by the Attention Unit (R119 to R121). -/
  arrival : ∀ s u a l c, s.au.arrive a l c = some u → P s → P { s with au := u }
  /-- A controller event lost (R121, R123). -/
  overrun : ∀ s, P s → P { s with au := { s.au with overrun := true } }

namespace KeptByLine

variable {P : State → Prop} (k : KeptByLine P)
include k

theorem turn (s : State) (q : Scheduler) (h : P s) : P { s with ps := q } := k.scheduler s _ rfl h

theorem event {a : Address} {l : BitVec 2} {c : Byte} {s : State} (h : P s) : P (controllerEvent a l c s) := by
  unfold controllerEvent
  cases hu : s.au.arrive a l c with
  | none => exact k.overrun s h
  | some u => exact k.arrival s u a l c hu h

theorem requeued {tag : Byte} {s : State} (h : P s) : P (requeueEntry tag s) :=
  k.entry s tag _ (fun _ => ⟨rfl, rfl, rfl⟩) h

theorem deferred {tag : Byte} {s : State} (h : P s) : P (deferEntry tag s) := by
  unfold deferEntry
  have h1 := k.entry s tag (fun e => { e with defers := satInc e.defers }) (fun _ => ⟨rfl, rfl, rfl⟩) h
  simp only
  split
  · exact k.complete _ _ _ h1
  · exact k.requeued h1

theorem lineOff {c : StopCause} {s : State} (h : P s) : P (lineOff c s) :=
  k.latched _ _ (k.lineMode s .off c h)

theorem endTurn {result : TurnResult} {s : State} (h : P s) : P (endTurn result s) := by
  unfold Machine.endTurn
  split
  · exact h
  · exact k.turn _ _ (k.leave _ _ (k.turnResult _ _ _ h))

theorem abandonCycle {s : State} (h : P s) : P (abandonCycle s) := k.turn _ _ (k.endTurn h)

theorem startCycle {s : State} (h : P s) : P (startCycle s) := k.scheduler _ _ (apart_startCycle s) h

theorem resume {x : Exchange} {s : State} (h : P s) : P (resume x s) := k.scheduler _ _ (apart_resume x s) h

theorem turnCourse {kind : FrameKind} {o : ExchangeOutcome} {s : State} (h : P s) : P (turnCourse kind o s) := by
  unfold Machine.turnCourse
  split
  all_goals first | exact k.endTurn h | exact k.turn _ _ h

theorem broadcastEnded {o : ExchangeOutcome} {s : State} (h : P s) : P (broadcastEnded o s) := by
  unfold Machine.broadcastEnded
  split
  · simp only
    split
    · exact k.latched _ _ (k.announcement _ _ h)
    · exact k.announcement _ _ h
  · exact h

theorem schedulerTakes {x : Exchange} {o : ExchangeOutcome} {s : State} (h : P s) : P (schedulerTakes x o s) := by
  have h1 : P (if x.address = 0 then Machine.broadcastEnded o s else Machine.turnCourse x.kind o s) := by
    split
    · exact k.broadcastEnded h
    · exact k.turnCourse h
  unfold Machine.schedulerTakes
  simp only
  split
  · exact k.resume h1
  · exact k.abandonCycle (k.lineOff h1)
  · exact k.abandonCycle h1

theorem entryOutcome {x : Exchange} {o : ExchangeOutcome} {s : State} (h : P s) : P (entryOutcome x o s) := by
  unfold Machine.entryOutcome
  split
  · exact h
  · split
    · split
      · exact k.complete _ _ _ h
      · exact h
    · simp only
      split
      · exact k.complete _ _ _ h
      · exact k.station _ _ _ (fun _ => ⟨rfl, rfl, rfl, rfl⟩) (k.complete _ _ _ h)
    all_goals exact k.requeued h

theorem endExchange {x : Exchange} {o : ExchangeOutcome} {s : State} (h : P s) : P (endExchange x o s) :=
  k.schedulerTakes (k.engine _ _ (k.entryOutcome h))

theorem beginAttempt {x : Exchange} {s : State} (h : P s) : P (beginAttempt x s) := by
  unfold Machine.beginAttempt
  simp only
  apply k.engine
  split
  · exact h
  · exact k.entry _ _ _ (fun _ => ⟨rfl, rfl, rfl⟩) h

theorem settleEnds {s : State} (h : P s) : P (settleEnds s) := by
  unfold Machine.settleEnds
  repeat' split
  · exact h
  · exact k.endExchange h
  · exact k.endExchange h
  · exact k.beginAttempt h

theorem attemptCourse {x : Exchange} {s : State} (h : P s) : P (attemptCourse x s) := by
  unfold Machine.attemptCourse
  repeat' split
  · exact k.endExchange h
  · exact k.endExchange h
  · exact k.endExchange h
  · exact k.engine _ _ h

theorem countFailed {x : Exchange} {s : State} (h : P s) : P (countFailed x s) := by
  unfold Machine.countFailed
  split
  · exact h
  · exact k.station _ _ _ (fun _ => ⟨rfl, rfl, rfl, rfl⟩) h

theorem attemptFails {reason : FailReason} {s : State} (h : P s) : P (attemptFails reason s) := by
  unfold Machine.attemptFails
  split
  · exact h
  · exact k.attemptCourse (k.engine _ _ (k.countFailed h))

theorem faultEnds {s : State} (h : P s) : P (faultEnds s) := by
  unfold Machine.faultEnds
  split
  · exact h
  · simp only
    apply k.attemptCourse
    split
    · exact k.lineOff (k.event (k.countFailed (k.engine _ _ h)))
    · exact k.event (k.countFailed (k.engine _ _ h))

theorem accepted {a : Address} {t : Bool} {s : State} (h : P s) : P (acceptUpstream a t s) :=
  k.station _ _ _ (fun _ => ⟨rfl, rfl, rfl, rfl⟩) h

theorem refused {a : Address} {s : State} (h : P s) : P (refuseUpstream a s) :=
  k.station _ _ _ (fun _ => ⟨rfl, rfl, rfl, rfl⟩) h

theorem duplicate {a : Address} {s : State} (h : P s) : P (countDuplicate a s) :=
  k.station _ _ _ (fun _ => ⟨rfl, rfl, rfl, rfl⟩) h

theorem newReport {a : Address} {t : Bool} {payload : List Byte} {s : State} (h : P s) :
    P (newReport a t payload s) := by
  unfold Machine.newReport
  split
  · next u hu => exact k.accepted (k.report s u _ _ hu h)
  · exact k.refused h

theorem newAlert {a : Address} {t : Bool} {payload : List Byte} {s : State} (h : P s) :
    P (newAlert a t payload s) := by
  unfold Machine.newAlert
  split
  · next u hu => exact k.accepted (k.arrival s u _ _ _ hu h)
  · exact k.refused h

theorem replyEffect {x : Exchange} {kind : ReplyKind} {r : Reply} {s : State} (h : P s) :
    P (replyEffect x kind r s) := by
  unfold Machine.replyEffect
  split
  · exact h
  · split
    · exact k.station _ _ _ (fun _ => ⟨rfl, rfl, rfl, rfl⟩) h
    · exact h
  · split
    · exact k.duplicate h
    · exact k.newReport h
  · split
    · exact k.duplicate h
    · exact k.newAlert h
  · simp only
    split
    · exact k.station _ _ _ (fun _ => ⟨rfl, rfl, rfl, rfl⟩) h
    · exact k.complete _ _ _ (k.station _ _ _ (fun _ => ⟨rfl, rfl, rfl, rfl⟩) h)
  · split
    · exact h
    · exact k.deferred h

theorem replyGood {x : Exchange} {r : Reply} {s : State} (h : P s) : P (replyGood x r s) :=
  k.endExchange (k.station _ _ _ (fun _ => ⟨rfl, rfl, rfl, rfl⟩) (k.replyEffect h))

theorem evaluateReply {ending : AssemblyEnd} {s : State} (h : P s) : P (evaluateReply ending s) := by
  unfold Machine.evaluateReply
  split
  · exact h
  · simp only
    split
    · exact k.replyGood h
    · exact k.attemptFails h

theorem frameSent {s : State} (h : P s) : P (frameSent s) := k.engine _ _ h

theorem faultIsFound {b : Bool} {s : State} (h : P s) : P (faultIsFound b s) := by
  unfold Machine.faultIsFound
  split
  · exact k.engine _ _ h
  · exact k.faultEnds h

theorem echoMatches {s : State} (h : P s) : P (echoMatches s) := by
  unfold Machine.echoMatches
  simp only
  repeat' split
  · exact k.frameSent (k.engine _ _ (k.engine _ _ h))
  · exact k.engine _ _ (k.engine _ _ h)
  · exact k.engine _ _ h

theorem echoCheck {c : RxChar} {begun : Nat} {s : State} (h : P s) : P (echoCheck c begun s) := by
  unfold Machine.echoCheck
  split
  · exact k.echoMatches h
  · exact k.faultIsFound h

theorem receiveChar {c : RxChar} {s : State} (h : P s) : P (receiveChar c s) := by
  unfold Machine.receiveChar
  simp only
  repeat' split
  · exact k.evaluateReply h
  · exact k.evaluateReply (k.engine _ _ h)
  · exact k.evaluateReply (k.engine _ _ h)
  · exact k.engine _ _ h

theorem deliver {c : RxChar} {begun : Nat} {s : State} (h : P s) : P (deliver c begun s) := by
  have hu : ∀ e, P { s with ee := e } := fun e => k.engine s e h
  unfold Machine.deliver
  cases hst : s.ee.state <;> simp only [hst]
  · exact hu _
  · exact hu _
  · by_cases hf : s.ee.faultFound = true
    · simp only [if_pos hf]; exact hu _
    · simp only [if_neg hf]; exact k.echoCheck (hu _)
  · by_cases hm : c.mark = true
    · simp only [if_pos hm]; exact hu _
    · simp only [if_neg hm]
      by_cases hr : s.ee.replyTimer = .expired
      · simp only [if_pos hr]; exact k.attemptFails (k.engine _ _ (hu _))
      · simp only [if_neg hr]; exact hu _
  · exact k.receiveChar (hu _)
  · exact hu _

theorem falseStartFound {s : State} (h : P s) : P (falseStartFound s) := by
  unfold Machine.falseStartFound
  simp only
  have hu := k.engine s { s.ee with receiver := .hunting } h
  repeat' split
  · exact k.settleEnds hu
  · exact hu
  · exact k.attemptFails hu
  · exact hu
  · exact k.evaluateReply hu
  all_goals exact hu

omit k in
theorem whenRunning {f : State → State} {s t : State} (hf : P s → P (f s)) (ht : whenRunning f s = .next t)
    (h : P s) : P t := by
  unfold Machine.whenRunning at ht
  cases ht
  split
  · exact h
  · exact hf h

/-- What a tick does in the pause timer (R57). -/
theorem tickPause {s : State} (h : P s) : P (tickPause s) := by
  unfold Machine.tickPause
  split
  · exact k.startCycle h
  · exact k.turn _ _ h

/-- The events of the line, of the receiver and of the cycle, in which a property kept by every move is kept. -/
theorem lineEvent {c : Instr} {s t : State} (ht : exec c s = .next t)
    (hc : c = .pauseExpiry ∨ (∃ cause, c = .settleEnd cause) ∨ (∃ delivery, c = .characterDelivered delivery) ∨
      c = .echoMissing ∨ c = .faultedAttemptEnd ∨ c = .replyTimeout ∨ c = .gapTimeout ∨ c = .quietEnd ∨
      c = .startBitFound ∨ c = .falseStart ∨ c = .lineReturnsTo1 ∨ c = .endOfLastStopBit) (h : P s) : P t := by
  rcases hc with rfl | ⟨cause, rfl⟩ | ⟨delivery, rfl⟩ | rfl | rfl | rfl | rfl | rfl | rfl | rfl | rfl | rfl
  · refine whenRunning (fun h => ?_) ht h
    split
    · exact k.startCycle h
    · exact h
  · refine whenRunning (fun h => ?_) ht h
    unfold settleEvent
    split
    · split
      · exact k.engine _ _ h
      · exact k.settleEnds h
    · exact h
  · refine whenRunning (fun h => ?_) ht h
    split
    · split
      · exact k.falseStartFound h
      · exact k.deliver h
    · exact h
  · refine whenRunning (fun h => ?_) ht h
    split
    · exact k.faultIsFound h
    · exact h
  · refine whenRunning (fun h => ?_) ht h
    split
    · exact k.faultEnds h
    · exact h
  · refine whenRunning (fun h => ?_) ht h
    split
    · split
      · exact k.engine _ _ h
      · exact k.attemptFails h
    · exact h
  · refine whenRunning (fun h => ?_) ht h
    split
    · split
      · exact k.engine _ _ h
      · exact k.evaluateReply h
    · exact h
  · refine whenRunning (fun h => ?_) ht h
    unfold endGood
    split
    · split
      · exact h
      · exact k.endExchange h
    · exact h
  · refine whenRunning (fun h => ?_) ht h
    split
    · exact k.engine _ _ h
    · exact h
  · refine whenRunning (fun h => ?_) ht h
    split
    · exact k.falseStartFound h
    · exact h
  · refine whenRunning (fun h => ?_) ht h
    split
    · exact k.engine _ _ h
    · exact h
  · refine whenRunning (fun h => ?_) ht h
    unfold lastStopBit
    repeat' split
    · exact k.frameSent h
    · exact k.engine _ _ h
    · exact h
    · exact h

end KeptByLine

/-- A property that takes no part of the Station Table is kept by every move that it is kept by apart from the table. -/
theorem KeptByLine.ofTableFree {P : State → Prop}
    (scheduler : ∀ s t, apartFromScheduler t = apartFromScheduler s → P s → P t)
    (table : ∀ s st, P s → P { s with st := st }) (engine : ∀ s e, P s → P { s with ee := e })
    (latched : ∀ s l, P s → P { s with rw := { s.rw with latched := l } })
    (lineMode : ∀ s m c, P s → P { s with lc := { s.lc with mode := m, stopCause := c } })
    (announcement : ∀ s good, P s → P { s with lc := s.lc.announcementEnds good })
    (complete : ∀ s p o, P s → P (completeWhere p o s))
    (entry : ∀ s tag f, KeepsMessage f → P s → P (updateEntry tag f s))
    (report : ∀ s t a payload, admitReport a payload s = some t → P s → P t)
    (arrival : ∀ s u a l c, s.au.arrive a l c = some u → P s → P { s with au := u })
    (overrun : ∀ s, P s → P { s with au := { s.au with overrun := true } }) : KeptByLine P := by
  have event : ∀ a l c s, P s → P (controllerEvent a l c s) := by
    intro a l c s h
    unfold controllerEvent
    cases hu : s.au.arrive a l c with
    | none => exact overrun s h
    | some u => exact arrival s u a l c hu h
  have leavePoll : ∀ a s, P s → P (leavePollList a s) := fun a s h =>
    let st := { s.st with pollList := s.st.pollList.filter (fun x => x != a) }
    scheduler { s with st := st } _ rfl (table s st h)
  refine ⟨scheduler, engine, latched, lineMode, announcement, fun s a f _ h => table s _ h, ?_, ?_, complete, entry,
    report, arrival, overrun⟩
  · intro s result a h
    unfold applyTurnResult
    split
    · exact h
    · split
      · unfold turnSuccess
        simp only
        split
        · exact event _ _ _ _ (table s _ h)
        · exact table s _ h
      · unfold turnMiss
        split
        · exact h
        · split
          · exact complete _ _ _ (event _ _ _ _ (table s _ h))
          · exact table s _ h
      · exact h
  · intro s a h
    unfold completeLeave
    split
    · exact h
    · split
      · exact h
      · exact latched _ _ (table _ _ (leavePoll _ _ (complete _ _ _ h)))
      · exact latched _ _ (table _ _ (leavePoll _ _ h))

end Sys2Proof.Machine
end

