-- ==== Sys2Proof/Laws/Rest.lean ====
section
/-! SUPPORT. Where the scheduler's work between two exchanges ends: an exchange handed, or a pause begun, with the laws of
the line, of the entries and of the walk. -/

namespace Sys2Proof.Machine

/-- What the scheduler finds between two exchanges: the engine idle, every entry QUEUED, tags that differ, and the laws of
the walk and of leaving. -/
structure Ready (s : State) : Prop where
  idle : s.ee.state = .idle
  noExchange : s.ee.exchange = none
  queued : ∀ e ∈ s.oq, e.status = .queued ∧ e.attempts = 0
  tags : s.oq.Pairwise (fun e f => e.tag ≠ f.tag)
  walk : WalkLaw s
  leave : LeaveLaw s
  turn : s.ps.turn ≠ none → s.ps.phase = .walking

/-- What the scheduler leaves: pausing without an exchange, or an exchange in SETTLE that the turn in progress owns. -/
structure Rested (t : State) : Prop where
  pausing : t.ps.phase = .pausing ↔ t.ee.exchange = none
  phase : t.ps.phase ≠ .none
  idle : t.ee.state = .idle ↔ t.ee.exchange = none
  engine : t.ee.state = .idle ∨ t.ee.state = .settle
  owned : ∀ x, t.ee.exchange = some x → x.address ≠ 0 → inTurn t x.address = true
  entry : EntryLaw t
  walk : WalkLaw t
  leave : LeaveLaw t
  turn : t.ps.turn ≠ none → t.ps.phase = .walking

/-! ### Handing -/

/-- An exchange without an entry is handed. -/
theorem rested_hand {k : FrameKind} {a : Address} {n : Nat} {s : State} (h : Ready s)
    (hp : s.ps.phase = .opening ∨ s.ps.phase = .walking) (ha : a ≠ 0 → inTurn s a = true) :
    Rested (handExchange k a none n s) := by
  refine ⟨?_, ?_, ?_, .inr rfl, ?_, ⟨?_, ?_, ?_⟩, h.walk, h.leave, h.turn⟩
  · rcases hp with hp | hp <;> simp [handExchange, hp]
  · rcases hp with hp | hp <;> simp [handExchange, hp]
  · simp [handExchange]
  · rintro x hx; cases hx; exact ha
  · intro e he hf; simp [(h.queued e he).1] at hf
  · intro e he _; exact (h.queued e he).2
  · intro x tag hx ht; cases hx; cases ht

/-- The announcement is handed. -/
theorem rested_announcement {s : State} (h : Ready s) (hp : s.ps.phase = .opening ∨ s.ps.phase = .walking) :
    Rested (handAnnouncement s) :=
  rested_hand (s := { s with lc := { s.lc with inFlight := some false } })
    ⟨h.idle, h.noExchange, h.queued, h.tags, h.walk, h.leave, h.turn⟩ hp (fun h => absurd rfl h)

/-- A WRITE of an entry is handed. -/
theorem rested_write {e : OutboundEntry} {n : Nat} {s : State} (h : Ready s) (he : e ∈ s.oq)
    (hp : s.ps.phase = .opening ∨ s.ps.phase = .walking) (ha : e.destination ≠ 0 → inTurn s e.destination = true) :
    Rested (handExchange .write e.destination (some e.tag) n (sendEntry e.tag s)) := by
  have hmem : ∀ f ∈ (sendEntry e.tag s).oq,
      f = { e with status := .inFlight, attempts := 0 } ∨ (f ∈ s.oq ∧ f.tag ≠ e.tag) := by
    intro f hf
    obtain ⟨d, hd, rfl⟩ := (mem_updateEntry).1 hf
    by_cases ht : d.tag = e.tag
    · have hde : d = e := by
        by_contra hne
        rcases List.mem_iff_getElem.1 hd with ⟨i, hi, rfl⟩
        rcases List.mem_iff_getElem.1 he with ⟨j, hj, rfl⟩
        rcases Nat.lt_trichotomy i j with hij | rfl | hij
        · exact List.pairwise_iff_getElem.1 h.tags i j hi hj hij ht
        · exact hne rfl
        · exact List.pairwise_iff_getElem.1 h.tags j i hj hi hij ht.symm
      subst hde; simp
    · simp [ht, hd]
  have hin : { e with status := .inFlight, attempts := 0 } ∈ (sendEntry e.tag s).oq :=
    mem_updateEntry.2 ⟨e, he, by simp⟩
  refine ⟨?_, ?_, ?_, .inr rfl, ?_, ⟨?_, ?_, ?_⟩, h.walk, h.leave, h.turn⟩
  · rcases hp with hp | hp <;> simp [handExchange, sendEntry, hp]
  · rcases hp with hp | hp <;> simp [handExchange, sendEntry, hp]
  · simp [handExchange]
  · rintro x hx; cases hx; exact ha
  · intro f hf hs
    rcases hmem f hf with rfl | ⟨hf', _⟩
    · exact ⟨_, rfl, rfl, rfl, rfl⟩
    · simp [(h.queued f hf').1] at hs
  · intro f hf hs
    rcases hmem f hf with rfl | ⟨hf', _⟩
    · cases hs
    · exact (h.queued f hf').2
  · intro x tag hx ht
    cases hx; cases ht
    exact ⟨_, hin, rfl, rfl, rfl⟩

/-- A pause begins. -/
theorem rested_pause {n : Byte} {s : State} (h : Ready s) (ht : s.ps.turn = none) : Rested (startPause n s) := by
  refine ⟨?_, ?_, ?_, .inl h.idle, ?_, ⟨?_, ?_, ?_⟩, h.walk, h.leave, fun k => absurd ht k⟩
  · simp [startPause, h.noExchange]
  · simp [startPause]
  · simp [startPause, h.idle, h.noExchange]
  · intro x hx; simp [startPause, h.noExchange] at hx
  · intro e he hf; simp [(h.queued e he).1] at hf
  · intro e he _; exact (h.queued e he).2
  · intro x tag hx; simp [startPause, h.noExchange] at hx

/-! ### The turn -/

/-- The stage of a turn is no part of the laws. -/
theorem ready_atStage {g : Stage} {s : State} (h : Ready s) : Ready (atStage g s) := by
  have hin : ∀ a, inTurn (atStage g s) a = inTurn s a := by
    intro a; cases ht : s.ps.turn <;> simp [inTurn, atStage, ht]
  refine ⟨h.idle, h.noExchange, h.queued, h.tags, ⟨h.walk.1, ?_⟩, ?_, ?_⟩
  · intro t ht
    cases hs : s.ps.turn with
    | none => simp [atStage, hs] at ht
    | some u =>
      simp only [atStage, hs, Option.map_some, Option.some.injEq] at ht
      subst ht
      exact h.walk.2 u hs
  · intro r hr hl; rw [hin]; exact h.leave r hr hl
  · intro ht
    apply h.turn
    intro k; exact ht (by simp [atStage, k])

/-- The POLL of a turn is handed. -/
theorem rested_handPoll {t : Turn} {s : State} (h : Ready s) (ht : s.ps.turn = some t) : Rested (handPoll t s) := by
  have hp := h.turn (by simp [ht])
  exact rested_hand (ready_atStage h) (.inr hp) (fun _ => by simp [inTurn, atStage, ht])

/-- The exchange of the next stage is handed. -/
theorem rested_handStage {t : Turn} {s : State} (h : Ready s) (ht : s.ps.turn = some t) : Rested (handStage t s) := by
  have hp := h.turn (by simp [ht])
  unfold handStage
  split
  · exact rested_hand (ready_atStage h) (.inr hp) (fun _ => by simp [inTurn, atStage, ht])
  · split
    · next e he =>
      have hf : s.oq.find? (fun e => e.destination == t.address) = some e := by
        unfold writeStageEntry at he
        split at he
        · cases he
        · exact he
      have ha : e.destination = t.address := by simpa using List.find?_some hf
      rw [← ha]
      exact rested_write (ready_atStage h) (List.mem_of_find?_eq_some hf) (.inr hp)
        (fun _ => by simp [inTurn, atStage, ht, ha])
    · exact rested_handPoll h ht
  · exact rested_handPoll h ht

/-- A boundary of a turn ends in a handing. -/
theorem rested_decideTurn {t : Turn} {s : State} (h : Ready s) (ht : s.ps.turn = some t) : Rested (decideTurn t s) := by
  unfold decideTurn
  split
  · exact rested_announcement h (.inr (h.turn (by simp [ht])))
  · exact rested_handStage h ht

/-- A station found due begins its turn. -/
theorem rested_beginTurn {r : StationRecord} {k : TurnKind} {s : State} (h : Ready s) (ht : s.ps.turn = none)
    (hp : s.ps.phase = .walking) (hr : ∃ q ∈ s.st.records, q.address = r.address ∧ q.state ≠ .parked ∧
      (k = .recovery ↔ q.state = .lost)) : Rested (beginTurn r k s) := by
  refine rested_decideTurn ⟨h.idle, h.noExchange, h.queued, h.tags, ⟨h.walk.1, ?_⟩, ?_, fun _ => hp⟩ rfl
  · intro t k
    cases k
    exact hr
  · intro q hq hl
    have k := h.leave q hq hl
    simp [inTurn, ht] at k

/-! ### The walk -/

/-- A change of a countdown keeps what the scheduler finds. -/
theorem ready_countdown {a : Address} {f : BitVec 4 → StationRecord → BitVec 4} {s : State} (h : Ready s) :
    Ready (updateStation a (fun r => { r with countdown := f r.countdown r }) s) := by
  refine ⟨h.idle, h.noExchange, h.queued, h.tags, ⟨h.walk.1, ?_⟩, ?_, h.turn⟩
  · intro t ht
    obtain ⟨r, hr, ha, hs, hk⟩ := h.walk.2 t ht
    by_cases he : r.address = a
    · exact ⟨{ r with countdown := f r.countdown r }, mem_update.2 ⟨r, hr, by simp [he]⟩, ha, hs, hk⟩
    · exact ⟨r, mem_update.2 ⟨r, hr, by simp [he]⟩, ha, hs, hk⟩
  · intro q hq hl
    obtain ⟨r, hr, rfl⟩ := mem_update.1 hq
    by_cases he : r.address = a
    · simp only [he, if_true] at hl ⊢
      have k := h.leave r hr hl
      rw [he] at k
      exact k
    · simp only [he, if_false] at hl ⊢
      exact h.leave r hr hl

/-- The walk ends in a handing or as its tail does. -/
theorem rested_walkFrom {tail : State → State}
    (hd : ∀ s, Ready s → s.ps.turn = none → s.ps.phase = .walking → Rested (tail s)) :
    ∀ (l : List Address) (s : State), Ready s → s.ps.turn = none → s.ps.phase = .walking →
      (∀ a ∈ l, a ∈ s.st.pollList) → Rested (walkFrom tail l s)
  | [], s, h, ht, hp, _ =>
    hd _ ⟨h.idle, h.noExchange, h.queued, h.tags, ⟨(fun _ k => nomatch k), h.walk.2⟩, h.leave, h.turn⟩ ht hp
  | a :: rest, s, h, ht, hp, hl => by
    have hs : Ready { s with ps := { s.ps with cursor := rest.head? } } := by
      refine ⟨h.idle, h.noExchange, h.queued, h.tags, ⟨fun b k => hl b ?_, h.walk.2⟩, h.leave, h.turn⟩
      exact List.mem_cons_of_mem _ (List.mem_of_mem_head? k)
    have hrest : ∀ b ∈ rest, b ∈ s.st.pollList := fun b hb => hl b (List.mem_cons_of_mem _ hb)
    simp only [walkFrom]
    split
    · exact rested_walkFrom hd rest _ hs ht hp hrest
    · next r hr =>
      have hm : r ∈ s.st.records ∧ r.address = a := find_some hr
      split
      · exact rested_walkFrom hd rest _ hs ht hp hrest
      · next hst =>
        split
        · exact rested_beginTurn hs ht hp ⟨r, hm.1, rfl, by simp [hst], by simp [hst]⟩
        · exact rested_walkFrom hd rest _ hs ht hp hrest
      all_goals
        next hst =>
        split
        · refine rested_beginTurn (ready_countdown (f := fun _ r => r.skip) hs) ht hp ?_
          exact ⟨{ r with countdown := r.skip }, mem_update.2 ⟨r, hm.1, by simp [hm.2]⟩, rfl, by simp [hst],
            by simp [hst]⟩
        · exact rested_walkFrom hd rest _ (ready_countdown (f := fun c _ => c - 1) hs) ht hp hrest

/-- The walk goes on over addresses of the poll list. -/
theorem toVisit_subset (s : State) : ∀ a ∈ toVisit s, a ∈ s.st.pollList := by
  intro a ha
  unfold toVisit at ha
  split at ha
  · cases ha
  · exact (List.dropWhile_suffix _).subset ha

/-- The opening's second act ends in a handing, or as the walk does. -/
theorem rested_openingMessage {tail : State → State}
    (hd : ∀ s, Ready s → s.ps.turn = none → s.ps.phase = .walking → Rested (tail s)) {s : State} (h : Ready s)
    (ht : s.ps.turn = none) (hp : s.ps.phase = .opening) : Rested (openingMessage tail s) := by
  unfold openingMessage
  split
  · next e he =>
    split
    · exact rested_announcement h (.inl hp)
    · have hf : s.oq.find? (fun e => e.destination == 0 && e.status == .queued) = some e := by
        split at he
        · cases he
        · exact he
      have hz : e.destination = 0 := by
        have := List.find?_some hf
        simp only [Bool.and_eq_true, beq_iff_eq] at this
        exact this.1
      rw [← hz]
      exact rested_write h (List.mem_of_find?_eq_some hf) (.inl hp) (fun k => absurd hz k)
  · exact rested_walkFrom hd _ _ ⟨h.idle, h.noExchange, h.queued, h.tags, h.walk, h.leave, fun _ => rfl⟩ ht rfl
      (toVisit_subset s)

/-- The tail of a cycle that has handed no exchange. -/
theorem rested_passTailUnhanded {s : State} (h : Ready s) (ht : s.ps.turn = none) (hp : s.ps.phase = .walking) :
    Rested (passTailUnhanded s) := by
  unfold passTailUnhanded
  split
  · exact rested_announcement h (.inr hp)
  · exact rested_pause h ht

/-- A cycle that starts ends in a handing or a pause. -/
theorem rested_startCycle {s : State} (h : Ready s) (ht : s.ps.turn = none) : Rested (startCycle s) := by
  have hr : Ready { s with
      ps := { s.ps with
        cycle := s.ps.cycle + 1, cursor := s.st.pollList.head?, exchangeHanded := false, phase := .opening
        pauseTimer := none } } :=
    ⟨h.idle, h.noExchange, h.queued, h.tags, ⟨fun a k => List.mem_of_mem_head? k, h.walk.2⟩, h.leave,
      fun k => absurd ht k⟩
  unfold startCycle
  simp only
  split
  · exact rested_announcement hr (.inl rfl)
  · split
    · exact rested_hand hr (.inl rfl) (fun k => absurd rfl k)
    · exact rested_openingMessage (fun _ => rested_passTailUnhanded) hr ht rfl

/-- The tail of a walk. -/
theorem rested_passTail {s : State} (h : Ready s) (ht : s.ps.turn = none) (hp : s.ps.phase = .walking) :
    Rested (passTail s) := by
  unfold passTail
  split
  · exact rested_announcement h (.inr hp)
  · split
    · split
      · exact rested_startCycle h ht
      · exact rested_pause h ht
    · exact rested_pause h ht

/-- The scheduler carries on after an exchange in OPENING or WALKING. -/
theorem rested_resume {x : Exchange} {s : State} (h : Ready s) (hp : s.ps.phase = .opening ∨ s.ps.phase = .walking) :
    Rested (resume x s) := by
  have hd : ∀ s, Ready s → s.ps.turn = none → s.ps.phase = .walking → Rested (passTail s) := fun _ => rested_passTail
  have none_of : s.ps.phase = .opening → s.ps.turn = none := by
    intro ho
    by_contra k
    rw [h.turn k] at ho
    cases ho
  unfold resume
  split
  · next ho =>
    split
    · exact rested_walkFrom hd _ _ ⟨h.idle, h.noExchange, h.queued, h.tags, h.walk, h.leave, fun _ => rfl⟩ (none_of ho)
        rfl (toVisit_subset s)
    · exact rested_openingMessage hd h (none_of ho) ho
  · next hw =>
    split
    · next t ht => exact rested_decideTurn h ht
    · next ht => exact rested_walkFrom hd _ _ h ht hw (toVisit_subset s)
  · next ho => rcases hp with hp | hp <;> rw [hp] at ho <;> cases ho
  · next ho => rcases hp with hp | hp <;> rw [hp] at ho <;> cases ho

end Sys2Proof.Machine
end

