-- ==== Sys2Proof/Laws/Outcome.lean ====
section
/-! SUPPORT. From the outcome of an exchange to the next handing, the pause or the stop: what the end of a turn leaves, and
the laws of the line, of leaving, of the entries and of the walk after it. -/

namespace Sys2Proof.Machine

/-! ### The end of a turn -/

/-- A leave is pending at one address alone. -/
def LeavesOnlyAt (a : Address) (s : State) : Prop := ∀ r ∈ s.st.records, r.leave ≠ .absent → r.address = a

/-- The result of a turn changes no leave pending and no address, completes QUEUED entries at most, and leaves the poll
list and the scheduler as they are. -/
theorem applyTurnResult_keeps (result : TurnResult) (a : Address) (s : State) :
    (LeavesOnlyAt a s → LeavesOnlyAt a (applyTurnResult result a s)) ∧
      (s.st.records.Pairwise (fun r q => r.address < q.address) →
        (applyTurnResult result a s).st.records.Pairwise (fun r q => r.address < q.address)) ∧
      (applyTurnResult result a s).oq.Sublist s.oq ∧
      (applyTurnResult result a s).st.pollList = s.st.pollList ∧ (applyTurnResult result a s).ps = s.ps ∧
      (applyTurnResult result a s).ee = s.ee ∧ (applyTurnResult result a s).lc = s.lc := by
  have upd : ∀ (u : State) (b : Address) (f : StationRecord → StationRecord),
      (∀ r, (f r).address = r.address ∧ (f r).leave = r.leave) →
      (LeavesOnlyAt a u → LeavesOnlyAt a (updateStation b f u)) ∧
      (u.st.records.Pairwise (fun r q => r.address < q.address) →
        (updateStation b f u).st.records.Pairwise (fun r q => r.address < q.address)) := by
    intro u b f hf
    refine ⟨fun h r hr hl => ?_, fun h => ?_⟩
    · obtain ⟨q, hq, rfl⟩ := mem_update.1 hr
      by_cases he : q.address = b
      · simp only [he, if_true, (hf q).1, (hf q).2] at hl ⊢
        exact he ▸ h q hq hl
      · simp only [he, if_false] at hl ⊢
        exact h q hq hl
    · refine List.pairwise_map.2 (h.imp fun {r q} hrq => ?_)
      have k : ∀ r : StationRecord, (if r.address == b then f r else r).address = r.address := by
        intro r; split <;> simp [(hf r).1]
      rw [k, k]; exact hrq
  unfold applyTurnResult
  split
  · exact ⟨id, id, List.Sublist.refl _, rfl, rfl, rfl, rfl⟩
  · next r _ =>
    cases result
    · simp only [turnSuccess]
      have k := upd s r.address (fun r =>
        { r with missCount := 0, state := if r.state = .parked then .parked else .online }) (fun _ => ⟨rfl, rfl⟩)
      split <;> exact ⟨k.1, k.2, List.Sublist.refl _, rfl, rfl, rfl, rfl⟩
    · simp only [turnMiss]
      split
      · exact ⟨id, id, List.Sublist.refl _, rfl, rfl, rfl, rfl⟩
      · split
        · have k := upd s r.address (fun r =>
            { r with state := .lost, syncPending := true, missCount := s.cfg.missLimit }) (fun _ => ⟨rfl, rfl⟩)
          exact ⟨k.1, k.2, List.filter_sublist, rfl, rfl, rfl, rfl⟩
        · have k := upd s r.address (fun r => { r with state := .suspect, missCount := r.missCount + 1 })
            (fun _ => ⟨rfl, rfl⟩)
          exact ⟨k.1, k.2, List.Sublist.refl _, rfl, rfl, rfl, rfl⟩
    · exact ⟨id, id, List.Sublist.refl _, rfl, rfl, rfl, rfl⟩

/-- A walk cursor stays on the poll list when an address leaves it. -/
theorem cursor_leavePollList {a : Address} {s : State} (hn : s.st.pollList.Nodup)
    (h : ∀ b, s.ps.cursor = some b → b ∈ s.st.pollList) :
    ∀ b, (leavePollList a s).ps.cursor = some b → b ∈ (leavePollList a s).st.pollList := by
  intro b hb
  simp only [leavePollList] at hb ⊢
  split at hb
  · next hc =>
    have k := following_mem hn hb
    exact List.mem_filter.2 ⟨k.1, by simpa using k.2⟩
  · next hc =>
    refine List.mem_filter.2 ⟨h b hb, ?_⟩
    have : b ≠ a := fun e => hc (e ▸ hb)
    simpa using this

/-- The completion of a leave leaves none pending, where the only one pending was at this address. -/
theorem completeLeave_keeps {a : Address} {s : State}
    (hs : s.st.records.Pairwise (fun r q => r.address < q.address)) (hl : LeavesOnlyAt a s)
    (hn : s.st.pollList.Nodup) (hc : ∀ b, s.ps.cursor = some b → b ∈ s.st.pollList) :
    (∀ r ∈ (completeLeave a s).st.records, r.leave = .absent) ∧
      (∀ b, (completeLeave a s).ps.cursor = some b → b ∈ (completeLeave a s).st.pollList) ∧
      (completeLeave a s).oq.Sublist s.oq ∧ (completeLeave a s).ps.phase = s.ps.phase ∧
      (completeLeave a s).ee = s.ee ∧ (completeLeave a s).lc = s.lc := by
  have other : ∀ r ∈ s.st.records, r.address ≠ a → r.leave = .absent := by
    intro r hr hne
    by_contra k
    exact hne (hl r hr k)
  have k := cursor_leavePollList (a := a) hn hc
  unfold completeLeave
  split
  · next hf =>
    exact ⟨fun r hr => other r hr (find_none.1 hf r hr), hc, List.Sublist.refl _, rfl, rfl, rfl⟩
  · next r hf =>
    have hr := find_some hf
    split
    · next habs =>
      refine ⟨fun q hq => ?_, hc, List.Sublist.refl _, rfl, rfl, rfl⟩
      by_cases hqa : q.address = a
      · have e := find_of_mem hs hq
        rw [hqa, hf] at e
        cases e; exact habs
      · exact other q hq hqa
    · refine ⟨fun q hq => ?_, k, List.filter_sublist, rfl, rfl, rfl⟩
      have m := List.mem_filter.1 (show q ∈ s.st.records.filter (fun r => r.address != a) from hq)
      exact other q m.1 (by simpa using m.2)
    · refine ⟨fun q hq => ?_, k, List.Sublist.refl _, rfl, rfl, rfl⟩
      obtain ⟨p, hp, rfl⟩ := mem_update.1 (show q ∈ ((leavePollList a s).st.update a _).records from hq)
      by_cases hpa : p.address = a
      · simp [hpa]
      · simp only [hpa, if_false]
        exact other p hp hpa

/-- What the end of a turn leaves: no turn, no leave pending, the cursor on the poll list, the phase as it was. -/
theorem ready_endTurn {result : TurnResult} {s : State} (h : Ready s) (ht : TableLaw s) (hn : s.st.pollList.Nodup) :
    Ready (endTurn result s) ∧ (endTurn result s).ps.turn = none ∧ (endTurn result s).ps.phase = s.ps.phase ∧
      (endTurn result s).lc = s.lc ∧ (endTurn result s).ee = s.ee := by
  unfold endTurn
  split
  · next k => exact ⟨h, k, rfl, rfl, rfl⟩
  · next t k =>
    have hl : LeavesOnlyAt t.address s := by
      intro r hr hne
      obtain ⟨u, hu, ha⟩ := inTurn_iff.1 (h.leave r hr hne)
      rw [k] at hu; cases hu; exact ha.symm
    obtain ⟨a1, a2, a3, a4, a5, a6, a7⟩ := applyTurnResult_keeps result t.address s
    obtain ⟨c1, c2, c3, c4, c5, c6⟩ := completeLeave_keeps (a2 ht.1) (a1 hl) (a4 ▸ hn)
      (fun b hb => a4 ▸ h.walk.1 b (by rw [← a5]; exact hb))
    have hsub := c3.trans a3
    refine ⟨⟨?_, ?_, ?_, ?_, ⟨c2, fun _ k => nomatch k⟩, ?_, fun k => absurd rfl k⟩, rfl, ?_, ?_, ?_⟩
    · exact (by rw [c5, a6]; exact h.idle)
    · exact (by rw [c5, a6]; exact h.noExchange)
    · exact fun e he => h.queued e (hsub.subset he)
    · exact h.tags.sublist hsub
    · exact fun r hr hne => absurd (c1 r hr) hne
    · exact c4.trans (by rw [a5])
    · exact c6.trans a7
    · exact c5.trans a6

/-! ### The laws where the scheduler comes to rest -/

/-- The laws of the line, of leaving, of the entries and of the walk. -/
def CourseLaws (t : State) : Prop := LineLaw t ∧ LeaveLaw t ∧ EntryLaw t ∧ WalkLaw t

/-- A running line at rest keeps the laws. -/
theorem courseLaws_of_rested {t : State} (h : Rested t) (hm : t.lc.mode = .run) (hd : t.ee.driverEnable = false) :
    CourseLaws t := by
  refine ⟨⟨?_, ?_, ?_, ?_, h.turn, h.idle, ?_, ?_, h.owned⟩, h.leave, h.entry, h.walk⟩
  · simp [hm, h.phase]
  · simp [hm]
  · simp [hm]
  · simp [hm, h.pausing]
  · rcases h.engine with k | k <;> simp [hd, k]
  · rcases h.engine with k | k <;> simp [k]

/-- A line that is OFF, without a turn, keeps the laws. -/
theorem courseLaws_of_off {t : State} (h : Ready t) (hm : t.lc.mode = .off) (hp : t.ps.phase = .none)
    (ht : t.ps.turn = none) (hd : t.ee.driverEnable = false) : CourseLaws t := by
  refine ⟨⟨?_, ?_, ?_, ?_, ?_, ?_, ?_, ?_, ?_⟩, h.leave, ⟨?_, ?_, ?_⟩, h.walk⟩
  · simp [hm, hp]
  · simp [h.noExchange, ht]
  · simp [hm]
  · simp [hm, hp]
  · simp [ht]
  · simp [h.idle, h.noExchange]
  · simp [hd, h.idle]
  · simp [h.idle]
  · simp [h.noExchange]
  · intro e he hf; simp [(h.queued e he).1] at hf
  · intro e he _; exact (h.queued e he).2
  · intro x tag hx; simp [h.noExchange] at hx

/-- The abandonment of a cycle with the line OFF leaves the laws (R59). -/
theorem courseLaws_abandonCycle {s : State} (h : Ready s)
    (ht : s.ps.turn ≠ none → TableLaw s ∧ s.st.pollList.Nodup) (hm : s.lc.mode = .off)
    (hd : s.ee.driverEnable = false) : CourseLaws (abandonCycle s) := by
  obtain ⟨r, e1, e2, e3, e4⟩ : Ready (endTurn .unfinished s) ∧ (endTurn .unfinished s).ps.turn = none ∧
      (endTurn .unfinished s).ps.phase = s.ps.phase ∧ (endTurn .unfinished s).lc = s.lc ∧
      (endTurn .unfinished s).ee = s.ee := by
    by_cases k : s.ps.turn = none
    · have e : endTurn .unfinished s = s := by simp [endTurn, k]
      rw [e]
      exact ⟨h, k, rfl, rfl, rfl⟩
    · exact ready_endTurn h (ht k).1 (ht k).2
  refine courseLaws_of_off ⟨r.idle, r.noExchange, r.queued, r.tags, ⟨(fun _ k => nomatch k), r.walk.2⟩, r.leave,
    fun k => absurd e1 k⟩ ?_ rfl e1 ?_
  · exact (congrArg LineControl.mode e3).trans hm
  · exact (congrArg Engine.driverEnable e4).trans hd

/-! ### The end of an exchange -/

/-- What holds when an exchange ends with an outcome: the entry it carries is the only one that can be IN-FLIGHT, and a
good addressed exchange has dealt with it. -/
structure Ending (x : Exchange) (o : ExchangeOutcome) (s : State) : Prop where
  inFlight : ∀ e ∈ s.oq, e.status = .inFlight → x.entry = some e.tag ∧ (o = .good → x.address = 0)
  queued : ∀ e ∈ s.oq, e.status = .queued → e.attempts = 0
  tags : s.oq.Pairwise (fun e f => e.tag ≠ f.tag)
  walk : WalkLaw s
  leave : LeaveLaw s
  turn : s.ps.turn ≠ none → s.ps.phase = .walking
  table : TableLaw s
  pollList : s.st.pollList.Nodup
  running : s.lc.mode = .run → s.ps.phase = .opening ∨ s.ps.phase = .walking

/-- After the entry's part and the discarding of the record the scheduler finds what it expects. -/
theorem ready_discardExchange {x : Exchange} {o : ExchangeOutcome} {s : State} (h : Ending x o s) :
    Ready (discardExchange (entryOutcome x o s)) ∧ TableLaw (entryOutcome x o s) ∧
      (entryOutcome x o s).st.pollList = s.st.pollList ∧ (entryOutcome x o s).ps = s.ps ∧
      (entryOutcome x o s).lc = s.lc := by
  have gone : ∀ (tag : Byte) (m : MessageOutcome), x.entry = some tag →
      ∀ e ∈ (completeTag tag m s).oq, e.status = .queued ∧ e.attempts = 0 := by
    intro tag m hx e he
    have k := List.mem_filter.1 he
    have hs : e.status = .queued := by
      cases hst : e.status with
      | queued => rfl
      | inFlight =>
        have := (h.inFlight e k.1 hst).1
        rw [hx] at this
        cases this
        simp at k
    exact ⟨hs, h.queued e k.1 hs⟩
  have again : ∀ tag, x.entry = some tag → ∀ e ∈ (requeueEntry tag s).oq, e.status = .queued ∧ e.attempts = 0 := by
    intro tag hx e he
    obtain ⟨d, hd, rfl⟩ := mem_updateEntry.1 he
    by_cases ht : d.tag = tag
    · simp [ht]
    · simp only [ht, if_false]
      have hs : d.status = .queued := by
        cases hst : d.status with
        | queued => rfl
        | inFlight =>
          have := (h.inFlight d hd hst).1
          rw [hx] at this
          cases this
          exact absurd rfl ht
      exact ⟨hs, h.queued d hd hs⟩
  have plain : (∀ e ∈ s.oq, e.status ≠ .inFlight) → ∀ e ∈ s.oq, e.status = .queued ∧ e.attempts = 0 := by
    intro hno e he
    have hs : e.status = .queued := by
      cases hst : e.status with
      | queued => rfl
      | inFlight => exact absurd hst (hno e he)
    exact ⟨hs, h.queued e he hs⟩
  have tagsAgain : ∀ tag, (requeueEntry tag s).oq.Pairwise (fun e f => e.tag ≠ f.tag) := by
    intro tag
    refine List.pairwise_map.2 (h.tags.imp fun {d e} hde => ?_)
    have k : ∀ e : OutboundEntry,
        (if e.tag == tag then { e with status := .queued, attempts := 0 } else e : OutboundEntry).tag = e.tag := by
      intro e; split <;> rfl
    rw [k, k]; exact hde
  unfold entryOutcome
  split
  · next hx =>
    refine ⟨⟨rfl, rfl, plain fun e he hf => ?_, h.tags, h.walk, h.leave, h.turn⟩, h.table, rfl, rfl, rfl⟩
    have := (h.inFlight e he hf).1
    rw [hx] at this; cases this
  · next tag hx =>
    split
    · split
      · exact ⟨⟨rfl, rfl, gone tag .sent hx, h.tags.sublist List.filter_sublist, h.walk, h.leave, h.turn⟩, h.table, rfl,
          rfl, rfl⟩
      · next ha =>
        refine ⟨⟨rfl, rfl, plain fun e he hf => ?_, h.tags, h.walk, h.leave, h.turn⟩, h.table, rfl, rfl, rfl⟩
        exact ha ((h.inFlight e he hf).2 rfl)
    · simp only
      split
      · exact ⟨⟨rfl, rfl, gone tag .failed hx, h.tags.sublist List.filter_sublist, h.walk, h.leave, h.turn⟩, h.table,
          rfl, rfl, rfl⟩
      · have key : ∀ r : StationRecord,
            (if r.address == x.address then { r with syncPending := true } else r : StationRecord).address = r.address ∧
            (if r.address == x.address then { r with syncPending := true } else r : StationRecord).leave = r.leave ∧
            (if r.address == x.address then { r with syncPending := true } else r : StationRecord).state = r.state := by
          intro r; split <;> exact ⟨rfl, rfl, rfl⟩
        refine ⟨⟨rfl, rfl, gone tag .failed hx, h.tags.sublist List.filter_sublist, ⟨h.walk.1, ?_⟩, ?_, h.turn⟩,
          ⟨?_, ?_, ?_⟩, rfl, rfl, rfl⟩
        · intro t ht
          obtain ⟨r, hr, ha, hs, hk⟩ := h.walk.2 t ht
          refine ⟨_, List.mem_map.2 ⟨r, hr, rfl⟩, ?_⟩
          rw [(key r).1, (key r).2.2]
          exact ⟨ha, hs, hk⟩
        · intro q hq hl
          obtain ⟨r, hr, rfl⟩ := List.mem_map.1 hq
          rw [(key r).2.1] at hl
          rw [(key r).1]
          exact h.leave r hr hl
        · refine List.pairwise_map.2 (h.table.1.imp fun {r q} hrq => ?_)
          rw [(key r).1, (key q).1]; exact hrq
        · intro q hq
          obtain ⟨r, hr, rfl⟩ := List.mem_map.1 hq
          rw [(key r).1]
          exact h.table.2.1 r hr
        · show (List.map _ s.st.records).length ≤ 32
          rw [List.length_map]
          exact h.table.2.2
    all_goals
      exact ⟨⟨rfl, rfl, again tag hx, tagsAgain tag, h.walk, h.leave, h.turn⟩, h.table, rfl, rfl, rfl⟩

/-- The next stage of a turn is no part of the laws. -/
theorem ready_toStage {g : Stage} {s : State} (h : Ready s) : Ready (toStage g s) := by
  have hin : ∀ a, inTurn (toStage g s) a = inTurn s a := by
    intro a; cases ht : s.ps.turn <;> simp [inTurn, toStage, ht]
  refine ⟨h.idle, h.noExchange, h.queued, h.tags, ⟨h.walk.1, ?_⟩, ?_, ?_⟩
  · intro t ht
    cases hs : s.ps.turn with
    | none => simp [toStage, hs] at ht
    | some u =>
      simp only [toStage, hs, Option.map_some, Option.some.injEq] at ht
      subst ht
      exact h.walk.2 u hs
  · intro r hr hl; rw [hin]; exact h.leave r hr hl
  · intro ht
    apply h.turn
    intro k; exact ht (by simp [toStage, k])

/-- The turn takes the outcome of one of its exchanges. -/
theorem ready_turnCourse {k : FrameKind} {o : ExchangeOutcome} {s : State} (h : Ready s) (ht : TableLaw s)
    (hn : s.st.pollList.Nodup) :
    Ready (turnCourse k o s) ∧ (turnCourse k o s).ps.phase = s.ps.phase ∧ (turnCourse k o s).lc = s.lc ∧
      (turnCourse k o s).ee = s.ee ∧ ((turnCourse k o s).ps.turn = none ∨ (turnCourse k o s).st = s.st) := by
  have e : ∀ r, Ready (endTurn r s) ∧ (endTurn r s).ps.phase = s.ps.phase ∧ (endTurn r s).lc = s.lc ∧
      (endTurn r s).ee = s.ee ∧ ((endTurn r s).ps.turn = none ∨ (endTurn r s).st = s.st) := fun r =>
    have k := ready_endTurn (result := r) h ht hn
    ⟨k.1, k.2.2.1, k.2.2.2.1, k.2.2.2.2, .inl k.2.1⟩
  unfold turnCourse
  split
  all_goals first | exact e _ | exact ⟨ready_toStage h, rfl, rfl, rfl, .inr rfl⟩

/-- A broadcast's outcome touches Line Control and HOLDSENT alone. -/
theorem broadcastEnded_keeps (o : ExchangeOutcome) (s : State) :
    (broadcastEnded o s).ps = s.ps ∧ (broadcastEnded o s).ee = s.ee ∧ (broadcastEnded o s).oq = s.oq ∧
      (broadcastEnded o s).st = s.st ∧ (broadcastEnded o s).lc.mode = s.lc.mode := by
  unfold broadcastEnded
  split
  · simp only
    split <;> exact ⟨rfl, rfl, rfl, rfl, rfl⟩
  · exact ⟨rfl, rfl, rfl, rfl, rfl⟩

/-- Wherever an exchange ends, what follows keeps the laws of the line, of leaving, of the entries and of the walk: the
next exchange is handed, a pause begins, a stop is completed or the cycle is abandoned. -/
theorem courseLaws_endExchange {x : Exchange} {o : ExchangeOutcome} {s : State} (h : Ending x o s) :
    CourseLaws (endExchange x o s) := by
  obtain ⟨r, t, p, q, l⟩ := ready_discardExchange h
  have key : ∀ u : State, u = discardExchange (entryOutcome x o s) → CourseLaws (schedulerTakes x o u) := by
    intro u hu
    have hr : Ready u := hu ▸ r
    have htab : TableLaw u := by rw [hu]; exact t
    have hn : u.st.pollList.Nodup := by rw [hu]; exact p ▸ h.pollList
    have hmode : u.lc.mode = s.lc.mode := by rw [hu]; exact congrArg LineControl.mode l
    have hphase : u.ps.phase = s.ps.phase := by rw [hu]; exact congrArg Scheduler.phase q
    have hde : u.ee.driverEnable = false := by rw [hu]; rfl
    obtain ⟨w, m1, m2, m3, m4, m5, m6⟩ : ∃ v, (if x.address = 0 then broadcastEnded o u else turnCourse x.kind o u) = v ∧
        Ready v ∧ v.ps.phase = u.ps.phase ∧ v.lc.mode = u.lc.mode ∧ v.ee.driverEnable = false ∧
        (v.ps.turn ≠ none → TableLaw v ∧ v.st.pollList.Nodup) := by
      refine ⟨_, rfl, ?_⟩
      split
      · obtain ⟨b1, b2, b3, b4, b5⟩ := broadcastEnded_keeps o u
        have hin : ∀ a, inTurn (broadcastEnded o u) a = inTurn u a := fun a => by simp [inTurn, b1]
        refine ⟨⟨?_, ?_, ?_, ?_, ⟨?_, ?_⟩, ?_, ?_⟩, by rw [b1], b5, by rw [b2]; exact hde, fun _ => ⟨?_, ?_⟩⟩
        · rw [b2]; exact hr.idle
        · rw [b2]; exact hr.noExchange
        · rw [b3]; exact hr.queued
        · rw [b3]; exact hr.tags
        · rw [b1, b4]; exact hr.walk.1
        · rw [b1, b4]; exact hr.walk.2
        · intro q hq hl; rw [hin]; rw [b4] at hq; exact hr.leave q hq hl
        · rw [b1]; exact hr.turn
        · unfold TableLaw; rw [b4]; exact htab
        · rw [b4]; exact hn
      · obtain ⟨c1, c2, c3, c4, c5⟩ := ready_turnCourse (k := x.kind) (o := o) hr htab hn
        refine ⟨c1, c2, congrArg LineControl.mode c3, (congrArg Engine.driverEnable c4).trans hde, fun k => ?_⟩
        rcases c5 with c5 | c5
        · exact absurd c5 k
        · refine ⟨?_, ?_⟩
          · unfold TableLaw; rw [c5]; exact htab
          · rw [c5]; exact hn
    unfold schedulerTakes
    simp only [m1]
    split
    · next hm =>
      have hrun : s.lc.mode = .run := by rw [← hmode, ← m4]; exact hm
      refine courseLaws_of_rested (rested_resume m2 ?_) ?_ ?_
      · rw [m3, hphase]; exact h.running hrun
      · exact (apart_mode (apart_resume x w)).trans hm
      · exact (apart_driverEnable (apart_resume x w)).trans m5
    · exact courseLaws_abandonCycle (s := lineOff .host w)
        ⟨m2.idle, m2.noExchange, m2.queued, m2.tags, m2.walk, m2.leave, m2.turn⟩ m6 rfl m5
    · next hm => exact courseLaws_abandonCycle m2 m6 hm m5
  exact key _ rfl

end Sys2Proof.Machine
end

