-- ==== Sys2Proof/Laws/Time.lean ====
section
/-! SUPPORT. What a tick does in each of the two timers it reaches. -/

namespace Sys2Proof.Machine

/-! ### The Supervision Timer (R156) -/

/-- In IDLE and EXPIRED a tick changes nothing. -/
theorem tickSupervision_at_rest {s : State} (h : s.sv.state = .idle ∨ s.sv.state = .expired) :
    tickSupervision s = s := by
  rcases h with h | h <;> simp [tickSupervision, Supervision.counting, h]

/-- With more than one tick left a tick takes one. -/
theorem tickSupervision_counts {s : State} (h : s.sv.state = .watch ∨ s.sv.state = .grace)
    (hn : 2 ≤ s.sv.remaining.toNat) :
    tickSupervision s = { s with sv := { s.sv with remaining := s.sv.remaining - 1 } } := by
  have hl : s.sv.lastTick = false := by simp [Supervision.lastTick]; omega
  rcases h with h | h <;> simp [tickSupervision, Supervision.counting, h, hl]

/-- The tick that brings the count of WATCH to 0 is the first stage. -/
theorem tickSupervision_ends_watch {s : State} (h : s.sv.state = .watch) (hn : s.sv.remaining.toNat ≤ 1) :
    tickSupervision s = firstStage s := by
  simp [tickSupervision, Supervision.counting, Supervision.lastTick, stageExpires, h, hn]

/-- The tick that brings the count of GRACE to 0 is the second stage. -/
theorem tickSupervision_ends_grace {s : State} (h : s.sv.state = .grace) (hn : s.sv.remaining.toNat ≤ 1) :
    tickSupervision s = secondStage s := by
  simp [tickSupervision, Supervision.counting, Supervision.lastTick, stageExpires, h, hn]

/-! ### The pause timer (R57) -/

/-- A stopped pause timer takes no part in a tick. -/
theorem tickPause_stopped {s : State} (h : s.ps.pauseTimer = none) : tickPause s = s := by
  obtain ⟨_, _, _, _, ps, _, _, _, _, _, _, _, _⟩ := s
  obtain ⟨_, _, _, _, _, _⟩ := ps
  cases h
  simp [tickPause, pauseDue]

/-- With more than one tick left a tick takes one. -/
theorem tickPause_counts {s : State} {n : Byte} (h : s.ps.pauseTimer = some n) (hn : 2 ≤ n.toNat) :
    tickPause s = { s with ps := { s.ps with pauseTimer := some (n - 1) } } := by
  have h0 : n ≠ 0 := by rintro rfl; simp at hn
  have hd : pauseDue s = false := by simp [pauseDue, h]; omega
  simp only [tickPause, hd, h, Option.map_some, if_neg h0]
  rfl

/-- The tick that brings the pause of a running line to 0 starts the next cycle. -/
theorem tickPause_ends {s : State} {n : Byte} (h : s.ps.pauseTimer = some n) (hn : n.toNat ≤ 1)
    (hp : s.ps.phase = .pausing) (hm : s.lc.mode = .run) : tickPause s = startCycle s := by
  simp [tickPause, pauseDue, h, hn, hp, hm]

/-- A tick in the pause timer is the scheduler's work alone. -/
theorem apart_tickPause (s : State) : apartFromScheduler (tickPause s) = apartFromScheduler s := by
  unfold tickPause
  split
  · exact apart_startCycle s
  · rfl

end Sys2Proof.Machine
end

