-- ==== Sys2Proof/Tests/Slice0.lean ====
section
/-! SUPPORT. Small tests: the ill-formed terms the check refuses, the values the spec states, and for every statement of
Certificates/Slice0 a state and operands that meet its hypotheses, with what the model then answers. -/

namespace Sys2Proof.Tests

open Sys2Proof Sys2Proof.Machine

set_option synthInstance.maxSize 2048

/-! ### Builders -/

/-- What a command leaves, or none where it stops. -/
def after (c : Instr) (s : State) : Option State :=
  match exec c s with
  | .next t => some t
  | .fault _ | .refused _ => none

/-- The result code and the result words of a command. -/
def answerOf (c : Instr) (s : State) : Option (ResultCode × Word × Word × Word × Word) :=
  (after c s).map (fun t => (t.rw.result, t.rw.res.w0, t.rw.res.w1, t.rw.res.w2, t.rw.res.w3))

/-- The result code of a command. -/
def codeOf (c : Instr) (s : State) : Option ResultCode := (after c s).map (·.rw.result)

/-- A state with ARG0 to ARG3 written. -/
def withArgs (w0 w1 w2 w3 : Word) (s : State) : State := { s with rw := { s.rw with args := ⟨w0, w1, w2, w3⟩ } }

/-- A record in a state, with no SYNC pending. -/
def station (a : Address) (st : StationState) : StationRecord := { newRecord a 0 2 with state := st, syncPending := false }

/-- A state with a table, and the poll list that goes with it. -/
def withStations (rs : List StationRecord) (s : State) : State :=
  { s with st := { records := rs, pollList := (rs.filter (·.state != .parked)).map (·.address) } }

/-- A queued entry of one byte. -/
def message (tag : Byte) (d : Address) : OutboundEntry :=
  { tag := tag, destination := d, payload := [0xAA], status := .queued, attempts := 0, defers := 0 }

/-- The entry while its first attempt runs. -/
def carried (e : OutboundEntry) : OutboundEntry := { e with status := .inFlight, attempts := 1 }

/-- A state with a turn in progress. -/
def inTurnOf (a : Address) (stage : Stage) (s : State) : State :=
  { s with
    lc := { s.lc with mode := .run }
    ps := { s.ps with
      phase := .walking, exchangeHanded := true
      turn := some { address := a, kind := .ordinary, stage := some stage, next := stage } } }

/-- A running line at the last tick of its pause. -/
def pauseOver (s : State) : State :=
  { s with lc := { s.lc with mode := .run }, ps := { s.ps with phase := .pausing, pauseTimer := some 1 } }

/-- The exchange of a frame, with three attempts allowed. -/
def exchangeOf (kind : FrameKind) (a : Address) (entry : Option Byte) (begun : Nat) : Exchange :=
  { kind := kind, address := a, entry := entry, allowance := 3, begun := begun }

/-- A state in which an exchange stands in an engine state. -/
def inExchange (x : Exchange) (e : EngineState) (s : State) : State :=
  { s with
    lc := { s.lc with mode := .run }
    ee := { s.ee with
      state := e, exchange := some x, driverEnable := e == .send, receiver := .hunting
      frame := if e = .send then composeFrame s x else []
      replyTimer := if e = .listen then .running else .stopped } }

/-- A POLL of station 5 in an engine state, in the station's turn. -/
def polling (e : EngineState) (begun : Nat) (s : State) : State :=
  inTurnOf 5 .poll (inExchange (exchangeOf .poll 5 none begun) e s)

/-- The receiver with a character in assembly. -/
def assembling (s : State) : State := { s with ee := { s.ee with receiver := .assembling } }

/-- The samples of a character heard without noise. -/
def heard (d : Byte) (mark stop : Bool) : CharSamples :=
  let line : BitVec 11 := BitVec.ofBool stop ++ BitVec.ofBool mark ++ d ++ (0 : BitVec 1)
  ⟨line, line, line⟩

/-- Station 5 ONLINE, alone in the table. -/
def five : State := withStations [station 5 .online] State.reset

/-- The frame of a NIL of station 5, as heard, without its last character. -/
def nilWithoutLast : List RxChar :=
  ((frameOf 5 0x80 []).take 4).map (fun ch => { data := ch.data, mark := ch.mark, noise := false, framing := false })

/-- The last character of that frame. -/
def nilLast : Byte := (((frameOf 5 0x80 [])[4]?).map (·.data)).getD 0

/-! ### Well-formed terms -/

theorem test_badcmd_of_a_command_is_ill_formed :
    (Instr.badCmd 0x0001).wellFormed = false ∧ exec (.badCmd 0x0001) State.reset = .refused (.illFormed "BADCMD") :=
  ⟨by decide, rfl⟩

theorem test_register_write_of_a_row_is_ill_formed :
    (Instr.registerWrite 0x10 1).wellFormed = false ∧
      exec (.registerWrite 0x10 1) State.reset = .refused (.illFormed "REGISTER_WRITE") :=
  ⟨by decide, rfl⟩

theorem test_meets_WellFormedCommandsComplete :
    (Instr.badCmd 0x0007).wellFormed = true ∧ (Instr.badCmd 0x0100).wellFormed = true ∧
      (Instr.registerWrite 0x05 1).wellFormed = true ∧ (Instr.registerWrite 0x1B 1).wellFormed = true := by decide

theorem test_no_word_spells_a_command :
    decodeTableWord 16 0 = none ∧ State.reset.withFetchWord 16 0 = State.reset := by decide

/-! ### The queue of commands and the resets -/

theorem test_meets_StepTakesFrontCommand :
    step { five with pending := [.tick, .sync] } = exec .tick { five with pending := [.sync] } ∧
      five.pending = [] ∧ step five = .next five := ⟨rfl, rfl, rfl⟩

theorem test_meets_ResetBeginsLastsAndEnds :
    let held : State := { five with inReset := true }
    (after .powerOn five).map (fun t => (t.inReset, readWord t 0x00, holdOut t, t.ee.driverEnable)) =
      some (true, 0, false, false) ∧
    (after .sync held).map (·.st) = some five.st ∧ (Instr.sync).wellFormed = true ∧
    (after .resetEnd held).map (fun t => readWord t 0x00) = some 0x4160 := by decide +kernel

theorem test_reset_causes :
    readWord State.reset 0x19 = 0x0001 ∧
    (after .pinReset State.reset).map (fun t => resetCauseWord t.rw.resetCauses) = some 0x0003 ∧
    (after .clear State.reset).map (fun t => readWord t 0x19) = some 0x0005 := by decide +kernel

theorem test_meets_ConfigurationResetValues :
    SettingsInRange State.reset.cfg ∧ five.inReset = false ∧
    ([0x10, 0x11, 0x12, 0x13, 0x14].map (readWord State.reset)) = [0x0068, 0x0302, 0x0832, 0x000A, 0x3E80] := by
  refine ⟨?_, rfl, by decide +kernel⟩
  unfold SettingsInRange; decide

theorem test_meets_WindowResetValues :
    five.inReset = false ∧ (after .clear five).map (fun t => (t.rw.selection, t.rw.pointer)) = some (.stage, 0) ∧
    readWord State.reset 0x0E = 0x0001 := by decide +kernel

theorem test_meets_SupervisionResetValues :
    State.reset.sv.mode = .off ∧ State.reset.sv.state = .idle ∧
    (after .supSet (withArgs 1 5 0 0 State.reset)).map (·.sv.mode) = some .warn ∧
    (after .supSet (withArgs 2 5 0 0 State.reset)).map (·.sv.state) = some .watch := by decide +kernel

theorem test_meets_ResetsEmptyTheCollections :
    five.inReset = false ∧ (after .clear five).map (fun t => t.st.records) = some [] ∧
    (after .pinReset five).map (fun t => t.st.pollList) = some [] := by decide +kernel

theorem test_meets_ClearResult :
    let s : State := withArgs 1 2 3 4 { five with lc := five.lc.hostHold }
    s.inReset = false ∧ codeOf .clear s = some .ok ∧
    (after .clear s).map (fun t => (readWord t 0x05, holdOut t, t.lc.announcement)) = some (1, true, .hold) := by
  decide +kernel

/-! ### Station Table -/

theorem test_meets_EnrolFollowsR30 :
    ([0, 127].map (fun a => codeOf .enrol (withArgs a 0 0 0 five))) = [some .badArg, some .badArg] ∧
    codeOf .enrol (withArgs 1 16 0 0 five) = some .badArg ∧ codeOf .enrol (withArgs 1 0 3 0 five) = some .badArg ∧
    codeOf .enrol (withArgs 5 15 2 0 five) = some .alreadyExists ∧
    codeOf .enrol (withArgs 5 0 0 0 (withStations [{ station 5 .online with leave := .remove }] five)) =
      some .leaving ∧
    ([1, 126].map (fun a => codeOf .enrol (withArgs a 15 2 0 five))) = [some .ok, some .ok] ∧
    codeOf .enrol (withArgs 40 0 0 0 (withStations ((List.range 32).map (fun n =>
      station (BitVec.ofNat 7 (n + 1)) .online)) five)) = some .full ∧
    (after .enrol (withArgs 1 15 2 0 five)).map (fun t => (t.st.records.map (·.address), t.st.pollList)) =
      some ([1, 5], [5, 1]) := by decide +kernel

theorem test_meets_RemoveAtOnce :
    let s : State := { withArgs 5 0 0 0 five with oq := [message 9 5, message 8 0] }
    ([0, 127, 1, 126].map (fun a => codeOf .remove (withArgs a 0 0 0 five))) =
      [some .badArg, some .badArg, some .unknown, some .unknown] ∧
    five.st.find 5 = some (station 5 .online) ∧ inTurn five 5 = false ∧
    codeOf .remove (withArgs 5 0 0 0 (withStations [{ station 5 .online with leave := .remove }] five)) =
      some .leaving ∧
    (after .remove s).map (fun t => (t.st.records, t.oq.map (·.tag), t.rq)) = some ([], [8], [.done 5 9 .removed 0]) := by
  decide +kernel

theorem test_cursor_passes_when_its_station_leaves :
    let s : State := { withArgs 5 0 0 0 (withStations [station 5 .online, station 6 .online] five) with
      ps := { five.ps with cursor := some 5 } }
    (after .remove s).map (·.ps.cursor) = some (some 6) ∧
    (after .remove { s with ps := { s.ps with cursor := some 6 } }).map (·.ps.cursor) = some (some 6) := by
  decide +kernel

theorem test_meets_LeaveHeldWhileInTurn :
    let s : State := withArgs 5 0 0 0 (inTurnOf 5 .poll five)
    s.inReset = false ∧ s.st.find 5 = some (station 5 .online) ∧ inTurn s 5 = true ∧
    codeOf .remove s = some .accepted ∧ codeOf .park s = some .accepted ∧
    (after .remove { s with st := (withStations [{ station 5 .online with leave := .park }] s).st }).map
      (fun t => t.st.records.map (·.leave)) = some [.remove] ∧
    (after .remove { withArgs 126 0 0 0 (inTurnOf 126 .poll (withStations [station 126 .online] five)) with
      rq := [] }).map (fun t => t.st.pollList) = some [126] := by decide +kernel

theorem test_meets_ParkAtOnce :
    let s : State := withArgs 5 0 0 0 five
    let leaving (l : Leave) (st : StationState) : State :=
      withArgs 5 0 0 0 (withStations [{ station 5 st with leave := l }] five)
    ([0, 127, 1, 126].map (fun a => codeOf .park (withArgs a 0 0 0 five))) =
      [some .badArg, some .badArg, some .unknown, some .unknown] ∧
    codeOf .park (leaving .remove .online) = some .leaving ∧ codeOf .park (leaving .park .online) = some .wrongState ∧
    codeOf .park (leaving .absent .parked) = some .wrongState ∧
    (after .park s).map (fun t => (t.st.records.map (·.state), t.st.pollList)) = some ([.parked], []) := by
  decide +kernel

theorem test_meets_UnparkFollowsR34 :
    let s : State := withArgs 5 0 0 0 (withStations [station 5 .parked] five)
    ([0, 127, 1, 126].map (fun a => codeOf .unpark (withArgs a 0 0 0 five))) =
      [some .badArg, some .badArg, some .unknown, some .unknown] ∧
    codeOf .unpark (withArgs 5 0 0 0 five) = some .wrongState ∧
    (after .unpark s).map (fun t => (t.st.records.map (·.state), t.st.pollList)) = some ([.new], [5]) ∧
    (after .unpark (inTurnOf 6 .poll s)).map (·.ps.cursor) = some (some 5) := by decide +kernel

theorem test_meets_ZeroFollowsR35AndR82 :
    let s : State := { five with ee := { five.ee with faults := 7, faultStreak := 2 } }
    ([127, 0, 1, 5, 126].map (fun a => codeOf .zero (withArgs a 0 0 0 five))) =
      [some .badArg, some .ok, some .unknown, some .ok, some .unknown] ∧
    (after .zero s).map (fun t => (t.ee.faults, t.ee.faultStreak)) = some (0, 2) ∧
    (after .zero (withArgs 5 0 0 0 (withStations [{ station 5 .lost with failed := 3 }] five))).map
      (fun t => t.st.records.map (·.failed)) = some [0] := by decide +kernel

theorem test_meets_SyncMarksRecords :
    ([127, 0, 1, 5, 126].map (fun a => codeOf .sync (withArgs a 0 0 0 five))) =
      [some .badArg, some .ok, some .unknown, some .ok, some .unknown] ∧
    (after .sync (withStations [station 5 .online, station 6 .parked] five)).map
      (fun t => t.st.records.map (·.syncPending)) = some [true, true] := by decide +kernel

/-! ### Messages -/

theorem test_meets_SubmitFollowsR87AndR88 :
    let of (st : StationState) (l : Leave) : State := withStations [{ station 5 st with leave := l }] five
    let full (n m : Nat) : State := { five with
      oq := (List.range n).map (fun i => message (BitVec.ofNat 8 i) 5)
      rq := List.replicate m (.done 5 0 .sent 1) }
    ([127, 256, 33].map (fun v => codeOf .submit (withArgs (if v = 127 then v else 0) (if v = 256 then v else 0)
      (if v = 33 then v else 0) 0 five))) = [some .badArg, some .badArg, some .badArg] ∧
    codeOf .submit (withArgs 126 255 32 0 five) = some .unknown ∧
    codeOf .submit (withArgs 5 1 0 0 (of .online .remove)) = some .leaving ∧
    codeOf .submit (withArgs 5 1 0 0 (of .lost .absent)) = some .wrongState ∧
    codeOf .submit (withArgs 5 3 0 0 (full 4 0)) = some .alreadyExists ∧
    codeOf .submit (withArgs 0 255 0 0 (full 16 0)) = some .full ∧
    codeOf .submit (withArgs 0 255 0 0 (full 4 20)) = some .full ∧
    codeOf .submit (withArgs 5 255 32 0 (full 15 8)) = some .ok ∧
    codeOf .submit (withArgs 0 0 0 0 five) = some .ok ∧
    codeOf .submit (withArgs 5 0 0 0 (of .parked .park)) = some .ok := by decide +kernel

theorem test_submit_copies_the_staging_buffer :
    let staged : State := { five with rw := { five.rw with staging := storeStaging five.rw.staging 0 0x2211 } }
    (after .submit (withArgs 5 7 3 0 staged)).map (fun t => t.oq.map (fun e => (e.tag, e.payload))) =
      some [(7, [0x11, 0x22, 0x00])] := by decide +kernel

theorem test_meets_PurgeCompletesQueuedEntries :
    let s : State := { five with oq := [message 1 5, carried (message 2 5), message 3 0] }
    ([127, 254, 256].map (fun a => codeOf .purge (withArgs a 0 0 0 s))) = [some .badArg, some .badArg, some .badArg] ∧
    (∀ e ∈ s.oq, e.status = .queued → e.attempts = 0) ∧
    answerOf .purge (withArgs 255 0 0 0 s) = some (.ok, 2, 0, 0, 0) ∧
    answerOf .purge (withArgs 0 0 0 0 s) = some (.ok, 1, 0, 0, 0) ∧
    answerOf .purge (withArgs 126 0 0 0 s) = some (.ok, 0, 0, 0, 0) ∧
    (after .purge (withArgs 5 0 0 0 s)).map (fun t => (t.oq.map (·.tag), t.rq)) =
      some ([2, 3], [.done 5 1 .purged 0]) := by decide +kernel

theorem test_meets_TakeReturnFollowsR111 :
    answerOf .takeReturn five = some (.nothing, 0, 0, 0, 0) ∧
    answerOf .takeReturn { five with rq := [.report 5 [1, 2] 9] } = some (.ok, 1, 5, 2, 9) ∧
    answerOf .takeReturn { five with rq := [.done 4 0x3E .taken 1] } = some (.ok, 2, 0x0004, 0x003E, 0x0101) ∧
    answerOf .takeReturn { five with rq := [.done 4 0x3E .purged 8] } = some (.ok, 2, 0x0004, 0x003E, 0x0807) := by
  decide +kernel

theorem test_return_copy :
    let s : State := { five with latch := some (.report 5 [0x11, 0x22, 0x33] 9) }
    (after (.wselWrite 0x0004) s).map (fun t => t.rw.snapshot.take 6) = some [1, 5, 3, 9, 0x2211, 0x0033] := by
  decide +kernel

/-! ### Attention -/

/-- An attention entry without repeats. -/
def alert (source : Address) (level : BitVec 2) (code : Byte) (stamp : Word) : AttentionEntry :=
  { source := source, level := level, code := code, repeats := 0, stamp := stamp }

/-- A state with attention entries queued and in service. -/
def withAlerts (queue stack : List AttentionEntry) (s : State) : State :=
  { s with au := { s.au with queue := queue, stack := stack } }

theorem test_meets_PresentedEntryFollowsR126 :
    let u (mask : BitVec 3) (stack : List AttentionEntry) : AttentionUnit :=
      { AttentionUnit.reset with queue := [alert 5 0 1 1, alert 6 2 1 2, alert 7 2 1 3], stack := stack, mask := mask }
    presented (u 0 []) = some (alert 6 2 1 2) ∧ presented (u 4 []) = some (alert 5 0 1 1) ∧
    presented (u 5 []) = none ∧ presented (u 0 [alert 9 2 1 1]) = none ∧
    presented (u 0 [alert 9 1 1 1]) = some (alert 6 2 1 2) := by decide +kernel

theorem test_present_words :
    let s := withAlerts [{ alert 0 3 4 1 with repeats := 2 }] [] five
    readWord s 0x16 = 0x8B00 ∧ readWord s 0x17 = 0x0004 ∧ readWord five 0x16 = 0 := by decide +kernel

theorem test_meets_TakeAttnFollowsR129 :
    let s := withAlerts [alert 5 0 1 1, { alert 6 2 8 2 with repeats := 3 }] [] five
    answerOf .takeAttn five = some (.nothing, 0, 0, 0, 0) ∧
    presented s.au = some { alert 6 2 8 2 with repeats := 3 } ∧
    answerOf .takeAttn s = some (.ok, 6, 0x0032, 8, 2) ∧
    (after .takeAttn s).map (fun t => (t.au.queue.length, t.au.stack.length, (presented t.au).isSome)) =
      some (1, 1, false) := by decide +kernel

theorem test_meets_EndServiceAndDismiss :
    let s := withAlerts [alert 5 0 1 1, alert 6 2 8 2, alert 5 1 1 3] [alert 5 2 7 9, alert 5 1 7 8] five
    answerOf .endService five = some (.nothing, 0, 0, 0, 0) ∧ answerOf .endService s = some (.ok, 5, 2, 7, 9) ∧
    (after .endService s).map (fun t => serviceLevel t.au) = some (some 1) ∧
    ([127, 126, 0].map (fun a => codeOf .dismiss (withArgs a 0 0 0 s))) = [some .badArg, some .ok, some .ok] ∧
    answerOf .dismiss (withArgs 5 0 0 0 s) = some (.ok, 2, 0, 0, 0) := by decide +kernel

theorem test_meets_ArrivalsMergeAppendOrFail :
    let low (n : Nat) : State := withAlerts ((List.range n).map (fun i => alert 5 0 (BitVec.ofNat 8 i) 1)) [] five
    let e := alert 5 1 7 3
    ((withAlerts [e] [] five).au.arrive 5 1 7).map (fun u => u.queue.map (·.repeats)) = some [1] ∧
    ((withAlerts [{ e with repeats := 15 }] [] five).au.arrive 5 1 7).map (fun u => u.queue.map (·.repeats)) =
      some [15] ∧
    ((low 11).au.arrive 5 1 7).map (fun u => (u.queue.length, u.arrivals)) = some (12, 1) ∧
    (low 12).au.arrive 5 1 7 = none ∧ ((low 12).au.arrive 5 3 7).isSome = true ∧ (low 16).au.arrive 5 3 7 = none ∧
    (controllerEvent 5 1 2 (low 12)).au.overrun = true := by decide +kernel

/-! ### Line mode, cycles and hold -/

theorem test_meets_LineStartAndLineStop :
    let run := polling .settle 0 five
    let stopping : State := { run with lc := { run.lc with mode := .stopping } }
    let paused : State := { five with
      lc := { five.lc with mode := .run }, ps := { five.ps with phase := .pausing, pauseTimer := some 3 } }
    codeOf .lineStart run = some .wrongState ∧ codeOf .lineStart stopping = some .ok ∧
    (after .lineStart five).map (fun t => (t.lc.mode, t.ps.cycle, t.ps.phase)) = some (.run, 1, .walking) ∧
    codeOf .lineStop five = some .wrongState ∧ codeOf .lineStop stopping = some .wrongState ∧
    run.ee.exchange ≠ none ∧ (after .lineStop run).map (·.lc.mode) = some .stopping ∧
    paused.ee.exchange = none ∧ paused.ps.turn = none ∧
    (after .lineStop paused).map (fun t => (t.lc.mode, t.lc.stopCause, t.rw.latched.line, t.ps.phase)) =
      some (.off, .host, true, .none) := by decide +kernel

theorem test_a_cycle_opens_in_each_way :
    let s := pauseOver five
    let told (a : Announcement) : State := { s with lc := { s.lc with announcement := a, holdInForce := a == .hold } }
    let held : State := { s with lc := { s.lc with holdInForce := true } }
    let broadcast : State := { s with oq := [message 1 5, message 2 0] }
    let kindAfter (s : State) : Option (Option FrameKind) := (after .pauseExpiry s).map (·.ee.exchange.map (·.kind))
    kindAfter (told .hold) = some (some .hold) ∧ kindAfter (told .free) = some (some .free) ∧
    kindAfter held = some (some .hold) ∧ kindAfter broadcast = some (some .write) ∧
    (after .pauseExpiry (pauseOver State.reset)).map (fun t => (t.ps.phase, t.ps.pauseTimer)) =
      some (.pausing, some 10) ∧
    (after .pauseExpiry { pauseOver State.reset with cfg := { State.reset.cfg with pause := 0 } }).map
      (fun t => t.ps.pauseTimer) = some (some 1) := by decide +kernel

theorem test_meets_TickAndPauseExpiry :
    let paused (n : Byte) : State := { pauseOver five with ps := { (pauseOver five).ps with pauseTimer := some n } }
    let watched (st : SupervisionState) (n : Word) (s : State) : State :=
      { s with sv := { s.sv with mode := .hold, state := st, remaining := n } }
    let seen (s : State) : Option (Option Byte × Word × SupervisionState × Word) :=
      (after .tick s).map (fun t => (t.ps.pauseTimer, t.ps.cycle, t.sv.state, t.sv.remaining))
    seen five = some (none, 0, .idle, 0) ∧ seen (paused 255) = some (some 254, 0, .idle, 0) ∧
    seen (paused 2) = some (some 1, 0, .idle, 0) ∧ seen (paused 1) = some (none, 1, .idle, 0) ∧
    seen (watched .grace 65535 five) = some (none, 0, .grace, 65534) ∧
    seen (watched .watch 2 five) = some (none, 0, .watch, 1) ∧ seen (watched .watch 1 five) = some (none, 0, .grace, 100) ∧
    seen (watched .grace 1 five) = some (none, 0, .expired, 0) ∧
    seen (watched .expired 7 five) = some (none, 0, .expired, 7) ∧
    seen (watched .grace 1 (paused 1)) = some (none, 1, .expired, 0) ∧
    (after .pauseExpiry (paused 1)).map (·.ps.cycle) = some 1 ∧ after .pauseExpiry (paused 2) = some (paused 2) := by
  decide +kernel

theorem test_meets_FirstVisitOfACycle :
    let s (r : StationRecord) : State := pauseOver (withStations [r] five)
    let visited (r : StationRecord) : Option State := after .pauseExpiry (s r)
    let kind (t : State) : Option FrameKind := t.ee.exchange.map (·.kind)
    (s (station 5 .new)).st.pollList = [5] ∧ (s (station 5 .new)).st.find 5 = some (station 5 .new) ∧
    (visited { station 5 .new with syncPending := true, skip := 3 }).map (fun t => (kind t, t.st.records.map (·.countdown))) =
      some (some .sync, [3]) ∧
    (visited (station 5 .suspect)).map kind = some (some .poll) ∧
    (after .pauseExpiry { s (station 5 .online) with oq := [message 1 6, message 2 5, message 3 5] }).map
      (fun t => t.ee.exchange.map (fun x => (x.kind, x.entry))) = some (some (.write, some 2)) ∧
    (after .pauseExpiry { s (station 5 .lost) with ps := { (s (station 5 .lost)).ps with cycle := 7 } }).map
      (fun t => (kind t, t.ee.exchange.map (·.allowance))) = some (some .poll, some 1) ∧
    (visited (station 5 .lost)).map (fun t => (kind t, t.ps.phase)) = some (none, .pausing) ∧
    (visited { station 5 .online with countdown := 1 }).map (fun t => (kind t, t.st.records.map (·.countdown), t.ps.pauseTimer)) =
      some (none, [0], some 10) := by decide +kernel

theorem test_meets_HoldBeginsAndEnds :
    let held : State := { five with lc := five.lc.hostHold }
    let both : State := { five with lc := five.lc.hostHold.supervisionHold }
    (after .holdEnter five).map (fun t => (holdOut t, t.lc.announcement, holdCode t.lc)) = some (true, .hold, 2) ∧
    codeOf .holdLeave five = some .wrongState ∧ codeOf .holdLeave both = some .wrongState ∧
    (after .holdLeave held).map (fun t => (holdOut t, t.lc.announcement)) = some (false, .free) ∧
    (after .holdLeave { held with lc := { held.lc with inFlight := some false } }).map (·.lc.inFlight) =
      some (some true) ∧
    (after .supSet (withArgs 0 1 0 0 both)).map (·.lc.causeSupervision) = some false := by decide +kernel

theorem test_meets_NoWriteBeginsUnderHold :
    let s : State := inTurnOf 5 .write (inExchange (exchangeOf .write 5 (some 1) 0) .settle
      { five with oq := [{ carried (message 1 5) with attempts := 0 }] })
    s.ee.state ≠ .send ∧
    (after (.settleEnd .quiet) s).map (fun t => (t.ee.state, t.ee.exchange.map (·.kind), t.oq.map (·.attempts))) =
      some (.send, some .write, [1]) ∧
    (after (.settleEnd .quiet) { s with lc := { s.lc with holdInForce := true } }).map
      (fun t => (t.ee.exchange.map (·.kind), t.oq.map (·.status))) = some (some .poll, [.queued]) := by decide +kernel

theorem test_meets_LineCauseFollowsPassagesToOff :
    let s := polling .settle 0 five
    let stopping : State := { s with lc := { s.lc with mode := .stopping } }
    let latched : State := { five with rw := { five.rw with latched := { five.rw.latched with line := true } } }
    stopping.lc.mode ≠ .off ∧ stopping.rw.latched.line = false ∧
    (after (.settleEnd .limit) stopping).map (fun t => (t.lc.mode, t.lc.stopCause, t.rw.latched.line)) =
      some (.off, .host, true) ∧
    (five.lc.mode = .off ∧ five.ee.exchange = none) ∧
    (after (.causeWrite 4) latched).map (·.rw.latched.line) = some false := by decide +kernel

/-! ### Supervision -/

/-- A state with the Supervision Timer in a mode and state. -/
def supervised (m : SupervisionMode) (st : SupervisionState) (remaining : Word) (grace : Byte) : State :=
  { five with sv := { five.sv with mode := m, state := st, remaining := remaining, grace := grace } }

theorem test_meets_SupSetConfigures :
    let locked : State := { five with sv := { five.sv with lock := true } }
    codeOf .supSet locked = some .locked ∧
    ([(3, 1, 0, 0), (0, 0, 0, 0), (0, 1, 256, 0), (0, 1, 0, 2)].map
      (fun (a, b, c, d) => codeOf .supSet (withArgs a b c d five))) =
      [some .badArg, some .badArg, some .badArg, some .badArg] ∧
    answerOf .supSet (withArgs 2 0x2EE0 255 1 five) = some (.ok, 0x6C21, 0, 0, 0) ∧
    (after .supSet (withArgs 2 0x2EE0 255 1 five)).map (fun t => (readWord t 0x1A, t.sv.remaining)) =
      some (0x0016, 0x2EE0) ∧
    (after .supSet (withArgs 0 1 0 0 five)).map (fun t => (t.sv.state, t.sv.remaining)) = some (.idle, 0) ∧
    codeOf .supSet (withArgs 1 65535 0 0 five) = some .ok := by decide +kernel

theorem test_meets_ServiceFollowsR161AndR162 :
    let told (s : State) (w : Word) : Option (ResultCode × Word × Word × Word × Word) :=
      answerOf .service (withArgs w 0 0 0 s)
    codeOf .service five = some .wrongState ∧
    told (supervised .hold .watch 7 1) 0x6C21 = some (.ok, 0x3610, 0, 0, 0) ∧
    told (supervised .hold .expired 7 1) 0x6C21 = some (.ok, 0x3610, 0, 0, 0) ∧
    told (supervised .warn .grace 7 1) 0x6C22 = some (.badToken, 0, 0, 0, 0) ∧
    (after .service (withArgs 0 0 0 0 (supervised .warn .watch 7 1))).map
      (fun t => (t.sv.state, t.sv.remaining, t.sv.wrongTokens, readWord t 0x17)) = some (.grace, 1, 1, 4) ∧
    (after .service (withArgs 0 0 0 0 (supervised .hold .watch 7 0))).map (fun t => (t.sv.state, holdOut t)) =
      some (.expired, true) ∧
    (after .service (withArgs 0 0 0 0 { supervised .warn .expired 7 1 with
      sv := { five.sv with state := .expired, wrongTokens := 255 } })).map (·.sv.wrongTokens) = some 255 := by
  decide +kernel

theorem test_meets_SupervisionStages :
    (after .watchExpiry (supervised .hold .watch 1 100)).map (fun t => (t.sv.state, t.sv.remaining, readWord t 0x17)) =
      some (.grace, 100, 4) ∧
    (after .watchExpiry (supervised .warn .watch 1 0)).map (fun t => (t.sv.state, t.sv.remaining, t.au.queue.length)) =
      some (.watch, 1000, 2) ∧
    (after .watchExpiry (supervised .hold .watch 1 0)).map (fun t => (t.sv.state, holdOut t)) =
      some (.expired, true) ∧
    (after .graceExpiry (supervised .warn .grace 1 1)).map (fun t => (t.sv.state, readWord t 0x17)) =
      some (.watch, 5) ∧
    (after .graceExpiry (supervised .hold .grace 1 1)).map (fun t => (t.sv.state, holdCode t.lc, t.au.queue.length)) =
      some (.expired, 3, 0) ∧
    after .watchExpiry (supervised .hold .watch 2 1) = some (supervised .hold .watch 2 1) ∧
    after .graceExpiry (supervised .hold .watch 1 1) = some (supervised .hold .watch 1 1) := by decide +kernel

/-- A SERVICE with the right token after the tick that ends a stage finds the stage ended (R163). -/
theorem test_service_after_the_tick_that_expires :
    let served (s : State) : Option (SupervisionState × Word × Nat × Bool × Bool) :=
      ((after .tick s).bind (fun t => after .service (withArgs 0x6C21 0 0 0 t))).map
        (fun t => (t.sv.state, t.sv.remaining, t.au.queue.length, holdOut t, t.lc.causeSupervision))
    served (supervised .hold .watch 1 9) = some (.watch, 1000, 1, false, false) ∧
    served (supervised .warn .grace 1 9) = some (.watch, 1000, 1, false, false) ∧
    served (supervised .hold .grace 1 9) = some (.watch, 1000, 0, true, false) ∧
    served (supervised .hold .watch 2 9) = some (.watch, 1000, 0, false, false) := by decide +kernel

theorem test_meets_TokenFollowsR160 :
    ([1, 2, 3, 4, 5].map (fun n => Nat.repeat nextToken n 0x6C21)) = [0x3610, 0x1B08, 0x8D84, 0xC6C2, 0x6361] ∧
    (after .service (withArgs 0x6C21 0 0 0 (supervised .warn .watch 7 1))).map (·.sv.token) = some 0x3610 := by
  decide +kernel

theorem test_meets_LockFollowsR165 :
    let locked : State := { supervised .hold .watch 1 1 with sv := { (supervised .hold .watch 1 1).sv with lock := true } }
    (after .watchExpiry locked).map (fun t => (t.sv.lock, t.sv.state)) = some (true, .grace) ∧
    (after .supSet (withArgs 2 1 0 1 five)).map (·.sv.lock) = some true ∧
    (after (.tickdivWrite 1) locked).map (fun t => (t.rw.latched.cfg, t.cfg.tickDiv)) = some (true, 16000) := by
  decide +kernel

/-! ### The register window -/

theorem test_meets_ConfigurationWrites :
    let run := polling .settle 0 five
    let of (c : Instr) (s : State) : Option (Settings × Bool) := (after c s).map (fun t => (t.cfg, t.rw.latched.cfg))
    of (.rateWrite 0xF001) five = some ({ five.cfg with rate := 1 }, false) ∧
    of (.rateWrite 0x1000) five = some (five.cfg, true) ∧ of (.rateWrite 1) run = some (five.cfg, true) ∧
    of (.timingWrite 0xFFFF) five = some ({ five.cfg with turn := 15, replyWait := 63 }, false) ∧
    of (.timingWrite 0x0100) five = some (five.cfg, true) ∧ of (.timingWrite 0x0001) five = some (five.cfg, true) ∧
    of (.timingWrite 0x0101) run = some (five.cfg, true) ∧
    of (.tickdivWrite 65535) five = some ({ five.cfg with tickDiv := 65535 }, false) ∧
    of (.tickdivWrite 0) five = some (five.cfg, true) ∧ of (.tickdivWrite 1) run = some (five.cfg, true) := by
  decide +kernel

theorem test_meets_LimitsWriteFollowsR39 :
    let s := withStations [{ station 1 .lost with missCount := 3 }, { station 2 .suspect with missCount := 2 },
      station 3 .parked] five
    let run : State := { s with lc := { s.lc with mode := .run } }
    (after (.limitsWrite 0x0F17) s).map (fun t => (t.st.records.map (·.missCount), t.st.records.map (·.state))) =
      some ([1, 0, 0], [.lost, .online, .parked]) ∧
    (after (.limitsWrite 0x0F07) s).map (fun t => (t.rw.latched.cfg, t.cfg)) = some (true, s.cfg) ∧
    (after (.limitsWrite 0x0F17) run).map (fun t => (t.rw.latched.cfg, t.st)) = some (true, s.st) := by decide +kernel

theorem test_meets_WritesAlwaysTaken :
    five.inReset = false ∧ (0xAB07 : Word).toNat % 256 ∉ [1, 2, 3, 4, 5, 6, 16, 17, 24, 32, 33, 34, 40, 41, 42, 43, 48, 49, 63] ∧
    codeOf (.badCmd 0xAB07) five = some .badCmd ∧ (after (.badCmd 0xAB07) five).map (readWord · 0x04) = some 0x0007 ∧
    (after (.registerWrite 0x08 0x1234) five).map (readWord · 0x08) = some 0x1234 ∧
    after (.registerWrite 0x1B 0x1234) five = some five ∧
    (after (.amaskWrite 0xFFFF) five).map (readWord · 0x15) = some 0x0007 ∧
    (after (.pauseWrite 0x01FF) five).map (readWord · 0x13) = some 0x00FF ∧
    (after (.enableWrite 0xFFFF) five).map (readWord · 0x03) = some 0x003F ∧
    (after (.statusWrite 0x0020) { five with au := { five.au with overrun := true } }).map (·.au.overrun) =
      some false ∧
    (after (.rstcauseWrite 1) five).map (readWord · 0x19) = some 0 := by decide +kernel

theorem test_meets_CausesAndInterruptRequest :
    let s : State := { five with rq := [.report 5 [1] 1], lc := { five.lc with mode := .run } }
    readWord s 0x01 = 0x0803 ∧ readWord s 0x02 = 0x0002 ∧ irqAsserted s = false ∧
    (after (.enableWrite 2) s).map irqAsserted = some true ∧
    (after (.enableWrite 1) (withAlerts [alert 5 1 1 1] [] s)).map irqAsserted = some true ∧
    readWord (withAlerts [alert 5 1 1 1] [] s) 0x02 = 0x0003 := by decide +kernel

theorem test_meets_WselWriteFollowsR170 :
    let lengthOf (v : Word) : Option Nat := (after (.wselWrite v) five).map (fun t => t.rw.snapshot.length)
    ([1, 0x0502, 0x0003, 4, 5, 6, 0, 7, 0x050F].map lengthOf) =
      [some 0, some 8, some 20, some 20, some 13, some 5, some 0, some 0, some 0] ∧
    (after (.wselWrite 0x0502) five).map (fun t => (readWord t 0x0E, t.rw.snapshot.take 2)) =
      some (0x0502, [0x8005, 0x0001]) ∧
    (after (.wselWrite 0x0002) five).map (fun t => t.rw.snapshot) = some (List.replicate 8 0) ∧
    (after (.wselWrite 0x0507) five).map (readWord · 0x0E) = some 0 := by decide +kernel

theorem test_window_copies_have_their_layouts :
    let r : StationRecord := { station 5 .suspect with
      leave := .park, skip := 3, countdown := 2, ceiling := 1, outToggle := true, inToggle := some false
      syncPending := true, missCount := 2, lastReply := .alert, accepted := 0x1234, failed := 9, duplicates := 7
      refusals := 8 }
    let e : OutboundEntry := { carried (message 0x3E 5) with payload := [0x11, 0x22, 0x33], defers := 2 }
    let s : State := withAlerts [] [alert 6 2 8 2, { alert 5 1 7 1 with repeats := 3 }]
      { withStations [r] five with oq := [message 1 5, e], latch := some (.done 4 0x3E .taken 1) }
    let words (v : Word) (s : State) : Option (List Nat) :=
      (after (.wselWrite v) s).map (fun t => t.rw.snapshot.map (fun w => w.toNat))
    words 0x0502 s = some (stationLayout r 2) ∧
    stationLayout r 2 = [0x8005, 0x2322, 0x0123, 0x0232, 0x1234, 9, 7, 8] ∧
    words 0x0103 s = some (outboundLayout e) ∧
    (outboundLayout e).take 7 = [0x8001, 0x3E, 0x0305, 0x0201, 0x2211, 0x0033, 0] ∧
    words 0x0203 s = some (List.replicate 20 0) ∧ words 4 s = some (returnLayout (.done 4 0x3E .taken 1)) ∧
    (returnLayout (.done 4 0x3E .taken 1)).take 4 = [2, 0x0004, 0x003E, 0x0101] ∧
    words 4 five = some (List.replicate 20 0) ∧
    words 5 s = some [2, 5, 0x0731, 1, 6, 0x0802, 2, 0, 0, 0, 0, 0, 0] ∧
    words 5 s = some (2 :: ([0, 1, 2, 3].map (stackEntryLayout s.au.stack.reverse)).flatten) ∧
    words 6 { s with ee := { s.ee with faults := 3, faultStreak := 2, lastFailure := { reason := .stale, address := 126 } } } =
      some [3, 0, 0, 2, 0x7E09] := by decide +kernel

theorem test_meets_WdataFollowsR172 :
    let at_ (p : Nat) : State := { five with rw := { five.rw with pointer := p } }
    (after (.wdataWrite 0xBEEF) (at_ 15)).map (fun t => (t.rw.pointer, t.rw.staging[30], t.rw.staging[31])) =
      some (16, 0xEF, 0xBE) ∧
    (after (.wdataWrite 0xBEEF) (at_ 16)).map (fun t => (t.rw.pointer, t.rw.staging == five.rw.staging)) =
      some (17, true) ∧
    (after .wdataRead (at_ 32)).map (fun t => (t.rw.pointer, t.rw.readData)) = some (32, 0) ∧
    (after .wdataRead { at_ 1 with rw := { (at_ 1).rw with selection := .station, snapshot := [7, 8] } }).map
      (fun t => (t.rw.pointer, t.rw.readData)) = some (2, 8) ∧
    (after .wdataRead { at_ 2 with rw := { (at_ 2).rw with selection := .station, snapshot := [7, 8] } }).map
      (fun t => t.rw.readData) = some 0 := by decide +kernel

/-! ### The receiver -/

theorem test_meets_ReceiverAndSampling :
    let with_ (r : Receiver) (s : State) : State := { s with ee := { s.ee with receiver := r } }
    let seen (c : Instr) (s : State) : Option (Receiver × EngineState) := (after c s).map (fun t => (t.ee.receiver, t.ee.state))
    let expired (s : State) : State := { assembling s with
      ee := { (assembling s).ee with turnCount := .expired, replyTimer := .expired, gapTimer := .expired } }
    seen .startBitFound (with_ .hunting five) = some (.assembling, .idle) ∧
    after .startBitFound (with_ .waitingForOne five) = some (with_ .waitingForOne five) ∧
    seen .lineReturnsTo1 (with_ .waitingForOne five) = some (.hunting, .idle) ∧
    after .lineReturnsTo1 (with_ .assembling five) = some (with_ .assembling five) ∧
    after .falseStart (with_ .hunting five) = some (with_ .hunting five) ∧
    seen .falseStart (assembling five) = some (.hunting, .idle) ∧
    seen .falseStart (expired (polling .settle 0 five)) = some (.hunting, .send) ∧
    seen .falseStart (expired (polling .listen 1 five)) = some (.hunting, .settle) ∧
    seen .falseStart (expired (polling .receive 1 five)) = some (.hunting, .settle) ∧
    (majorityBits ⟨1, 1, 0⟩).getLsbD 0 = true ∧ seen (.characterDelivered ⟨⟨1, 1, 0⟩, 5⟩) (assembling five) = some (.hunting, .idle) := by
  decide +kernel

theorem test_characters_on_the_line :
    characterBits ⟨0x05, true⟩ = [false, true, false, true, false, false, false, false, false, true, true] ∧
    receivedChar (heard 0x05 true true) = { data := 0x05, mark := true, noise := false, framing := false } ∧
    receivedChar (heard 0x05 false false) = { data := 0x05, mark := false, noise := false, framing := true } ∧
    (∀ i, i < 11 → (characterBits ⟨0x05, true⟩)[i]? = some ((0x60A : BitVec 11).getLsbD i)) ∧
    receivedChar ⟨0x60A ^^^ 0x400, 0x60A, 0x60A⟩ = { data := 0x05, mark := true, noise := true, framing := false } := by
  decide +kernel

theorem test_meets_StrayCharacters :
    let of (e : EngineState) : State := assembling (polling e 1 five)
    let stray (s : State) (c : CharSamples) : Option (Word × EngineState × Machine.Timer) :=
      (after (.characterDelivered ⟨c, 5⟩) s).map (fun t => (t.ee.strays, t.ee.state, t.ee.turnCount))
    startIsFalse (heard 9 true true) = false ∧
    stray (assembling five) (heard 9 true true) = some (1, .idle, .stopped) ∧
    stray (of .quiet) (heard 9 false true) = some (1, .quiet, .stopped) ∧
    stray (of .listen) (heard 9 false false) = some (1, .listen, .stopped) ∧
    stray (of .settle) (heard 9 true true) = some (1, .settle, .running) ∧
    (after (.characterDelivered ⟨heard 9 false true, 5⟩)
        { of .listen with ee := { (of .listen).ee with replyTimer := .expired } }).map
      (fun t => (t.ee.strays, t.ee.state, t.ee.lastFailure.reason)) = some (1, .settle, .timeout) ∧
    (satInc (65535 : Word), satInc (65534 : Word)) = (65535, 65535) := by decide +kernel

/-! ### Sending -/

/-- A WRITE of entry 1 to station 5 in its turn, in an engine state. -/
def writing (e : EngineState) (begun : Nat) (s : State) : State :=
  inTurnOf 5 .write (inExchange (exchangeOf .write 5 (some 1) begun) e { s with oq := [carried (message 1 5)] })

/-- The same state after LINE-STOP. -/
def stopping (s : State) : State := { s with lc := { s.lc with mode := .stopping } }

/-- The same state under hold, without an announcement pending. -/
def underHold (s : State) : State := { s with lc := { s.lc with holdInForce := true, announcement := .none } }

/-- What a command leaves of a stop: mode and cause, LINE, the phase, the miss counts and failed counters, the entries and
how many DONE records. -/
def stopAfter (c : Instr) (s : State) :
    Option ((LineMode × StopCause × Bool × Phase) × List (BitVec 4 × Word) × List (EntryStatus × Nat) × Nat) :=
  (after c s).map (fun t => ((t.lc.mode, t.lc.stopCause, t.rw.latched.line, t.ps.phase),
    t.st.records.map (fun r => (r.missCount, r.failed)), t.oq.map (fun e => (e.status, e.attempts)), t.rq.length))

/-- What a command leaves of an exchange that goes on in the turn: the kind and address handed next, sync pending and
failed counter, the entries and the DONE records. -/
def goesOnAfter (c : Instr) (s : State) :
    Option (Option (FrameKind × Address) × List (Bool × Word) × List (EntryStatus × Nat) × List ReturnRecord) :=
  (after c s).map (fun t => (t.ee.exchange.map (fun y => (y.kind, y.address)),
    t.st.records.map (fun r => (r.syncPending, r.failed)), t.oq.map (fun e => (e.status, e.attempts)), t.rq))

/-- What a command leaves of a leave that was pending: the records, the poll list, TABLE, the DONE records and the events. -/
def leaveAfter (c : Instr) (s : State) :
    Option (List (StationState × Leave) × List Address × Bool × List ReturnRecord × List Byte) :=
  (after c s).map (fun t => (t.st.records.map (fun r => (r.state, r.leave)), t.st.pollList, t.rw.latched.table, t.rq,
    t.au.queue.map (·.code)))

/-- Station 5 with a leave pending, SUSPECT with one miss fewer than the limit. -/
def leaving (l : Leave) : State := withStations [{ station 5 .suspect with missCount := 2, leave := l }] five

/-- The POLL of station 5 on TXD, with some of its five echoes taken. -/
def sending (echoed : Nat) (lastStopEnded : Bool) : State :=
  let s := assembling (polling .send 1 five)
  { s with ee := { s.ee with echoed := echoed, lastStopEnded := lastStopEnded, faultStreak := 1 } }

/-- Observes the engine after a command. -/
def engineAfter (c : Instr) (s : State) : Option (EngineState × Bool × BitVec 2 × Nat) :=
  (after c s).map (fun t => (t.ee.state, t.ee.driverEnable, t.ee.faultStreak, t.ee.echoed))

theorem test_meets_EchoesAndEndOfFrame :
    let last : Byte := (((sending 4 false).ee.frame[4]?).map (·.data)).getD 0
    let broadcast : State := inExchange (exchangeOf .hold 0 none 1) .send five
    (sending 0 false).ee.frame.map (·.data) = [0x05, 0x14, 0x00, 0xE8, 0xDB] ∧
    engineAfter (.characterDelivered ⟨heard 0x05 true true, 5⟩) (sending 0 false) = some (.send, true, 1, 1) ∧
    engineAfter (.characterDelivered ⟨heard 0x05 true true, 0⟩) (sending 0 false) = some (.send, true, 1, 1) ∧
    engineAfter (.characterDelivered ⟨heard 0xE8 false true, 4⟩) (sending 3 false) = some (.send, true, 1, 4) ∧
    engineAfter (.characterDelivered ⟨heard last false true, 5⟩) (sending 4 false) = some (.send, true, 0, 5) ∧
    engineAfter (.characterDelivered ⟨heard last false true, 0⟩) (sending 4 true) = some (.listen, false, 0, 0) ∧
    engineAfter .endOfLastStopBit (sending 5 false) = some (.listen, false, 1, 0) ∧
    (after .endOfLastStopBit (sending 4 false)).map (·.ee.lastStopEnded) = some true ∧
    engineAfter .endOfLastStopBit { broadcast with ee := { broadcast.ee with echoed := 6 } } =
      some (.quiet, false, 0, 0) := by decide +kernel

theorem test_meets_LineFaultIsFound :
    let found (c : Instr) (s : State) : Option (EngineState × Bool × Word) :=
      (after c s).map (fun t => (t.ee.state, t.ee.faultFound, t.ee.faults))
    let faulty : State := { sending 0 false with ee := { (sending 0 false).ee with faultFound := true } }
    faulty.ee.exchange ≠ none ∧
    found (.characterDelivered ⟨heard 0x04 true true, 5⟩) (sending 0 false) = some (.send, true, 0) ∧
    found (.characterDelivered ⟨heard 0x05 false true, 5⟩) (sending 0 false) = some (.send, true, 0) ∧
    found (.characterDelivered ⟨heard 0x05 true false, 5⟩) (sending 0 false) = some (.send, true, 0) ∧
    found (.characterDelivered ⟨heard 0x05 true true, 5⟩) (sending 5 false) = some (.send, true, 0) ∧
    found (.characterDelivered ⟨heard 0x14 false true, 1⟩) (sending 1 false) = some (.send, true, 0) ∧
    found (.characterDelivered ⟨heard 0x14 false true, 2⟩) (sending 1 false) = some (.send, false, 0) ∧
    found (.characterDelivered ⟨heard 0x00 false true, 5⟩) (sending 4 true) = some (.settle, false, 1) ∧
    (after (.characterDelivered ⟨⟨0x60A, 0x60A, 0x20A⟩, 5⟩) faulty).map (fun t => (t.ee.noise, t.ee.strays)) = some (1, 0) ∧
    found .echoMissing (sending 3 false) = some (.send, true, 0) ∧
    found .echoMissing (sending 4 false) = some (.settle, false, 1) ∧ after .echoMissing faulty = some faulty := by
  decide +kernel

theorem test_meets_FaultedAttemptEnds :
    let faulty (streak : BitVec 2) (s : State) : State :=
      { s with ee := { s.ee with faultFound := true, faultStreak := streak } }
    let write : State := inTurnOf 5 .write (inExchange (exchangeOf .write 5 (some 1) 1) .send
      { five with oq := [carried (message 1 5)] })
    let lastAttempt (st : StationState) (n : BitVec 4) : State :=
      { inTurnOf 5 .write (inExchange (exchangeOf .write 5 (some 1) 3) .send
          (withStations [{ station 5 st with missCount := n }] five)) with oq := [carried (message 1 5)] }
    let standing (t : State) :
        LineMode × List (StationState × BitVec 4 × Word) × List Byte × List ReturnRecord :=
      (t.lc.mode, t.st.records.map (fun r => (r.state, r.missCount, r.failed)), t.au.queue.map (·.code), t.rq)
    (after .faultedAttemptEnd (faulty 1 (sending 0 false))).map
      (fun t => (t.ee.state, t.ee.faults, t.ee.faultStreak, t.st.records.map (·.failed), readWord t 0x17)) =
      some (.settle, 1, 2, [1], 3) ∧
    (after .faultedAttemptEnd (faulty 0 (lastAttempt .online 0))).map standing =
      some (.run, [(.suspect, 1, 1)], [0x03], [.done 5 1 .failed 1]) ∧
    (after .faultedAttemptEnd (faulty 0 (lastAttempt .suspect 2))).map standing =
      some (.run, [(.lost, 3, 1)], [0x03, 0x01], [.done 5 1 .failed 1]) ∧
    (after .faultedAttemptEnd (faulty 2 write)).map standing = some (.off, [(.online, 0, 1)], [0x03], []) ∧
    (after .faultedAttemptEnd (faulty 2 write)).map
      (fun t => (t.lc.mode, t.lc.stopCause, t.rw.latched.line, t.ee.faultStreak, t.oq.map (·.status))) =
      some (.off, .fault, true, 3, [.queued]) ∧
    goesOnAfter .faultedAttemptEnd (faulty 0 (writing .send 3 five)) =
      some (none, [(true, 1)], [], [.done 5 1 .failed 1]) ∧
    goesOnAfter .faultedAttemptEnd (faulty 0 (inExchange (exchangeOf .write 0 (some 2) 3) .send
        { five with ps := { five.ps with phase := .opening }, oq := [carried (message 2 0)] })) =
      some (none, [(false, 0)], [], [.done 0 2 .failed 1]) ∧
    leaveAfter .faultedAttemptEnd (faulty 2 (polling .send 1 (leaving .park))) =
      some ([(.parked, .absent)], [], true, [], [0x03]) := by decide +kernel

theorem test_meets_SettleEnds :
    let s := polling .settle 0 five
    let stopping : State := { s with lc := { s.lc with mode := .stopping } }
    let hold : State := inExchange (exchangeOf .hold 0 none 0) .settle
      { five with ps := { five.ps with phase := .opening } }
    engineAfter (.settleEnd .quiet) s = some (.send, true, 0, 0) ∧
    engineAfter (.settleEnd .limit) (assembling s) = some (.send, true, 0, 0) ∧
    (after (.settleEnd .quiet) (assembling s)).map (·.ee.turnCount) = some .expired ∧
    (after (.settleEnd .quiet) stopping).map (fun t => (t.lc.mode, t.lc.stopCause, t.ps.phase)) =
      some (.off, .host, .none) ∧
    hold.lc.holdInForce = false ∧
    (after (.settleEnd .quiet) hold).map (fun t => (t.lc.mode, t.ee.state)) = some (.run, .idle) ∧
    stopAfter (.settleEnd .limit) (Tests.stopping (writing .settle 0 five)) =
      some ((.off, .host, true, .none), [(0, 0)], [(.queued, 0)], 0) ∧
    goesOnAfter (.settleEnd .limit) (underHold (writing .settle 0 five)) =
      some (some (.poll, 5), [(false, 0)], [(.queued, 0)], []) ∧
    leaveAfter (.settleEnd .limit) (Tests.stopping (writing .settle 0 (leaving .remove))) =
      some ([], [], true, [.done 5 1 .removed 0], []) := by decide +kernel

/-! ### Listening and receiving -/

theorem test_meets_TimeoutsFailTheAttempt :
    let listen := polling .listen 1 five
    let gap (framing : Bool) : State := { polling .receive 1 five with
      ee := { (polling .receive 1 five).ee with buffer := [{ data := 5, mark := true, noise := false, framing := framing }] } }
    let missed (n : BitVec 4) : State := { polling .listen 3 (withStations
        [{ station 5 (if n = 0 then .online else .suspect) with missCount := n }] five) with
      oq := [message 1 5, message 2 0] }
    let write (n : BitVec 4) : State :=
      { inTurnOf 5 .write (inExchange (exchangeOf .write 5 (some 1) 3) .listen (missed n)) with
        oq := [message 3 5, carried (message 1 5)] }
    let recovery : State :=
      let x : Exchange := { exchangeOf .poll 5 none 1 with allowance := 1 }
      let s := inTurnOf 5 .poll (inExchange x .listen (withStations [{ station 5 .lost with missCount := 3 }] five))
      { s with ps := { s.ps with turn := s.ps.turn.map (fun t => { t with kind := .recovery }) } }
    let failing (c : Instr) (s : State) : Option (EngineState × FailReason × List Word) :=
      (after c s).map (fun t => (t.ee.state, t.ee.lastFailure.reason, t.st.records.map (·.failed)))
    (after .replyTimeout (assembling listen)).map (·.ee.replyTimer) = some .expired ∧
    (after .gapTimeout (assembling (gap false))).map (·.ee.gapTimer) = some .expired ∧
    failing .replyTimeout listen = some (.settle, .timeout, [1]) ∧
    failing .gapTimeout (gap false) = some (.settle, .truncated, [1]) ∧
    failing .gapTimeout (gap true) = some (.settle, .framing, [1]) ∧
    (after .replyTimeout recovery).map (fun t => (t.st.records.map (fun r => (r.state, r.missCount, r.failed)),
      t.au.queue.length)) = some ([(.lost, 3, 1)], 0) ∧
    (after .replyTimeout (write 0)).map (fun t => (t.st.records.map (fun r => (r.state, r.syncPending)), t.rq)) =
      some ([(.suspect, true)], [.done 5 1 .failed 1]) ∧
    (after .replyTimeout (write 2)).map (fun t => (t.st.records.map (fun r => (r.state, r.syncPending)), t.rq)) =
      some ([(.lost, true)], [.done 5 1 .failed 1, .done 5 3 .stranded 0]) ∧
    (after .replyTimeout (missed 0)).map (fun t => t.st.records.map (fun r => (r.state, r.missCount))) =
      some [(.suspect, 1)] ∧
    (after .replyTimeout (missed 2)).map
      (fun t => (t.st.records.map (fun r => (r.state, r.syncPending)), t.rq, readWord t 0x17, t.oq.map (·.tag))) =
      some ([(.lost, true)], [.done 5 1 .stranded 0], 1, [2]) := by decide +kernel

theorem test_meets_TimeoutsFailTheAttempt_in_a_stop_and_under_hold :
    stopAfter .replyTimeout (stopping (writing .listen 3 five)) =
      some ((.off, .host, true, .none), [(0, 1)], [(.queued, 0)], 0) ∧
    goesOnAfter .replyTimeout (underHold (writing .listen 1 five)) =
      some (some (.poll, 5), [(false, 1)], [(.queued, 0)], []) := by decide +kernel

theorem test_meets_TimeoutsFailTheAttempt_with_a_leave_pending :
    let missed (l : Leave) : State := polling .listen 3 { leaving l with oq := [message 1 5, message 2 0] }
    leaveAfter .replyTimeout (missed .remove) = some ([], [], true, [.done 5 1 .stranded 0], [0x01]) ∧
    leaveAfter .replyTimeout (missed .park) =
      some ([(.parked, .absent)], [], true, [.done 5 1 .stranded 0], [0x01]) ∧
    leaveAfter .replyTimeout (stopping (missed .park)) = some ([(.parked, .absent)], [], true, [], []) := by
  decide +kernel

theorem test_meets_QuietEndsTheBroadcast :
    let base : State := { five with ps := { five.ps with phase := .opening }, oq := [carried (message 2 0)] }
    let write : State := inExchange (exchangeOf .write 0 (some 2) 1) .quiet base
    let hold (renewed : Option Bool) : State := inExchange (exchangeOf .hold 0 none 1) .quiet { base with
      lc := { base.lc.hostHold with inFlight := renewed } }
    let told (s : State) : Option (Bool × Announcement) :=
      (after .quietEnd s).map (fun t => (t.rw.latched.holdSent, t.lc.announcement))
    write.ps.turn = none ∧ write.oq.filter (fun d => d.tag == 2) = [carried (message 2 0)] ∧
    (after .quietEnd write).map (fun t => (t.rq, t.oq)) = some ([.done 0 2 .sent 1], []) ∧
    told (hold (some false)) = some (true, .none) ∧ told (hold (some true)) = some (true, .hold) ∧
    told (hold none) = some (false, .hold) ∧
    stopAfter .quietEnd (stopping write) = some ((.off, .host, true, .none), [(0, 0)], [], 1) := by decide +kernel

/-- Station 5 answers: the engine receives with these characters in the buffer. -/
def receiving (buffer : List RxChar) : State :=
  let s := assembling (polling .receive 1 five)
  { s with ee := { s.ee with buffer := buffer } }

/-- An unmarked character as received. -/
def plainChar (d : Byte) : RxChar := { data := d, mark := false, noise := false, framing := false }

theorem test_meets_ReplyAssembly :
    let result (s : State) (d : Byte) (mark : Bool) : Option (EngineState × FailReason × Nat) :=
      (after (.characterDelivered ⟨heard d mark true, 5⟩) s).map
        (fun t => (t.ee.state, t.ee.lastFailure.reason, t.ee.buffer.length))
    let head : RxChar := { plainChar 5 with mark := true }
    result (assembling (polling .listen 1 five)) 5 true = some (.receive, .none, 1) ∧
    result (receiving [head]) 5 true = some (.settle, .broken, 1) ∧
    result (receiving [head, plainChar 0x80]) 33 false = some (.settle, .length, 3) ∧
    result (receiving [head, plainChar 0x80]) 32 false = some (.receive, .none, 3) ∧
    result (receiving [head]) 0x80 false = some (.receive, .none, 2) ∧
    result (receiving nilWithoutLast) 0 false = some (.settle, .check, 5) ∧
    result (receiving (nilWithoutLast.take 3)) 0 false = some (.receive, .none, 4) ∧
    result (receiving nilWithoutLast) nilLast false = some (.idle, .none, 5) := by decide +kernel

theorem test_meets_ReplyTestsFollowR74 :
    let s := polling .receive 1 five
    let x := exchangeOf .poll 5 none 1
    let buffer (ctrl : Byte) (a : Address) : List RxChar :=
      (frameOf a ctrl []).map (fun ch => { data := ch.data, mark := ch.mark, noise := false, framing := false })
    let good := buffer 0x80 5
    replyFault s x .complete (good.map (fun ch => { ch with framing := true })) = .framing ∧
    replyFault s x .broken good = .broken ∧ replyFault s x .truncated good = .truncated ∧
    replyFault s x .complete (buffer 0x80 6) = .wrong ∧
    replyFault s x .length [plainChar 5, plainChar 0x80, plainChar 33] = .length ∧
    replyFault s x .complete (good.map (fun ch => { ch with data := if ch.mark then ch.data else 0 })) = .check ∧
    replyFault s x .complete (buffer 0xB0 5) = .protocol ∧
    replyFault s (exchangeOf .write 5 (some 1) 1) .complete (buffer 0xB8 5) = .stale ∧
    replyFault s x .complete good = .none ∧
    stopAfter (.characterDelivered ⟨heard 0 false true, 0⟩) (stopping (receiving nilWithoutLast)) =
      some ((.off, .host, true, .none), [(0, 1)], [], 0) := by decide +kernel

theorem test_replies_are_valid_for_their_requests :
    let r (ctrl len : Byte) (payload : List Byte) : Reply := { head := 5, ctrl, len, payload, check := [] }
    replyValid .poll (r 0x80 0 []) = true ∧ replyValid .poll (r 0x90 1 [7]) = true ∧
    replyValid .poll (r 0x90 0 []) = false ∧ replyValid .poll (r 0xA0 2 [2, 9]) = true ∧
    replyValid .poll (r 0xA0 2 [3, 9]) = false ∧ replyValid .poll (r 0x81 0 []) = false ∧
    replyValid .write (r 0xC8 0 []) = true ∧ replyValid .sync (r 0xB0 0 []) = false ∧
    replyValid .hold (r 0x80 0 []) = false := by decide +kernel

theorem test_meets_GoodReplyEffects :
    let x := exchangeOf .write 5 (some 1) 1
    let reply (t : Bool) (payload : List Byte) : Reply :=
      { head := 5, ctrl := ctrlByte 0x9 t false false, len := 0, payload := payload, check := [] }
    let s (defers : BitVec 4) : State := { five with oq := [{ carried (message 1 5) with defers := defers }] }
    let full : State := { five with rq := List.replicate 24 (.done 5 0 .sent 1) }
    let noRoom : State := withAlerts ((List.range 12).map (fun i => alert 6 0 (BitVec.ofNat 8 i) 1)) [] five
    let said (k : ReplyKind) (r : Reply) (u : State) : List (Option Bool × Byte × Byte × Bool) :=
      (replyEffect x k r u).st.records.map (fun q => (q.inToggle, q.duplicates, q.refusals, q.outToggle))
    five.st.find x.address = some (station 5 .online) ∧
    said .report (reply true [7]) five = [(some true, 0, 0, false)] ∧
    said .report (reply true [7]) full = [(none, 0, 1, false)] ∧
    said .report (reply true [7]) (replyEffect x .report (reply true [7]) five) = [(some true, 1, 0, false)] ∧
    (replyEffect x .alert (reply false [1, 9]) five).au.queue.map (·.level) = [1] ∧
    (replyEffect x .alert (reply false [2, 9]) (withStations [{ station 5 .online with ceiling := 0 }] five)).au.queue.map
      (·.level) = [0] ∧
    said .alert (reply false [2, 9]) noRoom = [(none, 0, 1, false)] ∧
    said .taken (reply false []) (s 0) = [(none, 0, 0, true)] ∧
    (replyEffect x .taken (reply false []) (s 0)).rq = [.done 5 1 .taken 1] ∧
    (replyEffect x .defer (reply false []) (s 7)).rq = [.done 5 1 .refused 1] ∧
    (replyEffect x .defer (reply false []) (s 6)).oq.map (fun e => (e.status, e.defers)) = [(.queued, 7)] := by
  decide +kernel

/-- Station 5 answers an exchange with a frame whose last character is still to come. -/
def answering (x : Exchange) (stage : Stage) (ctrl : Byte) (payload : List Byte) (s : State) : State :=
  let s := inTurnOf 5 stage (inExchange x .receive s)
  assembling { s with
    ee := { s.ee with
      buffer := (frameOf 5 ctrl payload).dropLast.map
        (fun ch => { data := ch.data, mark := ch.mark, noise := false, framing := false }) } }

/-- The last character of that frame, delivered. -/
def lastOf (ctrl : Byte) (payload : List Byte) : Instr :=
  .characterDelivered ⟨heard (((frameOf 5 ctrl payload).getLast?.map (·.data)).getD 0) false true, 0⟩

theorem test_meets_GoodReplyEffects_on_the_line :
    let s : State := { withStations [{ station 5 .online with syncPending := true, outToggle := true }] five with
      oq := [carried (message 1 5)] }
    let answered (x : Exchange) (stage : Stage) (ctrl : Byte) : Option (List (Word × ReplyKind × Bool × Bool) ×
        List ReturnRecord × List EntryStatus × Option FrameKind) :=
      (after (lastOf ctrl []) (answering x stage ctrl [] s)).map (fun t =>
        (t.st.records.map (fun r => (r.accepted, r.lastReply, r.outToggle, r.syncPending)), t.rq,
          t.oq.map (·.status), t.ee.exchange.map (·.kind)))
    frameComplete ((answering (exchangeOf .sync 5 none 1) .sync 0x80 [] s).ee.buffer ++
      [plainChar (((frameOf 5 0x80 []).getLast?.map (·.data)).getD 0)]) = true ∧
    answered (exchangeOf .write 5 (some 1) 1) .write 0xB8 =
      some ([(1, .taken, false, true)], [.done 5 1 .taken 1], [], some .poll) ∧
    answered (exchangeOf .write 5 (some 1) 1) .write 0xC0 =
      some ([(1, .defer, true, true)], [], [.queued], some .poll) ∧
    answered (exchangeOf .sync 5 none 1) .sync 0x80 =
      some ([(1, .nil, false, false)], [], [.inFlight], some .write) ∧
    stopAfter (lastOf 0xB8 []) (stopping (answering (exchangeOf .write 5 (some 1) 1) .write 0xB8 [] s)) =
      some ((.off, .host, true, .none), [(0, 0)], [], 1) := by decide +kernel

theorem test_meets_GoodPollIsASuccess :
    let x := exchangeOf .poll 5 none 1
    let s (st : StationState) (l : Leave) : State :=
      { withStations [{ station 5 st with leave := l, missCount := if st = .lost then 3 else 0 }] five with
        oq := [message 1 5, message 2 0] }
    let full : State := { s .online .absent with rq := List.replicate 22 (.done 6 0 .sent 1) }
    let twice : State := withStations [{ station 5 .online with inToggle := some true }] five
    let seen (ctrl : Byte) (payload : List Byte) (s : State) :
        Option (List (StationState × BitVec 4 × Word × ReplyKind) × List (Option Bool × Byte × Byte)) :=
      (after (lastOf ctrl payload) (answering x .poll ctrl payload s)).map (fun t =>
        (t.st.records.map (fun r => (r.state, r.missCount, r.accepted, r.lastReply)),
          t.st.records.map (fun r => (r.inToggle, r.duplicates, r.refusals))))
    let left (s : State) : Option (List Address × List ReturnRecord × List Byte × Bool × List Byte) :=
      (after (lastOf 0x98 [7]) (answering x .poll 0x98 [7] s)).map (fun t =>
        (t.st.pollList, t.rq, t.oq.map (·.tag), t.rw.latched.table, t.au.queue.map (·.code)))
    frameComplete ((answering x .poll 0x98 [7] five).ee.buffer ++
      [plainChar (((frameOf 5 0x98 [7]).getLast?.map (·.data)).getD 0)]) = true ∧
    seen 0x80 [] (s .lost .absent) = some ([(.online, 0, 1, .nil)], [(none, 0, 0)]) ∧
    seen 0x98 [7] (s .suspect .absent) = some ([(.online, 0, 1, .report)], [(some true, 0, 0)]) ∧
    seen 0x98 [7] full = some ([(.online, 0, 1, .report)], [(none, 0, 1)]) ∧
    seen 0x98 [7] twice = some ([(.online, 0, 1, .report)], [(some true, 1, 0)]) ∧
    seen 0xA0 [2, 9] (s .online .absent) = some ([(.online, 0, 1, .alert)], [(some false, 0, 0)]) ∧
    seen 0x98 [7] (s .online .park) = some ([(.parked, 0, 1, .report)], [(some true, 0, 0)]) ∧
    left (s .online .absent) = some ([5], [.report 5 [7] 0], [1, 2], false, []) ∧
    left (s .online .park) = some ([], [.report 5 [7] 0], [1, 2], true, []) ∧
    left (s .lost .remove) = some ([], [.report 5 [7] 0, .done 5 1 .removed 0], [2], true, [2]) ∧
    stopAfter (lastOf 0x80 []) (stopping (answering x .poll 0x80 [] (s .suspect .absent))) =
      some ((.off, .host, true, .none), [(0, 0)], [(.queued, 0), (.queued, 0)], 0) := by decide +kernel

/-! ### Frames -/

theorem test_meets_FrameReadsBack :
    let payload : List Byte := List.replicate 32 0x5A
    payload.length ≤ 32 ∧ (frameOf 126 0x28 payload).length = 37 ∧ (frameOf 5 0x14 []).map (·.data) =
      [0x05, 0x14, 0x00, 0xE8, 0xDB] := by decide +kernel

theorem test_composed_control_characters :
    let ctrl (s : State) (x : Exchange) : Option Byte := ((composeFrame s x)[1]?).map (·.data)
    let full : State := { five with rq := List.replicate 24 (.done 5 0 .sent 1) }
    ctrl five (exchangeOf .poll 5 none 0) = some 0x14 ∧ ctrl full (exchangeOf .poll 5 none 0) = some 0x16 ∧
    ctrl (withStations [{ station 5 .online with outToggle := true }] five) (exchangeOf .write 5 none 0) = some 0x28 ∧
    ctrl five (exchangeOf .hold 0 none 0) = some 0x40 ∧
    ((composeFrame { five with lc := five.lc.hostHold.supervisionHold } (exchangeOf .hold 0 none 0))[3]?).map (·.data) =
      some 3 := by decide +kernel

/-! ### What every command keeps -/

theorem test_meets_SharedSumFollowsR105 :
    let removed : State := withArgs 5 0 0 0 { five with oq := [message 1 5] }
    let report : List RxChar := ((frameOf 5 0x98 [7]).take 5).map
      (fun ch => { data := ch.data, mark := ch.mark, noise := false, framing := false })
    let last : Byte := (((frameOf 5 0x98 [7])[5]?).map (·.data)).getD 0
    (after .remove removed).map (fun t => (t.oq.length, t.rq)) = some (0, [.done 5 1 .removed 0]) ∧
    (after (.characterDelivered ⟨heard last false true, 0⟩) (receiving report)).map (fun t => (t.oq.length, t.rq)) =
      some (0, [.report 5 [7] 0]) ∧
    sharedSum five = 0 ∧ (after .submit (withArgs 5 1 0 0 five)).map sharedSum = some 1 ∧
    (after .takeReturn { five with rq := [.report 5 [1] 1] }).map sharedSum = some 0 := by decide +kernel

theorem test_meets_EveryEntryEndsInADoneRecord :
    let s : State := withArgs 5 0 0 0 { five with oq := [message 1 5, message 2 0] }
    (after .remove s).map (fun t => (t.oq, t.rq)) = some ([message 2 0], [.done 5 1 .removed 0]) := by decide +kernel

/-- Station 5 polled, its command queue holding one command. -/
def lawful (c : Instr) : State := { polling .settle 0 five with pending := [c] }

theorem test_meets_StationTableLawsAreKept (c : Instr) :
    TableLaw (lawful c) ∧ PollListLaw (lawful c) ∧ MissLaw (lawful c) := by
  refine ⟨⟨?_, ?_, ?_⟩, ⟨?_, ?_⟩, ?_, ?_⟩ <;>
    simp [lawful, polling, inTurnOf, inExchange, five, withStations, station, newRecord, MissCountFits, State.reset,
      State.afterReset, Settings.reset]
  exact fun _ => ⟨Eq.symm, Eq.symm⟩

theorem test_meets_QueueAttentionHoldAndSupervisionLawsAreKept (c : Instr) :
    QueueLaw (lawful c) ∧ AttentionLaw (lawful c).au ∧ HoldLaw (lawful c).lc ∧ SupervisionLaw (lawful c).sv := by
  refine ⟨?_, ?_, ?_, ?_⟩ <;>
    simp [QueueLaw, AttentionLaw, HoldLaw, SupervisionLaw, lawful, polling, inTurnOf, inExchange, five, withStations,
      State.reset, State.afterReset, AttentionUnit.reset, LineControl.reset, Supervision.reset, lowEntries]

theorem test_meets_EveryStepIsLawful :
    Lawful (lawful .lineStop) ∧
      (match step (lawful .lineStop) with | .next t => t.lc.mode == .stopping | _ => false) = true := by
  obtain ⟨h1, h2, h3⟩ := test_meets_StationTableLawsAreKept .lineStop
  obtain ⟨h4, h5, h6, h7⟩ := test_meets_QueueAttentionHoldAndSupervisionLawsAreKept .lineStop
  refine ⟨⟨h1, h2, h3, h4, h5, h6, h7, ?_, ?_, ?_, ?_, ?_⟩, by decide +kernel⟩ <;>
    simp [LineLaw, LeaveLaw, EntryLaw, WalkLaw, PauseLaw, lawful, polling, inTurnOf, inExchange, exchangeOf, five, withStations,
      station, newRecord, inTurn, State.reset, State.afterReset, Scheduler.reset]
  rintro x tag rfl
  simp

end Sys2Proof.Tests
end

/-! SUPPORT. Which replies are valid for a request (R9, R10): the kind of a control character as a number, the rows of the
table of R9, and the validity of a reply spelled over them. -/

namespace Sys2Proof.Machine

/-- The kind code of a reply in the table of R9; a record's NONE is no reply. -/
def replyCode : ReplyKind → Option Nat
  | .none => none
  | .nil => some 0x8
  | .report => some 0x9
  | .alert => some 0xA
  | .taken => some 0xB
  | .defer => some 0xC

theorem ctrl_kind_toNat (ctrl : Byte) : (ctrl.extractLsb' 4 4).toNat = ctrl.toNat / 16 := by
  have := ctrl.isLt
  rw [BitVec.extractLsb'_toNat, Nat.shiftRight_eq_div_pow]
  omega

/-- Two kinds of reply never share a code, so the code of R9 names the kind. -/
theorem replyKindOf_eq_some_iff (ctrl : Byte) (k : ReplyKind) :
    replyKindOf ctrl = some k ↔ some (ctrl.toNat / 16) = replyCode k := by
  unfold replyKindOf
  rw [ctrl_kind_toNat]
  split
  case h_6 => cases k <;> simp_all [replyCode]
  all_goals
    next hcode => rw [hcode]; cases k <;> simp [replyCode]

/-- The replies of the table of R9, request by request. -/
theorem kindAnswers_iff (request : FrameKind) (k : ReplyKind) :
    kindAnswers request k = true ↔
      (request = .poll ∧ (k = .nil ∨ k = .report ∨ k = .alert)) ∨
        (request = .write ∧ (k = .taken ∨ k = .defer)) ∨ (request = .sync ∧ k = .nil) := by
  cases request <;> cases k <;> simp [kindAnswers]

/-- The four conditions of R10, over the kind the control character names. -/
theorem replyValid_iff (request : FrameKind) (r : Reply) :
    replyValid request r = true ↔
      ∃ k, some (r.ctrl.toNat / 16) = replyCode k ∧ kindAnswers request k = true ∧
        lengthFits k r.len.toNat = true ∧ r.ctrl.getLsbD 0 = false ∧
        (k = .alert → (r.payload.getD 0 0).toNat ≤ 2) := by
  simp only [← replyKindOf_eq_some_iff]
  cases hk : replyKindOf r.ctrl with
  | none => simp [replyValid, hk]
  | some k => simp [replyValid, hk, ctrlReserved, and_assoc, imp_iff_not_or]

/-- Settles O50: R10's conditions, read off the table of R9 row by row. -/
theorem replyValidityFollowsR10 : Obligations.ReplyValidityFollowsR10 := by
  intro request r
  rw [replyValid_iff]
  constructor
  · rintro ⟨k, hcode, hanswers, hlen, hreserved, hlevel⟩
    refine ⟨hreserved, ?_⟩
    rcases (kindAnswers_iff request k).mp hanswers with
      ⟨rfl, rfl | rfl | rfl⟩ | ⟨rfl, rfl | rfl⟩ | ⟨rfl, rfl⟩ <;>
      simp_all [replyCode, lengthFits]
  · rintro ⟨hreserved, ⟨rfl, ⟨hkind, hlen⟩ | ⟨hkind, hlow, hhigh⟩ | ⟨hkind, hlen, hlevel⟩⟩ |
      ⟨rfl, hkind | hkind, hlen⟩ | ⟨rfl, hkind, hlen⟩⟩
    · exact ⟨.nil, congrArg some hkind, rfl, by simp [lengthFits, hlen], hreserved, nofun⟩
    · exact ⟨.report, congrArg some hkind, rfl, by simp [lengthFits, hlow, hhigh], hreserved, nofun⟩
    · exact ⟨.alert, congrArg some hkind, rfl, by simp [lengthFits, hlen], hreserved, fun _ => hlevel⟩
    · exact ⟨.taken, congrArg some hkind, rfl, by simp [lengthFits, hlen], hreserved, nofun⟩
    · exact ⟨.defer, congrArg some hkind, rfl, by simp [lengthFits, hlen], hreserved, nofun⟩
    · exact ⟨.nil, congrArg some hkind, rfl, by simp [lengthFits, hlen], hreserved, nofun⟩

end Sys2Proof.Machine

/-! SUPPORT. What the Station Table answers to ENROL, UNPARK and ZERO and what a write of LIMITS makes of it (R30, R34,
R35, R39, R82): one equation per answer, what each act does to the table, and the statements settled from these. -/

namespace Sys2Proof.Machine

/-! ### A record inserted or updated -/

/-- A record inserted under a new address is found there. -/
theorem find_insertRecord_same {r : StationRecord} {records : List StationRecord} {pollList : List Address}
    (hnew : ∀ q ∈ records, q.address ≠ r.address) :
    StationTable.find { records := insertRecord r records, pollList } r.address = some r := by
  simp only [StationTable.find]
  induction records with
  | nil => simp [insertRecord]
  | cons x xs ih =>
    obtain ⟨hx, hxs⟩ := List.forall_mem_cons.1 hnew
    simp only [insertRecord]
    split
    · simp
    · rw [List.find?_cons_of_neg (by simpa using hx), ih hxs]

/-- An insertion keeps what is found under every other address. -/
theorem find_insertRecord_other {r : StationRecord} {records : List StationRecord} {pollList pollList' : List Address}
    {b : Address} (hb : b ≠ r.address) :
    StationTable.find { records := insertRecord r records, pollList } b =
      StationTable.find { records, pollList := pollList' } b := by
  simp only [StationTable.find]
  have hr : ¬(r.address == b) = true := by simpa using hb.symm
  induction records with
  | nil => simp [insertRecord, hr]
  | cons x xs ih =>
    simp only [insertRecord]
    split
    · exact List.find?_cons_of_neg hr
    · simp only [List.find?_cons, ih]

/-- The record of an updated address is found with its change. -/
theorem find_updateStation_same {a : Address} {f : StationRecord → StationRecord} {s : State} {r : StationRecord}
    (hf : ∀ r, (f r).address = r.address) (hfind : s.st.find a = some r) :
    (updateStation a f s).st.find a = some (f r) := by
  simp [updateStation, find_update_same hf, hfind]

/-- Joining the poll list changes no record. -/
@[simp] theorem joinPollList_find (a b : Address) (s : State) : (joinPollList a s).st.find b = s.st.find b := rfl

/-- An address that joins joins the poll list and cursor of every state that agrees in these and in the phase. -/
theorem joinedPollList_joinPollList {a : Address} {s u : State} (hlist : u.st.pollList = s.st.pollList)
    (hps : u.ps = s.ps) : JoinedPollList a s (joinPollList a u) := by
  refine ⟨congrArg (· ++ [a]) hlist, fun hEnd => ?_, fun hElse => ?_⟩ <;> simp only [joinPollList, hps]
  · rw [if_pos hEnd]
  · rw [if_neg hElse]

/-! ### Answers without result words -/

/-- A command whose block answers a result alone. -/
theorem takeCommand_plain {code : Byte} {body : State → Answer} {s t : State} {result : ResultCode}
    (hrun : s.inReset = false) (hanswer : body s = plain result t) :
    takeCommand code body s = .next (answered code result .zero t) := by
  rw [takeCommand_running hrun, hanswer]
  rfl

/-! ### ENROL (R30) -/

theorem enrolAnswer_outOfRange {s : State} (hargs : s.rw.args.w0.toNat = 0 ∨ 126 < s.rw.args.w0.toNat ∨
    15 < s.rw.args.w1.toNat ∨ 2 < s.rw.args.w2.toNat) : enrolAnswer s = plain .badArg s := by
  unfold enrolAnswer
  split
  · rfl
  · next a ha =>
    have hrange : ¬(s.rw.args.w0.toNat = 0 ∨ 126 < s.rw.args.w0.toNat) := by
      rw [← stationAddress_eq_none, ha]
      exact Option.some_ne_none a
    rw [if_pos (by omega)]

section
variable {s : State} {a : Address} (haddr : stationAddress s.rw.args.w0 = some a) (hskip : s.rw.args.w1.toNat ≤ 15)
  (hceiling : s.rw.args.w2.toNat ≤ 2)
include haddr hskip hceiling

/-- With every argument in range, a record of the address decides the refusal. -/
theorem enrolAnswer_of_record {r : StationRecord} (hfind : s.st.find a = some r) :
    enrolAnswer s = plain (if r.leave = .remove then .leaving else .alreadyExists) s := by
  simp only [enrolAnswer, haddr, hfind, if_neg (show ¬(15 < s.rw.args.w1.toNat ∨ 2 < s.rw.args.w2.toNat) by omega)]
  split <;> rfl

/-- With every argument in range and no record of the address, the room in the table decides. -/
theorem enrolAnswer_of_noRecord (hfind : s.st.find a = none) :
    enrolAnswer s = if 32 ≤ s.st.records.length then plain .full s
      else plain .ok (enrolStation a (s.rw.args.w1.setWidth 4) (s.rw.args.w2.setWidth 2) s) := by
  simp only [enrolAnswer, haddr, hfind, if_neg (show ¬(15 < s.rw.args.w1.toNat ∨ 2 < s.rw.args.w2.toNat) by omega)]
  rfl

end

theorem find_enrolStation_same {s : State} {a : Address} (skip : BitVec 4) (ceiling : BitVec 2)
    (hfind : s.st.find a = none) : (enrolStation a skip ceiling s).st.find a = some (newRecord a skip ceiling) :=
  find_insertRecord_same (r := newRecord a skip ceiling) (find_none.1 hfind)

theorem othersKept_enrolStation (a : Address) (skip : BitVec 4) (ceiling : BitVec 2) (s : State) :
    OtherRecordsKept a s (enrolStation a skip ceiling s) :=
  fun _ hb => find_insertRecord_other (r := newRecord a skip ceiling) hb

theorem length_records_enrolStation (a : Address) (skip : BitVec 4) (ceiling : BitVec 2) (s : State) :
    (enrolStation a skip ceiling s).st.records.length = s.st.records.length + 1 :=
  length_insertRecord _ _

theorem joinedPollList_enrolStation (a : Address) (skip : BitVec 4) (ceiling : BitVec 2) (s : State) :
    JoinedPollList a s (enrolStation a skip ceiling s) :=
  joinedPollList_joinPollList rfl rfl

/-- Settles O9: the answer is read off the record of the address and the room in the table, and an accepted ENROL
inserts the new record and lets its address join the poll list. -/
theorem enrolFollowsR30 : Obligations.EnrolFollowsR30 := by
  intro s hrun
  refine ⟨fun hargs => takeCommand_plain hrun (enrolAnswer_outOfRange hargs),
    fun a hw0 hlow hhigh hskip hceiling => ?_⟩
  have haddr := stationAddress_eq_some.2 ⟨hw0, hlow, hhigh⟩
  refine ⟨fun r hfind hleave => ?leaving, fun r hfind hleave => ?alreadyExists, fun hfind hfull => ?full,
    fun hfind hroom => ?ok⟩
  case leaving =>
    exact takeCommand_plain hrun (by rw [enrolAnswer_of_record haddr hskip hceiling hfind, if_pos hleave])
  case alreadyExists =>
    exact takeCommand_plain hrun (by rw [enrolAnswer_of_record haddr hskip hceiling hfind, if_neg hleave])
  case full =>
    exact takeCommand_plain hrun (by rw [enrolAnswer_of_noRecord haddr hskip hceiling hfind, if_pos hfull])
  case ok =>
    have hanswer := enrolAnswer_of_noRecord haddr hskip hceiling hfind
    rw [if_neg (by omega)] at hanswer
    exact ⟨_, takeCommand_plain hrun hanswer, find_enrolStation_same _ _ hfind, othersKept_enrolStation _ _ _ _,
      length_records_enrolStation _ _ _ _, joinedPollList_enrolStation _ _ _ _, rfl⟩

/-! ### UNPARK (R34) -/

theorem unparkAnswer_outOfRange {s : State} (hargs : s.rw.args.w0.toNat = 0 ∨ 126 < s.rw.args.w0.toNat) :
    unparkAnswer s = plain .badArg s := by
  simp only [unparkAnswer, stationAddress_eq_none.2 hargs]

theorem unparkAnswer_of_noRecord {s : State} {a : Address} (haddr : stationAddress s.rw.args.w0 = some a)
    (hfind : s.st.find a = none) : unparkAnswer s = plain .unknown s := by
  simp only [unparkAnswer, haddr, hfind]

/-- A record of the address must be PARKED. -/
theorem unparkAnswer_of_record {s : State} {a : Address} {r : StationRecord}
    (haddr : stationAddress s.rw.args.w0 = some a) (hfind : s.st.find a = some r) :
    unparkAnswer s = if r.state ≠ .parked then plain .wrongState s else plain .ok (unparkStation a s) := by
  simp only [unparkAnswer, haddr, hfind]

theorem find_unparkStation_same {s : State} {a : Address} {r : StationRecord} (hfind : s.st.find a = some r) :
    (unparkStation a s).st.find a = some { r with state := .new, missCount := 0, countdown := 0 } := by
  rw [unparkStation, joinPollList_find]
  exact find_updateStation_same (fun _ => rfl) hfind

theorem othersKept_unparkStation (a : Address) (s : State) : OtherRecordsKept a s (unparkStation a s) :=
  fun _ hb => find_update_other (fun _ => rfl) hb

theorem joinedPollList_unparkStation (a : Address) (s : State) : JoinedPollList a s (unparkStation a s) :=
  joinedPollList_joinPollList rfl rfl

/-- Settles O13: the answer is read off the record of the address, and an accepted UNPARK updates it and lets its
address join the poll list. -/
theorem unparkFollowsR34 : Obligations.UnparkFollowsR34 := by
  intro s hrun
  refine ⟨fun hargs => takeCommand_plain hrun (unparkAnswer_outOfRange hargs), fun a hw0 hlow hhigh => ?_⟩
  have haddr := stationAddress_eq_some.2 ⟨hw0, hlow, hhigh⟩
  refine ⟨fun hfind => takeCommand_plain hrun (unparkAnswer_of_noRecord haddr hfind), fun r hfind => ?_⟩
  have hanswer := unparkAnswer_of_record haddr hfind
  refine ⟨fun hstate => ?wrongState, fun hstate => ?ok⟩
  case wrongState =>
    rw [if_pos hstate] at hanswer
    exact takeCommand_plain hrun hanswer
  case ok =>
    rw [if_neg (not_not_intro hstate)] at hanswer
    exact ⟨_, takeCommand_plain hrun hanswer, find_unparkStation_same hfind, othersKept_unparkStation a s,
      joinedPollList_unparkStation a s, rfl⟩

/-! ### ZERO (R35, R82) -/

theorem zeroAnswer_ofLine {s : State} (hline : s.rw.args.w0 = 0) : zeroAnswer s = plain .ok (zeroLine s) :=
  if_pos hline

theorem zeroAnswer_outOfRange {s : State} (hargs : 126 < s.rw.args.w0.toNat) : zeroAnswer s = plain .badArg s := by
  have hne : s.rw.args.w0 ≠ 0 := fun h => by simp [h] at hargs
  simp only [zeroAnswer, if_neg hne, stationAddress_eq_none.2 (.inr hargs)]

/-- The word of a station address is not the line's. -/
theorem ne_zero_of_stationAddress {w : Word} {a : Address} (haddr : stationAddress w = some a) : w ≠ 0 := by
  rintro rfl
  exact Option.some_ne_none a (haddr.symm.trans (stationAddress_eq_none.2 (.inl rfl)))

theorem zeroAnswer_of_noRecord {s : State} {a : Address} (haddr : stationAddress s.rw.args.w0 = some a)
    (hfind : s.st.find a = none) : zeroAnswer s = plain .unknown s := by
  simp only [zeroAnswer, if_neg (ne_zero_of_stationAddress haddr), haddr, hfind]

theorem zeroAnswer_of_record {s : State} {a : Address} {r : StationRecord}
    (haddr : stationAddress s.rw.args.w0 = some a) (hfind : s.st.find a = some r) :
    zeroAnswer s = plain .ok (updateStation a zeroCounters s) := by
  simp only [zeroAnswer, if_neg (ne_zero_of_stationAddress haddr), haddr, hfind]

/-- Settles O14: no clause of ZERO looks at the engine, at the turn or at a leave pending, and the act is one update of
the record, or of the line counters. -/
theorem zeroFollowsR35AndR82 : Obligations.ZeroFollowsR35AndR82 := by
  intro s hrun
  refine ⟨fun hargs => takeCommand_plain hrun (zeroAnswer_outOfRange hargs),
    fun hline => takeCommand_plain hrun (zeroAnswer_ofLine hline), fun a hw0 hlow hhigh => ?_⟩
  have haddr := stationAddress_eq_some.2 ⟨hw0, hlow, hhigh⟩
  refine ⟨fun hfind => takeCommand_plain hrun (zeroAnswer_of_noRecord haddr hfind), fun r hfind => ?_⟩
  exact ⟨_, takeCommand_plain hrun (zeroAnswer_of_record haddr hfind), find_updateStation_same (fun _ => rfl) hfind,
    othersKept_updateStation a zeroCounters (fun _ => rfl) s, rfl, rfl⟩

/-! ### A write of LIMITS (R39, R63) -/

/-- LIMITS is taken exactly with the line OFF and a miss limit other than 0. -/
theorem exec_limitsWrite {s : State} (value : Word) (hrun : s.inReset = false) :
    exec (.limitsWrite value) s =
      .next (if s.lc.mode = .off ∧ value.extractLsb' 4 4 ≠ 0 then setLimits value s else latchCfg s) := by
  change whenRunning _ s = _
  rw [whenRunning_running hrun]
  simp [configWrite, lineIsOff]

/-- R39 state by state: LOST stays LOST at the new limit, SUSPECT returns to ONLINE, every other state keeps. -/
theorem rebaseRecord_byState (limit : BitVec 4) (r : StationRecord) :
    (r.state = .lost → rebaseRecord limit r = { r with missCount := limit }) ∧
      (r.state = .suspect → rebaseRecord limit r = { r with missCount := 0, state := .online }) ∧
      (r.state = .new ∨ r.state = .online ∨ r.state = .parked →
        rebaseRecord limit r = { r with missCount := 0 }) := by
  refine ⟨fun h => ?_, fun h => ?_, ?_⟩
  · simp only [rebaseRecord, h]
  · simp only [rebaseRecord, h]
  · rintro (h | h | h) <;> simp only [rebaseRecord, h]

/-- Settles O35: the records re-based are `rebaseRecord` of the new miss limit. -/
theorem limitsWriteFollowsR39 : Obligations.LimitsWriteFollowsR39 := by
  rintro s value _ miss _ hrun rfl hmiss rfl
  rw [exec_limitsWrite value hrun, setLimits, hmiss]
  refine ⟨fun hoff hne => ⟨rebaseRecord miss, rebaseRecord_byState miss, ?_⟩, fun hrefused => ?_⟩
  · rw [if_pos ⟨hoff, hne⟩]
  · rw [if_neg (by tauto)]
    rfl

end Sys2Proof.Machine

/-! SUPPORT. What a step can do to the configuration registers (R57, R63 to R65): the two resets set them, the five
writes change them within their ranges, and every other row leaves them as they stand. -/

namespace Sys2Proof.Machine

/-! ### What leaves the configuration as it stands -/

/-- A command whose block leaves the configuration leaves it. -/
theorem takeCommand_cfg {code : Byte} {body : State → Answer} {s t : State} (h : takeCommand code body s = .next t)
    (hbody : (body s).state.cfg = s.cfg) : t.cfg = s.cfg := by
  obtain ⟨-, rfl⟩ | ⟨-, rfl⟩ := takeCommand_next h
  · rfl
  · exact hbody

/-- An access or event whose effect leaves the configuration leaves it. -/
theorem whenRunning_cfg {f : State → State} {s t : State} (h : whenRunning f s = .next t) (hf : (f s).cfg = s.cfg) :
    t.cfg = s.cfg := by
  obtain ⟨-, rfl⟩ | ⟨-, rfl⟩ := whenRunning_next h
  · rfl
  · exact hf

/-- No move of a line event touches the configuration. -/
theorem keptByLine_cfg (cfg : Settings) : KeptByLine (fun s => s.cfg = cfg) := by
  refine .ofTableFree (fun s t happart h => (apart_cfg happart).trans h) (fun _ _ h => h) (fun _ _ h => h)
    (fun _ _ h => h) (fun _ _ _ h => h) (fun _ _ h => h) (fun _ _ _ h => h) (fun _ _ _ _ h => h)
    (fun s t a payload hadmit h => ?report) (fun _ _ _ _ _ _ h => h) (fun _ h => h)
  case report =>
    rw [admitReport_eq] at hadmit
    split at hadmit
    · cases hadmit
      exact h
    · cases hadmit

@[simp] theorem startCycle_cfg (s : State) : (startCycle s).cfg = s.cfg := apart_cfg (apart_startCycle s)

@[simp] theorem abandonCycle_cfg (s : State) : (abandonCycle s).cfg = s.cfg := (keptByLine_cfg s.cfg).abandonCycle rfl

@[simp] theorem secondStage_cfg (s : State) : (secondStage s).cfg = s.cfg := by
  unfold secondStage
  split <;> rfl

@[simp] theorem firstStage_cfg (s : State) : (firstStage s).cfg = s.cfg := by
  unfold firstStage
  simp only
  split
  · exact secondStage_cfg _
  · rfl

@[simp] theorem stageExpires_cfg (s : State) : (stageExpires s).cfg = s.cfg := by
  unfold stageExpires
  split
  · exact firstStage_cfg s
  · exact secondStage_cfg s
  · rfl
  · rfl

@[simp] theorem tickSupervision_cfg (s : State) : (tickSupervision s).cfg = s.cfg := by
  unfold tickSupervision
  split
  · split
    · exact stageExpires_cfg s
    · rfl
  · rfl

@[simp] theorem wrongService_cfg (s : State) : (wrongService s).cfg = s.cfg := by
  unfold wrongService
  simp only
  split
  · exact firstStage_cfg _
  · rfl

/-! ### The answers of the commands -/

section
variable (s : State)

theorem enrolAnswer_cfg : (enrolAnswer s).state.cfg = s.cfg := by
  unfold enrolAnswer; repeat' split
  all_goals rfl

theorem removeAnswer_cfg : (removeAnswer s).state.cfg = s.cfg := by
  unfold removeAnswer; repeat' split
  all_goals rfl

theorem parkAnswer_cfg : (parkAnswer s).state.cfg = s.cfg := by
  unfold parkAnswer; repeat' split
  all_goals rfl

theorem unparkAnswer_cfg : (unparkAnswer s).state.cfg = s.cfg := by
  unfold unparkAnswer; repeat' split
  all_goals rfl

theorem zeroAnswer_cfg : (zeroAnswer s).state.cfg = s.cfg := by
  unfold zeroAnswer; repeat' split
  all_goals rfl

theorem syncAnswer_cfg : (syncAnswer s).state.cfg = s.cfg := by
  unfold syncAnswer; repeat' split
  all_goals rfl

theorem submitAnswer_cfg : (submitAnswer s).state.cfg = s.cfg := by
  unfold submitAnswer; repeat' split
  all_goals rfl

theorem purgeAnswer_cfg : (purgeAnswer s).state.cfg = s.cfg := by
  unfold purgeAnswer; split <;> rfl

theorem takeReturnAnswer_cfg : (takeReturnAnswer s).state.cfg = s.cfg := by
  unfold takeReturnAnswer; split <;> rfl

theorem takeAttnAnswer_cfg : (takeAttnAnswer s).state.cfg = s.cfg := by
  unfold takeAttnAnswer; split <;> rfl

theorem endServiceAnswer_cfg : (endServiceAnswer s).state.cfg = s.cfg := by
  unfold endServiceAnswer; split <;> rfl

theorem dismissAnswer_cfg : (dismissAnswer s).state.cfg = s.cfg := by
  unfold dismissAnswer; split <;> rfl

theorem lineStartAnswer_cfg : (lineStartAnswer s).state.cfg = s.cfg := by
  unfold lineStartAnswer
  split
  · exact startCycle_cfg _
  · rfl
  · rfl

theorem lineStopAnswer_cfg : (lineStopAnswer s).state.cfg = s.cfg := by
  unfold lineStopAnswer
  split
  · split
    · rfl
    · exact abandonCycle_cfg _
  · rfl
  · rfl

theorem holdLeaveAnswer_cfg : (holdLeaveAnswer s).state.cfg = s.cfg := by
  unfold holdLeaveAnswer; split <;> rfl

theorem supSetAnswer_cfg : (supSetAnswer s).state.cfg = s.cfg := by
  unfold supSetAnswer; repeat' split
  all_goals rfl

theorem serviceAnswer_cfg : (serviceAnswer s).state.cfg = s.cfg := by
  unfold serviceAnswer
  split
  · rfl
  · split
    · rfl
    · exact wrongService_cfg s

end

/-! ### The rows that set or write the configuration, and all others -/

/-- The rows of the table that name a configuration register: the two resets of R182 and the writes of R57, R63 and
R64. -/
def setsConfiguration : Instr → Bool
  | .powerOn | .pinReset | .rateWrite _ | .timingWrite _ | .limitsWrite _ | .tickdivWrite _ | .pauseWrite _ => true
  | _ => false

/-- Every row that names no configuration register leaves the configuration as it stands. -/
theorem exec_cfg {c : Instr} {s t : State} (hc : setsConfiguration c = false) (h : exec c s = .next t) :
    t.cfg = s.cfg := by
  cases c with
  | powerOn | pinReset | rateWrite _ | timingWrite _ | limitsWrite _ | tickdivWrite _ | pauseWrite _ => cases hc
  | enrol => exact takeCommand_cfg h (enrolAnswer_cfg s)
  | remove => exact takeCommand_cfg h (removeAnswer_cfg s)
  | park => exact takeCommand_cfg h (parkAnswer_cfg s)
  | unpark => exact takeCommand_cfg h (unparkAnswer_cfg s)
  | zero => exact takeCommand_cfg h (zeroAnswer_cfg s)
  | sync => exact takeCommand_cfg h (syncAnswer_cfg s)
  | submit => exact takeCommand_cfg h (submitAnswer_cfg s)
  | purge => exact takeCommand_cfg h (purgeAnswer_cfg s)
  | takeReturn => exact takeCommand_cfg h (takeReturnAnswer_cfg s)
  | takeAttn => exact takeCommand_cfg h (takeAttnAnswer_cfg s)
  | endService => exact takeCommand_cfg h (endServiceAnswer_cfg s)
  | dismiss => exact takeCommand_cfg h (dismissAnswer_cfg s)
  | lineStart => exact takeCommand_cfg h (lineStartAnswer_cfg s)
  | lineStop => exact takeCommand_cfg h (lineStopAnswer_cfg s)
  | holdLeave => exact takeCommand_cfg h (holdLeaveAnswer_cfg s)
  | supSet => exact takeCommand_cfg h (supSetAnswer_cfg s)
  | service => exact takeCommand_cfg h (serviceAnswer_cfg s)
  | holdEnter => exact takeCommand_cfg h rfl
  | clear =>
    unfold exec execClear at h
    exact takeCommand_cfg h rfl
  | badCmd value =>
    simp only [exec, execBadCmd] at h
    split at h
    · exact takeCommand_cfg h rfl
    · cases h
  | registerWrite offset value =>
    simp only [exec, execRegisterWrite] at h
    split at h
    · exact whenRunning_cfg h rfl
    · cases h
  | amaskWrite _ | wselWrite _ | wdataWrite _ | causeWrite _ | enableWrite _ | statusWrite _ | rstcauseWrite _ =>
    simp only [exec, execAmaskWrite, execWselWrite, execWdataWrite, execCauseWrite, execEnableWrite, execStatusWrite,
      execRstcauseWrite] at h
    exact whenRunning_cfg h rfl
  | wdataRead | resetEnd =>
    cases h
    rfl
  | tick =>
    unfold exec execTick at h
    exact whenRunning_cfg h ((tickSupervision_cfg _).trans (apart_cfg (apart_tickPause s)))
  | watchExpiry =>
    refine whenRunning_cfg h ?_
    split
    · exact firstStage_cfg s
    · rfl
  | graceExpiry =>
    refine whenRunning_cfg h ?_
    split
    · exact secondStage_cfg s
    · rfl
  | pauseExpiry | settleEnd _ | characterDelivered _ | echoMissing | faultedAttemptEnd | replyTimeout | gapTimeout
  | quietEnd | startBitFound | falseStart | lineReturnsTo1 | endOfLastStopBit =>
    exact (keptByLine_cfg s.cfg).lineEvent h (by simp) rfl

/-! ### The writes -/

/-- A write refused leaves the configuration, so the ranges rest on the write taken (R63). -/
theorem configWrite_inRange {taken : Bool} {f : State → State} {s : State} (h : SettingsInRange s.cfg)
    (hf : taken = true → SettingsInRange (f s).cfg) : SettingsInRange (configWrite taken f s).cfg := by
  unfold configWrite
  split
  · next htaken => exact hf htaken
  · exact h

/-- An access lost in a reset leaves the configuration, so the ranges rest on the access taken. -/
theorem whenRunning_inRange {f : State → State} {s t : State} (ht : whenRunning f s = .next t)
    (h : SettingsInRange s.cfg) (hf : SettingsInRange (f s).cfg) : SettingsInRange t.cfg := by
  obtain ⟨-, rfl⟩ | ⟨-, rfl⟩ := whenRunning_next ht
  · exact h
  · exact hf

theorem settingsReset_inRange : SettingsInRange Settings.reset := by
  unfold SettingsInRange
  decide

/-- The check of each write is the range of the fields it writes; PAUSE is a write of every value (R57, R63, R64). -/
theorem exec_setsConfiguration_inRange {c : Instr} {s t : State} (hc : setsConfiguration c = true)
    (h : SettingsInRange s.cfg) (ht : exec c s = .next t) : SettingsInRange t.cfg := by
  obtain ⟨hrate, hturn, hreplyWait, hmissLimit, htickDiv⟩ := id h
  cases c with
  | powerOn | pinReset =>
    cases ht
    exact settingsReset_inRange
  | rateWrite value =>
    refine whenRunning_inRange ht h (configWrite_inRange h fun htaken => ?_)
    simp only [Bool.and_eq_true, bne_iff_ne] at htaken
    exact ⟨htaken.2, hturn, hreplyWait, hmissLimit, htickDiv⟩
  | timingWrite value =>
    refine whenRunning_inRange ht h (configWrite_inRange h fun htaken => ?_)
    simp only [Bool.and_eq_true, bne_iff_ne] at htaken
    obtain ⟨⟨-, hturn'⟩, hreplyWait'⟩ := htaken
    exact ⟨hrate, hturn', hreplyWait', hmissLimit, htickDiv⟩
  | limitsWrite value =>
    refine whenRunning_inRange ht h (configWrite_inRange h fun htaken => ?_)
    simp only [Bool.and_eq_true, bne_iff_ne] at htaken
    exact ⟨hrate, hturn, hreplyWait, htaken.2, htickDiv⟩
  | tickdivWrite value =>
    refine whenRunning_inRange ht h (configWrite_inRange h fun htaken => ?_)
    simp only [Bool.and_eq_true, bne_iff_ne] at htaken
    exact ⟨hrate, hturn, hreplyWait, hmissLimit, htaken.2⟩
  | pauseWrite value =>
    unfold exec execPauseWrite at ht
    exact whenRunning_inRange ht h ⟨hrate, hturn, hreplyWait, hmissLimit, htickDiv⟩
  | _ => cases hc

/-- Every row keeps each field of the configuration in its range (R65). -/
theorem exec_inRange {c : Instr} {s t : State} (h : SettingsInRange s.cfg) (ht : exec c s = .next t) :
    SettingsInRange t.cfg := by
  cases hc : setsConfiguration c with
  | true => exact exec_setsConfiguration_inRange hc h ht
  | false => rwa [exec_cfg hc ht]

/-- Settles O4: both resets hold the configuration at `Settings.reset`, the state CLEAR leaves holds the
configuration it found, and every row keeps the ranges by `exec_inRange`. -/
theorem configurationResetValues : Obligations.ConfigurationResetValues := by
  intro s
  refine ⟨?resets, fun hrun => ?clear, fun c t => exec_inRange⟩
  case resets =>
    rintro c (rfl | rfl)
    · exact ⟨_, rfl, rfl⟩
    · exact ⟨_, rfl, rfl⟩
  case clear =>
    have hclear : exec .clear s = .next (answered 0x3F .ok .zero (clearedState s)) :=
      takeCommand_running (body := fun s => plain .ok (clearedState s)) hrun
    exact ⟨_, hclear, rfl⟩

end Sys2Proof.Machine

/-! SUPPORT. What the Outbound Queue answers to SUBMIT (R87, R88): one equation per answer, in the order of its checks,
the payload copied, and the statement settled from these. -/

namespace Sys2Proof.Machine

/-! ### Checks 2 to 4: the record of the destination -/

/-- A message to all has no record to check. -/
theorem destinationRefusal_zero (s : State) : destinationRefusal s 0 = none := rfl

section
variable {s : State} {d : Address} (hd : d ≠ 0)
include hd

theorem destinationRefusal_of_noRecord (hfind : s.st.find d = none) : destinationRefusal s d = some .unknown := by
  simp only [destinationRefusal, if_neg hd, hfind]

/-- A REMOVE pending is checked before the state LOST. -/
theorem destinationRefusal_of_record {r : StationRecord} (hfind : s.st.find d = some r) :
    destinationRefusal s d =
      if r.leave = .remove then some .leaving else if r.state = .lost then some .wrongState else none := by
  simp only [destinationRefusal, if_neg hd, hfind]

end

/-- The destinations R88 admits: all stations, or a station of the table that is neither leaving by REMOVE nor LOST. -/
theorem destinationRefusal_eq_none {s : State} {d : Address}
    (hadmitted : d = 0 ∨ ∃ r, s.st.find d = some r ∧ r.leave ≠ .remove ∧ r.state ≠ .lost) :
    destinationRefusal s d = none := by
  by_cases hd : d = 0
  · rw [hd, destinationRefusal_zero]
  · obtain ⟨r, hfind, hleave, hstate⟩ := hadmitted.resolve_left hd
    rw [destinationRefusal_of_record hd hfind, if_neg hleave, if_neg hstate]

/-! ### The checks in their order -/

/-- Check 1: one argument out of range is enough, whichever it is. -/
theorem submitAnswer_outOfRange {s : State}
    (hargs : 126 < s.rw.args.w0.toNat ∨ 255 < s.rw.args.w1.toNat ∨ 32 < s.rw.args.w2.toNat) :
    submitAnswer s = plain .badArg s := by
  unfold submitAnswer
  split
  · rfl
  · next d hdest =>
    have hw0 : ¬126 < s.rw.args.w0.toNat := by
      rw [← lineAddress_eq_none, hdest]
      exact Option.some_ne_none d
    rw [if_pos (hargs.resolve_left hw0)]

section
variable {s : State} {d : Address} {tag : Byte} (htag : s.rw.args.w1 = tag.setWidth 16)
  (hlength : s.rw.args.w2.toNat ≤ 32)
include htag hlength

/-- A tag of eight bits and a length of at most 32 pass check 1. -/
theorem submit_tagAndLength_inRange : ¬(255 < s.rw.args.w1.toNat ∨ 32 < s.rw.args.w2.toNat) := by
  have hw1 : s.rw.args.w1.toNat = tag.toNat := by rw [htag, BitVec.toNat_setWidth_of_le (by decide)]
  have := tag.isLt
  omega

variable (hdest : lineAddress s.rw.args.w0 = some d)
include hdest

/-- Checks 2 to 4 come before the queue is looked at. -/
theorem submitAnswer_of_destinationRefusal {refusal : ResultCode} (hrefusal : destinationRefusal s d = some refusal) :
    submitAnswer s = plain refusal s := by
  simp only [submitAnswer, hdest, if_neg (submit_tagAndLength_inRange htag hlength), hrefusal]

/-- Checks 5 and 6: a tag in use is found before the room in the queue and in the shared sum. -/
theorem submitAnswer_of_destinationAdmitted (hadmitted : destinationRefusal s d = none) :
    submitAnswer s =
      if ∃ e ∈ s.oq, e.tag = tag then plain .alreadyExists s
      else if 16 ≤ s.oq.length ∨ 24 ≤ s.oq.length + s.rq.length then plain .full s
      else plain .ok (appendEntry d tag s.rw.args.w2.toNat s) := by
  have hw1 : s.rw.args.w1.setWidth 8 = tag := by
    rw [htag, BitVec.setWidth_setWidth_of_le _ (by decide), BitVec.setWidth_eq]
  simp only [submitAnswer, hdest, if_neg (submit_tagAndLength_inRange htag hlength), hadmitted, hw1,
    List.any_eq_true, beq_iff_eq, sharedSum, Nat.add_comm s.rq.length, Config.maxOutbound, Config.sharedLimit]

end

/-! ### The payload of the entry (R87) -/

/-- The staging buffer holds 32 bytes, so a length in range is copied whole. -/
theorem length_take_staging {length : Nat} (staging : Vector Byte 32) (hlength : length ≤ 32) :
    (staging.toList.take length).length = length := by
  rw [List.length_take, Vector.length_toList, Nat.min_eq_left hlength]

/-- The bytes copied are the first of the staging buffer, in buffer order. -/
theorem getElem?_take_staging {length i : Nat} (staging : Vector Byte 32) (hi : i < length) :
    (staging.toList.take length)[i]? = staging[i]? := by
  rw [List.getElem?_take_of_lt hi, Vector.getElem?_toList]

/-- Settles O16: the first check that fails decides the answer, and an accepted SUBMIT appends one entry whose payload
is the front of the staging buffer; no other field changes, the buffer and the selection among them. -/
theorem submitFollowsR87AndR88 : Obligations.SubmitFollowsR87AndR88 := by
  intro s hrun
  refine ⟨fun hargs => takeCommand_plain hrun (submitAnswer_outOfRange hargs), ?_⟩
  rintro d tag _ hw0 hd htag rfl hlength
  have hdest := lineAddress_eq_some.2 ⟨hw0, hd⟩
  have hrefused {refusal : ResultCode} (hrefusal : destinationRefusal s d = some refusal) :
      exec .submit s = .next (answered 0x10 refusal .zero s) :=
    takeCommand_plain hrun (submitAnswer_of_destinationRefusal htag hlength hdest hrefusal)
  refine ⟨fun hne hfind => hrefused (destinationRefusal_of_noRecord hne hfind),
    fun r hne hfind hleave => hrefused ?leaving, fun r hne hfind hleave hstate => hrefused ?wrongState,
    fun hadmitted => ?admitted⟩
  case leaving => rw [destinationRefusal_of_record hne hfind, if_pos hleave]
  case wrongState => rw [destinationRefusal_of_record hne hfind, if_neg hleave, if_pos hstate]
  case admitted =>
    have hanswer := submitAnswer_of_destinationAdmitted htag hlength hdest (destinationRefusal_eq_none hadmitted)
    refine ⟨fun hused => ?alreadyExists, fun hunused hfull => ?full, fun hunused hroom hshared => ?ok⟩
    case alreadyExists =>
      rw [if_pos hused] at hanswer
      exact takeCommand_plain hrun hanswer
    case full =>
      rw [if_neg (by simpa using hunused), if_pos hfull] at hanswer
      exact takeCommand_plain hrun hanswer
    case ok =>
      rw [if_neg (by simpa using hunused), if_neg (by omega)] at hanswer
      exact ⟨_, length_take_staging s.rw.staging hlength, fun i => getElem?_take_staging s.rw.staging,
        takeCommand_plain hrun hanswer⟩

end Sys2Proof.Machine

/-! SUPPORT. What TAKE-RETURN answers (R111): the words of a return record's header, and the block's answer to an empty and
to a non-empty Return Queue. -/

namespace Sys2Proof.Machine

/-! ### The result words -/

/-- A field in bit 0 is the value itself. -/
theorem field_zero {n : Nat} (x : BitVec n) : field x 0 = x.setWidth 16 := BitVec.shiftLeft_zero _

/-- A count in bit 0 is the number itself. -/
theorem count_zero (n : Nat) : count n 0 = BitVec.ofNat 16 n := BitVec.shiftLeft_zero _

/-- A count in bits 15 to 8 is 256 times the number. -/
theorem count_eight (n : Nat) : count n 8 = BitVec.ofNat 16 (n * 256) := by
  apply BitVec.eq_of_toNat_eq
  simp [count, Nat.shiftLeft_eq]

theorem outcomeCode_lt (o : MessageOutcome) : (outcomeCode o).toNat < 2 ^ 8 := by
  cases o <;> decide

/-- The outcome code lies below the attempts, so the fourth word of a DONE header is their sum. -/
theorem doneWord_eq_add (o : MessageOutcome) (attempts : Nat) :
    outcomeCode o ||| count attempts 8 = BitVec.ofNat 16 (attempts * 256) + outcomeCode o := by
  have hapart : count attempts 8 &&& outcomeCode o = 0#16 := by
    ext i hi
    by_cases hlow : i < 8
    · simp [count, hlow]
    · have hhigh : (outcomeCode o).toNat.testBit i = false :=
        Nat.testBit_lt_two_pow ((outcomeCode_lt o).trans_le (Nat.pow_le_pow_right (by decide) (by omega)))
      simp [BitVec.getElem_eq_testBit_toNat, hhigh]
  rw [← count_eight, BitVec.add_eq_or_of_and_eq_zero _ _ hapart, BitVec.or_comm]

/-! ### TAKE-RETURN -/

theorem takeReturnAnswer_of_empty {s : State} (hrq : s.rq = []) : takeReturnAnswer s = plain .nothing s := by
  simp only [takeReturnAnswer, hrq]

theorem takeReturnAnswer_of_head {s : State} {r : ReturnRecord} {rest : List ReturnRecord} (hrq : s.rq = r :: rest) :
    takeReturnAnswer s = ⟨{ s with rq := rest, latch := some r }, .ok, returnHeader r⟩ := by
  simp only [takeReturnAnswer, hrq]

/-- Settles O18: the block's answer to an empty and to a non-empty queue, with the header of each kind of record read as
numbers. -/
theorem takeReturnFollowsR111 : Obligations.TakeReturnFollowsR111 := by
  intro s hrun
  have htaken {r : ReturnRecord} {rest : List ReturnRecord} (hrq : s.rq = r :: rest) :
      exec .takeReturn s = .next (answered 0x18 .ok (returnHeader r) { s with rq := rest, latch := some r }) := by
    have hexec : exec .takeReturn s = takeCommand 0x18 takeReturnAnswer s := rfl
    rw [hexec, takeCommand_running hrun, takeReturnAnswer_of_head hrq]
  refine ⟨fun hrq => takeCommand_plain hrun (takeReturnAnswer_of_empty hrq), fun a payload cycle rest hrq => ?report,
    fun a tag outcome attempts rest hrq _ => ⟨_, ?done, rfl⟩, fun r rest hrq => ⟨_, htaken hrq, ?sum⟩⟩
  case report => rw [htaken hrq, returnHeader, field_zero, count_zero]
  case done => rw [htaken hrq, returnHeader, field_zero, field_zero, doneWord_eq_add]
  case sum =>
    simp only [sharedSum, answered_rq, answered_oq, hrq, List.length_cons]
    omega

end Sys2Proof.Machine

/-! SUPPORT. What a command does to the Outbound Queue and the Return Queue together (R93, R105, R107, R110): the moves
that complete entries and nothing else, the one move that admits a REPORT, and the kinds of step made of these. -/

namespace Sys2Proof.Machine

/-! ### Completions -/

/-- A DONE record (R104). -/
def ReturnRecord.IsDone (d : ReturnRecord) : Prop := ∃ a tag outcome attempts, d = .done a tag outcome attempts

theorem doneRecord_isDone (o : MessageOutcome) (e : OutboundEntry) : (doneRecord o e).IsDone := ⟨_, _, _, _, rfl⟩

/-- Completions alone lead from a Return Queue and a number of outbound entries to `t`: DONE records have joined the tail,
one for each entry that has left. It is no case of `KeptByLine`, whose properties the admission of a REPORT keeps too: this
one tells the steps that admit none. -/
def CompletedFrom (returned : List ReturnRecord) (entries : Nat) (t : State) : Prop :=
  ∃ moved : List ReturnRecord, t.rq = returned ++ moved ∧ t.oq.length + moved.length = entries ∧ ∀ d ∈ moved, d.IsDone

namespace CompletedFrom

variable {returned : List ReturnRecord} {entries : Nat} {s t : State}

theorem refl (s : State) : CompletedFrom s.rq s.oq.length s :=
  ⟨[], (List.append_nil _).symm, rfl, fun _ hd => nomatch hd⟩

/-- A completion adds to the Return Queue what it takes from the Outbound Queue. -/
theorem sharedSum_eq (h : CompletedFrom returned entries t) : sharedSum t = returned.length + entries := by
  obtain ⟨moved, hrq, hoq, -⟩ := h
  rw [sharedSum, hrq, List.length_append]
  omega

theorem of_queues (hrq : t.rq = s.rq) (hoq : t.oq.length = s.oq.length) (h : CompletedFrom returned entries s) :
    CompletedFrom returned entries t := by
  rwa [CompletedFrom, hrq, hoq]

theorem ite {p : Prop} [Decidable p] (hs : CompletedFrom returned entries s) (ht : CompletedFrom returned entries t) :
    CompletedFrom returned entries (if p then s else t) := by
  split
  · exact hs
  · exact ht

/-! #### The operations that complete entries -/

theorem completeWhere (p : OutboundEntry → Bool) (o : MessageOutcome) (h : CompletedFrom returned entries s) :
    CompletedFrom returned entries (completeWhere p o s) := by
  have hsum : sharedSum (Machine.completeWhere p o s) = returned.length + entries :=
    (sharedSum_completeWhere p o s).trans h.sharedSum_eq
  obtain ⟨moved, hrq, -, hdone⟩ := h
  have hrq' : (Machine.completeWhere p o s).rq = returned ++ (moved ++ (s.oq.filter p).map (doneRecord o)) := by
    rw [← List.append_assoc, ← hrq]
    rfl
  refine ⟨_, hrq', ?length, fun d hd => ?done⟩
  case length =>
    rw [sharedSum, hrq', List.length_append] at hsum
    omega
  case done =>
    rcases List.mem_append.1 hd with hd | hd
    · exact hdone d hd
    · obtain ⟨e, -, rfl⟩ := List.mem_map.1 hd
      exact doneRecord_isDone o e

theorem updateEntry (tag : Byte) (f : OutboundEntry → OutboundEntry) (h : CompletedFrom returned entries s) :
    CompletedFrom returned entries (updateEntry tag f s) :=
  of_queues (s := s) rfl (length_updateEntry tag f s) h

theorem deferEntry (tag : Byte) (h : CompletedFrom returned entries s) :
    CompletedFrom returned entries (deferEntry tag s) := by
  unfold Machine.deferEntry
  simp only
  split
  · exact (h.updateEntry _ _).completeWhere _ _
  · exact (h.updateEntry _ _).updateEntry _ _

/-- The scheduler's work between two exchanges touches neither queue's length. -/
theorem scheduler (happart : apartFromScheduler t = apartFromScheduler s) (h : CompletedFrom returned entries s) :
    CompletedFrom returned entries t :=
  h.of_queues (apart_rq happart) (apart_oq_length happart)

/-! #### The end of a turn and of an exchange -/

theorem applyTurnResult (result : TurnResult) (a : Address) (h : CompletedFrom returned entries s) :
    CompletedFrom returned entries (applyTurnResult result a s) := by
  unfold Machine.applyTurnResult
  split
  · exact h
  · split
    · unfold turnSuccess
      simp only
      split <;> exact h
    · unfold turnMiss
      split
      · exact h
      · split
        · exact completeWhere _ _ h
        · exact h
    · exact h

theorem removeStation (a : Address) (h : CompletedFrom returned entries s) :
    CompletedFrom returned entries (removeStation a s) :=
  h.completeWhere (fun e => e.destination == a) .removed

theorem completeLeave (a : Address) (h : CompletedFrom returned entries s) :
    CompletedFrom returned entries (completeLeave a s) := by
  unfold Machine.completeLeave
  repeat' split
  · exact h
  · exact h
  · exact h.removeStation a
  · exact h

theorem endTurn (result : TurnResult) (h : CompletedFrom returned entries s) :
    CompletedFrom returned entries (endTurn result s) := by
  unfold Machine.endTurn
  split
  · exact h
  · exact (h.applyTurnResult result _).completeLeave _

theorem abandonCycle (h : CompletedFrom returned entries s) : CompletedFrom returned entries (abandonCycle s) :=
  h.endTurn .unfinished

theorem turnCourse (kind : FrameKind) (o : ExchangeOutcome) (h : CompletedFrom returned entries s) :
    CompletedFrom returned entries (turnCourse kind o s) := by
  unfold Machine.turnCourse
  split
  -- after a good SYNC, and after a WRITE that is good or withdrawn, the turn goes on
  case h_3 | h_4 | h_5 => exact h
  all_goals exact h.endTurn _

theorem broadcastEnded (o : ExchangeOutcome) (h : CompletedFrom returned entries s) :
    CompletedFrom returned entries (broadcastEnded o s) := by
  rw [broadcastEnded_does]
  exact h

theorem entryOutcome (x : Exchange) (o : ExchangeOutcome) (h : CompletedFrom returned entries s) :
    CompletedFrom returned entries (entryOutcome x o s) := by
  unfold Machine.entryOutcome
  split
  · exact h
  · split
    · split
      · exact h.completeWhere _ _
      · exact h
    · simp only
      split <;> exact h.completeWhere _ _
    all_goals exact h.updateEntry _ _

theorem schedulerTakes (x : Exchange) (o : ExchangeOutcome) (h : CompletedFrom returned entries s) :
    CompletedFrom returned entries (schedulerTakes x o s) := by
  have htaken : CompletedFrom returned entries
      (if x.address = 0 then Machine.broadcastEnded o s else Machine.turnCourse x.kind o s) := by
    split
    · exact h.broadcastEnded o
    · exact h.turnCourse x.kind o
  unfold Machine.schedulerTakes
  simp only
  split
  · exact htaken.scheduler (apart_resume x _)
  · exact abandonCycle htaken
  · exact htaken.abandonCycle

theorem endExchange (x : Exchange) (o : ExchangeOutcome) (h : CompletedFrom returned entries s) :
    CompletedFrom returned entries (endExchange x o s) :=
  schedulerTakes x o (h.entryOutcome x o)

/-! #### Attempts -/

theorem beginAttempt (x : Exchange) (h : CompletedFrom returned entries s) :
    CompletedFrom returned entries (beginAttempt x s) := by
  unfold Machine.beginAttempt
  split
  · exact h
  · exact h.updateEntry _ _

theorem settleEnds (h : CompletedFrom returned entries s) : CompletedFrom returned entries (settleEnds s) := by
  unfold Machine.settleEnds
  repeat' split
  · exact h
  · exact h.endExchange _ _
  · exact h.endExchange _ _
  · exact h.beginAttempt _

theorem attemptCourse (x : Exchange) (h : CompletedFrom returned entries s) :
    CompletedFrom returned entries (attemptCourse x s) := by
  unfold Machine.attemptCourse
  repeat' split
  · exact h.endExchange _ _
  · exact h.endExchange _ _
  · exact h.endExchange _ _
  · exact h

theorem countFailed (x : Exchange) (h : CompletedFrom returned entries s) :
    CompletedFrom returned entries (countFailed x s) := by
  unfold Machine.countFailed
  split <;> exact h

theorem attemptFails (reason : FailReason) (h : CompletedFrom returned entries s) :
    CompletedFrom returned entries (attemptFails reason s) := by
  unfold Machine.attemptFails
  split
  · exact h
  · exact attemptCourse _ (h.countFailed _)

theorem faultEnds (h : CompletedFrom returned entries s) : CompletedFrom returned entries (faultEnds s) := by
  unfold Machine.faultEnds
  split
  · exact h
  · next x _ =>
    have hcounted := countFailed (s := { s with ee := { s.ee.releaseLine with
      faults := satInc s.ee.faults, faultStreak := satInc s.ee.faultStreak
      lastFailure := { reason := .fault, address := x.address } } }) x h
    refine attemptCourse x ?_
    split <;> exact hcounted

theorem faultIsFound (b : Bool) (h : CompletedFrom returned entries s) :
    CompletedFrom returned entries (faultIsFound b s) := by
  unfold Machine.faultIsFound
  split
  · exact h
  · exact h.faultEnds

theorem echoMatches (h : CompletedFrom returned entries s) : CompletedFrom returned entries (echoMatches s) := by
  unfold Machine.echoMatches
  simp only
  repeat' split
  all_goals exact h

theorem echoCheck (c : RxChar) (begun : Nat) (h : CompletedFrom returned entries s) :
    CompletedFrom returned entries (echoCheck c begun s) := by
  unfold Machine.echoCheck
  split
  · exact h.echoMatches
  · exact h.faultIsFound _

/-! #### The Supervision Timer, which reaches neither queue -/

theorem secondStage (h : CompletedFrom returned entries s) : CompletedFrom returned entries (secondStage s) := by
  unfold Machine.secondStage
  split <;> exact h

theorem firstStage (h : CompletedFrom returned entries s) : CompletedFrom returned entries (firstStage s) := by
  unfold Machine.firstStage
  simp only
  split
  · exact secondStage h
  · exact h

theorem wrongService (h : CompletedFrom returned entries s) : CompletedFrom returned entries (wrongService s) := by
  unfold Machine.wrongService
  simp only
  split
  · exact firstStage h
  · exact h

theorem tickSupervision (h : CompletedFrom returned entries s) :
    CompletedFrom returned entries (tickSupervision s) := by
  unfold Machine.tickSupervision stageExpires
  repeat' split
  · exact h.firstStage
  · exact h.secondStage
  all_goals exact h

end CompletedFrom

/-! ### Replies: the one event that admits a REPORT -/

/-- A REPORT admitted below the limit, and then completions: the record joins before what completes in the same step. -/
def ReportedFrom (s t : State) : Prop :=
  sharedSum s < 24 ∧ ∃ a payload cycle, CompletedFrom (s.rq ++ [.report a payload cycle]) s.oq.length t

theorem newReport_moves (a : Address) (b : Bool) (payload : List Byte) (s : State) :
    CompletedFrom s.rq s.oq.length (newReport a b payload s) ∨ ReportedFrom s (newReport a b payload s) := by
  unfold newReport
  rw [admitReport_eq]
  by_cases hroom : sharedSum s < 24
  · rw [if_pos hroom]
    exact .inr ⟨hroom, a, payload, s.ps.cycle, .refl { s with rq := s.rq ++ [.report a payload s.ps.cycle] }⟩
  · rw [if_neg hroom]
    exact .inl (.refl s)

theorem newAlert_completes (a : Address) (b : Bool) (payload : List Byte) (s : State) :
    CompletedFrom s.rq s.oq.length (newAlert a b payload s) := by
  unfold newAlert
  split <;> exact .refl s

theorem replyEffect_moves (x : Exchange) (k : ReplyKind) (r : Reply) (s : State) :
    CompletedFrom s.rq s.oq.length (replyEffect x k r s) ∨ ReportedFrom s (replyEffect x k r s) := by
  cases k <;> dsimp only [replyEffect]
  case report =>
    split
    · exact .inl (.refl s)
    · exact newReport_moves _ _ _ s
  all_goals left
  case none => exact .refl s
  case nil => split <;> exact .refl s
  case alert =>
    split
    · exact .refl s
    · exact newAlert_completes _ _ _ s
  case taken =>
    split
    · exact .refl s
    · exact .completeWhere _ _ (.refl s)
  case defer =>
    split
    · exact .refl s
    · exact .deferEntry _ (.refl s)

theorem replyGood_moves (x : Exchange) (r : Reply) (s : State) :
    CompletedFrom s.rq s.oq.length (replyGood x r s) ∨ ReportedFrom s (replyGood x r s) := by
  rcases replyEffect_moves x ((replyKindOf r.ctrl).getD .none) r s with h | ⟨hroom, a, payload, cycle, h⟩
  · exact .inl (.endExchange _ _ h)
  · exact .inr ⟨hroom, a, payload, cycle, .endExchange _ _ h⟩

theorem evaluateReply_moves (ending : AssemblyEnd) (s : State) :
    CompletedFrom s.rq s.oq.length (evaluateReply ending s) ∨ ReportedFrom s (evaluateReply ending s) := by
  unfold evaluateReply
  split
  · exact .inl (.refl s)
  · simp only
    split
    · exact replyGood_moves _ _ s
    · exact .inl (.attemptFails _ (.refl s))

/-- A reply that broke off is never good (R74). -/
theorem replyFault_truncated (s : State) (x : Exchange) (buffer : List RxChar) :
    replyFault s x .truncated buffer ≠ .none := by
  unfold replyFault
  simp only
  split <;> simp

theorem evaluateReply_truncated_completes (s : State) :
    CompletedFrom s.rq s.oq.length (evaluateReply .truncated s) := by
  unfold evaluateReply
  split
  · exact .refl s
  · simp only [if_neg (replyFault_truncated s _ _)]
    exact .attemptFails _ (.refl s)

theorem falseStartFound_completes (s : State) : CompletedFrom s.rq s.oq.length (falseStartFound s) := by
  unfold falseStartFound
  simp only
  repeat' split
  · exact .settleEnds (.refl s)
  · exact .refl s
  · exact .attemptFails _ (.refl s)
  · exact .refl s
  · exact evaluateReply_truncated_completes { s with ee := { s.ee with receiver := .hunting } }
  all_goals exact .refl s

theorem receiveChar_moves (c : RxChar) (s : State) :
    CompletedFrom s.rq s.oq.length (receiveChar c s) ∨ ReportedFrom s (receiveChar c s) := by
  unfold receiveChar
  simp only
  repeat' split
  · exact evaluateReply_moves .broken s
  · exact evaluateReply_moves .length { s with ee := { s.ee with buffer := s.ee.buffer ++ [c], gapTimer := .running } }
  · exact evaluateReply_moves .complete { s with ee := { s.ee with buffer := s.ee.buffer ++ [c], gapTimer := .running } }
  · exact .inl (.refl s)

theorem deliver_moves (c : RxChar) (begun : Nat) (s : State) :
    CompletedFrom s.rq s.oq.length (deliver c begun s) ∨ ReportedFrom s (deliver c begun s) := by
  unfold deliver
  cases hstate : s.ee.state <;> simp only [hstate]
  case receive => exact receiveChar_moves c _
  all_goals left
  case send =>
    split
    · exact .refl s
    · exact .echoCheck _ _ (.refl s)
  case listen =>
    split
    · exact .refl s
    · split
      · exact .attemptFails _ (.refl s)
      · exact .refl s
  all_goals exact .refl s

theorem settleEvent_completes (cause : SettleCause) (s : State) :
    CompletedFrom s.rq s.oq.length (settleEvent cause s) := by
  unfold settleEvent
  repeat' split
  · exact .refl s
  · exact .settleEnds (.refl s)
  · exact .refl s

theorem endGood_completes (s : State) : CompletedFrom s.rq s.oq.length (endGood s) := by
  unfold endGood
  split
  · exact .refl s
  · exact .endExchange _ _ (.refl s)

theorem lastStopBit_completes (s : State) : CompletedFrom s.rq s.oq.length (lastStopBit s) := by
  unfold lastStopBit
  repeat' split
  all_goals exact .refl s

/-! ### How a command, an access or an event reaches the queues -/

theorem takeCommand_completes {code : Byte} {body : State → Answer} {s t : State}
    (h : takeCommand code body s = .next t) (hbody : CompletedFrom s.rq s.oq.length (body s).state) :
    CompletedFrom s.rq s.oq.length t := by
  obtain ⟨-, rfl⟩ | ⟨-, rfl⟩ := takeCommand_next h
  · exact .refl _
  · exact hbody

theorem whenRunning_completes {f : State → State} {s t : State} (h : whenRunning f s = .next t)
    (hf : CompletedFrom s.rq s.oq.length (f s)) : CompletedFrom s.rq s.oq.length t := by
  obtain ⟨-, rfl⟩ | ⟨-, rfl⟩ := whenRunning_next h
  · exact .refl _
  · exact hf

theorem configWrite_completes (taken : Bool) {f : State → State} {s : State}
    (hf : CompletedFrom s.rq s.oq.length (f s)) : CompletedFrom s.rq s.oq.length (configWrite taken f s) := by
  unfold configWrite
  exact .ite hf (.refl s)

/-! ### The commands whose answers complete entries or leave the queues -/

theorem removeAnswer_completes (s : State) : CompletedFrom s.rq s.oq.length (removeAnswer s).state := by
  unfold removeAnswer
  repeat' split
  · exact .refl s
  · exact .refl s
  · exact .refl s
  · exact .refl s
  · exact .removeStation _ (.refl s)

theorem purgeAnswer_completes (s : State) : CompletedFrom s.rq s.oq.length (purgeAnswer s).state := by
  unfold purgeAnswer
  split
  · exact .refl s
  · exact .completeWhere _ _ (.refl s)

theorem lineStartAnswer_completes (s : State) : CompletedFrom s.rq s.oq.length (lineStartAnswer s).state := by
  unfold lineStartAnswer
  split
  · exact .scheduler (apart_startCycle _) (.refl s)
  · exact .refl s
  · exact .refl s

theorem lineStopAnswer_completes (s : State) : CompletedFrom s.rq s.oq.length (lineStopAnswer s).state := by
  unfold lineStopAnswer
  repeat' split
  · exact .refl s
  · exact .abandonCycle (.refl s)
  · exact .refl s
  · exact .refl s

theorem serviceAnswer_completes (s : State) : CompletedFrom s.rq s.oq.length (serviceAnswer s).state := by
  unfold serviceAnswer
  repeat' split
  · exact .refl s
  · exact .refl s
  · exact .wrongService (.refl s)

/-- The rows that R105 lists, and the delivery of a character, which can admit a REPORT. -/
def changesSharedSum : Instr → Bool
  | .submit | .takeReturn | .characterDelivered _ | .powerOn | .pinReset | .clear => true
  | _ => false

/-- Every other row completes entries or leaves the queues. -/
theorem exec_completes {c : Instr} {s t : State} (hc : changesSharedSum c = false) (h : exec c s = .next t) :
    CompletedFrom s.rq s.oq.length t := by
  cases c with
  | submit | takeReturn | characterDelivered _ | powerOn | pinReset | clear => cases hc
  | remove => exact takeCommand_completes h (removeAnswer_completes s)
  | purge => exact takeCommand_completes h (purgeAnswer_completes s)
  | lineStart => exact takeCommand_completes h (lineStartAnswer_completes s)
  | lineStop => exact takeCommand_completes h (lineStopAnswer_completes s)
  | service => exact takeCommand_completes h (serviceAnswer_completes s)
  | enrol | park | unpark | zero | sync | takeAttn | endService | dismiss | holdEnter | holdLeave | supSet =>
    refine takeCommand_completes h ?_
    dsimp only [enrolAnswer, parkAnswer, unparkAnswer, zeroAnswer, syncAnswer, takeAttnAnswer, endServiceAnswer,
      dismissAnswer, holdEnterAnswer, holdLeaveAnswer, supSetAnswer]
    repeat' split
    all_goals exact .refl s
  | badCmd value =>
    simp only [exec, execBadCmd] at h
    split at h
    · exact takeCommand_completes h (.refl s)
    · cases h
  | registerWrite offset value =>
    simp only [exec, execRegisterWrite] at h
    split at h
    · exact whenRunning_completes h (.refl s)
    · cases h
  | rateWrite _ | timingWrite _ | limitsWrite _ | tickdivWrite _ =>
    exact whenRunning_completes h (configWrite_completes _ (.refl s))
  | pauseWrite _ | amaskWrite _ | wselWrite _ | wdataWrite _ | causeWrite _ | enableWrite _ | statusWrite _
  | rstcauseWrite _ =>
    simp only [exec, execPauseWrite, execAmaskWrite, execWselWrite, execWdataWrite, execCauseWrite, execEnableWrite,
      execStatusWrite, execRstcauseWrite] at h
    exact whenRunning_completes h (.refl s)
  | wdataRead | resetEnd =>
    cases h
    exact .refl s
  | tick =>
    unfold exec execTick at h
    exact whenRunning_completes h (.tickSupervision (.scheduler (apart_tickPause s) (.refl s)))
  | watchExpiry => exact whenRunning_completes h (.ite (.firstStage (.refl s)) (.refl s))
  | graceExpiry => exact whenRunning_completes h (.ite (.secondStage (.refl s)) (.refl s))
  | pauseExpiry => exact whenRunning_completes h (.ite (.scheduler (apart_startCycle s) (.refl s)) (.refl s))
  | settleEnd cause => exact whenRunning_completes h (settleEvent_completes cause s)
  | echoMissing => exact whenRunning_completes h (.ite (.faultIsFound _ (.refl s)) (.refl s))
  | faultedAttemptEnd => exact whenRunning_completes h (.ite (.faultEnds (.refl s)) (.refl s))
  | replyTimeout => exact whenRunning_completes h (.ite (.ite (.refl s) (.attemptFails _ (.refl s))) (.refl s))
  | gapTimeout => exact whenRunning_completes h (.ite (.ite (.refl s) (evaluateReply_truncated_completes s)) (.refl s))
  | quietEnd => exact whenRunning_completes h (.ite (endGood_completes s) (.refl s))
  | startBitFound | lineReturnsTo1 => exact whenRunning_completes h (.ite (.refl s) (.refl s))
  | falseStart => exact whenRunning_completes h (.ite (falseStartFound_completes s) (.refl s))
  | endOfLastStopBit => exact whenRunning_completes h (.ite (lastStopBit_completes s) (.refl s))

/-! ### What a step can do to the two queues -/

/-- The kinds of step R105 lists: completions, which every command can bring, and the events that change the shared sum. -/
inductive QueueStep (s t : State) : Instr → Prop
  | completions {c : Instr} : CompletedFrom s.rq s.oq.length t → QueueStep s t c
  | submitted : t.rw.result = .ok → sharedSum s < 24 → t.rq = s.rq → t.oq.length = s.oq.length + 1 →
      QueueStep s t .submit
  | reported {delivery : Delivery} : ReportedFrom s t → QueueStep s t (.characterDelivered delivery)
  | returnTaken : s.rq ≠ [] → t.rq = s.rq.tail → t.oq = s.oq → QueueStep s t .takeReturn
  | emptied {c : Instr} : c = .powerOn ∨ c = .pinReset ∨ c = .clear → t.oq = [] → t.rq = [] → QueueStep s t c

/-- A SUBMIT is accepted below the shared limit, or leaves the state as it was (R88). -/
theorem submitAnswer_cases (s : State) :
    (submitAnswer s).state = s ∨
      sharedSum s < 24 ∧ ∃ d tag length, submitAnswer s = plain .ok (appendEntry d tag length s) := by
  unfold submitAnswer
  repeat' split
  · exact .inl rfl
  · exact .inl rfl
  · exact .inl rfl
  · exact .inl rfl
  · exact .inl rfl
  · next hroom => exact .inr ⟨Nat.lt_of_not_le fun hsum => hroom (.inr hsum), _, _, _, rfl⟩

theorem submit_queueStep {s t : State} (h : exec .submit s = .next t) : QueueStep s t .submit := by
  obtain ⟨-, rfl⟩ | ⟨-, rfl⟩ := takeCommand_next h
  · exact .completions (.refl _)
  · obtain hkept | ⟨hroom, d, tag, length, haccepted⟩ := submitAnswer_cases s
    · rw [hkept]
      exact .completions (.refl s)
    · rw [haccepted]
      exact .submitted rfl hroom rfl (List.length_append ..)

theorem takeReturn_queueStep {s t : State} (h : exec .takeReturn s = .next t) : QueueStep s t .takeReturn := by
  obtain ⟨-, rfl⟩ | ⟨-, rfl⟩ := takeCommand_next h
  · exact .completions (.refl _)
  · cases hrq : s.rq with
    | nil =>
      rw [takeReturnAnswer_of_empty hrq]
      exact .completions (.refl s)
    | cons r rest =>
      rw [takeReturnAnswer_of_head hrq]
      refine .returnTaken ?_ ?_ rfl <;> simp [hrq]

theorem characterDelivered_queueStep {delivery : Delivery} {s t : State}
    (h : exec (.characterDelivered delivery) s = .next t) : QueueStep s t (.characterDelivered delivery) := by
  obtain ⟨-, rfl⟩ | ⟨-, rfl⟩ := whenRunning_next h
  · exact .completions (.refl _)
  · split
    · split
      · exact .completions (falseStartFound_completes s)
      · exact (deliver_moves _ _ s).elim .completions .reported
    · exact .completions (.refl s)

theorem clear_queueStep {s t : State} (h : exec .clear s = .next t) : QueueStep s t .clear := by
  unfold exec execClear at h
  obtain ⟨-, rfl⟩ | ⟨-, rfl⟩ := takeCommand_next h
  · exact .completions (.refl _)
  · exact .emptied (by simp) rfl rfl

/-- Every step is of one of these kinds. -/
theorem exec_queueStep {c : Instr} {s t : State} (h : exec c s = .next t) : QueueStep s t c := by
  cases c with
  | submit => exact submit_queueStep h
  | takeReturn => exact takeReturn_queueStep h
  | characterDelivered delivery => exact characterDelivered_queueStep h
  | clear => exact clear_queueStep h
  | powerOn | pinReset =>
    cases h
    exact .emptied (by simp) rfl rfl
  | _ => exact .completions (exec_completes rfl h)

/-! ### The shared sum in STATUS (R105) -/

/-- Five bits from a position that the word does not reach. -/
theorem extractLsb'_eq_zero_of_lt {w : Word} {pos : Nat} (hw : w.toNat < 2 ^ pos) : w.extractLsb' pos 5 = 0#5 := by
  apply BitVec.eq_of_toNat_eq
  rw [BitVec.extractLsb'_toNat, Nat.shiftRight_eq_div_pow, Nat.div_eq_of_lt hw]
  rfl

/-- A count in the five bits from its position reads back. -/
theorem extractLsb'_count_same (n : Nat) {pos : Nat} (hpos : pos + 5 ≤ 16) :
    (count n pos).extractLsb' pos 5 = BitVec.ofNat 5 n := by
  ext i hi
  have hword : pos + i < 16 := by omega
  have hbit : i < 16 := by omega
  simp [count, hword, hbit, ← BitVec.getLsbD_eq_getElem, BitVec.getLsbD_ofNat]

/-- Below bit 11 the count in bits 15 to 11 is not seen. -/
theorem extractLsb'_count_above (n : Nat) : (count n 11).extractLsb' 6 5 = 0#5 := by
  ext i hi
  have hbelow : 6 + i < 11 := by omega
  simp [count, hbelow]

theorem count_six_lt {n : Nat} (hn : n < 2 ^ 5) : (count n 6).toNat < 2 ^ 11 := by
  simp only [count, BitVec.toNat_shiftLeft, BitVec.toNat_ofNat, Nat.shiftLeft_eq]
  omega

theorem lineCode_le (l : LineControl) : (lineCode l).toNat ≤ 4 := by
  unfold lineCode
  repeat' split
  all_goals decide

theorem holdCode_le (l : LineControl) : (holdCode l).toNat ≤ 4 := by
  unfold holdCode
  split
  · decide
  · cases l.causeSupervision <;> cases l.causeHost <;> decide

/-- The two counts stand above the line code, the hold code and the overrun flag, which lie in bits 5 to 0. -/
theorem statusWord_eq (s : State) : ∃ low : Word, low.toNat < 2 ^ 6 ∧
    statusWord s = low ||| count s.oq.length 6 ||| count s.rq.length 11 := by
  have hline := lineCode_le s.lc
  have hhold := holdCode_le s.lc
  have hcode : (lineCode s.lc + 5 * holdCode s.lc).toNat < 2 ^ 6 := by
    rw [BitVec.toNat_add, BitVec.toNat_mul, show (5 : Word).toNat = 5 from rfl,
      Nat.mod_eq_of_lt (by omega : 5 * (holdCode s.lc).toNat < 2 ^ 16)]
    exact (Nat.mod_le _ _).trans_lt (by omega)
  have hflag : (flag s.au.overrun 5).toNat < 2 ^ 6 := by cases s.au.overrun <;> decide
  refine ⟨_, ?_, rfl⟩
  rw [BitVec.toNat_or]
  exact Nat.or_lt_two_pow hcode hflag

theorem statusWord_counts {s : State} (hoq : s.oq.length < 2 ^ 5) :
    (statusWord s).extractLsb' 6 5 = BitVec.ofNat 5 s.oq.length ∧
      (statusWord s).extractLsb' 11 5 = BitVec.ofNat 5 s.rq.length := by
  obtain ⟨low, hlow, hword⟩ := statusWord_eq s
  have hlow' : low.toNat < 2 ^ 11 := by omega
  rw [hword]
  simp only [BitVec.extractLsb'_or]
  constructor
  · rw [extractLsb'_eq_zero_of_lt hlow, extractLsb'_count_same _ (by decide), extractLsb'_count_above, BitVec.zero_or,
      BitVec.or_zero]
  · rw [extractLsb'_eq_zero_of_lt hlow', extractLsb'_eq_zero_of_lt (count_six_lt hoq),
      extractLsb'_count_same _ (by decide), BitVec.zero_or, BitVec.zero_or]

/-- STATUS read while no reset lasts. -/
theorem statusCounts_add {s : State} (hrun : s.inReset = false) (hoq : s.oq.length ≤ 16) (hrq : s.rq.length ≤ 24) :
    ((readWord s 0x01).extractLsb' 6 5).toNat + ((readWord s 0x01).extractLsb' 11 5).toNat = sharedSum s := by
  have hread : readWord s 0x01 = statusWord s := by simp [readWord, hrun]
  obtain ⟨hentries, hrecords⟩ := statusWord_counts (s := s) (by omega)
  rw [hread, hentries, hrecords, BitVec.toNat_ofNat, BitVec.toNat_ofNat, Nat.mod_eq_of_lt (by omega),
    Nat.mod_eq_of_lt (by omega), sharedSum, Nat.add_comm]

/-! ### The statement -/

/-- No step takes the shared sum above 24: the two kinds that raise it find it below. -/
theorem QueueStep.sharedSum_le {c : Instr} {s t : State} (h : QueueStep s t c) (hsum : sharedSum s ≤ 24) :
    sharedSum t ≤ 24 := by
  cases h with
  | completions h => exact h.sharedSum_eq.trans_le hsum
  | submitted _ hroom hrq hoq =>
    rw [sharedSum, hrq, hoq]
    exact hroom
  | reported h =>
    obtain ⟨hroom, a, payload, cycle, h⟩ := h
    rw [h.sharedSum_eq, List.length_append, List.length_singleton]
    unfold sharedSum at hroom
    omega
  | returnTaken _ hrq hoq =>
    rw [sharedSum, hrq, hoq, List.length_tail]
    unfold sharedSum at hsum
    omega
  | emptied _ hoq hrq => simp [sharedSum, hoq, hrq]

/-- Settles O55: every step is one of the kinds of `QueueStep`, which gives both the bound and the row of R105 it falls
under; the two counts of STATUS add up to the shared sum. -/
theorem sharedSumFollowsR105 : Obligations.SharedSumFollowsR105 := by
  refine ⟨fun s => statusCounts_add, fun c s t h => ⟨(exec_queueStep h).sharedSum_le, ?_⟩⟩
  cases exec_queueStep h with
  | completions hmoved => exact .inl hmoved
  | submitted hok hroom hrq hoq => exact .inr (.inl ⟨rfl, hok, hroom, hrq, hoq⟩)
  | reported hreported =>
    obtain ⟨hroom, a, payload, cycle, moved, hrq, hoq, hdone⟩ := hreported
    refine .inr (.inr (.inl ⟨⟨_, rfl⟩, hroom, a, payload, cycle, moved, ?_, hoq, hdone⟩))
    rw [hrq, List.append_assoc, List.singleton_append]
  | returnTaken hne hrq hoq => exact .inr (.inr (.inr (.inl ⟨rfl, hne, hrq, hoq⟩)))
  | emptied hreset hoq hrq => exact .inr (.inr (.inr (.inr ⟨hreset, hoq, hrq⟩)))

end Sys2Proof.Machine

/-! SUPPORT. What the Attention Unit presents, and what TAKE-ATTN, END-SERVICE and DISMISS answer (R126, R129, R132, R133):
an open level in terms of the stack and the mask, the place of the presented entry in the queue, and one equation per
answer. -/

namespace Sys2Proof.Machine

/-! ### The presented entry (R126) -/

/-- A level lies above the service level exactly when it lies above that of the entry on top of the stack, if any. -/
theorem aboveService_iff {u : AttentionUnit} {l : BitVec 2} :
    aboveService u l = true ↔ ∀ top, u.stack.head? = some top → top.level < l := by
  unfold aboveService serviceLevel
  cases u.stack.head? <;> simp

/-- A level is unmasked exactly when it is level 3, which has no flag, or its flag is 0 (R125). -/
theorem levelMasked_eq_false_iff {u : AttentionUnit} {l : BitVec 2} :
    levelMasked u l = false ↔ l = 3 ∨ u.mask.getLsbD l.toNat = false := by
  simp [levelMasked, or_iff_not_imp_left]

theorem levelOpen_iff {u : AttentionUnit} {l : BitVec 2} :
    levelOpen u l = true ↔
      (∀ top, u.stack.head? = some top → top.level < l) ∧ (l = 3 ∨ u.mask.getLsbD l.toNat = false) := by
  rw [← aboveService_iff, ← levelMasked_eq_false_iff]
  simp [levelOpen]

theorem exists_presented_iff {u : AttentionUnit} :
    (∃ e, presented u = some e) ↔ ∃ e ∈ u.queue, levelOpen u e.level = true := by
  rw [← Option.ne_none_iff_exists', Ne, presented_none]
  simp

/-- No queued entry of an open level lies above the presented one. -/
theorem level_le_of_presented {u : AttentionUnit} {e f : AttentionEntry} (h : presented u = some e) (hf : f ∈ u.queue)
    (hopen : levelOpen u f.level = true) : f.level ≤ e.level := by
  obtain ⟨-, -, -, hhigher⟩ := presented_some h
  by_contra hlevel
  have hnone := hhigher f.level (BitVec.not_le.1 hlevel) hopen
  rw [oldestAt, List.find?_eq_none] at hnone
  exact hnone f hf (beq_self_eq_true _)

/-- The oldest entry of a level stands before every other of that level. -/
theorem queue_split_of_oldestAt {u : AttentionUnit} {l : BitVec 2} {e : AttentionEntry} (h : oldestAt u l = some e) :
    ∃ older newer, u.queue = older ++ e :: newer ∧ ∀ f ∈ older, f.level ≠ l := by
  obtain ⟨-, older, newer, hqueue, holder⟩ := List.find?_eq_some_iff_append.1 h
  exact ⟨older, newer, hqueue, fun f hf => by simpa using holder f hf⟩

/-- Settles O19: an open level is what `levelOpen` decides, and the presented entry is the oldest of its level, above which
no open level holds an entry. -/
theorem presentedEntryFollowsR126 : Obligations.PresentedEntryFollowsR126 := by
  intro u
  simp only [← levelOpen_iff]
  refine ⟨exists_presented_iff, fun e h => ?_⟩
  obtain ⟨-, hopen, holdest, -⟩ := presented_some h
  exact ⟨hopen, fun f hf => level_le_of_presented h hf, queue_split_of_oldestAt holdest⟩

/-! ### Answers with result words -/

/-- A command whose block answers a result with its words. -/
theorem takeCommand_answer {code : Byte} {body : State → Answer} {s t : State} {result : ResultCode} {words : FourWords}
    (hrun : s.inReset = false) (hanswer : body s = ⟨t, result, words⟩) :
    takeCommand code body s = .next (answered code result words t) := by
  rw [takeCommand_running hrun, hanswer]

theorem attentionWords_eq (e : AttentionEntry) : attentionWords e =
    ⟨e.source.setWidth 16, e.level.setWidth 16 ||| (e.repeats.setWidth 16 <<< 4), e.code.setWidth 16, e.stamp⟩ := by
  rw [attentionWords, field_zero, field_zero, field_zero, field]

/-! ### TAKE-ATTN (R129) -/

theorem takeAttnAnswer_of_none {s : State} (h : presented s.au = none) : takeAttnAnswer s = plain .nothing s := by
  simp only [takeAttnAnswer, h]

theorem takeAttnAnswer_of_some {s : State} {e : AttentionEntry} (h : presented s.au = some e) :
    takeAttnAnswer s = ⟨pushPresented e s, .ok, attentionWords e⟩ := by
  simp only [takeAttnAnswer, h]

/-- The entry pushed is the first equal to it in the queue. -/
theorem pushPresented_of_mem {e : AttentionEntry} {s : State} (h : e ∈ s.au.queue) :
    ∃ before after, s.au.queue = before ++ e :: after ∧ e ∉ before ∧
      pushPresented e s = { s with au := { s.au with queue := before ++ after, stack := e :: s.au.stack } } := by
  obtain ⟨before, after, hbefore, hqueue, herase⟩ := List.exists_erase_eq h
  exact ⟨before, after, hqueue, hbefore, by rw [pushPresented, herase]⟩

/-- What is presented lies above the entry in service. -/
theorem level_lt_of_presented {u : AttentionUnit} {top f : AttentionEntry} (htop : u.stack.head? = some top)
    (h : presented u = some f) : top.level < f.level := by
  obtain ⟨-, hopen, -, -⟩ := presented_some h
  exact (levelOpen_iff.1 hopen).1 top htop

/-- Settles O20: the presented entry is queued, so it can pass to the stack, and as the new top it bounds from below what
is presented next. -/
theorem takeAttnFollowsR129 : Obligations.TakeAttnFollowsR129 := by
  intro s hrun
  refine ⟨fun h => takeCommand_plain hrun (takeAttnAnswer_of_none h), fun e h => ?_⟩
  obtain ⟨hmem, -, -, -⟩ := presented_some h
  refine ⟨pushPresented e s, ?answer, pushPresented_of_mem hmem, rfl, fun f hf => level_lt_of_presented rfl hf⟩
  case answer =>
    rw [← attentionWords_eq]
    exact takeCommand_answer hrun (takeAttnAnswer_of_some h)

/-! ### END-SERVICE (R132) -/

theorem endServiceAnswer_of_empty {s : State} (h : s.au.stack = []) : endServiceAnswer s = plain .nothing s := by
  simp only [endServiceAnswer, h]

theorem endServiceAnswer_of_top {s : State} {e : AttentionEntry} {rest : List AttentionEntry}
    (h : s.au.stack = e :: rest) :
    endServiceAnswer s = ⟨{ s with au := { s.au with stack := rest } }, .ok, attentionWords e⟩ := by
  simp only [endServiceAnswer, h]

/-! ### DISMISS (R133) -/

theorem dismissAnswer_outOfRange {s : State} (h : 126 < s.rw.args.w0.toNat) : dismissAnswer s = plain .badArg s := by
  simp only [dismissAnswer, lineAddress_eq_none.2 h]

theorem dismissAnswer_of_source {s : State} {a : Address} (h : lineAddress s.rw.args.w0 = some a) :
    dismissAnswer s =
      ⟨dismissSource a s, .ok, firstWord (BitVec.ofNat 16 (s.au.queue.countP (fun e => e.source == a)))⟩ := by
  simp only [dismissAnswer, h, count_zero]
  rfl

/-- Settles O21: END-SERVICE answers by the stack, DISMISS by its argument read as a source. -/
theorem endServiceAndDismiss : Obligations.EndServiceAndDismiss := by
  intro s hrun
  refine ⟨⟨fun h => takeCommand_plain hrun (endServiceAnswer_of_empty h), fun e rest h => ⟨?popped, rfl⟩⟩,
    fun h => takeCommand_plain hrun (dismissAnswer_outOfRange h), fun a hw0 ha => ?dismissed⟩
  case popped =>
    rw [← attentionWords_eq]
    exact takeCommand_answer hrun (endServiceAnswer_of_top h)
  case dismissed => exact takeCommand_answer hrun (dismissAnswer_of_source (lineAddress_eq_some.2 ⟨hw0, ha⟩))

end Sys2Proof.Machine
/-! SUPPORT. What the Supervision Timer answers to SERVICE (R161, R162): one equation per answer, and the statement
settled from these. -/

namespace Sys2Proof.Machine

/-! ### The stages and the remaining count -/

/-- The first stage loads the remaining count afresh, whatever it stood at. -/
theorem firstStage_remaining (n : Word) (s : State) :
    firstStage { s with sv := { s.sv with remaining := n } } = firstStage s := rfl

/-- With a grace to run the first stage hands SUPERVISION-DUE and stands in GRACE (R157). -/
theorem firstStage_of_grace {s : State} (h : s.sv.grace ≠ 0) :
    firstStage s = { s with
      au := (controllerEvent 0 3 0x04 s).au
      sv := { s.sv with state := .grace, remaining := s.sv.grace.setWidth 16 } } :=
  if_neg h

/-- The watch that is due runs out in the first stage. -/
theorem exec_watchExpiry_due {s : State} (hrun : s.inReset = false) (hwatch : s.sv.state = .watch)
    (hdue : s.sv.lastTick = true) : exec .watchExpiry s = .next (firstStage s) := by
  change whenRunning _ s = _
  rw [whenRunning_running hrun, if_pos ⟨hwatch, hdue⟩]

/-! ### SERVICE (R161, R162) -/

/-- The wrong-token count is a saturating byte. -/
theorem satInc_byte (x : Byte) : satInc x = if x = 255 then 255 else x + 1 := by
  change (if x = 255 then x else x + 1) = _
  split
  · next h => exact h
  · rfl

theorem serviceAnswer_idle {s : State} (hidle : s.sv.state = .idle) : serviceAnswer s = plain .wrongState s :=
  if_pos hidle

theorem serviceAnswer_rightToken {s : State} (hstate : s.sv.state ≠ .idle) (htoken : s.rw.args.w0 = s.sv.token) :
    serviceAnswer s = okWith (nextToken s.sv.token) (correctService s) := by
  rw [serviceAnswer, if_neg hstate, if_pos htoken]

theorem serviceAnswer_wrongToken {s : State} (hstate : s.sv.state ≠ .idle) (htoken : s.rw.args.w0 ≠ s.sv.token) :
    serviceAnswer s = plain .badToken (wrongService s) := by
  rw [serviceAnswer, if_neg hstate, if_neg htoken]

/-- A wrong SERVICE outside WATCH is counted and no more. -/
theorem wrongService_unwatched {s : State} (h : s.sv.state ≠ .watch) :
    wrongService s = { s with sv := { s.sv with wrongTokens := satInc s.sv.wrongTokens } } :=
  if_neg h

/-- A wrong SERVICE in WATCH is counted and ends the watch at once. -/
theorem wrongService_watched {s : State} (h : s.sv.state = .watch) :
    wrongService s = firstStage { s with sv := { s.sv with wrongTokens := satInc s.sv.wrongTokens } } :=
  if_pos h

/-- Settles O30: the answer is read off the state and the token, and the watch that a wrong SERVICE ends is ended by the
first stage, which is all that its expiry does. -/
theorem serviceFollowsR161AndR162 : Obligations.ServiceFollowsR161AndR162 := by
  intro s hrun
  refine ⟨fun hidle => takeCommand_plain hrun (serviceAnswer_idle hidle),
    fun hstate htoken => takeCommand_answer hrun (serviceAnswer_rightToken hstate htoken), fun hstate htoken => ?_⟩
  simp only [← satInc_byte]
  have hservice : exec .service s = .next (answered 0x31 .badToken .zero (wrongService s)) :=
    takeCommand_plain hrun (serviceAnswer_wrongToken hstate htoken)
  refine ⟨fun hcounted => ?counted, fun hwatch => ⟨?asExpiry, fun hgrace => ?toGrace⟩⟩
  case counted =>
    rwa [wrongService_unwatched (by rcases hcounted with h | h <;> simp [h])] at hservice
  case asExpiry =>
    rw [wrongService_watched hwatch, ← firstStage_remaining 0] at hservice
    exact ⟨_, exec_watchExpiry_due hrun hwatch rfl, hservice⟩
  case toGrace =>
    rw [wrongService_watched hwatch, firstStage_of_grace] at hservice
    · exact hservice
    · exact hgrace

end Sys2Proof.Machine

/-! SUPPORT. What a step can do to the Supervision Timer (R156 to R167): the rows that do not reach it, what each of the
others does to it, and the starting state that stays IDLE. -/

namespace Sys2Proof.Machine

/-! ### What leaves the Supervision Timer as it stands -/

theorem takeCommand_sv {code : Byte} {body : State → Answer} {s t : State} (h : takeCommand code body s = .next t)
    (hbody : (body s).state.sv = s.sv) : t.sv = s.sv := by
  obtain ⟨-, rfl⟩ | ⟨-, rfl⟩ := takeCommand_next h
  · rfl
  · exact hbody

theorem whenRunning_sv {f : State → State} {s t : State} (h : whenRunning f s = .next t) (hf : (f s).sv = s.sv) :
    t.sv = s.sv := by
  obtain ⟨-, rfl⟩ | ⟨-, rfl⟩ := whenRunning_next h
  · rfl
  · exact hf

theorem configWrite_sv {taken : Bool} {f : State → State} {s : State} (hf : (f s).sv = s.sv) :
    (configWrite taken f s).sv = s.sv := by
  unfold configWrite
  split
  · exact hf
  · rfl

/-- No move of a line event touches the Supervision Timer. -/
theorem keptByLine_sv (v : Supervision) : KeptByLine (fun s => s.sv = v) := by
  refine .ofTableFree (fun s t happart h => (apart_sv happart).trans h) (fun _ _ h => h) (fun _ _ h => h)
    (fun _ _ h => h) (fun _ _ _ h => h) (fun _ _ h => h) (fun _ _ _ h => h) (fun _ _ _ _ h => h)
    (fun s t a payload hadmit h => ?report) (fun _ _ _ _ _ _ h => h) (fun _ h => h)
  case report =>
    rw [admitReport_eq] at hadmit
    split at hadmit
    · cases hadmit
      exact h
    · cases hadmit

theorem lineStartAnswer_sv (s : State) : (lineStartAnswer s).state.sv = s.sv := by
  unfold lineStartAnswer
  split
  · exact (keptByLine_sv s.sv).startCycle rfl
  · rfl
  · rfl

theorem lineStopAnswer_sv (s : State) : (lineStopAnswer s).state.sv = s.sv := by
  unfold lineStopAnswer
  split
  · split
    · rfl
    · exact (keptByLine_sv s.sv).abandonCycle rfl
  · rfl
  · rfl

/-- The rows of the table that reach the Supervision Timer (R156 to R167). -/
def reachesSupervision : Instr → Bool
  | .powerOn | .pinReset | .clear | .supSet | .service | .tick | .watchExpiry | .graceExpiry => true
  | _ => false

/-- Every other row leaves the Supervision Timer as it stands. -/
theorem exec_sv {c : Instr} {s t : State} (hc : reachesSupervision c = false) (h : exec c s = .next t) :
    t.sv = s.sv := by
  cases c with
  | powerOn | pinReset | clear | supSet | service | tick | watchExpiry | graceExpiry => cases hc
  | lineStart => exact takeCommand_sv h (lineStartAnswer_sv s)
  | lineStop => exact takeCommand_sv h (lineStopAnswer_sv s)
  | enrol | remove | park | unpark | zero | sync | submit | purge | takeReturn | takeAttn | endService | dismiss
  | holdEnter | holdLeave =>
    refine takeCommand_sv h ?_
    dsimp only [enrolAnswer, removeAnswer, parkAnswer, unparkAnswer, zeroAnswer, syncAnswer, submitAnswer, purgeAnswer,
      takeReturnAnswer, takeAttnAnswer, endServiceAnswer, dismissAnswer, holdEnterAnswer, holdLeaveAnswer]
    repeat' split
    all_goals rfl
  | badCmd value =>
    simp only [exec, execBadCmd] at h
    split at h
    · exact takeCommand_sv h rfl
    · cases h
  | registerWrite offset value =>
    simp only [exec, execRegisterWrite] at h
    split at h
    · exact whenRunning_sv h rfl
    · cases h
  | rateWrite _ | timingWrite _ | limitsWrite _ | tickdivWrite _ => exact whenRunning_sv h (configWrite_sv rfl)
  | pauseWrite _ | amaskWrite _ | wselWrite _ | wdataWrite _ | causeWrite _ | enableWrite _ | statusWrite _
  | rstcauseWrite _ =>
    simp only [exec, execPauseWrite, execAmaskWrite, execWselWrite, execWdataWrite, execCauseWrite, execEnableWrite,
      execStatusWrite, execRstcauseWrite] at h
    exact whenRunning_sv h rfl
  | wdataRead | resetEnd =>
    cases h
    rfl
  | pauseExpiry | settleEnd _ | characterDelivered _ | echoMissing | faultedAttemptEnd | replyTimeout | gapTimeout
  | quietEnd | startBitFound | falseStart | lineReturnsTo1 | endOfLastStopBit =>
    exact (keptByLine_sv s.sv).lineEvent h (by simp) rfl

/-! ### What the rows that reach it do to it -/

/-- The state, the remaining count and the wrong-token count alone differ. -/
def StageMoved (v w : Supervision) : Prop :=
  ∃ state remaining wrongTokens, w = { v with state := state, remaining := remaining, wrongTokens := wrongTokens }

theorem StageMoved.trans {u v w : Supervision} (huv : StageMoved u v) (hvw : StageMoved v w) : StageMoved u w := by
  obtain ⟨_, _, _, rfl⟩ := huv
  obtain ⟨state, remaining, wrongTokens, rfl⟩ := hvw
  exact ⟨state, remaining, wrongTokens, rfl⟩

theorem secondStage_moves (s : State) : StageMoved s.sv (secondStage s).sv := by
  unfold secondStage
  split <;> exact ⟨_, _, _, rfl⟩

theorem firstStage_moves (s : State) : StageMoved s.sv (firstStage s).sv := by
  unfold firstStage
  simp only
  split
  · exact .trans ⟨_, _, _, rfl⟩ (secondStage_moves _)
  · exact ⟨_, _, _, rfl⟩

theorem wrongService_moves (s : State) : StageMoved s.sv (wrongService s).sv := by
  unfold wrongService
  simp only
  split
  · exact .trans ⟨_, _, _, rfl⟩ (firstStage_moves _)
  · exact ⟨_, _, _, rfl⟩

/-- A tick moves the stage, and in IDLE not even that. -/
theorem tickSupervision_moves (s : State) :
    (tickSupervision s).sv = s.sv ∨ s.sv.state ≠ .idle ∧ StageMoved s.sv (tickSupervision s).sv := by
  cases hstate : s.sv.state with
  | idle => exact .inl (congrArg State.sv (tickSupervision_at_rest (.inl hstate)))
  | expired => exact .inl (congrArg State.sv (tickSupervision_at_rest (.inr hstate)))
  | watch =>
    refine .inr ⟨nofun, ?_⟩
    by_cases hn : 2 ≤ s.sv.remaining.toNat
    · rw [tickSupervision_counts (.inl hstate) hn]
      exact ⟨_, _, _, rfl⟩
    · rw [tickSupervision_ends_watch hstate (by omega)]
      exact firstStage_moves s
  | grace =>
    refine .inr ⟨nofun, ?_⟩
    by_cases hn : 2 ≤ s.sv.remaining.toNat
    · rw [tickSupervision_counts (.inr hstate) hn]
      exact ⟨_, _, _, rfl⟩
    · rw [tickSupervision_ends_grace hstate (by omega)]
      exact secondStage_moves s

/-- SUP-SET is refused with the state as it was, or taken with the lock clear (R164, R165). -/
theorem supSetAnswer_cases (s : State) :
    (∃ refusal, refusal ≠ .ok ∧ supSetAnswer s = plain refusal s) ∨
      (s.sv.lock = false ∧ ∃ mode, supervisionModeOf s.rw.args.w0 = some mode ∧
        supSetAnswer s = okWith s.sv.token
          (configureSupervision mode s.rw.args.w1 (s.rw.args.w2.setWidth 8) (s.rw.args.w3 == 1) s)) := by
  unfold supSetAnswer
  split
  · exact .inl ⟨.locked, nofun, rfl⟩
  · next hlock =>
    split
    · exact .inl ⟨.badArg, nofun, rfl⟩
    · next mode hmode =>
      split
      · exact .inl ⟨.badArg, nofun, rfl⟩
      · exact .inr ⟨by simpa using hlock, mode, hmode, rfl⟩

/-- What a step can do to the Supervision Timer: keep it, move its stage unless it is IDLE, serve it, configure it by a
SUP-SET, restart it by a CLEAR, or reset it. -/
inductive SupervisionStep (s t : State) : Instr → Prop
  | kept {c : Instr} : t.sv = s.sv → SupervisionStep s t c
  | moved {c : Instr} : s.sv.state ≠ .idle → StageMoved s.sv t.sv → SupervisionStep s t c
  | served : s.sv.state ≠ .idle → s.rw.args.w0 = s.sv.token →
      t.sv = { s.sv with
        state := .watch, remaining := s.sv.period, token := nextToken s.sv.token, wrongTokens := 0 } →
      SupervisionStep s t .service
  | configured {mode : SupervisionMode} : s.sv.lock = false → supervisionModeOf s.rw.args.w0 = some mode →
      t.rw.result = .ok →
      t.sv = Supervision.restart { s.sv with
        mode := mode, period := s.rw.args.w1, grace := s.rw.args.w2.setWidth 8, lock := s.rw.args.w3 == 1 } →
      SupervisionStep s t .supSet
  | restarted : t.sv = s.sv.restart → SupervisionStep s t .clear
  | reset {c : Instr} : c = .powerOn ∨ c = .pinReset → t.sv = Supervision.reset → SupervisionStep s t c

theorem exec_supervisionStep {c : Instr} {s t : State} (h : exec c s = .next t) : SupervisionStep s t c := by
  cases hc : reachesSupervision c with
  | false => exact .kept (exec_sv hc h)
  | true =>
    cases c with
    | powerOn | pinReset =>
      cases h
      exact .reset (by simp) rfl
    | clear =>
      unfold exec execClear at h
      obtain ⟨-, rfl⟩ | ⟨-, rfl⟩ := takeCommand_next h
      · exact .kept rfl
      · exact .restarted rfl
    | supSet =>
      obtain ⟨-, rfl⟩ | ⟨-, rfl⟩ := takeCommand_next h
      · exact .kept rfl
      · obtain ⟨refusal, -, hrefused⟩ | ⟨hlock, mode, hmode, htaken⟩ := supSetAnswer_cases s
        · rw [hrefused]
          exact .kept rfl
        · rw [htaken]
          exact .configured hlock hmode rfl rfl
    | service =>
      obtain ⟨-, rfl⟩ | ⟨-, rfl⟩ := takeCommand_next h
      · exact .kept rfl
      · by_cases hstate : s.sv.state = .idle
        · rw [serviceAnswer_idle hstate]
          exact .kept rfl
        · by_cases htoken : s.rw.args.w0 = s.sv.token
          · rw [serviceAnswer_rightToken hstate htoken]
            exact .served hstate htoken rfl
          · rw [serviceAnswer_wrongToken hstate htoken]
            exact .moved hstate (wrongService_moves s)
    | tick =>
      unfold exec execTick at h
      obtain ⟨-, rfl⟩ | ⟨-, rfl⟩ := whenRunning_next h
      · exact .kept rfl
      · have hpause := apart_sv (apart_tickPause s)
        obtain hkept | ⟨hstate, hmoved⟩ := tickSupervision_moves (tickPause s)
        · exact .kept (hkept.trans hpause)
        · rw [hpause] at hstate hmoved
          exact .moved hstate hmoved
    | watchExpiry =>
      obtain ⟨-, rfl⟩ | ⟨-, rfl⟩ := whenRunning_next h
      · exact .kept rfl
      · split
        · next hdue => exact .moved (by simp [hdue.1]) (firstStage_moves s)
        · exact .kept rfl
    | graceExpiry =>
      obtain ⟨-, rfl⟩ | ⟨-, rfl⟩ := whenRunning_next h
      · exact .kept rfl
      · split
        · next hdue => exact .moved (by simp [hdue.1]) (secondStage_moves s)
        · exact .kept rfl
    | _ => cases hc

/-! ### What a restart keeps -/

section
variable (v : Supervision)

@[simp] theorem restart_mode : v.restart.mode = v.mode := by unfold Supervision.restart; split <;> rfl

@[simp] theorem restart_period : v.restart.period = v.period := by unfold Supervision.restart; split <;> rfl

@[simp] theorem restart_grace : v.restart.grace = v.grace := by unfold Supervision.restart; split <;> rfl

@[simp] theorem restart_lock : v.restart.lock = v.lock := by unfold Supervision.restart; split <;> rfl

@[simp] theorem restart_token : v.restart.token = v.token := by unfold Supervision.restart; split <;> rfl

theorem restart_of_off (h : v.mode = .off) : v.restart = { v with state := .idle, remaining := 0 } := if_pos h

end

/-! ### The starting state (R166) -/

/-- The mode argument is the code of the mode (spec/11 11.4). -/
theorem eq_supervisionModeCode {w : Word} {mode : SupervisionMode} (h : supervisionModeOf w = some mode) :
    w = supervisionModeCode mode := by
  unfold supervisionModeOf at h
  split at h
  · next hw => cases h; exact hw
  · split at h
    · next hw => cases h; exact hw
    · split at h
      · next hw => cases h; exact hw
      · cases h

/-- Settles O6: both resets hold the timer at `Supervision.reset`, and of the kinds of step a taken SUP-SET alone leads
out of IDLE in mode OFF, into the mode its argument spells. -/
theorem supervisionResetValues : Obligations.SupervisionResetValues := by
  refine ⟨?resets, fun s t c hoff hidle h => ?idle⟩
  case resets =>
    rintro s c (rfl | rfl)
    · exact ⟨_, rfl, rfl, rfl, rfl, rfl, rfl, rfl, rfl, rfl, rfl, rfl, rfl⟩
    · exact ⟨_, rfl, rfl, rfl, rfl, rfl, rfl, rfl, rfl, rfl, rfl, rfl, rfl⟩
  case idle =>
    cases exec_supervisionStep h with
    | kept hsv => exact .inl (hsv ▸ ⟨hidle, hoff⟩)
    | moved hstate _ => exact absurd hidle hstate
    | served hstate _ _ => exact absurd hidle hstate
    | @configured mode _ hmode _ hsv =>
      cases mode with
      | off => exact .inl (hsv ▸ ⟨rfl, rfl⟩)
      | warn => exact .inr ⟨rfl, .inl ⟨eq_supervisionModeCode hmode, hsv ▸ rfl⟩⟩
      | hold => exact .inr ⟨rfl, .inr ⟨eq_supervisionModeCode hmode, hsv ▸ rfl⟩⟩
    | restarted hsv =>
      rw [hsv, restart_of_off _ hoff]
      exact .inl ⟨rfl, hoff⟩
    | reset _ hsv => exact .inl (hsv ▸ ⟨rfl, rfl⟩)

end Sys2Proof.Machine

/-! SUPPORT. The token (R160): its step bit by bit, the step as a map that keeps exclusive OR and so is known by sixteen
columns, the period read off the columns of its powers, and what advances and what shows the token. -/

namespace Sys2Proof.Machine

/-! ### One step, bit by bit -/

theorem getLsbD_nextToken_of_lt {t : Word} {i : Nat} (hi : i < 15) : (nextToken t).getLsbD i = t.getLsbD (i + 1) := by
  unfold nextToken
  rw [BitVec.getLsbD_append, BitVec.getLsbD_extractLsb', if_pos hi, decide_eq_true hi, Bool.true_and, Nat.add_comm]

theorem getLsbD_nextToken_top (t : Word) :
    (nextToken t).getLsbD 15 = (((t.getLsbD 0 ^^ t.getLsbD 2) ^^ t.getLsbD 3) ^^ t.getLsbD 5) := by
  unfold nextToken
  rw [BitVec.getLsbD_append, if_neg (lt_irrefl 15), Nat.sub_self, BitVec.getLsbD_ofBool, decide_eq_true rfl,
    Bool.true_and]

/-- The bit shifted out enters the feedback, so no token but 0 leads to 0. -/
theorem nextToken_ne_zero {t : Word} (ht : t ≠ 0) : nextToken t ≠ 0 := by
  intro hnext
  have hshift : ∀ i, i < 15 → t.getLsbD (i + 1) = false := fun i hi => by
    rw [← getLsbD_nextToken_of_lt hi, hnext]
    exact BitVec.getLsbD_zero
  have hfeedback := getLsbD_nextToken_top t
  rw [hnext, hshift 1 (by omega), hshift 2 (by omega), hshift 4 (by omega)] at hfeedback
  refine ht (BitVec.eq_of_getLsbD_eq fun i hi => ?_)
  cases i with
  | zero => simpa using hfeedback.symm
  | succ i => simpa using hshift i (by omega)

/-! ### Maps that keep exclusive OR, by their columns -/

/-- A map of words that carries exclusive OR to exclusive OR. -/
def KeepsXor (f : Word → Word) : Prop := ∀ x y, f (x ^^^ y) = f x ^^^ f y

/-- The feedback is an exclusive OR of bits, so the step keeps exclusive OR. -/
theorem keepsXor_nextToken : KeepsXor nextToken := by
  intro x y
  refine BitVec.eq_of_getLsbD_eq fun i hi => ?_
  rw [BitVec.getLsbD_xor]
  obtain hlow | rfl : i < 15 ∨ i = 15 := by omega
  · simp only [getLsbD_nextToken_of_lt hlow, BitVec.getLsbD_xor]
  · simp only [getLsbD_nextToken_top, BitVec.getLsbD_xor, Bool.xor_assoc, Bool.xor_left_comm]

theorem KeepsXor.comp {f g : Word → Word} (hf : KeepsXor f) (hg : KeepsXor g) : KeepsXor (f ∘ g) :=
  fun x y => (congrArg f (hg x y)).trans (hf _ _)

theorem KeepsXor.map_zero {f : Word → Word} (hf : KeepsXor f) : f 0 = 0 := by
  simpa using hf 0 0

/-- A word shifted up is its bit 0 and the rest. -/
theorem shiftLeft_eq_bit_xor (x : Word) (i : Nat) :
    x <<< i = (if x.getLsbD 0 then BitVec.twoPow 16 i else 0) ^^^ ((x >>> 1) <<< (i + 1)) := by
  refine BitVec.eq_of_getLsbD_eq fun j hj => ?_
  have hbit : (if x.getLsbD 0 then BitVec.twoPow 16 i else 0).getLsbD j = (x.getLsbD 0 && decide (i = j)) := by
    split
    · next hx =>
      rw [hx, Bool.true_and, BitVec.getLsbD_twoPow, Bool.and_eq_right_iff_imp, decide_eq_true_iff, decide_eq_true_iff]
      omega
    · next hx =>
      rw [Bool.eq_false_of_not_eq_true hx, Bool.false_and]
      exact BitVec.getLsbD_zero
  rw [BitVec.getLsbD_xor, hbit, BitVec.getLsbD_shiftLeft, BitVec.getLsbD_shiftLeft, BitVec.getLsbD_ushiftRight]
  obtain hbelow | rfl | habove := Nat.lt_trichotomy j i
  · simp [hbelow, hbelow.ne', Nat.lt_succ_of_lt hbelow]
  · simp [hj]
  · have hindex : 1 + (j - (i + 1)) = j - i := by omega
    simp [hj, habove.ne, habove.not_gt, Nat.not_lt.2 (Nat.succ_le_of_lt habove), hindex]

/-- The exclusive OR of the columns that the set bits of a word select, the first by bit 0. -/
def sumOfColumns : List Word → Word → Word
  | [], _ => 0
  | c :: columns, x => (if x.getLsbD 0 then c else 0) ^^^ sumOfColumns columns (x >>> 1)

/-- The images of the sixteen words that hold one bit. -/
def columnsOf (f : Word → Word) : List Word := (List.range' 0 16).map (fun i => f (BitVec.twoPow 16 i))

/-- The columns from bit i on give the map on the words shifted up by i. -/
theorem sumOfColumns_range {f : Word → Word} (hf : KeepsXor f) (n i : Nat) (hn : i + n = 16) (x : Word) :
    sumOfColumns ((List.range' i n).map (fun i => f (BitVec.twoPow 16 i))) x = f (x <<< i) := by
  induction n generalizing i x with
  | zero =>
    obtain rfl : i = 16 := hn
    rw [BitVec.shiftLeft_eq_zero (le_refl 16)]
    exact hf.map_zero.symm
  | succ n ih =>
    rw [List.range'_succ, List.map_cons, sumOfColumns, ih (i + 1) (by omega), shiftLeft_eq_bit_xor x i, hf]
    congr 1
    split
    · rfl
    · exact hf.map_zero.symm

/-- A map that keeps exclusive OR is known by its columns. -/
theorem sumOfColumns_columnsOf {f : Word → Word} (hf : KeepsXor f) (x : Word) : sumOfColumns (columnsOf f) x = f x := by
  rw [columnsOf, sumOfColumns_range hf 16 0 rfl, BitVec.shiftLeft_zero]

/-- The columns of a map taken twice. -/
def doubled (columns : List Word) : List Word := columns.map (sumOfColumns columns)

theorem doubled_columnsOf {f : Word → Word} (hf : KeepsXor f) : doubled (columnsOf f) = columnsOf (f ∘ f) := by
  rw [doubled, columnsOf, columnsOf, List.map_map]
  exact List.map_congr_left fun i _ => sumOfColumns_columnsOf hf _

/-! ### Powers of a map, by doubling -/

/-- A map, given by its columns, run as often as a number of so many bits says: one doubling for each bit, the lowest
first. -/
def leap : Nat → List Word → Nat → Word → Word
  | 0, _, _, x => x
  | bits + 1, columns, n, x => leap bits (doubled columns) (n / 2) (if n % 2 = 1 then sumOfColumns columns x else x)

theorem iterate_halved (f : Word → Word) (n : Nat) (x : Word) :
    f^[n] x = (f ∘ f)^[n / 2] (if n % 2 = 1 then f x else x) := by
  have hsquare : f ∘ f = f^[2] := rfl
  have hodd : (if n % 2 = 1 then f x else x) = f^[n % 2] x := by
    obtain h | h := Nat.mod_two_eq_zero_or_one n <;> rw [h] <;> rfl
  rw [hsquare, ← Function.iterate_mul, hodd, ← Function.iterate_add_apply, Nat.div_add_mod]

theorem leap_columnsOf {f : Word → Word} (hf : KeepsXor f) {bits n : Nat} (hn : n < 2 ^ bits) (x : Word) :
    leap bits (columnsOf f) n x = f^[n] x := by
  induction bits generalizing f n x with
  | zero =>
    obtain rfl : n = 0 := by omega
    rfl
  | succ bits ih =>
    rw [leap, doubled_columnsOf hf, ih (hf.comp hf) (by omega), sumOfColumns_columnsOf hf, ← iterate_halved]

/-! ### The period -/

/-- The token comes back after 65535 steps, by sixteen doublings. -/
theorem iterate_nextToken_full : nextToken^[65535] 0x6C21 = 0x6C21 := by
  rw [← leap_columnsOf keepsXor_nextToken (bits := 16) (by norm_num)]
  decide +kernel

theorem iterate_nextToken_cofactor {n : Nat} (hn : n ∈ [65535 / 3, 65535 / 5, 65535 / 17, 65535 / 257]) :
    nextToken^[n] 0x6C21 ≠ 0x6C21 := by
  have hleap : ∀ n ∈ [65535 / 3, 65535 / 5, 65535 / 17, 65535 / 257],
      n < 2 ^ 16 ∧ leap 16 (columnsOf nextToken) n 0x6C21 ≠ 0x6C21 := by decide +kernel
  obtain ⟨hlt, hne⟩ := hleap n hn
  rwa [leap_columnsOf keepsXor_nextToken hlt] at hne

/-- The primes that divide 65535 = 3 · 5 · 17 · 257. -/
theorem prime_of_dvd_65535 {p : Nat} (hp : p.Prime) (hdvd : p ∣ 65535) : p ∈ [3, 5, 17, 257] := by
  have hprime : ∀ q, q.Prime → p ∣ q → p = q := fun q hq h => (Nat.prime_dvd_prime_iff_eq hp hq).1 h
  rw [show 65535 = 3 * 5 * 17 * 257 by norm_num, hp.dvd_mul, hp.dvd_mul, hp.dvd_mul] at hdvd
  obtain ((h | h) | h) | h := hdvd <;> simp [hprime _ (by norm_num) h]

/-- A point that comes back after N steps, and after no N / p for a prime p that divides N, comes back no earlier. -/
theorem not_isPeriodicPt_of_lt {f : Word → Word} {x : Word} {N n : Nat} (hN : Function.IsPeriodicPt f N x)
    (hprime : ∀ p, p.Prime → p ∣ N → ¬Function.IsPeriodicPt f (N / p) x) (h0 : 0 < n) (hlt : n < N) :
    ¬Function.IsPeriodicPt f n x := by
  intro hn
  obtain ⟨q, hq⟩ := Nat.gcd_dvd_right n N
  have hq1 : q ≠ 1 := by
    rintro rfl
    have := Nat.gcd_le_left N h0
    omega
  obtain ⟨p, hp, r, rfl⟩ := Nat.exists_prime_and_dvd hq1
  have hN' : N / p = n.gcd N * r := by
    conv_lhs => rw [hq, Nat.mul_left_comm]
    exact Nat.mul_div_cancel_left _ hp.pos
  refine hprime p hp (hq ▸ Dvd.intro _ (Nat.mul_left_comm ..)) ?_
  rw [hN']
  exact (hn.gcd hN).mul_const r

theorem iterate_nextToken_ne {n : Nat} (h0 : 0 < n) (hlt : n < 65535) : nextToken^[n] 0x6C21 ≠ 0x6C21 :=
  not_isPeriodicPt_of_lt iterate_nextToken_full
    (fun _ hp hdvd =>
      iterate_nextToken_cofactor (List.mem_map_of_mem (f := (65535 / ·)) (prime_of_dvd_65535 hp hdvd))) h0 hlt

/-! ### What advances the token, and what shows it -/

/-- A step that changes the token serves it right, or is one of the two resets. -/
theorem SupervisionStep.token {c : Instr} {s t : State} (h : SupervisionStep s t c) (hne : t.sv.token ≠ s.sv.token) :
    (c = .service ∧ s.rw.args.w0 = s.sv.token ∧ t.sv.token = nextToken s.sv.token) ∨
      ((c = .powerOn ∨ c = .pinReset) ∧ t.sv.token = 0x6C21) := by
  cases h with
  | kept hsv => exact absurd (congrArg Supervision.token hsv) hne
  | moved _ hmoved =>
    obtain ⟨state, remaining, wrongTokens, hsv⟩ := hmoved
    exact absurd (congrArg Supervision.token hsv) hne
  | served _ htoken hsv => exact .inl ⟨rfl, htoken, congrArg Supervision.token hsv⟩
  | configured _ _ _ hsv => exact absurd ((congrArg Supervision.token hsv).trans (restart_token _)) hne
  | restarted hsv => exact absurd ((congrArg Supervision.token hsv).trans (restart_token _)) hne
  | reset hreset hsv => exact .inr ⟨hreset, congrArg Supervision.token hsv⟩

/-- Settles O32: the step is the shift with its feedback, the period is 65535 by the primes that divide it, and the token
stands in no word that a read or a snapshot returns. -/
theorem tokenFollowsR160 : Obligations.TokenFollowsR160 := by
  refine ⟨fun t => ⟨fun i => getLsbD_nextToken_of_lt, getLsbD_nextToken_top t, nextToken_ne_zero⟩, by decide,
    fun n => iterate_nextToken_ne, iterate_nextToken_full, rfl, fun c s t h => (exec_supervisionStep h).token,
    ?hidden⟩
  case hidden =>
    intro s token
    exact ⟨fun offset => rfl, fun selection index => rfl⟩

end Sys2Proof.Machine

/-! SUPPORT. The supervision lock (R165): what it keeps, what sets and clears it, and that ticks, expiries, SERVICE and
CLEAR do not look at it. -/

namespace Sys2Proof.Machine

/-! ### What the lock keeps, and what sets and clears it -/

/-- A step from a locked timer that is no reset leaves the lock and the configuration, and IDLE in mode OFF. -/
theorem SupervisionStep.of_locked {c : Instr} {s t : State} (h : SupervisionStep s t c) (hlock : s.sv.lock = true)
    (hpower : c ≠ .powerOn) (hpin : c ≠ .pinReset) :
    t.sv.lock = true ∧ t.sv.mode = s.sv.mode ∧ t.sv.period = s.sv.period ∧ t.sv.grace = s.sv.grace ∧
      (s.sv.mode = .off → s.sv.state = .idle → t.sv.state = .idle) := by
  cases h with
  | kept hsv =>
    rw [hsv]
    exact ⟨hlock, rfl, rfl, rfl, fun _ hidle => hidle⟩
  | moved hstate hmoved =>
    obtain ⟨state, remaining, wrongTokens, hsv⟩ := hmoved
    rw [hsv]
    exact ⟨hlock, rfl, rfl, rfl, fun _ hidle => absurd hidle hstate⟩
  | served hstate _ hsv =>
    rw [hsv]
    exact ⟨hlock, rfl, rfl, rfl, fun _ hidle => absurd hidle hstate⟩
  | configured hunlocked => simp [hunlocked] at hlock
  | restarted hsv =>
    rw [hsv]
    exact ⟨by simpa using hlock, restart_mode _, restart_period _, restart_grace _,
      fun hoff _ => by rw [restart_of_off _ hoff]⟩
  | reset hreset => exact absurd hreset (not_or.2 ⟨hpower, hpin⟩)

/-- A step that sets the lock is a taken SUP-SET with lock argument 1. -/
theorem SupervisionStep.sets_lock {c : Instr} {s t : State} (h : SupervisionStep s t c) (hunlocked : s.sv.lock = false)
    (hlock : t.sv.lock = true) : c = .supSet ∧ s.rw.args.w3 = 1 ∧ t.rw.result = .ok := by
  cases h with
  | kept hsv => simp [hsv, hunlocked] at hlock
  | moved _ hmoved =>
    obtain ⟨state, remaining, wrongTokens, hsv⟩ := hmoved
    simp [hsv, hunlocked] at hlock
  | served _ _ hsv => simp [hsv, hunlocked] at hlock
  | configured _ _ hok hsv => exact ⟨rfl, by simpa [hsv] using hlock, hok⟩
  | restarted hsv => simp [hsv, hunlocked] at hlock
  | reset _ hsv => simp [hsv, Supervision.reset] at hlock

/-- A SUP-SET that is taken leaves the lock as its argument says. -/
theorem supSet_lock_iff {s t : State} (hrun : s.inReset = false) (h : exec .supSet s = .next t)
    (hok : t.rw.result = .ok) : t.sv.lock = true ↔ s.rw.args.w3 = 1 := by
  obtain ⟨hreset, -⟩ | ⟨-, rfl⟩ := takeCommand_next h
  · simp [hrun] at hreset
  · obtain ⟨refusal, hrefusal, hrefused⟩ | ⟨-, mode, -, htaken⟩ := supSetAnswer_cases s
    · rw [hrefused] at hok
      exact absurd hok hrefusal
    · rw [htaken]
      simp [okWith, configureSupervision]

theorem supSetAnswer_locked {s : State} (h : s.sv.lock = true) : supSetAnswer s = plain .locked s := if_pos h

/-- TICKDIV is refused while the lock is set (R64, R165). -/
theorem exec_tickdivWrite_locked {s : State} (hrun : s.inReset = false) (hlock : s.sv.lock = true) (value : Word) :
    exec (.tickdivWrite value) s = .next (latchCfg s) := by
  change whenRunning _ s = _
  rw [whenRunning_running hrun]
  simp [configWrite, hlock]

/-- A configuration write of the other registers leaves the tick divisor. -/
theorem configWrite_tickDiv {taken : Bool} {f : State → State} {s : State} (hf : (f s).cfg.tickDiv = s.cfg.tickDiv) :
    (configWrite taken f s).cfg.tickDiv = s.cfg.tickDiv := by
  unfold configWrite
  split
  · exact hf
  · rfl

theorem whenRunning_tickDiv {f : State → State} {s t : State} (h : whenRunning f s = .next t)
    (hf : (f s).cfg.tickDiv = s.cfg.tickDiv) : t.cfg.tickDiv = s.cfg.tickDiv := by
  obtain ⟨-, rfl⟩ | ⟨-, rfl⟩ := whenRunning_next h
  · rfl
  · exact hf

/-- While the lock is set the two resets alone change the tick divisor. -/
theorem exec_tickDiv_locked {c : Instr} {s t : State} (hlock : s.sv.lock = true) (hpower : c ≠ .powerOn)
    (hpin : c ≠ .pinReset) (h : exec c s = .next t) : t.cfg.tickDiv = s.cfg.tickDiv := by
  cases hc : setsConfiguration c with
  | false => rw [exec_cfg hc h]
  | true =>
    cases c with
    | powerOn => exact absurd rfl hpower
    | pinReset => exact absurd rfl hpin
    | rateWrite _ | timingWrite _ | limitsWrite _ => exact whenRunning_tickDiv h (configWrite_tickDiv rfl)
    | pauseWrite _ =>
      unfold exec execPauseWrite at h
      exact whenRunning_tickDiv h rfl
    | tickdivWrite value =>
      refine whenRunning_tickDiv h ?_
      simp [configWrite, hlock]
    | _ => cases hc

/-! ### The scheduler does not look at the Supervision Timer -/

/-- A state with another Supervision Timer. -/
def withSupervision (v : Supervision) (s : State) : State := { s with sv := v }

@[simp] theorem withSupervision_st (v : Supervision) (s : State) : (withSupervision v s).st = s.st := rfl

/-- An operation that the Supervision Timer takes no part in. -/
def BlindToSupervision (f : State → State) : Prop :=
  ∀ v s, withSupervision v (f s) = f (withSupervision v s)

theorem blind_handStage (t : Turn) : BlindToSupervision (handStage t) := by
  intro v s
  have hentry : writeStageEntry (withSupervision v s) t.address = writeStageEntry s t.address := rfl
  unfold handStage
  split
  · rfl
  · rw [hentry]
    split <;> rfl
  · rfl

theorem blind_decideTurn (t : Turn) : BlindToSupervision (decideTurn t) := by
  intro v s
  unfold decideTurn
  rw [apply_ite (withSupervision v), blind_handStage t v]
  rfl

theorem blind_beginTurn (r : StationRecord) (k : TurnKind) : BlindToSupervision (beginTurn r k) :=
  fun v _ => blind_decideTurn (newTurn r k) v _

theorem blind_walkFrom {tail : State → State} (htail : BlindToSupervision tail) (l : List Address) :
    BlindToSupervision (walkFrom tail l) := by
  intro v s
  induction l generalizing s with
  | nil => exact htail v _
  | cons a rest ih =>
    simp only [walkFrom, withSupervision_st]
    cases s.st.find a with
    | none => exact ih _
    | some r =>
      cases hstate : r.state with
      | parked =>
        simp only [hstate]
        exact ih _
      | lost | new | online | suspect =>
        simp only [hstate, apply_ite (withSupervision v), blind_beginTurn _ _ v _, ih]
        rfl

theorem blind_openingMessage {tail : State → State} (htail : BlindToSupervision tail) :
    BlindToSupervision (openingMessage tail) := by
  intro v s
  have hentry : (if (withSupervision v s).lc.holdInForce then none else oldestBroadcast (withSupervision v s)) =
      if s.lc.holdInForce then none else oldestBroadcast s := rfl
  unfold openingMessage
  rw [hentry]
  split
  · rw [apply_ite (withSupervision v)]
    rfl
  · exact blind_walkFrom htail _ v _

theorem blind_passTailUnhanded : BlindToSupervision passTailUnhanded := by
  intro v s
  unfold passTailUnhanded
  rw [apply_ite (withSupervision v)]
  rfl

theorem blind_startCycle : BlindToSupervision startCycle := by
  intro v s
  simp only [startCycle, apply_ite (withSupervision v), blind_openingMessage blind_passTailUnhanded v]
  rfl

theorem blind_tickPause : BlindToSupervision tickPause := by
  intro v s
  unfold tickPause
  rw [apply_ite (withSupervision v), blind_startCycle v]
  rfl

/-! ### The timer with the lock set or clear -/

/-- A state with the supervision lock as given. -/
def withLock (b : Bool) (s : State) : State := { s with sv := { s.sv with lock := b } }

section
variable (b : Bool) (s : State)
@[simp] theorem withLock_mode : (withLock b s).sv.mode = s.sv.mode := rfl
@[simp] theorem withLock_state : (withLock b s).sv.state = s.sv.state := rfl
end

theorem secondStage_withLock (b : Bool) (s : State) : withLock b (secondStage s) = secondStage (withLock b s) := by
  simp only [secondStage, withLock_mode]
  split <;> rfl

theorem firstStage_withLock (b : Bool) (s : State) : withLock b (firstStage s) = firstStage (withLock b s) := by
  simp only [firstStage, apply_ite (withLock b), secondStage_withLock]
  rfl

theorem stageExpires_withLock (b : Bool) (s : State) : withLock b (stageExpires s) = stageExpires (withLock b s) := by
  simp only [stageExpires, withLock_state]
  split
  · exact firstStage_withLock b s
  · exact secondStage_withLock b s
  · rfl
  · rfl

theorem tickSupervision_withLock (b : Bool) (s : State) :
    withLock b (tickSupervision s) = tickSupervision (withLock b s) := by
  simp only [tickSupervision, apply_ite (withLock b), stageExpires_withLock]
  rfl

theorem tickPause_withLock (b : Bool) (s : State) : withLock b (tickPause s) = tickPause (withLock b s) := by
  have hsv : (tickPause s).sv = s.sv := apart_sv (apart_tickPause s)
  unfold withLock
  rw [hsv]
  exact blind_tickPause _ s

theorem wrongService_withLock (b : Bool) (s : State) : withLock b (wrongService s) = wrongService (withLock b s) := by
  simp only [wrongService, apply_ite (withLock b), firstStage_withLock]
  rfl

theorem restart_withLock (b : Bool) (v : Supervision) :
    { v.restart with lock := b } = ({ v with lock := b } : Supervision).restart := by
  unfold Supervision.restart
  split <;> rfl

theorem clearedState_withLock (b : Bool) (s : State) : withLock b (clearedState s) = clearedState (withLock b s) :=
  congrArg (fun v => { clearedState s with sv := v }) (restart_withLock b s.sv)

/-- SERVICE answers the same with the lock set or clear. -/
theorem serviceAnswer_withLock (b : Bool) (s : State) :
    { serviceAnswer s with state := withLock b (serviceAnswer s).state } = serviceAnswer (withLock b s) := by
  by_cases hstate : s.sv.state = .idle
  · rw [serviceAnswer_idle hstate]
    exact (serviceAnswer_idle (s := withLock b s) hstate).symm
  · by_cases htoken : s.rw.args.w0 = s.sv.token
    · rw [serviceAnswer_rightToken hstate htoken]
      exact (serviceAnswer_rightToken (s := withLock b s) hstate htoken).symm
    · rw [serviceAnswer_wrongToken hstate htoken, serviceAnswer_wrongToken (s := withLock b s) hstate htoken,
        ← wrongService_withLock]
      rfl

theorem takeCommand_withLock {code : Byte} {body : State → Answer} {s t : State} (b : Bool)
    (hbody : { body s with state := withLock b (body s).state } = body (withLock b s))
    (h : takeCommand code body s = .next t) : takeCommand code body (withLock b s) = .next (withLock b t) := by
  obtain ⟨hreset, rfl⟩ | ⟨hrun, rfl⟩ := takeCommand_next h
  · exact takeCommand_inReset hreset
  · have hanswer := takeCommand_running (code := code) (body := body) (s := withLock b s) hrun
    rwa [← hbody] at hanswer

theorem whenRunning_withLock {f : State → State} {s t : State} (b : Bool) (hf : withLock b (f s) = f (withLock b s))
    (h : whenRunning f s = .next t) : whenRunning f (withLock b s) = .next (withLock b t) := by
  obtain ⟨hreset, rfl⟩ | ⟨hrun, rfl⟩ := whenRunning_next h
  · exact whenRunning_inReset hreset
  · rw [hf]
    exact whenRunning_running hrun

/-- Ticks, expiries, SERVICE and CLEAR act with the lock set as with it clear, and leave it (R165). -/
theorem exec_withLock {c : Instr} {s t : State} (b : Bool)
    (hc : c = .tick ∨ c = .watchExpiry ∨ c = .graceExpiry ∨ c = .service ∨ c = .clear) (h : exec c s = .next t) :
    exec c (withLock b s) = .next (withLock b t) := by
  obtain rfl | rfl | rfl | rfl | rfl := hc
  · unfold exec execTick at h ⊢
    refine whenRunning_withLock b ?_ h
    rw [tickSupervision_withLock, tickPause_withLock]
  · unfold exec execWatchExpiry at h ⊢
    refine whenRunning_withLock b ?_ h
    rw [apply_ite (withLock b), firstStage_withLock]
    rfl
  · unfold exec execGraceExpiry at h ⊢
    refine whenRunning_withLock b ?_ h
    rw [apply_ite (withLock b), secondStage_withLock]
    rfl
  · exact takeCommand_withLock b (serviceAnswer_withLock b s) h
  · unfold exec execClear at h ⊢
    refine takeCommand_withLock b ?_ h
    exact congrArg (plain .ok) (clearedState_withLock b s)

/-- Settles O33: a step from a locked timer is a kept, moved, served or restarted one, none of which touches the
configuration; and what acts on a locked timer does not look at the lock. -/
theorem lockFollowsR165 : Obligations.LockFollowsR165 := by
  refine ⟨fun c s t h => ⟨fun hlock hpower hpin => ?kept, (exec_supervisionStep h).sets_lock, ?taken, ?cleared⟩,
    fun s hrun hlock => ⟨?locked, exec_tickdivWrite_locked hrun hlock⟩, fun c s t b hc h => exec_withLock b hc h⟩
  case kept =>
    obtain ⟨hlock', hmode, hperiod, hgrace, hidle⟩ := (exec_supervisionStep h).of_locked hlock hpower hpin
    exact ⟨hlock', hmode, hperiod, hgrace, exec_tickDiv_locked hlock hpower hpin h, hidle⟩
  case taken =>
    rintro hrun rfl hok
    exact supSet_lock_iff hrun h hok
  case cleared =>
    rintro (rfl | rfl)
    · cases h; rfl
    · cases h; rfl
  case locked => exact takeCommand_plain hrun (supSetAnswer_locked hlock)

end Sys2Proof.Machine

/-! SUPPORT. The data port and the window after a reset (R172, R174, R183): what a read and a write of WDATA answer by the
selection in force and the pointer, and what the registers of the window show once a reset has ended. -/

namespace Sys2Proof.Machine

/-! ### The data pointer and the staging buffer (R172, R173) -/

/-- The pointer holds at 32 (R172). -/
theorem nextPointer_of_le {p : Nat} (hp : p ≤ 32) : nextPointer p = if p = 32 then 32 else p + 1 := by
  simp only [nextPointer, Config.maxPointer]
  split <;> omega

/-- Two bytes placed side by side are their concatenation. -/
theorem field_or_field_eq_append (low high : Byte) : field low 0 ||| field high 8 = (high ++ low : BitVec 16) := by
  ext i hi
  rw [BitVec.getElem_append (n := 8)]
  by_cases hlow : i < 8
  · simp [field, hlow]
  · have hout : low.getLsbD i = false := BitVec.getLsbD_of_ge low i (Nat.not_lt.1 hlow)
    have hin : high.getLsbD (i - 8) = high[i - 8] := BitVec.getLsbD_eq_getElem (by omega)
    simp [field, hlow, hout, hin]

section
variable (staging : Vector Byte 32) {p : Nat}

/-- Word p of the buffer is its bytes 2p and 2p + 1, the second above the first (R172). -/
theorem exists_bytes_stagingWord (hp : p < 16) :
    ∃ low high, staging[2 * p]? = some low ∧ staging[2 * p + 1]? = some high ∧
      stagingWord staging p = (high ++ low : BitVec 16) := by
  have hlow : staging[2 * p]? = some staging[2 * p] := Vector.getElem?_eq_getElem _
  have hhigh : staging[2 * p + 1]? = some staging[2 * p + 1] := Vector.getElem?_eq_getElem _
  refine ⟨_, _, hlow, hhigh, ?_⟩
  rw [stagingWord, hlow, hhigh]
  exact field_or_field_eq_append _ _

variable (value : Word)

theorem storeStaging_getElem?_low (hp : p < 16) : (storeStaging staging p value)[2 * p]? = some (value.setWidth 8) := by
  rw [storeStaging, Vector.getElem?_setIfInBounds_ne (by omega), Vector.getElem?_setIfInBounds_self_of_lt (by omega)]

theorem storeStaging_getElem?_high (hp : p < 16) :
    (storeStaging staging p value)[2 * p + 1]? = some (value.extractLsb' 8 8) := by
  rw [storeStaging, Vector.getElem?_setIfInBounds_self_of_lt (by omega)]

/-- A store into word p leaves the bytes of every other word. -/
theorem storeStaging_getElem?_ne {i : Nat} (hlow : i ≠ 2 * p) (hhigh : i ≠ 2 * p + 1) :
    (storeStaging staging p value)[i]? = staging[i]? := by
  rw [storeStaging, Vector.getElem?_setIfInBounds_ne hhigh.symm, Vector.getElem?_setIfInBounds_ne hlow.symm]

end

/-! ### The word at the pointer -/

theorem dataWord_stage_below {w : Window} (hselection : w.selection = .stage) (hp : w.pointer < 16) :
    dataWord w = stagingWord w.staging w.pointer := by
  simp only [dataWord, hselection]
  exact if_pos hp

theorem dataWord_stage_above {w : Window} (hselection : w.selection = .stage) (hp : 16 ≤ w.pointer) :
    dataWord w = 0 := by
  simp only [dataWord, hselection]
  exact if_neg (Nat.not_lt.2 hp)

/-- Under a selection with a copy, a pointer not below the copy's length shows 0. -/
theorem dataWord_copy {w : Window} (hstage : w.selection ≠ .stage) (hnothing : w.selection ≠ .nothing) :
    dataWord w = (w.snapshot[w.pointer]?).getD 0 := by
  rw [← List.getD_eq_getElem?_getD]
  unfold dataWord
  split
  · next h => exact absurd h hnothing
  · next h => exact absurd h hstage
  all_goals rfl

theorem readWord_wdata {s : State} (hrun : s.inReset = false) : readWord s 0x0F = dataWord s.rw := by
  simp [readWord, hrun]

/-! ### Accesses of WDATA -/

/-- The staging buffer a write of WDATA leaves (R172). -/
def stagingAfterWrite (w : Window) (value : Word) : Vector Byte 32 :=
  if w.selection = .stage ∧ w.pointer < Config.stagingWords then storeStaging w.staging w.pointer value else w.staging

theorem stagingAfterWrite_stage_below {w : Window} (value : Word) (hselection : w.selection = .stage)
    (hp : w.pointer < 16) : stagingAfterWrite w value = storeStaging w.staging w.pointer value :=
  if_pos ⟨hselection, hp⟩

theorem stagingAfterWrite_otherwise {w : Window} (value : Word) (h : w.selection ≠ .stage ∨ 16 ≤ w.pointer) :
    stagingAfterWrite w value = w.staging :=
  if_neg fun ⟨hselection, hp⟩ => h.elim (· hselection) (Nat.not_le.2 hp)

theorem exec_wdataRead {s : State} (hrun : s.inReset = false) (hp : s.rw.pointer ≤ 32) :
    exec .wdataRead s = .next { s with rw := { s.rw with
      readData := dataWord s.rw, pointer := if s.rw.pointer = 32 then 32 else s.rw.pointer + 1 } } := by
  rw [← nextPointer_of_le hp, ← readWord_wdata hrun]
  simp [exec, execWdataRead, hrun]

theorem exec_wdataWrite {s : State} (value : Word) (hrun : s.inReset = false) (hp : s.rw.pointer ≤ 32) :
    exec (.wdataWrite value) s = .next { s with rw := { s.rw with
      staging := stagingAfterWrite s.rw value,
      pointer := if s.rw.pointer = 32 then 32 else s.rw.pointer + 1 } } := by
  rw [← nextPointer_of_le hp]
  exact whenRunning_running hrun

/-- Settles O39: a read answers the word at the pointer and a write leaves `stagingAfterWrite`, each by the selection in
force and the pointer. -/
theorem wdataFollowsR172 : Obligations.WdataFollowsR172 := by
  intro s value hrun hp
  refine ⟨⟨_, exec_wdataRead hrun hp, (readWord_wdata hrun).symm, fun hstage hbelow => ?readStaging,
    dataWord_stage_above, dataWord_copy⟩,
    ⟨_, exec_wdataWrite value hrun hp, fun hstage hbelow => ?stored, stagingAfterWrite_otherwise value⟩⟩
  case readStaging =>
    rw [dataWord_stage_below hstage hbelow]
    exact exists_bytes_stagingWord s.rw.staging hbelow
  case stored =>
    rw [stagingAfterWrite_stage_below value hstage hbelow]
    exact ⟨storeStaging_getElem?_low _ value hbelow, storeStaging_getElem?_high _ value hbelow,
      fun i => storeStaging_getElem?_ne _ value⟩

/-! ### The window once a reset has ended (R174, R182, R183) -/

/-- The state at the end of power-on or pin reset: every block at its reset value, the commands still waiting. -/
def resetReleased (causes : ResetCauses) (pending : List Instr) : State :=
  { State.afterReset causes with pending }

theorem exec_resetEnd_heldInReset (causes : ResetCauses) (s : State) :
    exec .resetEnd (heldInReset causes s) = .next (resetReleased causes s.pending) := rfl

/-- Both resets hold every block in its reset state, with the reset-cause record of R181. -/
theorem exists_exec_reset_heldInReset {c : Instr} (hc : c = .powerOn ∨ c = .pinReset) (s : State) :
    ∃ causes, exec c s = .next (heldInReset causes s) := by
  obtain rfl | rfl := hc
  · exact ⟨_, rfl⟩
  · exact ⟨_, rfl⟩

theorem staging_resetReleased (causes : ResetCauses) (pending : List Instr) {i : Nat} (hi : i < 32) :
    (resetReleased causes pending).rw.staging[i]? = some 0 := by
  rw [Vector.getElem?_eq_getElem hi]
  exact congrArg some (Vector.getElem_replicate hi)

/-- RSTCAUSE alone shows the reset-cause record, and no register shows the waiting commands. -/
theorem readWord_withResetCauses (s : State) (causes : ResetCauses) (pending : List Instr) {offset : BitVec 5}
    (hoffset : offset ≠ 0x19) :
    readWord { s with rw := { s.rw with resetCauses := causes }, pending } offset = readWord s offset := by
  have hnotRstcause : offset.toNat ≠ 0x19 := fun h => hoffset (BitVec.eq_of_toNat_eq h)
  unfold readWord
  split
  · rfl
  · split
    case h_26 hrstcause => exact absurd hrstcause hnotRstcause
    all_goals rfl

/-- CAUSE, ENABLE, CMD, ARG0 to ARG3, RESULT and RES0 to RES3 read 0 after a reset (R183). -/
theorem readWord_reset_eq_zero : ∀ offset ∈ ([0x02, 0x03, 0x04, 0x05, 0x06, 0x07, 0x08, 0x09, 0x0A, 0x0B, 0x0C, 0x0D] :
    List (BitVec 5)), offset ≠ 0x19 ∧ readWord State.reset offset = 0 := by
  decide

/-- Settles O5: both resets end in `resetReleased`, whose window is at its reset values and shows what the reset state
shows, and CLEAR leaves the window cleared under its answer. -/
theorem windowResetValues : Obligations.WindowResetValues := by
  intro s
  refine ⟨fun c hc => ?resets, fun hrun => ?clear⟩
  case resets =>
    obtain ⟨causes, hheld⟩ := exists_exec_reset_heldInReset hc s
    refine ⟨_, _, hheld, exec_resetEnd_heldInReset causes s, fun i => staging_resetReleased causes s.pending,
      rfl, rfl, rfl, rfl, rfl, fun offset hmem => ?_⟩
    obtain ⟨hoffset, hzero⟩ := readWord_reset_eq_zero offset hmem
    exact (readWord_withResetCauses State.reset causes s.pending hoffset).trans hzero
  case clear =>
    have hclear : exec .clear s = .next (answered 0x3F .ok .zero (clearedState s)) := 
      takeCommand_plain (body := fun s => plain .ok (clearedState s)) hrun rfl
    exact ⟨_, hclear, rfl, rfl, rfl, rfl⟩

end Sys2Proof.Machine

/-! SUPPORT. What a step can do, said once: the act of a row on the state, with the guards under which it is done, and the
answer of a command put in the window after it. Every law that a step keeps is read off these acts. -/

namespace Sys2Proof.Machine

/-- The rows of the field line and of the pause timer, in which `KeptByLine` says what is kept. -/
def LineRow (c : Instr) : Prop :=
  c = .pauseExpiry ∨ (∃ cause, c = .settleEnd cause) ∨ (∃ delivery, c = .characterDelivered delivery) ∨
    c = .echoMissing ∨ c = .faultedAttemptEnd ∨ c = .replyTimeout ∨ c = .gapTimeout ∨ c = .quietEnd ∨
    c = .startBitFound ∨ c = .falseStart ∨ c = .lineReturnsTo1 ∨ c = .endOfLastStopBit

/-- What the rows of the line, of time, of LINE-START, LINE-STOP, SERVICE and SUP-SET do to the state `s`, apart from the
answer of a command. -/
inductive CourseAct (s : State) : Instr → State → Prop
  | lineStarted : s.lc.mode = .off → CourseAct s .lineStart (startLine s)
  | lineResumed : s.lc.mode = .stopping → CourseAct s .lineStart { s with lc := { s.lc with mode := .run } }
  | lineStopping : s.lc.mode = .run → s.ee.exchange ≠ none →
      CourseAct s .lineStop { s with lc := { s.lc with mode := .stopping } }
  | lineStopped : s.lc.mode = .run → s.ee.exchange = none → CourseAct s .lineStop (abandonCycle (lineOff .host s))
  | supervisionSet {mode : SupervisionMode} {period : Word} {grace : Byte} {lock : Bool} : period ≠ 0 →
      CourseAct s .supSet (configureSupervision mode period grace lock s)
  | served : s.sv.state ≠ .idle → CourseAct s .service (correctService s)
  | servedWrongly : s.sv.state ≠ .idle → CourseAct s .service (wrongService s)
  | ticked : CourseAct s .tick (tickSupervision (tickPause s))
  | watchEnded : s.sv.state = .watch → CourseAct s .watchExpiry (firstStage s)
  | graceEnded : s.sv.state = .grace → CourseAct s .graceExpiry (secondStage s)
  | lineMoved {c : Instr} {t : State} : LineRow c → exec c s = .next t → CourseAct s c t

/-- What a row does to the state `s`, apart from the answer of a command. -/
inductive Act (s : State) : Instr → State → Prop
  /-- A refusal, an event that is not due, or anything while a reset lasts. -/
  | nothing {c : Instr} : Act s c s
  | enrolled {a : Address} {skip : BitVec 4} {ceiling : BitVec 2} : 1 ≤ a.toNat → a.toNat ≤ 126 →
      s.st.find a = none → s.st.records.length < 32 → Act s .enrol (enrolStation a skip ceiling s)
  | leaveSet {c : Instr} {a : Address} {l : Leave} {r : StationRecord} : c = .remove ∨ c = .park →
      s.st.find a = some r → inTurn s a = true → Act s c (setLeave a l s)
  | removed {a : Address} {r : StationRecord} : s.st.find a = some r → inTurn s a = false →
      Act s .remove (removeStation a s)
  | parked {a : Address} {r : StationRecord} : s.st.find a = some r → inTurn s a = false →
      Act s .park (parkStation a s)
  | unparked {a : Address} {r : StationRecord} : s.st.find a = some r → r.state = .parked →
      Act s .unpark (unparkStation a s)
  /-- ZERO and SYNC of one station. -/
  | recordMarked {c : Instr} {a : Address} {f : StationRecord → StationRecord} : c = .zero ∨ c = .sync →
      KeepsStanding f → Act s c (updateStation a f s)
  | allSynced : Act s .sync (syncAll s)
  | lineZeroed : Act s .zero (zeroLine s)
  | submitted {d : Address} {tag : Byte} {length : Nat} : length ≤ 32 → (∀ e ∈ s.oq, e.tag ≠ tag) →
      s.oq.length < 16 → sharedSum s < 24 → Act s .submit (appendEntry d tag length s)
  | purged {p : OutboundEntry → Bool} : (∀ e, p e = true → e.status = .queued) →
      Act s .purge (completeWhere p .purged s)
  | returnTaken {r : ReturnRecord} {rest : List ReturnRecord} : s.rq = r :: rest →
      Act s .takeReturn { s with rq := rest, latch := some r }
  | attnTaken {e : AttentionEntry} : presented s.au = some e → Act s .takeAttn (pushPresented e s)
  | serviceEnded {e : AttentionEntry} {rest : List AttentionEntry} : s.au.stack = e :: rest →
      Act s .endService { s with au := { s.au with stack := rest } }
  | dismissed {a : Address} : Act s .dismiss (dismissSource a s)
  /-- The writes of AMASK and STATUS. -/
  | unitWritten {c : Instr} {mask : BitVec 3} {overrun : Bool} :
      (∃ value, c = .amaskWrite value) ∨ (∃ value, c = .statusWrite value) →
      Act s c { s with au := { s.au with mask := mask, overrun := overrun } }
  | holdEntered : Act s .holdEnter { s with lc := s.lc.hostHold }
  | holdLeft : s.lc.holdInForce = true → s.lc.causeSupervision = false →
      Act s .holdLeave { s with lc := s.lc.release }
  | cleared : Act s .clear (clearedState s)
  /-- The writes of RATE, TIMING, TICKDIV and PAUSE. -/
  | settingsWritten {c : Instr} {cfg : Settings} {receiver : Receiver} :
      (∃ value, c = .rateWrite value) ∨ (∃ value, c = .timingWrite value) ∨ (∃ value, c = .tickdivWrite value) ∨
        (∃ value, c = .pauseWrite value) →
      cfg.missLimit = s.cfg.missLimit → Act s c { s with cfg := cfg, ee := { s.ee with receiver := receiver } }
  | limitsWritten {value : Word} : s.lc.mode = .off → value.extractLsb' 4 4 ≠ 0 →
      Act s (.limitsWrite value) (setLimits value s)
  /-- The accesses of the window's own registers, and a configuration write that is refused. -/
  | windowAccessed {c : Instr} {w : Window} :
      (w.latched.line = s.rw.latched.line ∨
        ∃ value, c = .causeWrite value ∧ value.getLsbD 2 = true ∧ w.latched.line = false) →
      (w.snapshot = s.rw.snapshot ∨ ∃ value, c = .wselWrite value) → Act s c { s with rw := w }
  | reset {c : Instr} {causes : ResetCauses} : c = .powerOn ∨ c = .pinReset → Act s c (heldInReset causes s)
  | resetEnded : Act s .resetEnd { s with inReset := false }
  | moved {c : Instr} {u : State} : CourseAct s c u → Act s c u

/-- What a row leaves at `t`: the state after its act, with the answer of a command in the window. -/
def Leaves (u t : State) : Prop := t = u ∨ ∃ code result words, t = answered code result words u

/-! ### The acts of the commands -/

theorem enrolAnswer_act (s : State) : Act s .enrol (enrolAnswer s).state := by
  unfold enrolAnswer
  split
  · exact .nothing
  · rename_i a haddr
    obtain ⟨-, hlow, hhigh⟩ := stationAddress_eq_some.mp haddr
    split
    · exact .nothing
    · split
      · split <;> exact .nothing
      · rename_i hfind
        split
        · exact .nothing
        · rename_i hroom
          exact .enrolled hlow hhigh hfind (Nat.lt_of_not_le hroom)

theorem removeAnswer_act (s : State) : Act s .remove (removeAnswer s).state := by
  unfold removeAnswer
  split
  · exact .nothing
  · split
    · exact .nothing
    · rename_i hfind
      split
      · exact .nothing
      · split
        · rename_i hturn
          exact .leaveSet (.inl rfl) hfind hturn
        · rename_i hturn
          exact .removed hfind (Bool.eq_false_iff.mpr hturn)

theorem parkAnswer_act (s : State) : Act s .park (parkAnswer s).state := by
  unfold parkAnswer
  split
  · exact .nothing
  · split
    · exact .nothing
    · rename_i hfind
      split
      · exact .nothing
      · split
        · exact .nothing
        · split
          · rename_i hturn
            exact .leaveSet (.inr rfl) hfind hturn
          · rename_i hturn
            exact .parked hfind (Bool.eq_false_iff.mpr hturn)

theorem unparkAnswer_act (s : State) : Act s .unpark (unparkAnswer s).state := by
  unfold unparkAnswer
  split
  · exact .nothing
  · split
    · exact .nothing
    · rename_i hfind
      split
      · exact .nothing
      · rename_i hparked
        exact .unparked hfind (not_not.mp hparked)

theorem zeroAnswer_act (s : State) : Act s .zero (zeroAnswer s).state := by
  unfold zeroAnswer
  split
  · exact .lineZeroed
  · split
    · exact .nothing
    · split
      · exact .nothing
      · exact .recordMarked (.inl rfl) (fun _ => ⟨rfl, rfl, rfl, rfl⟩)

theorem syncAnswer_act (s : State) : Act s .sync (syncAnswer s).state := by
  unfold syncAnswer
  split
  · exact .allSynced
  · split
    · exact .nothing
    · split
      · exact .nothing
      · exact .recordMarked (.inr rfl) (fun _ => ⟨rfl, rfl, rfl, rfl⟩)

theorem submitAnswer_act (s : State) : Act s .submit (submitAnswer s).state := by
  unfold submitAnswer
  split
  · exact .nothing
  · split
    · exact .nothing
    · rename_i hargs
      split
      · exact .nothing
      · split
        · exact .nothing
        · rename_i htag
          split
          · exact .nothing
          · rename_i hroom
            have hfree : s.oq.length < 16 ∧ sharedSum s < 24 := by
              simpa only [Config.maxOutbound, Config.sharedLimit, not_or, Nat.not_le] using hroom
            have hnew : ∀ e ∈ s.oq, e.tag ≠ s.rw.args.w1.setWidth 8 := by simpa using htag
            exact .submitted (by omega) hnew hfree.1 hfree.2

theorem purgeAnswer_act (s : State) : Act s .purge (purgeAnswer s).state := by
  unfold purgeAnswer
  split
  · exact .nothing
  · refine .purged (fun e he => ?_)
    simpa using (Bool.and_eq_true_iff.mp he).2

theorem takeReturnAnswer_act (s : State) : Act s .takeReturn (takeReturnAnswer s).state := by
  unfold takeReturnAnswer
  split
  · exact .nothing
  · rename_i hrq
    exact .returnTaken hrq

theorem takeAttnAnswer_act (s : State) : Act s .takeAttn (takeAttnAnswer s).state := by
  unfold takeAttnAnswer
  split
  · exact .nothing
  · rename_i hpresented
    exact .attnTaken hpresented

theorem endServiceAnswer_act (s : State) : Act s .endService (endServiceAnswer s).state := by
  unfold endServiceAnswer
  split
  · exact .nothing
  · rename_i hstack
    exact .serviceEnded hstack

theorem dismissAnswer_act (s : State) : Act s .dismiss (dismissAnswer s).state := by
  unfold dismissAnswer
  split
  · exact .nothing
  · exact .dismissed

theorem lineStartAnswer_act (s : State) : Act s .lineStart (lineStartAnswer s).state := by
  unfold lineStartAnswer
  split
  · rename_i hmode
    exact .moved (.lineStarted hmode)
  · rename_i hmode
    exact .moved (.lineResumed hmode)
  · exact .nothing

theorem lineStopAnswer_act (s : State) : Act s .lineStop (lineStopAnswer s).state := by
  unfold lineStopAnswer
  split
  · rename_i hmode
    split
    · rename_i hexchange
      exact .moved (.lineStopping hmode (Option.isSome_iff_ne_none.mp hexchange))
    · rename_i hexchange
      exact .moved (.lineStopped hmode (by simpa using hexchange))
  · exact .nothing
  · exact .nothing

theorem holdLeaveAnswer_act (s : State) : Act s .holdLeave (holdLeaveAnswer s).state := by
  unfold holdLeaveAnswer
  split
  · exact .nothing
  · rename_i hrefused
    obtain ⟨hhold, hcause⟩ := not_or.mp hrefused
    exact .holdLeft (by simpa using hhold) (Bool.eq_false_iff.mpr hcause)

theorem supSetAnswer_act (s : State) : Act s .supSet (supSetAnswer s).state := by
  unfold supSetAnswer
  split
  · exact .nothing
  · split
    · exact .nothing
    · split
      · exact .nothing
      · rename_i hargs
        exact .moved (.supervisionSet (not_or.mp hargs).1)

theorem serviceAnswer_act (s : State) : Act s .service (serviceAnswer s).state := by
  unfold serviceAnswer
  split
  · exact .nothing
  · rename_i hidle
    split
    · exact .moved (.served hidle)
    · exact .moved (.servedWrongly hidle)

/-! ### The act of every row -/

/-- A command leaves its act with its answer in the window, or nothing while a reset lasts. -/
theorem takeCommand_act {c : Instr} {code : Byte} {body : State → Answer} {s t : State}
    (h : takeCommand code body s = .next t) (hbody : Act s c (body s).state) : ∃ u, Act s c u ∧ Leaves u t := by
  obtain ⟨-, rfl⟩ | ⟨-, rfl⟩ := takeCommand_next h
  · exact ⟨_, .nothing, .inl rfl⟩
  · exact ⟨_, hbody, .inr ⟨_, _, _, rfl⟩⟩

/-- An access or event leaves its act, or nothing while a reset lasts. -/
theorem whenRunning_act {c : Instr} {f : State → State} {s t : State} (h : whenRunning f s = .next t)
    (hf : Act s c (f s)) : ∃ u, Act s c u ∧ Leaves u t := by
  obtain ⟨-, rfl⟩ | ⟨-, rfl⟩ := whenRunning_next h
  · exact ⟨_, .nothing, .inl rfl⟩
  · exact ⟨_, hf, .inl rfl⟩

/-- A configuration write that is refused latches CFG and leaves the rest of the window (R180). -/
theorem configWrite_act {c : Instr} {taken : Bool} {f : State → State} {s : State}
    (hf : taken = true → Act s c (f s)) : Act s c (configWrite taken f s) := by
  unfold configWrite
  split
  · rename_i htaken
    exact hf htaken
  · exact .windowAccessed (.inl rfl) (.inl rfl)

/-- A write of CAUSE touches the LINE cause by bit 2 alone (R177). -/
theorem clearCauses_line (value : Word) (l : LatchedCauses) : (clearCauses value l).line = l.line ∨
    value.getLsbD 2 = true ∧ (clearCauses value l).line = false := by
  cases hbit : value.getLsbD 2 with
  | true => exact .inr ⟨rfl, by rw [clearCauses, hbit, Bool.not_true, Bool.and_false]⟩
  | false => exact .inl (by rw [clearCauses, hbit, Bool.not_false, Bool.and_true])

/-- Whatever a row does is one of the acts, done under its guard. -/
theorem exec_act {c : Instr} {s t : State} (h : exec c s = .next t) : ∃ u, Act s c u ∧ Leaves u t := by
  have line (hc : LineRow c) : ∃ u, Act s c u ∧ Leaves u t := ⟨t, .moved (.lineMoved hc h), .inl rfl⟩
  cases c with
  | enrol => exact takeCommand_act h (enrolAnswer_act s)
  | remove => exact takeCommand_act h (removeAnswer_act s)
  | park => exact takeCommand_act h (parkAnswer_act s)
  | unpark => exact takeCommand_act h (unparkAnswer_act s)
  | zero => exact takeCommand_act h (zeroAnswer_act s)
  | sync => exact takeCommand_act h (syncAnswer_act s)
  | submit => exact takeCommand_act h (submitAnswer_act s)
  | purge => exact takeCommand_act h (purgeAnswer_act s)
  | takeReturn => exact takeCommand_act h (takeReturnAnswer_act s)
  | takeAttn => exact takeCommand_act h (takeAttnAnswer_act s)
  | endService => exact takeCommand_act h (endServiceAnswer_act s)
  | dismiss => exact takeCommand_act h (dismissAnswer_act s)
  | lineStart => exact takeCommand_act h (lineStartAnswer_act s)
  | lineStop => exact takeCommand_act h (lineStopAnswer_act s)
  | holdEnter => exact takeCommand_act (body := holdEnterAnswer) h .holdEntered
  | holdLeave => exact takeCommand_act h (holdLeaveAnswer_act s)
  | supSet => exact takeCommand_act h (supSetAnswer_act s)
  | service => exact takeCommand_act h (serviceAnswer_act s)
  | clear => exact takeCommand_act (body := fun s => plain .ok (clearedState s)) h .cleared
  | badCmd value =>
    simp only [exec, execBadCmd] at h
    split at h
    · exact takeCommand_act (body := plain .badCmd) h .nothing
    · cases h
  | rateWrite value =>
    exact whenRunning_act h (configWrite_act (fun _ => .settingsWritten (.inl ⟨_, rfl⟩) rfl))
  | timingWrite value =>
    exact whenRunning_act h (configWrite_act (fun _ =>
      .settingsWritten (receiver := s.ee.receiver) (.inr (.inl ⟨_, rfl⟩)) rfl))
  | limitsWrite value =>
    refine whenRunning_act h (configWrite_act (fun htaken => ?_))
    obtain ⟨hoff, hlimit⟩ := Bool.and_eq_true_iff.mp htaken
    exact .limitsWritten (eq_of_beq hoff) (bne_iff_ne.mp hlimit)
  | tickdivWrite value =>
    exact whenRunning_act h (configWrite_act (fun _ =>
      .settingsWritten (receiver := s.ee.receiver) (.inr (.inr (.inl ⟨_, rfl⟩))) rfl))
  | pauseWrite value =>
    unfold exec execPauseWrite at h
    refine whenRunning_act h ?_
    exact .settingsWritten (receiver := s.ee.receiver) (.inr (.inr (.inr ⟨_, rfl⟩))) rfl
  | amaskWrite value =>
    unfold exec execAmaskWrite at h
    refine whenRunning_act h ?_
    exact .unitWritten (overrun := s.au.overrun) (.inl ⟨_, rfl⟩)
  | statusWrite value =>
    unfold exec execStatusWrite at h
    refine whenRunning_act h ?_
    exact .unitWritten (mask := s.au.mask) (.inr ⟨_, rfl⟩)
  | wselWrite value => exact whenRunning_act h (.windowAccessed (.inl rfl) (.inr ⟨_, rfl⟩))
  | wdataRead =>
    cases h
    refine ⟨_, ?_, .inl rfl⟩
    exact .windowAccessed (.inl rfl) (.inl rfl)
  | wdataWrite value => exact whenRunning_act h (.windowAccessed (.inl rfl) (.inl rfl))
  | causeWrite value =>
    unfold exec execCauseWrite at h
    refine whenRunning_act h ?_
    exact .windowAccessed ((clearCauses_line value _).imp_right (fun hbit => ⟨_, rfl, hbit⟩)) (.inl rfl)
  | enableWrite value =>
    unfold exec execEnableWrite at h
    refine whenRunning_act h ?_
    exact .windowAccessed (.inl rfl) (.inl rfl)
  | rstcauseWrite value =>
    unfold exec execRstcauseWrite at h
    refine whenRunning_act h ?_
    exact .windowAccessed (.inl rfl) (.inl rfl)
  | registerWrite offset value =>
    simp only [exec, execRegisterWrite] at h
    split at h
    · exact whenRunning_act h (.windowAccessed (.inl rfl) (.inl rfl))
    · cases h
  | powerOn =>
    cases h
    exact ⟨_, .reset (.inl rfl), .inl rfl⟩
  | pinReset =>
    cases h
    exact ⟨_, .reset (.inr rfl), .inl rfl⟩
  | resetEnd =>
    cases h
    exact ⟨_, .resetEnded, .inl rfl⟩
  | tick =>
    unfold exec execTick at h
    refine whenRunning_act h ?_
    exact .moved (.ticked)
  | watchExpiry =>
    refine whenRunning_act h ?_
    split
    · rename_i hdue
      exact .moved (.watchEnded hdue.1)
    · exact .nothing
  | graceExpiry =>
    refine whenRunning_act h ?_
    split
    · rename_i hdue
      exact .moved (.graceEnded hdue.1)
    · exact .nothing
  | pauseExpiry | settleEnd _ | characterDelivered _ | echoMissing | faultedAttemptEnd | replyTimeout | gapTimeout
  | quietEnd | startBitFound | falseStart | lineReturnsTo1 | endOfLastStopBit => exact line (by simp [LineRow])

end Sys2Proof.Machine

/-! SUPPORT. What the Supervision Timer's stages keep, and the laws of the queues, of the Attention Unit, of the hold and of
supervision, each kept by every act (R85, R105, R116, R128, R139, R155, R156). -/

namespace Sys2Proof.Machine

/-- The answer of a command touches the window alone, and there neither the latched causes nor the copy. -/
theorem Leaves.window {u t : State} (h : Leaves u t) :
    ∃ w : Window, w.latched = u.rw.latched ∧ w.snapshot = u.rw.snapshot ∧ t = { u with rw := w } := by
  obtain rfl | ⟨code, result, words, rfl⟩ := h
  · exact ⟨t.rw, rfl, rfl, rfl⟩
  · exact ⟨(answered code result words u).rw, rfl, rfl, rfl⟩

/-! ### A property kept by the line and by the stages of supervision -/

/-- A property that the moves of the Supervision Timer keep. -/
structure KeptByStages (P : State → Prop) : Prop where
  /-- A controller event (R121). -/
  event : ∀ s a l c, P s → P (controllerEvent a l c s)
  /-- Any change of the Supervision Timer. -/
  timer : ∀ s v, P s → P { s with sv := v }
  /-- SUPERVISION joins the hold causes (R148). -/
  supervisionHold : ∀ s, P s → P { s with lc := s.lc.supervisionHold }
  /-- SUPERVISION is withdrawn (R148). -/
  withdraw : ∀ s, P s → P { s with lc := s.lc.withdrawSupervision }

namespace KeptByStages

variable {P : State → Prop} (k : KeptByStages P) {s : State}
include k

theorem secondStage (h : P s) : P (secondStage s) := by
  unfold Machine.secondStage
  split
  · exact k.timer _ _ (k.event _ _ _ _ h)
  · exact k.timer _ _ (k.supervisionHold _ h)
  · exact h

theorem firstStage (h : P s) : P (firstStage s) := by
  have hdue : P { supervisionDueEvent s with
      sv := { s.sv with state := .grace, remaining := s.sv.grace.setWidth 16 } } := k.timer _ _ (k.event _ _ _ _ h)
  unfold Machine.firstStage
  simp only
  split
  · exact k.secondStage hdue
  · exact hdue

theorem tickSupervision (h : P s) : P (tickSupervision s) := by
  unfold Machine.tickSupervision stageExpires
  split
  · split
    · split
      · exact k.firstStage h
      · exact k.secondStage h
      · exact h
      · exact h
    · exact k.timer _ _ h
  · exact h

theorem correctService (h : P s) : P (correctService s) := k.timer _ _ (k.withdraw _ h)

theorem wrongService (h : P s) : P (wrongService s) := by
  unfold Machine.wrongService
  simp only
  split
  · exact k.firstStage (k.timer _ _ h)
  · exact k.timer _ _ h

theorem configureSupervision {mode : SupervisionMode} {period : Word} {grace : Byte} {lock : Bool} (h : P s) :
    P (configureSupervision mode period grace lock s) := k.timer _ _ (k.withdraw _ h)

end KeptByStages

/-- A property that the moves of the line keep, and those of the Supervision Timer and its hold. -/
structure KeptByTimer (P : State → Prop) : Prop extends KeptByLine P where
  /-- Any change of the Supervision Timer. -/
  timer : ∀ s v, P s → P { s with sv := v }
  /-- SUPERVISION joins the hold causes (R148). -/
  supervisionHold : ∀ s, P s → P { s with lc := s.lc.supervisionHold }
  /-- SUPERVISION is withdrawn (R148). -/
  withdraw : ∀ s, P s → P { s with lc := s.lc.withdrawSupervision }

namespace KeptByTimer

variable {P : State → Prop} (k : KeptByTimer P) {s : State}
include k

theorem stages : KeptByStages P := ⟨fun _ _ _ _ h => k.event h, k.timer, k.supervisionHold, k.withdraw⟩

theorem startLine (h : P s) : P (startLine s) :=
  k.startCycle (k.engine { s with lc := { s.lc with mode := .run, stopCause := .none } } _ (k.lineMode _ _ _ h))

/-- The acts of the line, of time, of SERVICE and SUP-SET, and of LINE-START and LINE-STOP keep it. -/
theorem act {c : Instr} {u : State} (hact : CourseAct s c u) (h : P s) : P u := by
  cases hact with
  | lineMoved hrow hexec => exact k.lineEvent hexec hrow h
  | ticked => exact k.stages.tickSupervision (k.tickPause h)
  | watchEnded => exact k.stages.firstStage h
  | graceEnded => exact k.stages.secondStage h
  | served => exact k.stages.correctService h
  | servedWrongly => exact k.stages.wrongService h
  | supervisionSet => exact k.stages.configureSupervision h
  | lineStarted => exact k.startLine h
  | lineResumed => exact k.lineMode s .run s.lc.stopCause h
  | lineStopping => exact k.lineMode s .stopping s.lc.stopCause h
  | lineStopped => exact k.abandonCycle (k.lineOff h)

end KeptByTimer

/-! ### The two queues (R85, R86, R105) -/

/-- What SUBMIT set in an entry and the law of the queues reads. -/
def OutboundEntry.message (e : OutboundEntry) : Byte × List Byte := (e.tag, e.payload)

/-- The law of the queues reads two lengths and the messages of the entries. -/
theorem QueueLaw.of_messages {s t : State} (h : QueueLaw s)
    (hoq : t.oq.map OutboundEntry.message = s.oq.map OutboundEntry.message) (hrq : t.rq.length = s.rq.length) :
    QueueLaw t := by
  obtain ⟨hsixteen, hsum, htags, hpayloads⟩ := h
  have hlength : t.oq.length = s.oq.length := by simpa using congrArg List.length hoq
  have tags_iff (l : List OutboundEntry) : l.Pairwise (fun e f => e.tag ≠ f.tag) ↔
      (l.map OutboundEntry.message).Pairwise (fun e f => e.1 ≠ f.1) := by rw [List.pairwise_map]; rfl
  have payloads_iff (l : List OutboundEntry) : (∀ e ∈ l, e.payload.length ≤ 32) ↔
      ∀ m ∈ l.map OutboundEntry.message, m.2.length ≤ 32 := by rw [List.forall_mem_map]; rfl
  exact ⟨hlength ▸ hsixteen, by omega, by rw [tags_iff, hoq, ← tags_iff]; exact htags,
    by rw [payloads_iff, hoq, ← payloads_iff]; exact hpayloads⟩

theorem QueueLaw.completeWhere {s : State} (p : OutboundEntry → Bool) (o : MessageOutcome) (h : QueueLaw s) :
    QueueLaw (completeWhere p o s) := by
  obtain ⟨hsixteen, hsum, htags, hpayloads⟩ := h
  have hsame : (Machine.completeWhere p o s).rq.length + (Machine.completeWhere p o s).oq.length =
      s.rq.length + s.oq.length := sharedSum_completeWhere p o s
  exact ⟨(List.length_filter_le _ _).trans hsixteen, hsame ▸ hsum, htags.filter _,
    fun e he => hpayloads e (List.mem_filter.mp he).1⟩

theorem QueueLaw.updateEntry {s : State} {tag : Byte} {f : OutboundEntry → OutboundEntry} (hf : KeepsMessage f)
    (h : QueueLaw s) : QueueLaw (updateEntry tag f s) := by
  refine h.of_messages ?_ rfl
  show (s.oq.map _).map _ = _
  rw [List.map_map]
  refine List.map_congr_left (fun e _ => ?_)
  obtain ⟨htag, -, hpayload⟩ := hf e
  simp only [Function.comp_apply]
  split
  · exact Prod.ext htag hpayload
  · rfl

theorem QueueLaw.admitReport {s t : State} {a : Address} {payload : List Byte} (ht : admitReport a payload s = some t)
    (h : QueueLaw s) : QueueLaw t := by
  obtain ⟨hsixteen, hsum, htags, hpayloads⟩ := h
  rw [admitReport_eq] at ht
  split at ht
  · rename_i hroom
    cases ht
    refine ⟨hsixteen, ?_, htags, hpayloads⟩
    simp only [List.length_append, List.length_singleton]
    unfold sharedSum at hroom
    omega
  · cases ht

theorem keptByTimer_queueLaw : KeptByTimer QueueLaw where
  toKeptByLine := by
    refine .ofTableFree (fun s t happart h => h.of_messages ?_ (congrArg List.length (apart_rq happart)))
      (fun _ _ h => h) (fun _ _ h => h) (fun _ _ h => h) (fun _ _ _ h => h) (fun _ _ h => h)
      (fun _ _ _ h => h.completeWhere _ _) (fun _ _ _ hf h => h.updateEntry hf) (fun _ _ _ _ ht h => h.admitReport ht)
      (fun _ _ _ _ _ _ h => h) (fun _ h => h)
    have hmessage : OutboundEntry.message = OutboundEntry.message ∘ OutboundEntry.unsent := rfl
    rw [hmessage, ← List.map_map, apart_entries happart, List.map_map]
  timer _ _ h := h
  supervisionHold _ h := h
  withdraw _ h := h

/-- An entry that joins with a new tag keeps the law where the two queues have room (R85, R88, R105). -/
theorem QueueLaw.appendEntry {s : State} {d : Address} {tag : Byte} {length : Nat} (hlength : length ≤ 32)
    (htag : ∀ e ∈ s.oq, e.tag ≠ tag) (hroom : s.oq.length < 16) (hshared : sharedSum s < 24) (h : QueueLaw s) :
    QueueLaw (appendEntry d tag length s) := by
  obtain ⟨-, -, htags, hpayloads⟩ := h
  unfold sharedSum at hshared
  refine ⟨?_, ?_, ?_, ?_⟩
  · simp only [Machine.appendEntry, List.length_append, List.length_singleton]; omega
  · simp only [Machine.appendEntry, List.length_append, List.length_singleton]; omega
  · refine List.pairwise_append.mpr ⟨htags, List.pairwise_singleton _ _, fun e he f hf => ?_⟩
    rw [List.mem_singleton.mp hf]
    exact htag e he
  · intro e he
    rcases List.mem_append.mp he with he | he
    · exact hpayloads e he
    · rw [List.mem_singleton.mp he]
      exact (List.length_take_le _ _).trans hlength

/-- An empty pair of queues fulfils the law. -/
theorem QueueLaw.of_empty {s : State} (hoq : s.oq = []) (hrq : s.rq = []) : QueueLaw s := by
  simp [QueueLaw, hoq, hrq]

theorem Act.queueLaw {c : Instr} {s u : State} (hact : Act s c u) (h : QueueLaw s) : QueueLaw u := by
  cases hact with
  | moved hcourse => exact keptByTimer_queueLaw.act hcourse h
  | removed => exact (h.completeWhere _ _ : QueueLaw (completeWhere _ _ s))
  | submitted hlength htag hroom hshared => exact h.appendEntry hlength htag hroom hshared
  | purged => exact h.completeWhere _ _
  | returnTaken hrq =>
    obtain ⟨hsixteen, hsum, htags, hpayloads⟩ := h
    rw [hrq, List.length_cons] at hsum
    exact ⟨hsixteen, by simp only; omega, htags, hpayloads⟩
  | cleared | reset => exact .of_empty rfl rfl
  | nothing | enrolled | leaveSet | parked | unparked | recordMarked | allSynced | lineZeroed | attnTaken
  | serviceEnded | dismissed | unitWritten | holdEntered | holdLeft | settingsWritten | limitsWritten | windowAccessed
  | resetEnded => exact h

/-! ### The Attention Unit (R116, R128) -/

theorem keptByTimer_attentionLaw : KeptByTimer (fun s => AttentionLaw s.au) where
  toKeptByLine := .ofTableFree (fun s t happart h => (apart_au happart).symm ▸ h) (fun _ _ h => h) (fun _ _ h => h)
    (fun _ _ h => h) (fun _ _ _ h => h) (fun _ _ h => h) (fun _ _ _ h => h) (fun _ _ _ _ h => h)
    (fun s t a payload ht h => by
      rw [admitReport_eq] at ht
      split at ht
      · cases ht; exact h
      · cases ht)
    (fun _ _ _ _ _ hu h => attentionLaw_arrive hu h) (fun _ h => h)
  timer _ _ h := h
  supervisionHold _ h := h
  withdraw _ h := h

/-- A queue with entries taken out of it keeps the law. -/
theorem AttentionLaw.sublist {v : AttentionUnit} {queue : List AttentionEntry} (hq : queue.Sublist v.queue)
    (h : AttentionLaw v) : AttentionLaw { v with queue := queue } := by
  obtain ⟨hsixteen, hlow, hdistinct, hstack, hfour⟩ := h
  exact ⟨hq.length_le.trans hsixteen, hq.countP_le.trans hlow, hdistinct.sublist hq, hstack, hfour⟩

/-- Levels that rise strictly number four at most (R128). -/
theorem length_le_four_of_rising {stack : List AttentionEntry}
    (h : stack.Pairwise (fun upper lower => lower.level < upper.level)) : stack.length ≤ 4 := by
  have hlevels : (stack.map (fun e => e.level.toFin)).Nodup :=
    List.pairwise_map.mpr (h.imp (fun hlt heq => absurd (BitVec.eq_of_toFin_eq heq).symm (BitVec.ne_of_lt hlt)))
  simpa using hlevels.length_le_card

/-- The presented entry lies above every level of the stack, so the stack rises with it on top (R126, R129). -/
theorem AttentionLaw.push {s : State} {e : AttentionEntry} (he : presented s.au = some e) (h : AttentionLaw s.au) :
    AttentionLaw (pushPresented e s).au := by
  obtain ⟨hsixteen, hlow, hdistinct, hstack, hfour⟩ := h.sublist (List.erase_sublist (a := e))
  obtain ⟨-, hopen, -, -⟩ := presented_some he
  have habove : ∀ lower ∈ s.au.stack, lower.level < e.level := by
    intro lower hlower
    have htop := (levelOpen_iff.mp hopen).1
    cases hs : s.au.stack with
    | nil => simp [hs] at hlower
    | cons top rest =>
      rw [hs] at hlower htop
      have hrise : ∀ f ∈ rest, f.level < top.level := by
        have hpair : (top :: rest).Pairwise (fun upper lower => lower.level < upper.level) := hs ▸ hstack
        exact (List.pairwise_cons.mp hpair).1
      rcases List.mem_cons.mp hlower with rfl | hrest
      · exact htop _ rfl
      · exact BitVec.lt_trans (hrise _ hrest) (htop top rfl)
  have hpushed : (e :: s.au.stack).Pairwise (fun upper lower => lower.level < upper.level) :=
    List.pairwise_cons.mpr ⟨habove, hstack⟩
  exact ⟨hsixteen, hlow, hdistinct, hpushed, length_le_four_of_rising hpushed⟩

theorem attentionLaw_empty (mask : BitVec 3) :
    AttentionLaw { queue := [], stack := [], mask := mask, overrun := false, arrivals := 0 } := by
  simp [AttentionLaw, lowEntries]

theorem Act.attentionLaw {c : Instr} {s u : State} (hact : Act s c u) (h : AttentionLaw s.au) : AttentionLaw u.au := by
  cases hact with
  | moved hcourse => exact keptByTimer_attentionLaw.act hcourse h
  | attnTaken he => exact h.push he
  | serviceEnded hstack =>
    obtain ⟨hsixteen, hlow, hdistinct, hrising, -⟩ := h
    have hrest := (List.pairwise_cons.mp (hstack ▸ hrising)).2
    exact ⟨hsixteen, hlow, hdistinct, hrest, length_le_four_of_rising hrest⟩
  | dismissed => exact h.sublist List.filter_sublist
  | cleared => exact attentionLaw_empty s.au.mask
  | reset => exact attentionLaw_empty 0
  | nothing | enrolled | leaveSet | removed | parked | unparked | recordMarked | allSynced | lineZeroed | submitted
  | purged | returnTaken | unitWritten | holdEntered | holdLeft | settingsWritten | limitsWritten | windowAccessed
  | resetEnded => exact h

/-! ### The hold (R139) -/

/-- The law of the hold reads four fields. -/
theorem HoldLaw.of_fields {l m : LineControl} (h : HoldLaw l) (hhold : m.holdInForce = l.holdInForce)
    (hhost : m.causeHost = l.causeHost) (hsupervision : m.causeSupervision = l.causeSupervision)
    (hannouncement : m.announcement = l.announcement ∨ m.announcement = .none) : HoldLaw m := by
  obtain ⟨hforce, hfree⟩ := h
  refine ⟨fun hm => ?_, fun hm => ?_⟩
  · rcases hannouncement with ha | ha
    · exact ha ▸ hforce (hhold ▸ hm)
    · simp [ha]
  · obtain ⟨hne, h1, h2⟩ := hfree (hhold ▸ hm)
    refine ⟨?_, hhost ▸ h1, hsupervision ▸ h2⟩
    rcases hannouncement with ha | ha
    · exact ha ▸ hne
    · simp [ha]

/-- Hold in force with HOLD announced fulfils the law. -/
theorem HoldLaw.of_holding {l : LineControl} (hhold : l.holdInForce = true) (ha : l.announcement = .hold) :
    HoldLaw l :=
  ⟨fun _ => by simp [ha], fun hfree => by simp [hhold] at hfree⟩

theorem HoldLaw.withdraw {l : LineControl} (h : HoldLaw l) : HoldLaw l.withdrawSupervision := by
  unfold LineControl.withdrawSupervision
  split
  · rename_i hcause
    refine .of_holding ?_ rfl
    by_contra hnot
    exact absurd hcause (by simp [(h.2 (Bool.eq_false_iff.mpr hnot)).2.2])
  · exact h

theorem keptByTimer_holdLaw : KeptByTimer (fun s => HoldLaw s.lc) where
  toKeptByLine := .ofTableFree
    (fun s t happart h => h.of_fields (apart_holdInForce happart) (apart_causeHost happart)
      (apart_causeSupervision happart) (.inl (apart_announcement happart)))
    (fun _ _ h => h) (fun _ _ h => h) (fun _ _ h => h) (fun _ _ _ h => h)
    (fun s good h => h.of_fields rfl rfl rfl (by
      unfold LineControl.announcementEnds
      simp only
      split
      · exact .inr rfl
      · exact .inl rfl))
    (fun _ _ _ h => h) (fun _ _ _ _ h => h)
    (fun s t a payload ht h => by
      rw [admitReport_eq] at ht
      split at ht
      · cases ht; exact h
      · cases ht)
    (fun _ _ _ _ _ _ h => h) (fun _ h => h)
  timer _ _ h := h
  supervisionHold _ _ := .of_holding rfl rfl
  withdraw _ h := h.withdraw

theorem Act.holdLaw {c : Instr} {s u : State} (hact : Act s c u) (h : HoldLaw s.lc) : HoldLaw u.lc := by
  cases hact with
  | moved hcourse => exact keptByTimer_holdLaw.act hcourse h
  | holdEntered => exact .of_holding rfl rfl
  | holdLeft => simp [HoldLaw, LineControl.release, LineControl.announce]
  | cleared => exact h.of_fields rfl rfl rfl (.inl rfl)
  | reset => simp [HoldLaw, heldInReset, State.afterReset, LineControl.reset]
  | nothing | enrolled | leaveSet | removed | parked | unparked | recordMarked | allSynced | lineZeroed | submitted
  | purged | returnTaken | attnTaken | serviceEnded | dismissed | unitWritten | settingsWritten | limitsWritten
  | windowAccessed | resetEnded => exact h

/-! ### The Supervision Timer (R155, R156) -/

/-- A counting stage with something left to count, in WARN or HOLD mode, fulfils the law. -/
theorem SupervisionLaw.of_counting {v : Supervision} (hstate : v.state = .watch ∨ v.state = .grace)
    (hmode : v.mode ≠ .off) (hperiod : v.period ≠ 0) (hremaining : v.remaining ≠ 0) : SupervisionLaw v := by
  have hidle : v.state ≠ .idle := by rcases hstate with hs | hs <;> simp [hs]
  have hexpired : v.state ≠ .expired := by rcases hstate with hs | hs <;> simp [hs]
  exact ⟨iff_of_false hidle hmode, fun hs => absurd hs hexpired, hperiod, fun _ => hremaining⟩

theorem SupervisionLaw.restart {v : Supervision} (hperiod : v.period ≠ 0) : SupervisionLaw v.restart := by
  unfold Supervision.restart
  split
  · rename_i hmode
    exact ⟨iff_of_true rfl hmode, nofun, hperiod, nofun⟩
  · rename_i hmode
    exact .of_counting (.inl rfl) hmode hperiod hperiod

theorem SupervisionLaw.mode_ne_off {v : Supervision} (h : SupervisionLaw v) (hstate : v.state ≠ .idle) :
    v.mode ≠ .off := fun hmode => hstate (h.1.mpr hmode)

/-- The second stage reads the mode and the period alone. -/
theorem SupervisionLaw.secondStage {s : State} (hmode : s.sv.mode ≠ .off) (hperiod : s.sv.period ≠ 0) :
    SupervisionLaw (secondStage s).sv := by
  unfold Machine.secondStage
  split
  · exact .of_counting (.inl rfl) hmode hperiod hperiod
  · rename_i hhold
    exact ⟨iff_of_false (by simp) hmode, fun _ => hhold, hperiod, nofun⟩
  · rename_i hoff
    exact absurd hoff hmode

theorem SupervisionLaw.firstStage {s : State} (hmode : s.sv.mode ≠ .off) (hperiod : s.sv.period ≠ 0) :
    SupervisionLaw (firstStage s).sv := by
  unfold Machine.firstStage
  simp only
  split
  · exact .secondStage hmode hperiod
  · rename_i hgrace
    exact .of_counting (.inr rfl) hmode hperiod (by simp only; bv_omega)

theorem SupervisionLaw.tick {s : State} (h : SupervisionLaw s.sv) : SupervisionLaw (tickSupervision s).sv := by
  unfold tickSupervision stageExpires
  split
  · rename_i hcounting
    have hstate : s.sv.state = .watch ∨ s.sv.state = .grace := by
      simpa [Supervision.counting] using hcounting
    have hmode : s.sv.mode ≠ .off := h.mode_ne_off (by rcases hstate with hs | hs <;> simp [hs])
    split
    · split
      · exact .firstStage hmode h.2.2.1
      · exact .secondStage hmode h.2.2.1
      · exact h
      · exact h
    · rename_i hmore
      have htwo : 2 ≤ s.sv.remaining.toNat := by simpa [Supervision.lastTick, Nat.succ_le_iff] using hmore
      exact .of_counting hstate hmode h.2.2.1 (by simp only; bv_omega)
  · exact h

theorem CourseAct.supervisionLaw {c : Instr} {s u : State} (hact : CourseAct s c u) (h : SupervisionLaw s.sv) :
    SupervisionLaw u.sv := by
  have hperiod : s.sv.period ≠ 0 := h.2.2.1
  cases hact with
  | lineMoved hrow hexec => exact ((keptByLine_sv s.sv).lineEvent hexec hrow rfl).symm ▸ h
  | ticked => exact .tick (((keptByLine_sv s.sv).tickPause rfl).symm ▸ h)
  | watchEnded hwatch => exact .firstStage (h.mode_ne_off (by simp [hwatch])) hperiod
  | graceEnded hgrace => exact .secondStage (h.mode_ne_off (by simp [hgrace])) hperiod
  | served hidle => exact .of_counting (.inl rfl) (h.mode_ne_off hidle) hperiod hperiod
  | servedWrongly hidle =>
    unfold wrongService
    simp only
    split
    · exact .firstStage (h.mode_ne_off hidle) hperiod
    · exact h
  | supervisionSet hnew => exact .restart hnew
  | lineStarted =>
    have hkept : (startLine s).sv = s.sv := (keptByLine_sv s.sv).startCycle rfl
    exact hkept.symm ▸ h
  | lineStopped => exact ((keptByLine_sv s.sv).abandonCycle ((keptByLine_sv s.sv).lineOff rfl)).symm ▸ h
  | lineResumed | lineStopping => exact h

theorem Act.supervisionLaw {c : Instr} {s u : State} (hact : Act s c u) (h : SupervisionLaw s.sv) :
    SupervisionLaw u.sv := by
  cases hact with
  | moved hcourse => exact hcourse.supervisionLaw h
  | cleared => exact .restart h.2.2.1
  | reset => simp [SupervisionLaw, heldInReset, State.afterReset, Supervision.reset]
  | nothing | enrolled | leaveSet | removed | parked | unparked | recordMarked | allSynced | lineZeroed | submitted
  | purged | returnTaken | attnTaken | serviceEnded | dismissed | unitWritten | holdEntered | holdLeft
  | settingsWritten | limitsWritten | windowAccessed | resetEnded => exact h

/-! ### The statement -/

/-- Settles O58: each of the four laws is kept by every act, and the answer of a command touches none of what they
read. -/
theorem queueAttentionHoldAndSupervisionLawsAreKept : Obligations.QueueAttentionHoldAndSupervisionLawsAreKept := by
  intro c s t h
  obtain ⟨u, hact, hleaves⟩ := exec_act h
  obtain ⟨w, -, -, rfl⟩ := hleaves.window
  exact ⟨hact.queueLaw, hact.attentionLaw, hact.holdLaw, hact.supervisionLaw⟩

end Sys2Proof.Machine

/-! SUPPORT. The laws of the Station Table, kept by every act: the records in rising order of address, the poll list, and the
miss counts under the miss limit (R19, R21, R22, R39). -/

namespace Sys2Proof.Machine

/-! ### The records, read by address and state -/

/-- What the laws of the table read of a record. -/
def StationRecord.standing (r : StationRecord) : Address × StationState × BitVec 4 := (r.address, r.state, r.missCount)

/-- The laws of the table read the standing of the records, the poll list and the miss limit. -/
structure SameStanding (s t : State) : Prop where
  records : t.st.records.map StationRecord.standing = s.st.records.map StationRecord.standing
  pollList : t.st.pollList = s.st.pollList
  limit : t.cfg.missLimit = s.cfg.missLimit

theorem missCountFits_standing (limit : BitVec 4) {r q : StationRecord} (h : r.standing = q.standing) :
    MissCountFits limit r ↔ MissCountFits limit q := by
  obtain ⟨-, hstate, hmiss⟩ : r.address = q.address ∧ r.state = q.state ∧ r.missCount = q.missCount := by
    simpa [StationRecord.standing] using h
  unfold MissCountFits
  rw [hstate, hmiss]

section
variable {s t : State} (h : SameStanding s t)
include h

theorem SameStanding.symm : SameStanding t s := ⟨h.records.symm, h.pollList.symm, h.limit.symm⟩

/-- Every record has one of the same standing before. -/
theorem SameStanding.exists_record {q : StationRecord} (hq : q ∈ t.st.records) :
    ∃ r ∈ s.st.records, r.standing = q.standing := by
  have hmem : q.standing ∈ s.st.records.map StationRecord.standing := h.records ▸ List.mem_map_of_mem hq
  simpa using hmem

theorem SameStanding.tableLaw (hs : TableLaw s) : TableLaw t := by
  obtain ⟨hrise, hrange, hlength⟩ := hs
  have hlen : t.st.records.length = s.st.records.length := by simpa using congrArg List.length h.records
  have rise_iff (l : List StationRecord) : l.Pairwise (fun r q => r.address < q.address) ↔
      (l.map StationRecord.standing).Pairwise (fun r q => r.1 < q.1) := by rw [List.pairwise_map]; rfl
  refine ⟨by rw [rise_iff, h.records, ← rise_iff]; exact hrise, fun q hq => ?_, hlen ▸ hlength⟩
  obtain ⟨r, hr, heq⟩ := h.exists_record hq
  have haddr : r.address = q.address := congrArg (·.1) heq
  exact haddr ▸ hrange r hr

theorem SameStanding.pollListLaw (hs : PollListLaw s) : PollListLaw t := by
  obtain ⟨hnodup, hmem⟩ := hs
  have carry {u v : State} (huv : SameStanding u v) {a : Address}
      (hq : ∃ q ∈ v.st.records, q.address = a ∧ q.state ≠ .parked) :
      ∃ r ∈ u.st.records, r.address = a ∧ r.state ≠ .parked := by
    obtain ⟨q, hq, haddr, hstate⟩ := hq
    obtain ⟨r, hr, heq⟩ := huv.exists_record hq
    have h1 : r.address = q.address := congrArg (·.1) heq
    have h2 : r.state = q.state := congrArg (·.2.1) heq
    exact ⟨r, hr, h1.trans haddr, h2 ▸ hstate⟩
  refine ⟨h.pollList ▸ hnodup, fun a => ?_⟩
  rw [h.pollList, hmem]
  exact ⟨carry h.symm, carry h⟩

theorem SameStanding.missLaw (hs : MissLaw s) : MissLaw t := by
  obtain ⟨hlimit, hfits⟩ := hs
  refine ⟨h.limit ▸ hlimit, fun q hq => ?_⟩
  obtain ⟨r, hr, heq⟩ := h.exists_record hq
  rw [h.limit]
  exact (missCountFits_standing _ heq).mp (hfits r hr)

end

/-- Records changed one by one without a change of standing. -/
theorem sameStanding_map {s : State} {f : StationRecord → StationRecord}
    (hf : ∀ r ∈ s.st.records, (f r).standing = r.standing) :
    SameStanding s { s with st := { s.st with records := s.st.records.map f } } :=
  ⟨by simpa using hf, rfl, rfl⟩

theorem sameStanding_updateStation {s : State} (a : Address) {f : StationRecord → StationRecord}
    (hf : ∀ r, (f r).standing = r.standing) : SameStanding s (updateStation a f s) := by
  refine sameStanding_map (fun r _ => ?_)
  split
  · exact hf r
  · rfl

theorem KeepsStanding.standing {f : StationRecord → StationRecord} (hf : KeepsStanding f) (r : StationRecord) :
    (f r).standing = r.standing := by
  obtain ⟨haddr, hstate, -, hmiss⟩ := hf r
  exact Prod.ext haddr (Prod.ext hstate hmiss)

theorem sameStanding_apart {s t : State} (h : apartFromScheduler t = apartFromScheduler s) : SameStanding s t := by
  refine ⟨?_, apart_pollList h, congrArg Settings.missLimit (apart_cfg h)⟩
  have hstanding : StationRecord.standing = StationRecord.standing ∘ StationRecord.uncounted := rfl
  rw [hstanding, ← List.map_map, apart_records h, List.map_map]

/-! ### One record changed in its standing -/

/-- A record that keeps its address keeps the order of the table. -/
theorem TableLaw.updateStation {s : State} {a : Address} {f : StationRecord → StationRecord}
    (hf : ∀ r, (f r).address = r.address) (h : TableLaw s) : TableLaw (updateStation a f s) := by
  obtain ⟨hrise, hrange, hlength⟩ := h
  have haddr (r : StationRecord) : (if r.address == a then f r else r).address = r.address := by
    split
    · exact hf r
    · rfl
  refine ⟨List.pairwise_map.mpr (by simpa only [haddr] using hrise), fun q hq => ?_,
    (List.length_map _).trans_le hlength⟩
  obtain ⟨r, hr, rfl⟩ := List.mem_map.mp hq
  exact (haddr r).symm ▸ hrange r hr

/-- A record taken out keeps the order of the table. -/
theorem TableLaw.sublist {s : State} {records : List StationRecord} {pollList : List Address}
    (hsub : records.Sublist s.st.records) (h : TableLaw s) : TableLaw { s with st := { records, pollList } } := by
  obtain ⟨hrise, hrange, hlength⟩ := h
  exact ⟨hrise.sublist hsub, fun r hr => hrange r (hsub.subset hr), hsub.length_le.trans hlength⟩

/-- In a table in order the records of one address are one record. -/
theorem TableLaw.eq_of_find {s : State} (h : TableLaw s) {a : Address} {r q : StationRecord}
    (hfind : s.st.find a = some r) (hq : q ∈ s.st.records) (haddr : q.address = a) : q = r := by
  have hfound := find_of_mem h.1 hq
  rw [haddr, hfind] at hfound
  exact (Option.some.inj hfound).symm

/-- A record that stays on or off the poll list as it was keeps the law of the poll list. -/
theorem PollListLaw.updateStation {s : State} {a : Address} {f : StationRecord → StationRecord}
    (hf : ∀ r ∈ s.st.records, r.address = a → (f r).address = a ∧ ((f r).state = .parked ↔ r.state = .parked))
    (h : PollListLaw s) : PollListLaw (updateStation a f s) := by
  obtain ⟨hnodup, hmem⟩ := h
  have same (r : StationRecord) (hr : r ∈ s.st.records) : (if r.address = a then f r else r).address = r.address ∧
      ((if r.address = a then f r else r).state = .parked ↔ r.state = .parked) := by
    split
    · rename_i ha
      exact ⟨(hf r hr ha).1.trans ha.symm, (hf r hr ha).2⟩
    · exact ⟨rfl, Iff.rfl⟩
  refine ⟨hnodup, fun b => (hmem b).trans ⟨?_, ?_⟩⟩
  · rintro ⟨r, hr, haddr, hstate⟩
    exact ⟨_, mem_update.mpr ⟨r, hr, rfl⟩, (same r hr).1.trans haddr, (not_congr (same r hr).2).mpr hstate⟩
  · rintro ⟨q, hq, haddr, hstate⟩
    obtain ⟨r, hr, rfl⟩ := mem_update.mp hq
    exact ⟨r, hr, (same r hr).1.symm.trans haddr, (not_congr (same r hr).2).mp hstate⟩

/-- A record whose miss count fits again keeps the law of the miss counts. -/
theorem MissLaw.updateStation {s : State} {a : Address} {f : StationRecord → StationRecord}
    (hf : ∀ r ∈ s.st.records, r.address = a → MissCountFits s.cfg.missLimit r → MissCountFits s.cfg.missLimit (f r))
    (h : MissLaw s) : MissLaw (updateStation a f s) := by
  obtain ⟨hlimit, hfits⟩ := h
  refine ⟨hlimit, fun q hq => ?_⟩
  obtain ⟨r, hr, rfl⟩ := mem_update.mp hq
  split
  · rename_i ha
    exact hf r hr ha (hfits r hr)
  · exact hfits r hr

/-- A miss that does not reach the limit leaves a count that fits SUSPECT (R25). -/
theorem missCountFits_suspect {limit : BitVec 4} {r : StationRecord} (hlimit : limit ≠ 0) (hlost : r.state ≠ .lost)
    (hnot : r.missCount + 1 ≠ limit) (h : MissCountFits limit r) :
    1 ≤ (r.missCount + 1).toNat ∧ (r.missCount + 1).toNat < limit.toNat := by
  unfold MissCountFits at h
  split at h
  · rw [h] at hnot ⊢; bv_omega
  · rw [h] at hnot ⊢; bv_omega
  · rw [h] at hnot ⊢; bv_omega
  · bv_omega
  · exact absurd ‹_› hlost

/-! ### The three laws together -/

/-- The law of the table, with the laws of the poll list and of the miss counts where they hold in `s`. -/
structure TableLawsFrom (s t : State) : Prop where
  table : TableLaw t
  pollList : PollListLaw s → PollListLaw t
  miss : MissLaw s → MissLaw t

section
variable {z s t : State} (h : TableLawsFrom z s)
include h

theorem TableLawsFrom.sameStanding (hst : SameStanding s t) : TableLawsFrom z t :=
  ⟨hst.tableLaw h.table, fun hz => hst.pollListLaw (h.pollList hz), fun hz => hst.missLaw (h.miss hz)⟩

theorem TableLawsFrom.updateStation {a : Address} {f : StationRecord → StationRecord}
    (haddr : ∀ r, (f r).address = r.address)
    (hparked : ∀ r ∈ s.st.records, r.address = a → ((f r).state = .parked ↔ r.state = .parked))
    (hmiss : s.cfg.missLimit ≠ 0 → ∀ r ∈ s.st.records, r.address = a → MissCountFits s.cfg.missLimit r →
      MissCountFits s.cfg.missLimit (f r)) :
    TableLawsFrom z (updateStation a f s) :=
  ⟨h.table.updateStation haddr,
    fun hz => (h.pollList hz).updateStation (fun r hr ha => ⟨(haddr r).trans ha, hparked r hr ha⟩),
    fun hz => (h.miss hz).updateStation (hmiss (h.miss hz).1)⟩

end

theorem TableLawsFrom.refl {s : State} (h : TableLaw s) : TableLawsFrom s s := ⟨h, id, id⟩

section
variable {z s : State} (h : TableLawsFrom z s)
include h

/-- The result of a turn: ONLINE with no miss, SUSPECT below the limit, LOST at it, and a PARKED station as it stands
(R24 to R28). -/
theorem TableLawsFrom.applyTurnResult (result : TurnResult) (a : Address) :
    TableLawsFrom z (applyTurnResult result a s) := by
  unfold Machine.applyTurnResult
  split
  · exact h
  · rename_i r hfind
    obtain ⟨-, haddr⟩ := find_some hfind
    have huniq {q : StationRecord} (hq : q ∈ s.st.records) (hqa : q.address = r.address) : q = r :=
      h.table.eq_of_find (haddr ▸ hfind) hq hqa
    cases result with
    | unfinished => exact h
    | success =>
      have hdone : TableLawsFrom z (Machine.updateStation r.address (fun r =>
          { r with missCount := 0, state := if r.state = .parked then .parked else .online }) s) := by
        refine h.updateStation (fun _ => rfl) (fun q _ _ => ?_) (fun _ q _ _ _ => ?_)
        · by_cases hp : q.state = .parked <;> simp [hp]
        · by_cases hp : q.state = .parked <;> simp [MissCountFits, hp]
      simp only [turnSuccess]
      split
      · exact hdone.sameStanding ⟨rfl, rfl, rfl⟩
      · exact hdone
    | miss =>
      simp only [turnMiss]
      split
      · exact h
      · rename_i hneither
        obtain ⟨hlost, hparked⟩ := not_or.mp hneither
        split
        · have hloss : TableLawsFrom z (Machine.updateStation r.address (fun r =>
              { r with state := .lost, syncPending := true, missCount := s.cfg.missLimit }) s) := by
            refine h.updateStation (fun _ => rfl) (fun q hq hqa => ?_) (fun _ _ _ _ _ => rfl)
            exact iff_of_false (by simp) (huniq hq hqa ▸ hparked)
          exact hloss.sameStanding ⟨rfl, rfl, rfl⟩
        · rename_i hnot
          refine h.updateStation (fun _ => rfl) (fun q hq hqa => ?_) (fun hlimit q hq hqa hfits => ?_)
          · exact iff_of_false (by simp) (huniq hq hqa ▸ hparked)
          · exact missCountFits_suspect hlimit (huniq hq hqa ▸ hlost) (huniq hq hqa ▸ hnot) hfits

/-- A removal takes the record and its address out together (R31). -/
theorem TableLawsFrom.removeStation (a : Address) : TableLawsFrom z (removeStation a s) := by
  refine ⟨h.table.sublist List.filter_sublist, fun hz => ?_, fun hz => ?_⟩
  · obtain ⟨hnodup, hmem⟩ := h.pollList hz
    refine ⟨hnodup.filter _, fun b => ?_⟩
    simp only [Machine.removeStation, leavePollList, completeWhere_st, List.mem_filter, hmem, bne_iff_ne]
    constructor
    · rintro ⟨⟨r, hr, haddr, hstate⟩, hba⟩
      exact ⟨r, ⟨hr, haddr ▸ hba⟩, haddr, hstate⟩
    · rintro ⟨r, ⟨hr, hra⟩, haddr, hstate⟩
      exact ⟨⟨r, hr, haddr, hstate⟩, haddr ▸ hra⟩
  · obtain ⟨hlimit, hfits⟩ := h.miss hz
    exact ⟨hlimit, fun r hr => hfits r (List.mem_filter.mp hr).1⟩

/-- A park takes the address off the poll list and leaves the record PARKED with no miss (R33). -/
theorem TableLawsFrom.parkStation (a : Address) : TableLawsFrom z (parkStation a s) := by
  refine ⟨TableLaw.updateStation (s := leavePollList a s) (fun _ => rfl) h.table, fun hz => ?_, fun hz => ?_⟩
  · obtain ⟨hnodup, hmem⟩ := h.pollList hz
    refine ⟨hnodup.filter _, fun b => ?_⟩
    have hrecords : (Machine.parkStation a s).st.records = (s.st.update a (fun r =>
        { r with state := .parked, missCount := 0, leave := .absent })).records := rfl
    rw [hrecords]
    simp only [Machine.parkStation, leavePollList, Machine.updateStation, update_pollList, List.mem_filter, hmem,
      bne_iff_ne, mem_update]
    constructor
    · rintro ⟨⟨r, hr, haddr, hstate⟩, hba⟩
      have hra : r.address ≠ a := haddr ▸ hba
      exact ⟨r, ⟨r, hr, (if_neg hra).symm⟩, haddr, hstate⟩
    · rintro ⟨q, ⟨r, hr, rfl⟩, haddr, hstate⟩
      by_cases hra : r.address = a
      · simp [hra] at hstate
      · rw [if_neg hra] at haddr hstate
        exact ⟨⟨r, hr, haddr, hstate⟩, haddr ▸ hra⟩
  · exact MissLaw.updateStation (s := leavePollList a s) (fun _ _ _ _ => rfl) (h.miss hz)

/-- The completion of a leave pending (R29). -/
theorem TableLawsFrom.completeLeave (a : Address) : TableLawsFrom z (completeLeave a s) := by
  unfold Machine.completeLeave
  split
  · exact h
  · split
    · exact h
    · exact (h.removeStation a).sameStanding ⟨rfl, rfl, rfl⟩
    · exact (h.parkStation a).sameStanding ⟨rfl, rfl, rfl⟩

end

theorem keptByTimer_tableLaws (z : State) : KeptByTimer (TableLawsFrom z) where
  scheduler _ _ happart h := h.sameStanding (sameStanding_apart happart)
  engine _ _ h := h.sameStanding ⟨rfl, rfl, rfl⟩
  latched _ _ h := h.sameStanding ⟨rfl, rfl, rfl⟩
  lineMode _ _ _ h := h.sameStanding ⟨rfl, rfl, rfl⟩
  announcement _ _ h := h.sameStanding ⟨rfl, rfl, rfl⟩
  station _ a _ hf h := h.sameStanding (sameStanding_updateStation a hf.standing)
  turnResult _ result a h := h.applyTurnResult result a
  leave _ a h := h.completeLeave a
  complete _ _ _ h := h.sameStanding ⟨rfl, rfl, rfl⟩
  entry _ _ _ _ h := h.sameStanding ⟨rfl, rfl, rfl⟩
  report s t a payload ht h := by
    rw [admitReport_eq] at ht
    split at ht
    · cases ht
      exact h.sameStanding ⟨rfl, rfl, rfl⟩
    · cases ht
  arrival _ _ _ _ _ _ h := h.sameStanding ⟨rfl, rfl, rfl⟩
  overrun _ h := h.sameStanding ⟨rfl, rfl, rfl⟩
  timer _ _ h := h.sameStanding ⟨rfl, rfl, rfl⟩
  supervisionHold _ h := h.sameStanding ⟨rfl, rfl, rfl⟩
  withdraw _ h := h.sameStanding ⟨rfl, rfl, rfl⟩

/-! ### The commands of the table and the writes of LIMITS -/

/-- An address that no record on the poll list bears joins it once (R21). -/
theorem pollListLaw_join {s : State} {a : Address} {records : List StationRecord} (h : PollListLaw s)
    (hnew : a ∉ s.st.pollList)
    (hmem : ∀ b, (∃ q ∈ records, q.address = b ∧ q.state ≠ .parked) ↔
      b = a ∨ ∃ r ∈ s.st.records, r.address = b ∧ r.state ≠ .parked) :
    PollListLaw (joinPollList a { s with st := { s.st with records := records } }) := by
  obtain ⟨hnodup, hlisted⟩ := h
  refine ⟨hnodup.append (List.nodup_singleton a) (by simpa using hnew), fun b => ?_⟩
  have hrecords : (joinPollList a { s with st := { s.st with records := records } }).st.records = records := rfl
  rw [hrecords, hmem]
  simp only [joinPollList, List.mem_append, List.mem_singleton, hlisted]
  exact or_comm

/-- ENROL puts a record of a new address in its place, NEW and with no miss (R30). -/
theorem tableLawsFrom_enrolStation {s : State} {a : Address} {skip : BitVec 4} {ceiling : BitVec 2}
    (hlow : 1 ≤ a.toNat) (hhigh : a.toNat ≤ 126) (hfind : s.st.find a = none) (hroom : s.st.records.length < 32)
    (h : TableLaw s) : TableLawsFrom s (enrolStation a skip ceiling s) := by
  obtain ⟨hrise, hrange, -⟩ := h
  have hnew : ∀ r ∈ s.st.records, r.address ≠ a := find_none.mp hfind
  refine ⟨⟨pairwise_insertRecord hrise hnew, fun r hr => ?_, ?_⟩, fun hs => ?_, fun hs => ?_⟩
  · rcases mem_insertRecord.mp hr with rfl | hr
    · exact ⟨hlow, hhigh⟩
    · exact hrange r hr
  · exact (length_records_enrolStation a skip ceiling s).trans_le hroom
  · have hoff : a ∉ s.st.pollList := by
      rw [hs.2]
      rintro ⟨r, hr, haddr, -⟩
      exact hnew r hr haddr
    refine pollListLaw_join hs hoff (fun b => ?_)
    constructor
    · rintro ⟨q, hq, haddr, hstate⟩
      rcases mem_insertRecord.mp hq with rfl | hq
      · exact .inl haddr.symm
      · exact .inr ⟨q, hq, haddr, hstate⟩
    · rintro (rfl | ⟨r, hr, haddr, hstate⟩)
      · exact ⟨_, mem_insertRecord.mpr (.inl rfl), rfl, by simp [newRecord]⟩
      · exact ⟨r, mem_insertRecord.mpr (.inr hr), haddr, hstate⟩
  · obtain ⟨hlimit, hfits⟩ := hs
    refine ⟨hlimit, fun r hr => ?_⟩
    rcases mem_insertRecord.mp hr with rfl | hr
    · exact rfl
    · exact hfits r hr

/-- UNPARK makes the PARKED record NEW with no miss, and its address joins the poll list (R34). -/
theorem tableLawsFrom_unparkStation {s : State} {a : Address} {r : StationRecord} (hfind : s.st.find a = some r)
    (hparked : r.state = .parked) (h : TableLaw s) : TableLawsFrom s (unparkStation a s) := by
  obtain ⟨hmem, haddr⟩ := find_some hfind
  have huniq {q : StationRecord} (hq : q ∈ s.st.records) (hqa : q.address = a) : q = r := h.eq_of_find hfind hq hqa
  refine ⟨h.updateStation (fun _ => rfl), fun hs => ?_, fun hs => ?_⟩
  · have hoff : a ∉ s.st.pollList := by
      rw [hs.2]
      rintro ⟨q, hq, hqa, hstate⟩
      exact hstate (huniq hq hqa ▸ hparked)
    refine pollListLaw_join (records := (s.st.update a _).records) hs hoff (fun b => ?_)
    constructor
    · rintro ⟨q, hq, hqb, hstate⟩
      obtain ⟨p, hp, rfl⟩ := mem_update.mp hq
      by_cases hpa : p.address = a
      · rw [if_pos hpa] at hqb
        exact .inl (hqb.symm.trans hpa)
      · rw [if_neg hpa] at hqb hstate
        exact .inr ⟨p, hp, hqb, hstate⟩
    · rintro (rfl | ⟨q, hq, hqb, hstate⟩)
      · exact ⟨_, mem_update.mpr ⟨r, hmem, (if_pos haddr).symm⟩, haddr, by simp⟩
      · have hqa : q.address ≠ a := fun hqa => hstate (huniq hq hqa ▸ hparked)
        exact ⟨q, mem_update.mpr ⟨q, hq, (if_neg hqa).symm⟩, hqb, hstate⟩
  · exact hs.updateStation (a := a) (f := fun r => { r with state := .new, missCount := 0, countdown := 0 })
      (fun _ _ _ _ => rfl)

/-- A record re-based on a new limit keeps its place on or off the poll list, and its count fits (R39). -/
theorem rebaseRecord_keeps (limit : BitVec 4) (r : StationRecord) :
    (rebaseRecord limit r).address = r.address ∧
      ((rebaseRecord limit r).state = .parked ↔ r.state = .parked) ∧ MissCountFits limit (rebaseRecord limit r) := by
  cases hs : r.state <;> simp [rebaseRecord, MissCountFits, hs]

theorem tableLawsFrom_setLimits {s : State} {value : Word} (hlimit : value.extractLsb' 4 4 ≠ 0) (h : TableLaw s) :
    TableLawsFrom s (setLimits value s) := by
  obtain ⟨hrise, hrange, hlength⟩ := h
  have hmem {q : StationRecord} (hq : q ∈ (setLimits value s).st.records) :
      ∃ r ∈ s.st.records, rebaseRecord (value.extractLsb' 4 4) r = q := List.mem_map.mp hq
  refine ⟨⟨?_, fun q hq => ?_, (List.length_map _).trans_le hlength⟩, fun hs => ⟨hs.1, fun a => ?_⟩,
    fun _ => ⟨hlimit, fun q hq => ?_⟩⟩
  · exact List.pairwise_map.mpr (by simpa only [(rebaseRecord_keeps _ _).1] using hrise)
  · obtain ⟨r, hr, rfl⟩ := hmem hq
    exact (rebaseRecord_keeps _ r).1.symm ▸ hrange r hr
  · refine (hs.2 a).trans ⟨?_, ?_⟩
    · rintro ⟨r, hr, haddr, hstate⟩
      obtain ⟨h1, h2, -⟩ := rebaseRecord_keeps (value.extractLsb' 4 4) r
      exact ⟨_, List.mem_map_of_mem hr, h1.trans haddr, (not_congr h2).mpr hstate⟩
    · rintro ⟨q, hq, haddr, hstate⟩
      obtain ⟨r, hr, rfl⟩ := hmem hq
      obtain ⟨h1, h2, -⟩ := rebaseRecord_keeps (value.extractLsb' 4 4) r
      exact ⟨r, hr, h1.symm.trans haddr, (not_congr h2).mp hstate⟩
  · obtain ⟨r, -, rfl⟩ := hmem hq
    exact (rebaseRecord_keeps _ r).2.2

/-- An empty table fulfils its laws under any limit that is not 0. -/
theorem tableLawsFrom_empty {s t : State} (hst : t.st = StationTable.reset)
    (hlimit : s.cfg.missLimit ≠ 0 → t.cfg.missLimit ≠ 0) : TableLawsFrom s t := by
  refine ⟨?_, fun _ => ?_, fun hs => ⟨hlimit hs.1, ?_⟩⟩
  · simp [TableLaw, hst, StationTable.reset]
  · simp [PollListLaw, hst, StationTable.reset]
  · simp [hst, StationTable.reset]

theorem Act.tableLaws {c : Instr} {s u : State} (hact : Act s c u) (h : TableLaw s) : TableLawsFrom s u := by
  have same {t : State} (hst : SameStanding s t) : TableLawsFrom s t := (TableLawsFrom.refl h).sameStanding hst
  cases hact with
  | moved hcourse => exact (keptByTimer_tableLaws s).act hcourse (.refl h)
  | enrolled hlow hhigh hfind hroom => exact tableLawsFrom_enrolStation hlow hhigh hfind hroom h
  | removed => exact (TableLawsFrom.refl h).removeStation _
  | parked => exact (TableLawsFrom.refl h).parkStation _
  | unparked hfind hparked => exact tableLawsFrom_unparkStation hfind hparked h
  | leaveSet => exact same (sameStanding_updateStation _ (fun _ => rfl))
  | recordMarked _ hf => exact same (sameStanding_updateStation _ hf.standing)
  | allSynced => exact same (sameStanding_map (fun _ _ => rfl))
  | limitsWritten _ hlimit => exact tableLawsFrom_setLimits hlimit h
  | settingsWritten _ hlimit => exact same ⟨rfl, rfl, hlimit⟩
  | cleared => exact tableLawsFrom_empty rfl id
  | reset => exact tableLawsFrom_empty rfl (fun _ => by simp [heldInReset, State.afterReset, Settings.reset])
  | nothing | lineZeroed | submitted | purged | returnTaken | attnTaken | serviceEnded | dismissed | unitWritten
  | holdEntered | holdLeft | windowAccessed | resetEnded => exact same ⟨rfl, rfl, rfl⟩

/-! ### The statement -/

/-- Settles O57: the three laws are kept together by every act. -/
theorem stationTableLawsAreKept : Obligations.StationTableLawsAreKept := by
  intro c s t htable h
  obtain ⟨u, hact, hleaves⟩ := exec_act h
  obtain ⟨w, -, -, rfl⟩ := hleaves.window
  obtain ⟨htable', hpoll, hmiss⟩ := hact.tableLaws htable
  exact ⟨htable', hpoll, hmiss⟩

end Sys2Proof.Machine

/-! SUPPORT. No message is lost: each entry stays queued with what SUBMIT set, or its DONE record joins the tail of the Return
Queue, at every act but the resets (R86, R93, R103, R111). -/

namespace Sys2Proof.Machine

/-- An entry of a queue still stands in another with its tag, destination and payload. -/
def StillQueued (e : OutboundEntry) (queue : List OutboundEntry) : Prop :=
  ∃ f ∈ queue, f.tag = e.tag ∧ f.destination = e.destination ∧ f.payload = e.payload

/-- Every entry of `s` is queued still, or its DONE record is among those that joined. -/
def AccountedFor (s : State) (joined : List ReturnRecord) (queue : List OutboundEntry) : Prop :=
  ∀ e ∈ s.oq, StillQueued e queue ∨ ∃ outcome attempts, .done e.destination e.tag outcome attempts ∈ joined

/-- From `s` to `t` the Return Queue has grown at its tail alone, and every entry is accounted for. -/
def EntriesFrom (s t : State) : Prop :=
  ∃ joined, t.rq = s.rq ++ joined ∧ AccountedFor s joined t.oq

theorem EntriesFrom.refl (s : State) : EntriesFrom s s :=
  ⟨[], (List.append_nil _).symm, fun e he => .inl ⟨e, he, rfl, rfl, rfl⟩⟩

/-- A queue in which every entry stands still accounts for what the one before did. -/
theorem AccountedFor.of_stillQueued {s : State} {joined : List ReturnRecord} {queue queue' : List OutboundEntry}
    (hstill : ∀ f ∈ queue, StillQueued f queue') (h : AccountedFor s joined queue) : AccountedFor s joined queue' := by
  intro e he
  refine (h e he).imp_left (fun hq => ?_)
  obtain ⟨f, hf, htag, hdest, hpayload⟩ := hq
  obtain ⟨g, hg, htag', hdest', hpayload'⟩ := hstill f hf
  exact ⟨g, hg, htag'.trans htag, hdest'.trans hdest, hpayload'.trans hpayload⟩

section
variable {z s : State} (h : EntriesFrom z s)
include h

theorem EntriesFrom.of_stillQueued {t : State} (hrq : t.rq = s.rq) (hstill : ∀ f ∈ s.oq, StillQueued f t.oq) :
    EntriesFrom z t := by
  obtain ⟨joined, hjoined, haccount⟩ := h
  exact ⟨joined, hrq.trans hjoined, haccount.of_stillQueued hstill⟩

/-- The entries completed leave with their DONE records at the tail (R93). -/
theorem EntriesFrom.completeWhere (p : OutboundEntry → Bool) (o : MessageOutcome) :
    EntriesFrom z (completeWhere p o s) := by
  obtain ⟨joined, hjoined, haccount⟩ := h
  refine ⟨joined ++ (s.oq.filter p).map (doneRecord o), ?_, fun e he => ?_⟩
  · exact (congrArg (· ++ _) hjoined).trans (List.append_assoc _ _ _)
  · rcases haccount e he with ⟨f, hf, htag, hdest, hpayload⟩ | ⟨outcome, attempts, hdone⟩
    · cases hp : p f with
      | true =>
        refine .inr ⟨o, f.attempts, List.mem_append_right _ (List.mem_map.mpr ⟨f, ?_, ?_⟩)⟩
        · exact List.mem_filter.mpr ⟨hf, hp⟩
        · rw [doneRecord, htag, hdest]
      | false => exact .inl ⟨f, mem_completeWhere.mpr ⟨hf, hp⟩, htag, hdest, hpayload⟩
    · exact .inr ⟨outcome, attempts, List.mem_append_left _ hdone⟩

theorem EntriesFrom.updateEntry {tag : Byte} {f : OutboundEntry → OutboundEntry} (hf : KeepsMessage f) :
    EntriesFrom z (updateEntry tag f s) := by
  refine h.of_stillQueued rfl (fun e he => ⟨_, mem_updateEntry.mpr ⟨e, he, rfl⟩, ?_⟩)
  split
  · exact hf e
  · exact ⟨rfl, rfl, rfl⟩

theorem EntriesFrom.admitReport {t : State} {a : Address} {payload : List Byte}
    (ht : admitReport a payload s = some t) : EntriesFrom z t := by
  obtain ⟨joined, hjoined, haccount⟩ := h
  rw [admitReport_eq] at ht
  split at ht
  · cases ht
    refine ⟨joined ++ [.report a payload s.ps.cycle], ?_, fun e he => ?_⟩
    · exact (congrArg (· ++ _) hjoined).trans (List.append_assoc _ _ _)
    · exact (haccount e he).imp_right
        (fun ⟨outcome, attempts, hdone⟩ => ⟨outcome, attempts, List.mem_append_left _ hdone⟩)
  · cases ht

end

theorem keptByTimer_entriesFrom (z : State) : KeptByTimer (EntriesFrom z) where
  toKeptByLine := by
    refine .ofTableFree (fun s t happart h => h.of_stillQueued (apart_rq happart) (fun e he => ?_))
      (fun _ _ h => h) (fun _ _ h => h) (fun _ _ h => h) (fun _ _ _ h => h) (fun _ _ h => h)
      (fun _ p o h => h.completeWhere p o) (fun _ _ _ hf h => h.updateEntry hf) (fun _ _ _ _ ht h => h.admitReport ht)
      (fun _ _ _ _ _ _ h => h) (fun _ h => h)
    obtain ⟨f, hf, hunsent⟩ := apart_entry happart he
    simp only [OutboundEntry.unsent, OutboundEntry.mk.injEq] at hunsent
    obtain ⟨htag, hdest, hpayload, -, -, -⟩ := hunsent
    exact ⟨f, hf, htag, hdest, hpayload⟩
  timer _ _ h := h
  supervisionHold _ h := h
  withdraw _ h := h

/-- TAKE-RETURN takes the head of the Return Queue; every other act but the resets leaves it at its head (R103, R111). -/
theorem Act.entriesFrom {c : Instr} {s u : State} (hact : Act s c u) (hpower : c ≠ .powerOn) (hpin : c ≠ .pinReset)
    (hclear : c ≠ .clear) : EntriesFrom s u ∨ (c = .takeReturn ∧ u.rq = s.rq.tail ∧ u.oq = s.oq) := by
  have kept {t : State} (h : EntriesFrom s t) : EntriesFrom s t ∨ (c = .takeReturn ∧ t.rq = s.rq.tail ∧ t.oq = s.oq) :=
    .inl h
  cases hact with
  | moved hcourse => exact kept ((keptByTimer_entriesFrom s).act hcourse (.refl s))
  | removed => exact kept ((EntriesFrom.refl s).completeWhere _ _ : EntriesFrom s (completeWhere _ _ s))
  | purged => exact kept ((EntriesFrom.refl s).completeWhere _ _)
  | submitted =>
    exact kept ((EntriesFrom.refl s).of_stillQueued rfl
      (fun e he => ⟨e, List.mem_append_left _ he, rfl, rfl, rfl⟩))
  | returnTaken hrq => exact .inr ⟨rfl, by rw [hrq, List.tail_cons], rfl⟩
  | cleared => exact absurd rfl hclear
  | reset hreset =>
    rcases hreset with hc | hc
    · exact absurd hc hpower
    · exact absurd hc hpin
  | nothing | enrolled | leaveSet | parked | unparked | recordMarked | allSynced | lineZeroed | attnTaken
  | serviceEnded | dismissed | unitWritten | holdEntered | holdLeft | settingsWritten | limitsWritten | windowAccessed
  | resetEnded => exact kept (EntriesFrom.refl s)

/-- Settles O56: what each act does to the two queues. -/
theorem everyEntryEndsInADoneRecord : Obligations.EveryEntryEndsInADoneRecord := by
  intro c s t h hpower hpin hclear
  obtain ⟨u, hact, hleaves⟩ := exec_act h
  obtain ⟨w, -, -, rfl⟩ := hleaves.window
  rcases hact.entriesFrom hpower hpin hclear with ⟨joined, hjoined, haccount⟩ | ⟨hc, hrq, hoq⟩
  · exact ⟨joined, .inl hjoined, haccount⟩
  · exact ⟨[], .inr ⟨hc, rfl, hrq⟩, fun e he => .inl ⟨e, hoq.symm ▸ he, rfl, rfl, rfl⟩⟩

end Sys2Proof.Machine

/-! SUPPORT. The pause timer's law where the scheduler comes to rest, and what holds while an exchange is in progress: what the
end of an exchange reads, kept by all that an attempt does before it (R40, R44, R57, R66, R92). -/

namespace Sys2Proof.Machine

/-! ### Where the scheduler comes to rest -/

/-- The state in which a cycle opens (R41). -/
def cycleOpened (s : State) : State :=
  { s with ps := { s.ps with
      cycle := s.ps.cycle + 1, cursor := s.st.pollList.head?, exchangeHanded := false, phase := .opening
      pauseTimer := none } }

theorem startCycle_eq (s : State) : startCycle s =
    if s.lc.announcement ≠ .none then handAnnouncement (cycleOpened s)
    else if s.lc.holdInForce then handExchange .hold 0 none (fullAllowance s) (cycleOpened s)
    else openingMessage passTailUnhanded (cycleOpened s) := rfl

/-- A property `Q` that the scheduler leaves where it hands an exchange or begins a pause, `P` being what it finds. -/
structure LeftByScheduler (P Q : State → Prop) : Prop where
  opened : ∀ s, P s → P (cycleOpened s)
  walking : ∀ s, P s → P { s with ps := { s.ps with phase := .walking } }
  cursor : ∀ s c, P s → P { s with ps := { s.ps with cursor := c } }
  countdown : ∀ s a f, P s → P (updateStation a f s)
  turn : ∀ t s, P s → Q (decideTurn t s)
  newTurn : ∀ t s, P s → P { s with ps := { s.ps with turn := t } }
  announced : ∀ s, P s → Q (handAnnouncement s)
  handed : ∀ kind entry n s, P s → Q (handExchange kind 0 entry n s)
  sent : ∀ tag s, P s → P (sendEntry tag s)
  paused : ∀ n s, n ≠ 0 → P s → Q (startPause n s)
  rested : ∀ s, P s → Q s

namespace LeftByScheduler

variable {P Q : State → Prop} (k : LeftByScheduler P Q)
include k

theorem walkFrom {tail : State → State} (htail : ∀ s, P s → Q (tail s)) :
    ∀ (l : List Address) (s : State), P s → Q (walkFrom tail l s)
  | [], _, h => htail _ (k.cursor _ _ h)
  | a :: rest, s, h => by
    have begins (r : StationRecord) (kind : TurnKind) (u : State) (hu : P u) : Q (beginTurn r kind u) :=
      k.turn _ _ (k.newTurn _ _ hu)
    have hpassed := k.cursor _ rest.head? h
    unfold Machine.walkFrom
    simp only
    split
    · exact walkFrom htail rest _ hpassed
    · split
      · exact walkFrom htail rest _ hpassed
      · split
        · exact begins _ _ _ hpassed
        · exact walkFrom htail rest _ hpassed
      all_goals
        split
        · exact begins _ _ _ (k.countdown _ _ _ hpassed)
        · exact walkFrom htail rest _ (k.countdown _ _ _ hpassed)

theorem openingMessage {tail : State → State} (htail : ∀ s, P s → Q (tail s)) {s : State} (h : P s) :
    Q (openingMessage tail s) := by
  unfold Machine.openingMessage
  split
  · split
    · exact k.announced _ h
    · exact k.handed _ _ _ _ (k.sent _ _ h)
  · exact k.walkFrom htail _ _ (k.walking _ h)

theorem passTailUnhanded {s : State} (h : P s) : Q (passTailUnhanded s) := by
  unfold Machine.passTailUnhanded
  split
  · exact k.announced _ h
  · refine k.paused _ _ ?_ h
    split
    · exact (by decide : (1 : Byte) ≠ 0)
    · assumption

theorem startCycle {s : State} (h : P (cycleOpened s)) : Q (startCycle s) := by
  rw [startCycle_eq]
  split
  · exact k.announced _ h
  · split
    · exact k.handed _ _ _ _ h
    · exact k.openingMessage (fun _ => k.passTailUnhanded) h

theorem passTail {s : State} (h : P s) : Q (passTail s) := by
  unfold Machine.passTail
  split
  · exact k.announced _ h
  · split
    · split
      · exact k.startCycle (k.opened _ h)
      · exact k.paused _ _ (by decide) h
    · exact k.paused _ _ (by assumption) h

theorem resume (x : Exchange) {s : State} (h : P s) : Q (resume x s) := by
  unfold Machine.resume
  split
  · split
    · exact k.walkFrom (fun _ => k.passTail) _ _ (k.walking _ h)
    · exact k.openingMessage (fun _ => k.passTail) h
  · split
    · exact k.turn _ _ h
    · exact k.walkFrom (fun _ => k.passTail) _ _ h
  · exact k.rested _ h
  · exact k.rested _ h

end LeftByScheduler

/-! ### The pause timer (R40, R57) -/

theorem pauseLaw_of_stopped {s : State} (h : s.ps.pauseTimer = none) : PauseLaw s :=
  fun _ hn => nomatch h.symm.trans hn

theorem pauseTimer_decideTurn (t : Turn) (s : State) : (decideTurn t s).ps.pauseTimer = s.ps.pauseTimer := by
  unfold decideTurn handStage
  repeat' split
  all_goals rfl

/-- The scheduler finds the pause timer stopped and leaves it so, or running with something to count. -/
theorem pauseLaw_leftByScheduler : LeftByScheduler (fun s => s.ps.pauseTimer = none) PauseLaw where
  opened _ _ := rfl
  walking _ h := h
  cursor _ _ h := h
  countdown _ _ _ h := h
  turn t s h := pauseLaw_of_stopped ((pauseTimer_decideTurn t s).trans h)
  newTurn _ _ h := h
  announced _ h := pauseLaw_of_stopped h
  handed _ _ _ _ h := pauseLaw_of_stopped h
  sent _ _ h := h
  paused n _ hn _ := by
    intro m hm
    cases hm
    exact ⟨rfl, hn⟩
  rested _ h := pauseLaw_of_stopped h

theorem pauseLaw_startCycle (s : State) : PauseLaw (startCycle s) := pauseLaw_leftByScheduler.startCycle rfl

/-- A turn that ends touches the cursor and the turn record of the scheduler alone. -/
theorem pauseTimer_endTurn (result : TurnResult) (s : State) :
    (endTurn result s).ps.pauseTimer = s.ps.pauseTimer := by
  have hresult (a : Address) : (applyTurnResult result a s).ps.pauseTimer = s.ps.pauseTimer :=
    congrArg Scheduler.pauseTimer (applyTurnResult_keeps result a s).2.2.2.2.1
  unfold endTurn completeLeave
  split
  · rfl
  · rename_i t _
    simp only
    split
    · exact hresult t.address
    · split
      all_goals exact hresult t.address

theorem pauseTimer_turnCourse (k : FrameKind) (o : ExchangeOutcome) (s : State) :
    (turnCourse k o s).ps.pauseTimer = s.ps.pauseTimer := by
  unfold turnCourse
  split
  · exact pauseTimer_endTurn _ s
  · exact pauseTimer_endTurn _ s
  · rfl
  · rfl
  · rfl
  · exact pauseTimer_endTurn _ s
  · exact pauseTimer_endTurn _ s

theorem pauseLaw_abandonCycle (s : State) : PauseLaw (abandonCycle s) := pauseLaw_of_stopped rfl

theorem pauseLaw_endExchange (x : Exchange) (o : ExchangeOutcome) {s : State} (h : s.ps.pauseTimer = none) :
    PauseLaw (endExchange x o s) := by
  have htaken : (outcomeTaken x o s).ps.pauseTimer = none := by
    unfold outcomeTaken
    split
    · rw [(broadcastEnded_keeps o _).1, outcomeFinds_ps]
      exact h
    · rw [pauseTimer_turnCourse, outcomeFinds_ps]
      exact h
  rw [endExchange_from]
  split
  · exact pauseLaw_leftByScheduler.resume x htaken
  · exact pauseLaw_of_stopped rfl

/-! ### What the end of an exchange reads -/

/-- The laws that the end of an exchange reads, but for the entry carried. -/
structure Coursed (s : State) : Prop where
  queued : ∀ e ∈ s.oq, e.status = .queued → e.attempts = 0
  tags : s.oq.Pairwise (fun e f => e.tag ≠ f.tag)
  walk : WalkLaw s
  leave : LeaveLaw s
  turn : s.ps.turn ≠ none → s.ps.phase = .walking
  table : TableLaw s
  pollList : s.st.pollList.Nodup
  pause : s.ps.pauseTimer = none
  running : s.lc.mode ≠ .off → s.ps.phase = .opening ∨ s.ps.phase = .walking

/-- What holds while an exchange is in progress: an IN-FLIGHT entry is the one it carries, that entry is in the queue and
IN-FLIGHT, and an addressed exchange belongs to the turn in progress. -/
structure Exchanging (x : Exchange) (s : State) : Prop extends Coursed s where
  inFlight : ∀ e ∈ s.oq, e.status = .inFlight → x.kind = .write ∧ x.entry = some e.tag ∧ x.address = e.destination
  carried : ∀ tag, x.entry = some tag → ∃ e ∈ s.oq, e.tag = tag ∧ e.status = .inFlight ∧ e.destination = x.address
  owned : x.address ≠ 0 → inTurn s x.address = true

section
variable {s : State} (h : Coursed s)
include h

theorem Coursed.station {a : Address} {f : StationRecord → StationRecord} (hf : KeepsStanding f) :
    Coursed (updateStation a f s) where
  queued := h.queued
  tags := h.tags
  turn := h.turn
  table := h.table.updateStation (fun r => (hf r).1)
  pollList := h.pollList
  pause := h.pause
  running := h.running
  leave q hq hleave := by
    obtain ⟨r, hr, rfl⟩ := mem_update.mp hq
    obtain ⟨haddr, -, hl, -⟩ := hf r
    split
    · rename_i ha
      rw [if_pos ha, hl] at hleave
      exact haddr.symm ▸ h.leave r hr hleave
    · rename_i ha
      rw [if_neg ha] at hleave
      exact h.leave r hr hleave
  walk := by
    refine ⟨h.walk.1, fun t ht => ?_⟩
    obtain ⟨r, hr, haddr, hparked, hkind⟩ := h.walk.2 t ht
    obtain ⟨haddr', hstate, -, -⟩ := hf r
    refine ⟨_, mem_update.mpr ⟨r, hr, rfl⟩, ?_⟩
    split
    · rw [haddr', hstate]
      exact ⟨haddr, hparked, hkind⟩
    · exact ⟨haddr, hparked, hkind⟩

theorem Coursed.completeWhere {p : OutboundEntry → Bool} {o : MessageOutcome} : Coursed (completeWhere p o s) :=
  { h with
    queued := fun e he => h.queued e (List.mem_filter.mp he).1
    tags := h.tags.filter _ }

theorem Coursed.updateEntry {tag : Byte} {f : OutboundEntry → OutboundEntry} (hf : ∀ e, (f e).tag = e.tag)
    (hattempts : ∀ e ∈ s.oq, e.tag = tag → (f e).status = .queued → (f e).attempts = 0) :
    Coursed (updateEntry tag f s) := by
  have htag (e : OutboundEntry) : (if e.tag == tag then f e else e).tag = e.tag := by
    split
    · exact hf e
    · rfl
  refine { h with queued := fun e he => ?_, tags := ?_ }
  · obtain ⟨d, hd, rfl⟩ := mem_updateEntry.mp he
    split
    · rename_i ht
      exact hattempts d hd ht
    · exact h.queued d hd
  · exact List.pairwise_map.mpr (by simpa only [htag] using h.tags)

theorem Coursed.requeueEntry {tag : Byte} : Coursed (requeueEntry tag s) :=
  h.updateEntry (fun _ => rfl) (fun _ _ _ _ => rfl)

theorem Coursed.deferEntry {tag : Byte} : Coursed (deferEntry tag s) := by
  have hcounted : Coursed (Machine.updateEntry tag (fun e => { e with defers := satInc e.defers }) s) :=
    h.updateEntry (fun _ => rfl) (fun e he _ => h.queued e he)
  unfold Machine.deferEntry completeTag
  simp only
  split
  · exact hcounted.completeWhere
  · exact hcounted.requeueEntry

theorem Coursed.admitReport {t : State} {a : Address} {payload : List Byte}
    (ht : admitReport a payload s = some t) : Coursed t := by
  rw [admitReport_eq] at ht
  split at ht
  · cases ht
    exact { h with }
  · cases ht

theorem Coursed.newReport {a : Address} {b : Bool} {payload : List Byte} : Coursed (newReport a b payload s) := by
  unfold Machine.newReport
  split
  · rename_i ht
    exact (h.admitReport ht).station (fun _ => ⟨rfl, rfl, rfl, rfl⟩)
  · exact h.station (fun _ => ⟨rfl, rfl, rfl, rfl⟩)

theorem Coursed.newAlert {a : Address} {b : Bool} {payload : List Byte} : Coursed (newAlert a b payload s) := by
  unfold Machine.newAlert
  split
  · rename_i u _
    exact Coursed.station (s := { s with au := u }) { h with } (fun _ => ⟨rfl, rfl, rfl, rfl⟩)
  · exact h.station (fun _ => ⟨rfl, rfl, rfl, rfl⟩)

/-- The effect of a good reply, whatever its kind (R78). -/
theorem Coursed.replyEffect (x : Exchange) (k : ReplyKind) (r : Reply) : Coursed (replyEffect x k r s) := by
  unfold Machine.replyEffect
  split
  · exact h
  · split
    · exact h.station (fun _ => ⟨rfl, rfl, rfl, rfl⟩)
    · exact h
  · split
    · exact h.station (fun _ => ⟨rfl, rfl, rfl, rfl⟩)
    · exact h.newReport
  · split
    · exact h.station (fun _ => ⟨rfl, rfl, rfl, rfl⟩)
    · exact h.newAlert
  · have htoggled := h.station (a := x.address) (f := fun r => { r with outToggle := !r.outToggle })
      (fun _ => ⟨rfl, rfl, rfl, rfl⟩)
    simp only
    split
    · exact htoggled
    · exact htoggled.completeWhere
  · split
    · exact h
    · exact h.deferEntry

/-- An exchange ends with the laws of the line, the entries and the walk, and with the pause's. -/
theorem Coursed.endExchange {x : Exchange} {o : ExchangeOutcome}
    (hflight : ∀ e ∈ s.oq, e.status = .inFlight → x.entry = some e.tag ∧ (o = .good → x.address = 0)) :
    CourseLaws (endExchange x o s) ∧ PauseLaw (endExchange x o s) :=
  ⟨courseLaws_endExchange
    { h with
      inFlight := hflight
      running := fun hrun => h.running (by rw [hrun]; simp) },
   pauseLaw_endExchange x o h.pause⟩

end

/-- A reply settles the entry it answers for: none is IN-FLIGHT after the effect of a good one (R78, R94, R95). -/
theorem replyEffect_settles {x : Exchange} {k : ReplyKind} {r : Reply} {s : State} (h : Exchanging x s)
    (hk : kindAnswers x.kind k = true) : ∀ e ∈ (replyEffect x k r s).oq, e.status ≠ .inFlight := by
  have none_unless_write (hkind : x.kind ≠ .write) : ∀ e ∈ s.oq, e.status ≠ .inFlight :=
    fun e he hs => hkind (h.inFlight e he hs).1
  rcases (kindAnswers_iff _ _).mp hk with ⟨hx, rfl | rfl | rfl⟩ | ⟨hx, rfl | rfl⟩ | ⟨hx, rfl⟩
  · have hnone := none_unless_write (by simp [hx])
    simpa only [replyEffect, hx, reduceCtorEq, if_false] using hnone
  · have hnone := none_unless_write (by simp [hx])
    simp only [replyEffect, newReport, admitReport_eq]
    repeat' split
    all_goals try exact hnone
    rename_i hadmit
    split at hadmit
    · cases hadmit; exact hnone
    · cases hadmit
  · have hnone := none_unless_write (by simp [hx])
    simp only [replyEffect, newAlert]
    repeat' split
    all_goals exact hnone
  · simp only [replyEffect]
    intro e he hs
    split at he
    · rename_i hentry
      exact nomatch hentry.symm.trans (h.inFlight e he hs).2.1
    · rename_i tag hentry
      obtain ⟨hmem, hother⟩ := mem_completeWhere.mp he
      have htag : some e.tag = some tag := (h.inFlight e hmem hs).2.1.symm.trans hentry
      simp [Option.some.inj htag] at hother
  · simp only [replyEffect]
    intro e he hs
    split at he
    · rename_i hentry
      exact nomatch hentry.symm.trans (h.inFlight e he hs).2.1
    · rename_i tag hentry
      have counted {d : OutboundEntry} (hd : d ∈ (updateEntry tag (fun e =>
          { e with defers := satInc e.defers }) s).oq) (hne : d.tag ≠ tag) : d.status ≠ .inFlight := by
        obtain ⟨c, hc, rfl⟩ := mem_updateEntry.mp hd
        split
        · rename_i hct
          exact absurd (by rw [if_pos hct]; exact hct) hne
        · rename_i hct
          intro hcs
          exact hct (Option.some.inj ((h.inFlight c hc hcs).2.1.symm.trans hentry))
      unfold deferEntry completeTag at he
      simp only at he
      split at he
      · obtain ⟨hmem, hother⟩ := mem_completeWhere.mp he
        exact counted hmem (by simpa using hother) hs
      · obtain ⟨d, hd, rfl⟩ := mem_updateEntry.mp he
        split at hs
        · cases hs
        · rename_i hdt
          exact counted hd hdt hs
  · have hnone := none_unless_write (by simp [hx])
    simp only [replyEffect, hx, if_true]
    exact hnone

section
variable {x : Exchange} {s : State} (h : Exchanging x s)
include h

/-- Every outcome but GOOD ends the exchange lawfully. -/
theorem Exchanging.endExchange {o : ExchangeOutcome} (ho : o = .good → x.address = 0) :
    CourseLaws (endExchange x o s) ∧ PauseLaw (endExchange x o s) :=
  h.toCoursed.endExchange (fun e he hs => ⟨(h.inFlight e he hs).2.1, ho⟩)

theorem Exchanging.station {a : Address} {f : StationRecord → StationRecord} (hf : KeepsStanding f) :
    Exchanging x (updateStation a f s) :=
  { h.toCoursed.station hf with inFlight := h.inFlight, carried := h.carried, owned := h.owned }

theorem Exchanging.countFailed : Exchanging x (countFailed x s) := by
  unfold Machine.countFailed
  split
  · exact h
  · exact h.station (fun _ => ⟨rfl, rfl, rfl, rfl⟩)

/-- The exchange in SETTLE, SEND, LISTEN, RECEIVE or, of a broadcast, QUIET, with DE asserted in SEND alone. -/
theorem Exchanging.laws (hmode : s.lc.mode ≠ .off)
    (hx : ∃ y, s.ee.exchange = some y ∧ y.kind = x.kind ∧ y.address = x.address ∧ y.entry = x.entry)
    (hstate : s.ee.state ≠ .idle) (hde : s.ee.driverEnable = true ↔ s.ee.state = .send)
    (hquiet : s.ee.state = .quiet → x.address = 0) : CourseLaws s ∧ PauseLaw s := by
  obtain ⟨y, hy, hkind, haddr, hentry⟩ := hx
  have hne : s.ee.exchange ≠ none := by simp [hy]
  have hphase := h.running hmode
  refine ⟨⟨⟨?_, ?_, fun _ => hne, ?_, h.turn, iff_of_false hstate hne, hde, ?_, ?_⟩, h.leave, ⟨?_, h.queued, ?_⟩,
    h.walk⟩, pauseLaw_of_stopped h.pause⟩
  · refine iff_of_false ?_ hmode
    rcases hphase with hp | hp <;> simp [hp]
  · exact fun hoff => absurd hoff hmode
  · refine iff_of_false ?_ (fun hrun => hne hrun.2)
    rcases hphase with hp | hp <;> simp [hp]
  · intro hq z hz
    cases hy.symm.trans hz
    exact haddr.trans (hquiet hq)
  · intro z hz hza
    cases hy.symm.trans hz
    exact haddr.symm ▸ h.owned (haddr ▸ hza)
  · intro e he hs
    obtain ⟨h1, h2, h3⟩ := h.inFlight e he hs
    exact ⟨y, hy, hkind.trans h1, hentry.trans h2, haddr.trans h3⟩
  · intro z tag hz htag
    cases hy.symm.trans hz
    obtain ⟨e, he, h1, h2, h3⟩ := h.carried tag (hentry.symm.trans htag)
    exact ⟨e, he, h1, h2, h3.trans haddr.symm⟩

end

end Sys2Proof.Machine

/-! SUPPORT. The laws of the line, of leaving, of the entries, of the walk and of the pause, kept by the rows of the line: each
row ends the exchange, goes on with it, or changes the engine in what the laws do not read. -/

namespace Sys2Proof.Machine

/-- The laws that a row of the line keeps and that O57 and O58 do not speak of. -/
def Steady (t : State) : Prop := CourseLaws t ∧ PauseLaw t

/-- What a row of the line finds. -/
structure OnCourse (s : State) : Prop where
  table : TableLaw s
  pollList : s.st.pollList.Nodup
  tags : s.oq.Pairwise (fun e f => e.tag ≠ f.tag)
  steady : Steady s

theorem Lawful.onCourse {s : State} (h : Lawful s) : OnCourse s := by
  obtain ⟨htable, hpoll, -, hqueue, -, -, -, hline, hleave, hentry, hwalk, hpause⟩ := h
  exact ⟨htable, hpoll.1, hqueue.2.2.1, ⟨hline, hleave, hentry, hwalk⟩, hpause⟩

/-- Changes of the engine that leave its state, its exchange and DE. -/
def SameCourse (e f : Engine) : Prop :=
  f.state = e.state ∧ f.exchange = e.exchange ∧ f.driverEnable = e.driverEnable

section
variable {s : State} (h : OnCourse s)
include h

theorem OnCourse.engine {e : Engine} (he : SameCourse s.ee e) : OnCourse { s with ee := e } := by
  cases e
  obtain ⟨rfl, rfl, rfl⟩ := he
  exact ⟨h.table, h.pollList, h.tags, h.steady⟩

theorem OnCourse.exchanging {x : Exchange} (hx : s.ee.exchange = some x) : Exchanging x s ∧ s.lc.mode ≠ .off := by
  obtain ⟨⟨⟨hphase, hoff, -, hpausing, hturn, -, -, -, howned⟩, hleave, ⟨hflight, hqueued, hcarried⟩, hwalk⟩, hpause⟩ :=
    h.steady
  have hmode : s.lc.mode ≠ .off := fun hm => nomatch hx.symm.trans (hoff hm).1
  have hnot : s.ps.phase ≠ .pausing := fun hp => nomatch hx.symm.trans (hpausing.mp hp).2
  refine ⟨⟨⟨hqueued, h.tags, hwalk, hleave, hturn, h.table, h.pollList, ?_, fun _ => ?_⟩, ?_, ?_, howned x hx⟩, hmode⟩
  · cases hp : s.ps.pauseTimer with
    | none => rfl
    | some n => exact absurd (hpause n hp).1 hnot
  · cases hp : s.ps.phase with
    | none => exact absurd (hphase.mp hp) hmode
    | pausing => exact absurd hp hnot
    | opening => exact .inl rfl
    | walking => exact .inr rfl
  · intro e he hs
    obtain ⟨y, hy, hrest⟩ := hflight e he hs
    cases hx.symm.trans hy
    exact hrest
  · exact fun tag htag => hcarried x tag hx htag

end

/-! ### The course of an exchange -/

/-- After a failed attempt the exchange ends, or SETTLE is entered for the next one (R77). -/
theorem Exchanging.attemptCourse {x : Exchange} {s : State} (h : Exchanging x s) (hx : s.ee.exchange = some x) :
    Steady (attemptCourse x s) := by
  unfold Machine.attemptCourse
  split
  · exact h.endExchange nofun
  · rename_i hrun
    split
    · exact h.endExchange nofun
    · split
      · exact h.endExchange nofun
      · have hsettle : Exchanging x (enterSettle s) := { h with }
        have hmode : s.lc.mode ≠ .off := by simp [not_not.mp hrun]
        exact hsettle.laws hmode ⟨x, hx, rfl, rfl, rfl⟩ (by simp [enterSettle])
          (by simp [enterSettle, Engine.releaseLine]) (by simp [enterSettle])

theorem OnCourse.attemptFails {s : State} (h : OnCourse s) (reason : FailReason) : Steady (attemptFails reason s) := by
  unfold Machine.attemptFails
  split
  · exact h.steady
  · rename_i x hx
    have hcounted := (h.exchanging hx).1.countFailed
    refine Exchanging.attemptCourse (s := { countFailed x s with ee := _ }) { hcounted with } ?_
    simp only [countFailed]
    split <;> exact hx

/-- A faulted attempt ends as a failed one, with the line OFF at the third fault in a row (R70, R71). -/
theorem OnCourse.faultEnds {s : State} (h : OnCourse s) : Steady (faultEnds s) := by
  unfold Machine.faultEnds
  split
  · exact h.steady
  · rename_i x hx
    have hfound (e : Engine) : Exchanging x { s with ee := e } := { (h.exchanging hx).1 with }
    have hcounted (e : Engine) : Exchanging x (lineFaultEvent (countFailed x { s with ee := e })) :=
      { (hfound e).countFailed with }
    have hexchange (e : Engine) (he : e.exchange = s.ee.exchange) :
        (lineFaultEvent (countFailed x { s with ee := e })).ee.exchange = some x := by
      simp only [lineFaultEvent, controllerEvent_ee, countFailed]
      split <;> exact he.trans hx
    simp only
    split
    · refine Exchanging.attemptCourse ?_ (hexchange _ rfl)
      exact { hcounted _ with running := fun hmode => absurd rfl hmode }
    · exact (hcounted _).attemptCourse (hexchange _ rfl)

/-- A reply without a fault is one that answers its request (R10, R74). -/
theorem kindAnswers_of_good {s : State} {x : Exchange} {ending : AssemblyEnd} {buffer : List RxChar}
    (hgood : replyFault s x ending buffer = .none) :
    kindAnswers x.kind ((replyKindOf (replyOf buffer).ctrl).getD .none) = true := by
  have hvalid : replyValid x.kind (replyOf buffer) = true := by
    unfold replyFault at hgood
    simp only at hgood
    repeat' split at hgood
    all_goals try cases hgood
    rename_i hvalid _
    simpa using hvalid
  unfold replyValid at hvalid
  split at hvalid
  · cases hvalid
  · rename_i k hk
    simp only [Bool.and_eq_true] at hvalid
    rw [hk]
    exact hvalid.1.1.1

/-- A good reply has dealt with its entry, and its exchange ends (R78, R79). -/
theorem Exchanging.replyGood {x : Exchange} {r : Reply} {s : State} (h : Exchanging x s)
    (hk : kindAnswers x.kind ((replyKindOf r.ctrl).getD .none) = true) : Steady (replyGood x r s) := by
  unfold Machine.replyGood
  generalize (replyKindOf r.ctrl).getD .none = k at hk
  have heffect := h.toCoursed.replyEffect x k r
  have hnone := replyEffect_settles (r := r) h hk
  have hcounted := heffect.station (a := x.address)
    (f := fun r => { r with accepted := satInc r.accepted, lastReply := k }) (fun _ => ⟨rfl, rfl, rfl, rfl⟩)
  exact hcounted.endExchange (fun e he hs => absurd hs (hnone e he))

/-- A reply is good and ends the exchange, or fails the attempt (R74, R78). -/
theorem OnCourse.evaluateReply {s : State} (h : OnCourse s) (ending : AssemblyEnd) :
    Steady (evaluateReply ending s) := by
  unfold Machine.evaluateReply
  split
  · exact h.steady
  · rename_i x hx
    simp only
    split
    · rename_i hgood
      exact (h.exchanging hx).1.replyGood (kindAnswers_of_good hgood)
    · exact h.attemptFails _

theorem eq_of_tag {l : List OutboundEntry} (hl : l.Pairwise (fun e f => e.tag ≠ f.tag)) {e f : OutboundEntry}
    (he : e ∈ l) (hf : f ∈ l) (htag : e.tag = f.tag) : e = f :=
  List.inj_on_of_nodup_map (f := OutboundEntry.tag) (List.pairwise_map.mpr hl) he hf htag

/-- An attempt is counted in the entry carried, which is IN-FLIGHT (R92). -/
theorem Exchanging.countAttempt {x : Exchange} {s : State} {tag : Byte} (h : Exchanging x s) (hentry : x.entry = some tag) :
    Exchanging x (updateEntry tag (fun e => { e with attempts := e.attempts + 1 }) s) := by
  obtain ⟨carried, hcarried, htag, hflight, hdest⟩ := h.carried tag hentry
  have hcoursed := h.toCoursed.updateEntry (tag := tag) (f := fun e => { e with attempts := e.attempts + 1 })
    (fun _ => rfl) (fun e he het hs => by
      rw [eq_of_tag h.tags he hcarried (het.trans htag.symm), hflight] at hs
      cases hs)
  refine { hcoursed with inFlight := fun e he hs => ?_, carried := fun t ht => ?_, owned := h.owned }
  · obtain ⟨d, hd, rfl⟩ := mem_updateEntry.mp he
    split at hs <;> rename_i hdt
    · rw [if_pos hdt]
      exact h.inFlight d hd hs
    · rw [if_neg hdt]
      exact h.inFlight d hd hs
  · obtain ⟨e, he, h1, h2, h3⟩ := h.carried t ht
    refine ⟨_, mem_updateEntry.mpr ⟨e, he, rfl⟩, ?_⟩
    split <;> exact ⟨h1, h2, h3⟩

/-- The end of SETTLE: the exchange ends, or its next attempt begins (R68). -/
theorem OnCourse.settleEnds {s : State} (h : OnCourse s) : Steady (settleEnds s) := by
  unfold Machine.settleEnds
  split
  · exact h.steady
  · rename_i x hx
    obtain ⟨hx', hmode⟩ := h.exchanging hx
    split
    · exact hx'.endExchange nofun
    · split
      · exact hx'.endExchange nofun
      · have begins {u : State} (hu : Exchanging x u) (hum : u.lc.mode ≠ .off) (frame : List LineChar) :
            Steady { u with ee := { u.ee with
              state := .send, exchange := some { x with begun := x.begun + 1 }, driverEnable := true
              frame := frame, echoed := 0, faultFound := false, lastStopEnded := false
              turnCount := .stopped, settleTimer := .stopped } } :=
          Exchanging.laws (s := { u with ee := _ }) { hu with } hum ⟨_, rfl, rfl, rfl, rfl⟩ (by simp) (by simp) (by simp)
        unfold beginAttempt
        simp only
        split
        · exact begins hx' hmode _
        · rename_i tag hentry
          exact begins (hx'.countAttempt hentry) hmode _

/-! ### The rows -/

section
variable {s : State} (h : OnCourse s)
include h

/-- A frame is sent: from SEND to LISTEN, or to QUIET for a broadcast (R69, R76). -/
theorem OnCourse.frameSent (hsend : s.ee.state = .send) : Steady (frameSent s) := by
  obtain ⟨⟨⟨-, -, -, -, -, hidle, -, -, -⟩, -⟩, -⟩ := h.steady
  cases hx : s.ee.exchange with
  | none => exact absurd (hidle.mpr hx) (by simp [hsend])
  | some x =>
    obtain ⟨hx', hmode⟩ := h.exchanging hx
    have hstate : (Machine.frameSent s).ee.state = if x.address = 0 then .quiet else .listen := by
      simp only [Machine.frameSent, hx, Option.map_some, Option.some.injEq]
    refine Exchanging.laws (x := x) (s := Machine.frameSent s) { hx' with } hmode ⟨x, hx, rfl, rfl, rfl⟩ ?_
      (iff_of_false (by simp [Machine.frameSent, Engine.releaseLine]) ?_) ?_
    · rw [hstate]; split <;> simp
    · rw [hstate]; split <;> simp
    · rw [hstate]; split
      · exact fun _ => by assumption
      · exact nofun

theorem OnCourse.faultIsFound (b : Bool) : Steady (faultIsFound b s) := by
  unfold Machine.faultIsFound
  split
  · exact (h.engine ⟨rfl, rfl, rfl⟩).steady
  · exact h.faultEnds

theorem OnCourse.echoCheck (hsend : s.ee.state = .send) (c : RxChar) (begun : Nat) : Steady (echoCheck c begun s) := by
  unfold Machine.echoCheck
  split
  · unfold echoMatches
    simp only
    split
    · split
      · exact OnCourse.frameSent (s := { s with ee := _ }) (h.engine ⟨rfl, rfl, rfl⟩) hsend
      · exact (h.engine ⟨rfl, rfl, rfl⟩).steady
    · exact (h.engine ⟨rfl, rfl, rfl⟩).steady
  · exact h.faultIsFound _

/-- The head of a reply: from LISTEN to RECEIVE (R72). -/
theorem OnCourse.replyHead (hlisten : s.ee.state = .listen) (c : RxChar) : Steady (replyHead c s) := by
  obtain ⟨⟨⟨-, -, -, -, -, hidle, hde, -, -⟩, -⟩, -⟩ := h.steady
  cases hx : s.ee.exchange with
  | none => exact absurd (hidle.mpr hx) (by simp [hlisten])
  | some x =>
    obtain ⟨hx', hmode⟩ := h.exchanging hx
    refine Exchanging.laws (x := x) (s := Machine.replyHead c s) { hx' with } hmode ⟨x, hx, rfl, rfl, rfl⟩
      (by simp [Machine.replyHead]) ?_ (by simp [Machine.replyHead])
    simpa [Machine.replyHead, hlisten] using hde

theorem OnCourse.receiveChar (c : RxChar) : Steady (receiveChar c s) := by
  unfold Machine.receiveChar
  split
  · exact h.evaluateReply _
  · simp only
    have happended : OnCourse { s with ee := { s.ee with buffer := s.ee.buffer ++ [c], gapTimer := .running } } :=
      h.engine ⟨rfl, rfl, rfl⟩
    split
    · exact happended.evaluateReply _
    · split
      · exact happended.evaluateReply _
      · exact happended.steady

/-- A delivered character goes where the state of the engine sends it (R3, R75, R80). -/
theorem OnCourse.deliver (c : RxChar) (begun : Nat) : Steady (deliver c begun s) := by
  have hheard : OnCourse { s with ee := { s.ee with
      receiver := receiverAfter c, noise := if c.noise then satInc s.ee.noise else s.ee.noise } } :=
    h.engine ⟨rfl, rfl, rfl⟩
  unfold Machine.deliver
  simp only
  split
  · exact (h.engine ⟨rfl, rfl, rfl⟩).steady
  · exact (h.engine ⟨rfl, rfl, rfl⟩).steady
  · exact (h.engine ⟨rfl, rfl, rfl⟩).steady
  · rename_i hsend
    split
    · exact hheard.steady
    · exact hheard.echoCheck hsend c begun
  · rename_i hlisten
    split
    · exact hheard.replyHead hlisten c
    · split
      · exact OnCourse.attemptFails (s := countStray _) (hheard.engine ⟨rfl, rfl, rfl⟩) _
      · exact (h.engine ⟨rfl, rfl, rfl⟩).steady
  · exact hheard.receiveChar c

theorem OnCourse.falseStartFound : Steady (falseStartFound s) := by
  have hhunting : OnCourse { s with ee := { s.ee with receiver := .hunting } } := h.engine ⟨rfl, rfl, rfl⟩
  unfold Machine.falseStartFound
  simp only
  split
  · split
    · exact hhunting.settleEnds
    · exact hhunting.steady
  · split
    · exact hhunting.attemptFails _
    · exact hhunting.steady
  · split
    · exact hhunting.evaluateReply _
    · exact hhunting.steady
  all_goals exact hhunting.steady

/-- The QUIET of a broadcast ends it GOOD (R76). -/
theorem OnCourse.endGood (hquiet : s.ee.state = .quiet) : Steady (endGood s) := by
  obtain ⟨⟨⟨-, -, -, -, -, -, -, hbroadcast, -⟩, -⟩, -⟩ := h.steady
  unfold Machine.endGood
  split
  · exact h.steady
  · rename_i x hx
    exact (h.exchanging hx).1.endExchange (fun _ => hbroadcast hquiet x hx)

theorem OnCourse.lastStopBit (hsend : s.ee.state = .send) : Steady (lastStopBit s) := by
  unfold Machine.lastStopBit
  split
  · exact h.frameSent hsend
  · split
    · exact (h.engine ⟨rfl, rfl, rfl⟩).steady
    · exact h.steady

/-- Without an exchange the scheduler finds what it expects, and DE is released. -/
theorem OnCourse.ready (hx : s.ee.exchange = none) : Ready s ∧ s.ee.driverEnable = false := by
  obtain ⟨⟨⟨-, -, -, -, hwalking, hidle, hde, -, -⟩, hleave, ⟨hflight, hqueued, -⟩, hwalk⟩, -⟩ := h.steady
  have hstate : s.ee.state = .idle := hidle.mpr hx
  refine ⟨⟨hstate, hx, fun e he => ?_, h.tags, hwalk, hleave, hwalking⟩,
    Bool.eq_false_iff.mpr (fun hd => by simpa [hstate] using hde.mp hd)⟩
  cases hs : e.status with
  | queued => exact ⟨rfl, hqueued e he hs⟩
  | inFlight =>
    obtain ⟨y, hy, -⟩ := hflight e he hs
    exact nomatch hx.symm.trans hy

/-- A cycle starts on a line that runs with no exchange in progress (R41). -/
theorem OnCourse.startCycle (hmode : s.lc.mode = .run) (hx : s.ee.exchange = none) (hturn : s.ps.turn = none) :
    Steady (startCycle s) := by
  obtain ⟨hready, hde⟩ := h.ready hx
  have hapart := apart_startCycle s
  exact ⟨courseLaws_of_rested (rested_startCycle hready hturn) ((apart_mode hapart).trans hmode)
    ((apart_driverEnable hapart).trans hde), pauseLaw_startCycle s⟩

/-- The pause that is due has neither an exchange nor a turn (R57). -/
theorem OnCourse.startCycle_of_due (hdue : pauseDue s = true) : Steady (Machine.startCycle s) := by
  obtain ⟨⟨⟨-, -, -, hpausing, hwalking, -⟩, -⟩, -⟩ := h.steady
  obtain ⟨⟨-, hphase⟩, hmode⟩ : (_ ∧ s.ps.phase = .pausing) ∧ s.lc.mode = .run := by
    simpa [pauseDue] using hdue
  refine h.startCycle hmode (hpausing.mp hphase).2 ?_
  by_contra hturn
  exact nomatch hphase.symm.trans (hwalking hturn)

/-- The pause timer loses one, or the next cycle starts (R57). -/
theorem OnCourse.tickPause : Steady (tickPause s) := by
  unfold Machine.tickPause
  split
  · rename_i hdue
    exact h.startCycle_of_due hdue
  · rename_i hdue
    obtain ⟨hcourse, hpause⟩ := h.steady
    refine ⟨hcourse, fun n hn => ?_⟩
    obtain ⟨m, hm, rfl⟩ := Option.map_eq_some_iff.mp hn
    obtain ⟨hphase, hne⟩ := hpause m hm
    obtain ⟨⟨-, -, -, hpausing, -⟩, -⟩ := hcourse
    have hmany : ¬m.toNat ≤ 1 := by
      simpa [pauseDue, hm, hphase, (hpausing.mp hphase).1] using hdue
    refine ⟨hphase, ?_⟩
    rw [if_neg hne]
    bv_omega

end

/-- Every row of the line keeps the laws (R40, R44, R59, R66, R86, R92). -/
theorem OnCourse.lineRow {c : Instr} {s t : State} (h : OnCourse s) (hc : LineRow c) (ht : exec c s = .next t) :
    Steady t := by
  have running {f : State → State} (hf : Steady (f s)) (hw : whenRunning f s = .next t) : Steady t := by
    obtain ⟨-, rfl⟩ | ⟨-, rfl⟩ := whenRunning_next hw
    · exact h.steady
    · exact hf
  have same {e : Engine} (he : SameCourse s.ee e) : Steady { s with ee := e } := (h.engine he).steady
  rcases hc with rfl | ⟨cause, rfl⟩ | ⟨delivery, rfl⟩ | rfl | rfl | rfl | rfl | rfl | rfl | rfl | rfl | rfl
  all_goals refine running ?_ ht
  · split
    · rename_i hdue
      exact h.startCycle_of_due hdue
    · exact h.steady
  · unfold settleEvent
    split
    · split
      · exact same ⟨rfl, rfl, rfl⟩
      · exact h.settleEnds
    · exact h.steady
  · split
    · split
      · exact h.falseStartFound
      · exact h.deliver _ _
    · exact h.steady
  · split
    · exact h.faultIsFound _
    · exact h.steady
  · split
    · exact h.faultEnds
    · exact h.steady
  · split
    · split
      · exact same ⟨rfl, rfl, rfl⟩
      · exact h.attemptFails _
    · exact h.steady
  · split
    · split
      · exact same ⟨rfl, rfl, rfl⟩
      · exact h.evaluateReply _
    · exact h.steady
  · split
    · rename_i hquiet
      exact h.endGood hquiet
    · exact h.steady
  · split
    · exact same ⟨rfl, rfl, rfl⟩
    · exact h.steady
  · split
    · exact h.falseStartFound
    · exact h.steady
  · split
    · exact same ⟨rfl, rfl, rfl⟩
    · exact h.steady
  · split
    · rename_i hsound
      refine h.lastStopBit ?_
      simpa [sendingSound] using (Bool.and_eq_true_iff.mp hsound).1
    · exact h.steady

end Sys2Proof.Machine

/-! SUPPORT. Every step keeps all the laws together: the acts of the commands and of time on the laws of the line, of leaving, of
the entries, of the walk and of the pause; and the laws at reset. -/

namespace Sys2Proof.Machine

/-! ### The acts on the line and on time -/

/-- The laws read the line mode alone of Line Control. -/
theorem Steady.lineControl {s : State} {l : LineControl} (h : Steady s) (hmode : l.mode = s.lc.mode) :
    Steady { s with lc := l } := by
  cases l
  cases hmode
  exact h

theorem keptByStages_steady : KeptByStages Steady where
  event _ _ _ _ h := h
  timer _ _ h := h
  supervisionHold _ h := h
  withdraw s h := by
    refine h.lineControl ?_
    unfold LineControl.withdrawSupervision
    split <;> rfl

section
variable {s : State} (h : OnCourse s)
include h

/-- A line that is OFF has neither an exchange nor a turn, and the engine stands IDLE with DE released (R139). -/
theorem OnCourse.off (hoff : s.lc.mode = .off) : s.ee.exchange = none ∧ s.ps.turn = none := by
  obtain ⟨⟨⟨-, hnone, -⟩, -⟩, -⟩ := h.steady
  exact hnone hoff

/-- LINE-START from OFF: the line runs and a cycle starts (R141). -/
theorem OnCourse.startLine (hoff : s.lc.mode = .off) : Steady (startLine s) := by
  obtain ⟨hx, hturn⟩ := h.off hoff
  obtain ⟨hready, hde⟩ := h.ready hx
  have hready' : Ready { s with
    lc := { s.lc with mode := .run, stopCause := .none }, ee := { s.ee with faultStreak := 0 } } := { hready with }
  exact ⟨courseLaws_of_rested (rested_startCycle hready' hturn) (apart_mode (apart_startCycle _))
    ((apart_driverEnable (apart_startCycle _)).trans hde), pauseLaw_startCycle _⟩

/-- A running line that is to stop at its exchange, or a stopping one that is to run on, changes the mode alone (R141,
R142). -/
theorem OnCourse.lineMode {m : LineMode} (hx : s.ee.exchange ≠ none) (hm : m ≠ .off) (hs : s.lc.mode ≠ .off) :
    Steady { s with lc := { s.lc with mode := m } } := by
  obtain ⟨⟨⟨hphase, -, -, hpausing, hwalking, hidle, hde, hquiet, howned⟩, hrest⟩, hpause⟩ := h.steady
  refine ⟨⟨⟨iff_of_false (fun hp => hs (hphase.mp hp)) hm, fun hoff => absurd hoff hm, fun _ => hx,
    iff_of_false (fun hp => hx (hpausing.mp hp).2) (fun hrun => hx hrun.2), hwalking, hidle, hde, hquiet, howned⟩,
    hrest⟩, hpause⟩

/-- LINE-STOP between exchanges: the line is OFF at once and the cycle is abandoned (R59, R142). -/
theorem OnCourse.lineStopped (hx : s.ee.exchange = none) : Steady (abandonCycle (lineOff .host s)) := by
  obtain ⟨hready, hde⟩ := h.ready hx
  exact ⟨courseLaws_abandonCycle (s := lineOff .host s) { hready with } (fun _ => ⟨h.table, h.pollList⟩) rfl hde,
    pauseLaw_abandonCycle _⟩

/-- The acts of the line, of time, of SERVICE and SUP-SET, and of LINE-START and LINE-STOP. -/
theorem OnCourse.courseAct {c : Instr} {u : State} (hact : CourseAct s c u) : Steady u := by
  cases hact with
  | lineMoved hrow hexec => exact h.lineRow hrow hexec
  | ticked => exact keptByStages_steady.tickSupervision h.tickPause
  | watchEnded => exact keptByStages_steady.firstStage h.steady
  | graceEnded => exact keptByStages_steady.secondStage h.steady
  | served => exact keptByStages_steady.correctService h.steady
  | servedWrongly => exact keptByStages_steady.wrongService h.steady
  | supervisionSet => exact keptByStages_steady.configureSupervision h.steady
  | lineStarted hoff => exact h.startLine hoff
  | lineStopping hrun hx => exact h.lineMode hx (by simp) (by simp [hrun])
  | lineStopped _ hx => exact h.lineStopped hx
  | lineResumed hstopping =>
    obtain ⟨⟨⟨-, -, hexchange, -⟩, -⟩, -⟩ := h.steady
    exact h.lineMode (hexchange hstopping) (by simp) (by simp [hstopping])

end

/-! ### The commands of the table and of the queue -/

/-- Records and poll list changed apart from the line: the laws of leaving and of the walk are to be shown afresh. -/
theorem Steady.ofTable {s t : State} (h : Steady s) (hlc : t.lc.mode = s.lc.mode) (hee : t.ee = s.ee)
    (hturn : t.ps.turn = s.ps.turn) (hphase : t.ps.phase = s.ps.phase) (htimer : t.ps.pauseTimer = s.ps.pauseTimer)
    (hoq : EntryLaw t) (hleave : LeaveLaw t) (hwalk : WalkLaw t) : Steady t := by
  obtain ⟨⟨hline, -⟩, hpause⟩ := h
  refine ⟨⟨?_, hleave, hoq, hwalk⟩, ?_⟩
  · simpa only [LineLaw, inTurn, hlc, hee, hturn, hphase] using hline
  · simpa only [PauseLaw, hphase, htimer] using hpause

section
variable {s : State} (h : OnCourse s)
include h

theorem OnCourse.enrolStation {a : Address} {skip : BitVec 4} {ceiling : BitVec 2} :
    Steady (enrolStation a skip ceiling s) := by
  obtain ⟨⟨-, hleave, hentry, hwalk⟩, -⟩ := h.steady
  refine h.steady.ofTable rfl rfl rfl rfl rfl hentry (fun r hr hl => ?_) ⟨fun b hb => ?_, fun t ht => ?_⟩
  · rcases mem_insertRecord.mp hr with rfl | hr
    · exact absurd rfl hl
    · exact hleave r hr hl
  · simp only [Machine.enrolStation, joinPollList] at hb ⊢
    split at hb
    · cases hb
      exact List.mem_append_right _ (List.mem_singleton_self _)
    · exact List.mem_append_left _ (hwalk.1 b hb)
  · obtain ⟨r, hr, hrest⟩ := hwalk.2 t ht
    exact ⟨r, mem_insertRecord.mpr (.inr hr), hrest⟩

theorem OnCourse.unparkStation {a : Address} {r : StationRecord} (hfind : s.st.find a = some r)
    (hparked : r.state = .parked) : Steady (unparkStation a s) := by
  obtain ⟨⟨-, hleave, hentry, hwalk⟩, -⟩ := h.steady
  refine h.steady.ofTable rfl rfl rfl rfl rfl hentry (fun q hq hl => ?_) ⟨fun b hb => ?_, fun t ht => ?_⟩
  · obtain ⟨p, hp, rfl⟩ := mem_update.mp hq
    split at hl <;> rename_i hpa
    · rw [if_pos hpa]
      exact hleave p hp hl
    · rw [if_neg hpa]
      exact hleave p hp hl
  · simp only [Machine.unparkStation, joinPollList] at hb ⊢
    split at hb
    · cases hb
      exact List.mem_append_right _ (List.mem_singleton_self _)
    · exact List.mem_append_left _ (hwalk.1 b hb)
  · obtain ⟨p, hp, haddr, hstate, hkind⟩ := hwalk.2 t ht
    have hpa : p.address ≠ a := fun hpa => hstate (h.table.eq_of_find hfind hp hpa ▸ hparked)
    exact ⟨p, mem_update.mpr ⟨p, hp, (if_neg hpa).symm⟩, haddr, hstate, hkind⟩

/-- A change of records that leaves address, state and leave, apart from the leave of the station in turn (R23). -/
theorem OnCourse.records {f : StationRecord → StationRecord} (haddr : ∀ r, (f r).address = r.address)
    (hstate : ∀ r ∈ s.st.records, ((f r).state = .parked ↔ r.state = .parked) ∧ ((f r).state = .lost ↔ r.state = .lost))
    (hleave : ∀ r ∈ s.st.records, (f r).leave = r.leave ∨ inTurn s r.address = true) :
    Steady { s with st := { s.st with records := s.st.records.map f } } := by
  obtain ⟨⟨-, hleft, hentry, hwalk⟩, -⟩ := h.steady
  refine h.steady.ofTable rfl rfl rfl rfl rfl hentry (fun q hq hl => ?_) ⟨hwalk.1, fun t ht => ?_⟩
  · obtain ⟨r, hr, rfl⟩ := List.mem_map.mp hq
    rw [haddr]
    rcases hleave r hr with hsame | hturn
    · exact hleft r hr (hsame ▸ hl)
    · exact hturn
  · obtain ⟨r, hr, hra, hparked, hkind⟩ := hwalk.2 t ht
    obtain ⟨h1, h2⟩ := hstate r hr
    exact ⟨f r, List.mem_map_of_mem hr, (haddr r).trans hra, (not_congr h1).mpr hparked, hkind.trans h2.symm⟩

theorem OnCourse.setLeave {a : Address} {l : Leave} (hturn : inTurn s a = true) : Steady (setLeave a l s) := by
  refine h.records (fun r => ?_) (fun r _ => ?_) (fun r _ => ?_)
  · split <;> rfl
  · split <;> exact ⟨Iff.rfl, Iff.rfl⟩
  · split
    · rename_i hra
      exact .inr (eq_of_beq hra ▸ hturn)
    · exact .inl rfl

theorem OnCourse.markRecord {a : Address} {f : StationRecord → StationRecord} (hf : KeepsStanding f) :
    Steady (updateStation a f s) := by
  refine h.records (fun r => ?_) (fun r _ => ?_) (fun r _ => .inl ?_)
  all_goals
    obtain ⟨haddr, hstate, hleave, -⟩ := hf r
    split
  · exact haddr
  · rfl
  · rw [hstate]
    exact ⟨Iff.rfl, Iff.rfl⟩
  · exact ⟨Iff.rfl, Iff.rfl⟩
  · exact hleave
  · rfl

/-- The walk's cursor and the station in turn do not see the station that leaves the poll list (R21). -/
theorem OnCourse.walkLaw_leave {a : Address} {records : List StationRecord} (hturn : inTurn s a = false)
    (hkept : ∀ r ∈ s.st.records, r.address ≠ a → r ∈ records) :
    WalkLaw { leavePollList a s with st := { (leavePollList a s).st with records := records } } := by
  obtain ⟨⟨-, -, -, hwalk⟩, -⟩ := h.steady
  refine ⟨cursor_leavePollList h.pollList hwalk.1, fun t ht => ?_⟩
  obtain ⟨r, hr, haddr, hrest⟩ := hwalk.2 t ht
  have hra : r.address ≠ a := by
    intro hra
    have hin : inTurn s a = true := inTurn_iff.mpr ⟨t, ht, haddr.symm.trans hra⟩
    simp [hturn] at hin
  exact ⟨r, hkept r hr hra, haddr, hrest⟩

/-- REMOVE takes no entry of the exchange in progress, which belongs to the turn (R31, R86). -/
theorem OnCourse.removeStation {a : Address} {r : StationRecord} (hfind : s.st.find a = some r)
    (hturn : inTurn s a = false) : Steady (removeStation a s) := by
  obtain ⟨⟨⟨-, -, -, -, -, -, -, -, howned⟩, hleave, ⟨hflight, hqueued, hcarried⟩, -⟩, -⟩ := h.steady
  obtain ⟨hmem, haddr⟩ := find_some hfind
  have hnonzero : a ≠ 0 := by
    have hlow := (haddr ▸ h.table.2.1 r hmem).1
    rintro rfl
    exact absurd hlow (by decide)
  refine h.steady.ofTable rfl rfl rfl rfl rfl ⟨fun e he => ?_, fun e he => ?_, fun x tag hx htag => ?_⟩ (fun q hq => ?_)
    (h.walkLaw_leave hturn (fun q hq hqa => List.mem_filter.mpr ⟨hq, by simpa using hqa⟩))
  · exact hflight e (List.mem_filter.mp he).1
  · exact hqueued e (List.mem_filter.mp he).1
  · obtain ⟨e, he, h1, h2, h3⟩ := hcarried x tag hx htag
    have hdest : e.destination ≠ a := by
      intro hdest
      have hxa : x.address = a := h3.symm.trans hdest
      exact absurd (howned x hx (hxa.symm ▸ hnonzero)) (by simp [hxa, hturn])
    exact ⟨e, List.mem_filter.mpr ⟨he, by simpa using hdest⟩, h1, h2, h3⟩
  · exact hleave q (List.mem_filter.mp hq).1

theorem OnCourse.parkStation {a : Address} (hturn : inTurn s a = false) : Steady (parkStation a s) := by
  obtain ⟨⟨-, hleave, hentry, -⟩, -⟩ := h.steady
  refine h.steady.ofTable rfl rfl rfl rfl rfl hentry (fun q hq hl => ?_)
    (h.walkLaw_leave hturn (fun q hq hqa => mem_update.mpr ⟨q, hq, (if_neg hqa).symm⟩))
  obtain ⟨p, hp, rfl⟩ := mem_update.mp hq
  split at hl <;> rename_i hpa
  · exact absurd rfl hl
  · rw [if_neg hpa]
    exact hleave p hp hl

/-- The law of the entries where entries that are not IN-FLIGHT come or go (R88, R101). -/
theorem OnCourse.entries {entries : List OutboundEntry} {returned : List ReturnRecord}
    (hnew : ∀ e ∈ entries, e ∈ s.oq ∨ (e.status = .queued ∧ e.attempts = 0))
    (hkept : ∀ e ∈ s.oq, e.status = .inFlight → e ∈ entries) : Steady { s with oq := entries, rq := returned } := by
  obtain ⟨⟨-, hleave, ⟨hflight, hqueued, hcarried⟩, hwalk⟩, -⟩ := h.steady
  refine h.steady.ofTable rfl rfl rfl rfl rfl ⟨fun e he hs => ?_, fun e he hs => ?_, fun x tag hx htag => ?_⟩ hleave hwalk
  · rcases hnew e he with hold | ⟨hq, -⟩
    · exact hflight e hold hs
    · exact nomatch hs.symm.trans hq
  · rcases hnew e he with hold | ⟨-, ha⟩
    · exact hqueued e hold hs
    · exact ha
  · obtain ⟨e, he, h1, h2, h3⟩ := hcarried x tag hx htag
    exact ⟨e, hkept e he h2, h1, h2, h3⟩

theorem OnCourse.appendEntry {d : Address} {tag : Byte} {length : Nat} : Steady (appendEntry d tag length s) := by
  refine h.entries (returned := s.rq) (fun e he => ?_) (fun e he _ => List.mem_append_left _ he)
  rcases List.mem_append.mp he with he | he
  · exact .inl he
  · rw [List.mem_singleton.mp he]
    exact .inr ⟨rfl, rfl⟩

theorem OnCourse.purge {p : OutboundEntry → Bool} {o : MessageOutcome} (hp : ∀ e, p e = true → e.status = .queued) :
    Steady (completeWhere p o s) := by
  refine h.entries (fun e he => .inl (List.mem_filter.mp he).1) (fun e he hs => List.mem_filter.mpr ⟨he, ?_⟩)
  cases hpe : p e with
  | false => rfl
  | true => exact nomatch hs.symm.trans (hp e hpe)

theorem OnCourse.setLimits {value : Word} : Steady (setLimits value s) := by
  have hrebased := h.records (f := rebaseRecord (value.extractLsb' 4 4)) (fun r => (rebaseRecord_keeps _ r).1)
    (fun r _ => ⟨(rebaseRecord_keeps _ r).2.1, ?_⟩) (fun r _ => .inl ?_)
  · exact hrebased
  · cases hs : r.state <;> simp [rebaseRecord, hs]
  · cases hs : r.state <;> simp [rebaseRecord, hs]

end

/-- A part with nothing in its collections, IDLE and OFF, fulfils the laws. -/
theorem steady_of_reset {s : State} (hst : s.st = StationTable.reset) (hps : s.ps = Scheduler.reset)
    (hee : s.ee = Engine.reset) (hoq : s.oq = []) (hmode : s.lc.mode = .off) : Steady s := by
  simp [Steady, CourseLaws, LineLaw, LeaveLaw, EntryLaw, WalkLaw, PauseLaw, hst, hps, hee, hoq, hmode,
    StationTable.reset, Scheduler.reset, Engine.reset]

theorem Act.steady {c : Instr} {s u : State} (hact : Act s c u) (h : OnCourse s) : Steady u := by
  cases hact with
  | moved hcourse => exact h.courseAct hcourse
  | enrolled => exact h.enrolStation
  | leaveSet _ _ hturn => exact h.setLeave hturn
  | removed hfind hturn => exact h.removeStation hfind hturn
  | parked _ hturn => exact h.parkStation hturn
  | unparked hfind hparked => exact h.unparkStation hfind hparked
  | recordMarked _ hf => exact h.markRecord hf
  | allSynced => exact h.records (fun _ => rfl) (fun _ _ => ⟨Iff.rfl, Iff.rfl⟩) (fun _ _ => .inl rfl)
  | submitted => exact h.appendEntry
  | purged hp => exact h.purge hp
  | limitsWritten => exact h.setLimits
  | cleared => exact steady_of_reset rfl rfl rfl rfl rfl
  | reset => exact steady_of_reset rfl rfl rfl rfl rfl
  | nothing | lineZeroed | returnTaken | attnTaken | serviceEnded | dismissed | unitWritten | holdEntered | holdLeft
  | settingsWritten | windowAccessed | resetEnded => exact h.steady

/-! ### The statements -/

/-- A command keeps all the laws. -/
theorem Lawful.exec {c : Instr} {s t : State} (h : Lawful s) (hexec : exec c s = .next t) : Lawful t := by
  obtain ⟨u, hact, hleaves⟩ := exec_act hexec
  obtain ⟨w, -, -, rfl⟩ := hleaves.window
  obtain ⟨⟨hline, hleave, hentry, hwalk⟩, hpause⟩ := hact.steady h.onCourse
  obtain ⟨htable, hpoll, hmiss, hqueue, hattention, hhold, hsupervision, -⟩ := h
  have htables := hact.tableLaws htable
  exact ⟨htables.table, htables.pollList hpoll, htables.miss hmiss, hact.queueLaw hqueue, hact.attentionLaw hattention,
    hact.holdLaw hhold, hact.supervisionLaw hsupervision, hline, hleave, hentry, hwalk, hpause⟩

/-- Settles O59: the laws do not read the queue of commands, and the command at its front keeps them. -/
theorem everyStepIsLawful : Obligations.EveryStepIsLawful := by
  intro s t h hstep
  unfold step at hstep
  split at hstep
  · cases hstep
    exact h
  · rename_i c rest _
    exact Lawful.exec (s := { s with pending := rest }) h hstep

/-- Settles O60: the part at reset has nothing in its collections, is IDLE and OFF, and its timers stand. -/
theorem resetIsLawful : Obligations.ResetIsLawful := by
  obtain ⟨⟨hline, hleave, hentry, hwalk⟩, hpause⟩ : Steady State.reset := steady_of_reset rfl rfl rfl rfl rfl
  refine ⟨?_, ?_, ?_, .of_empty rfl rfl, attentionLaw_empty 0, ?_, ?_, hline, hleave, hentry, hwalk, hpause⟩
  · simp [TableLaw, State.reset, State.afterReset, StationTable.reset]
  · simp [PollListLaw, State.reset, State.afterReset, StationTable.reset]
  · simp [MissLaw, State.reset, State.afterReset, StationTable.reset, Settings.reset]
  · simp [HoldLaw, State.reset, State.afterReset, LineControl.reset]
  · simp [SupervisionLaw, State.reset, State.afterReset, Supervision.reset]

end Sys2Proof.Machine

/-! SUPPORT. No attempt of a WRITE begins under hold (R68): SEND is entered where SETTLE ends and nowhere else, and there only
where hold does not forbid the attempt. -/

namespace Sys2Proof.Machine

/-- The engine is not in SEND. -/
def NotSending (s : State) : Prop := s.ee.state ≠ .send

/-- If SEND has been entered from `s`, hold forbids no WRITE, before and after. -/
def SendsFreely (s t : State) : Prop :=
  t.ee.state = .send → ∀ x, t.ee.exchange = some x → x.kind = .write →
    s.lc.holdInForce = false ∧ t.lc.holdInForce = false

theorem NotSending.sendsFreely {s t : State} (h : NotSending t) : SendsFreely s t := fun hsend => absurd hsend h

/-! ### What enters SETTLE or IDLE -/

theorem notSending_decideTurn (t : Turn) (s : State) : NotSending (decideTurn t s) := by
  unfold decideTurn handStage
  repeat' split
  all_goals exact nofun

theorem notSending_leftByScheduler : LeftByScheduler NotSending NotSending where
  opened _ h := h
  walking _ h := h
  cursor _ _ h := h
  countdown _ _ _ h := h
  turn t s _ := notSending_decideTurn t s
  newTurn _ _ h := h
  announced _ _ := nofun
  handed _ _ _ _ _ := nofun
  sent _ _ h := h
  paused _ _ _ h := h
  rested _ h := h

theorem notSending_endExchange (x : Exchange) (o : ExchangeOutcome) (s : State) : NotSending (endExchange x o s) := by
  have hengine := (settled_endExchange x o s).1.handed.engine
  unfold NotSending
  rw [hengine]
  simp only
  split <;> simp

theorem notSending_attemptCourse (x : Exchange) (s : State) : NotSending (attemptCourse x s) := by
  unfold attemptCourse
  repeat' split
  · exact notSending_endExchange _ _ _
  · exact notSending_endExchange _ _ _
  · exact notSending_endExchange _ _ _
  · exact nofun

section
variable {s : State} (h : NotSending s)
include h

theorem NotSending.attemptFails (reason : FailReason) : NotSending (attemptFails reason s) := by
  unfold Machine.attemptFails
  split
  · exact h
  · exact notSending_attemptCourse _ _

theorem NotSending.evaluateReply (ending : AssemblyEnd) : NotSending (evaluateReply ending s) := by
  unfold Machine.evaluateReply
  split
  · exact h
  · simp only
    split
    · exact notSending_endExchange _ _ _
    · exact h.attemptFails _

theorem NotSending.receiveChar (c : RxChar) : NotSending (receiveChar c s) := by
  unfold Machine.receiveChar
  split
  · exact h.evaluateReply _
  · simp only
    split
    · refine NotSending.evaluateReply ?_ _
      exact h
    · split
      · refine NotSending.evaluateReply ?_ _
        exact h
      · exact h

theorem NotSending.deliver (c : RxChar) (begun : Nat) : NotSending (deliver c begun s) := by
  unfold Machine.deliver
  simp only
  split
  · exact h
  · exact h
  · exact h
  · rename_i hsend
    exact absurd hsend h
  · split
    · exact nofun
    · split
      · refine NotSending.attemptFails ?_ _
        exact h
      · exact h
  · refine NotSending.receiveChar ?_ _
    exact h

theorem NotSending.endGood : NotSending (endGood s) := by
  unfold Machine.endGood
  split
  · exact h
  · exact notSending_endExchange _ _ _

theorem NotSending.tickPause : NotSending (tickPause s) := by
  unfold Machine.tickPause
  split
  · exact notSending_leftByScheduler.startCycle h
  · exact h

/-- Where SETTLE ends in an attempt, hold does not forbid it (R68). -/
theorem NotSending.settleEnds : SendsFreely s (settleEnds s) := by
  unfold Machine.settleEnds
  split
  · exact NotSending.sendsFreely h
  · split
    · exact (notSending_endExchange _ _ _).sendsFreely
    · split
      · exact (notSending_endExchange _ _ _).sendsFreely
      · rename_i x _ _ hfree
        intro _ y hy hwrite
        have hlc : (beginAttempt x s).lc = s.lc := by
          unfold beginAttempt
          simp only
          split <;> rfl
        have hkind : y.kind = x.kind := by
          cases hy
          rfl
        rw [hlc]
        have hhold : s.lc.holdInForce = false := by
          simpa [holdForbids, hkind.symm.trans hwrite] using hfree
        exact ⟨hhold, hhold⟩

theorem NotSending.falseStartFound : SendsFreely s (falseStartFound s) := by
  unfold Machine.falseStartFound
  simp only
  split
  · split
    · refine NotSending.settleEnds ?_
      exact h
    · exact NotSending.sendsFreely h
  · split
    · refine (NotSending.attemptFails ?_ _).sendsFreely
      exact h
    · exact NotSending.sendsFreely h
  · split
    · refine (NotSending.evaluateReply ?_ _).sendsFreely
      exact h
    · exact NotSending.sendsFreely h
  all_goals exact NotSending.sendsFreely h

end

/-! ### The rows -/

/-- Every row of the line that finds the engine out of SEND (R68, R69). -/
theorem NotSending.lineRow {c : Instr} {s t : State} (h : NotSending s) (hc : LineRow c) (ht : exec c s = .next t) :
    SendsFreely s t := by
  have kept : SendsFreely s s := h.sendsFreely
  have running {f : State → State} (hf : SendsFreely s (f s)) (hw : whenRunning f s = .next t) : SendsFreely s t := by
    obtain ⟨-, rfl⟩ | ⟨-, rfl⟩ := whenRunning_next hw
    · exact kept
    · exact hf
  have silent : sendingSound s = false := by
    simpa [sendingSound] using fun hsend => absurd hsend h
  rcases hc with rfl | ⟨cause, rfl⟩ | ⟨delivery, rfl⟩ | rfl | rfl | rfl | rfl | rfl | rfl | rfl | rfl | rfl
  all_goals refine running ?_ ht
  · split
    · exact (notSending_leftByScheduler.startCycle h).sendsFreely
    · exact kept
  · unfold settleEvent
    split
    · split
      · exact NotSending.sendsFreely h
      · exact h.settleEnds
    · exact kept
  · split
    · split
      · exact h.falseStartFound
      · exact (h.deliver _ _).sendsFreely
    · exact kept
  · rw [silent, if_neg (by simp)]
    exact kept
  · rw [if_neg (fun hsend => h hsend.1)]
    exact kept
  · split
    · split
      · exact NotSending.sendsFreely h
      · exact (h.attemptFails _).sendsFreely
    · exact kept
  · split
    · split
      · exact NotSending.sendsFreely h
      · exact (h.evaluateReply _).sendsFreely
    · exact kept
  · split
    · exact h.endGood.sendsFreely
    · exact kept
  · split
    · exact NotSending.sendsFreely h
    · exact kept
  · split
    · exact h.falseStartFound
    · exact kept
  · split
    · exact NotSending.sendsFreely h
    · exact kept
  · rw [silent, if_neg (by simp)]
    exact kept

theorem keptByStages_notSending : KeptByStages NotSending :=
  ⟨fun _ _ _ _ h => h, fun _ _ h => h, fun _ h => h, fun _ h => h⟩

theorem CourseAct.sendsFreely {c : Instr} {s u : State} (hact : CourseAct s c u) (h : NotSending s) : SendsFreely s u := by
  cases hact with
  | lineMoved hrow hexec => exact h.lineRow hrow hexec
  | ticked => exact (keptByStages_notSending.tickSupervision h.tickPause).sendsFreely
  | watchEnded => exact (keptByStages_notSending.firstStage h).sendsFreely
  | graceEnded => exact (keptByStages_notSending.secondStage h).sendsFreely
  | served => exact (keptByStages_notSending.correctService h).sendsFreely
  | servedWrongly => exact (keptByStages_notSending.wrongService h).sendsFreely
  | supervisionSet => exact (keptByStages_notSending.configureSupervision h).sendsFreely
  | lineStarted =>
    refine (notSending_leftByScheduler.startCycle ?_).sendsFreely
    exact h
  | lineStopped =>
    obtain ⟨st, ps, oq, rq, au, table, hended, -⟩ := endTurn_shape .unfinished (lineOff .host s)
    refine NotSending.sendsFreely ?_
    unfold abandonCycle
    rw [hended]
    exact h
  | lineResumed | lineStopping => exact NotSending.sendsFreely h

theorem Act.sendsFreely {c : Instr} {s u : State} (hact : Act s c u) (h : NotSending s) : SendsFreely s u := by
  cases hact with
  | moved hcourse => exact hcourse.sendsFreely h
  | cleared | reset => exact NotSending.sendsFreely nofun
  | nothing | enrolled | leaveSet | removed | parked | unparked | recordMarked | allSynced | lineZeroed | submitted
  | purged | returnTaken | attnTaken | serviceEnded | dismissed | unitWritten | holdEntered | holdLeft
  | settingsWritten | limitsWritten | windowAccessed | resetEnded => exact NotSending.sendsFreely h

/-- Settles O27: every act that finds the engine out of SEND and leaves it there has found hold not in force. -/
theorem noWriteBeginsUnderHold : Obligations.NoWriteBeginsUnderHold := by
  intro c s t x h hbefore hsend hx hwrite
  obtain ⟨u, hact, hleaves⟩ := exec_act h
  obtain ⟨w, -, -, rfl⟩ := hleaves.window
  exact hact.sendsFreely hbefore hsend x hx hwrite

end Sys2Proof.Machine

/-! SUPPORT. What REMOVE, PARK and SYNC answer (R31 to R33, R60): the checks in their order, a leave held while the station is in
turn, and the removal and the park at once. -/

namespace Sys2Proof.Machine

/-! ### Leaving the poll list (R21) -/

/-- What follows an address in a list is the head of what stands behind its first place. -/
theorem following_append {a : Address} {before after : List Address} (hnew : a ∉ before) :
    following a (before ++ a :: after) = after.head? := by
  have hother : ∀ x ∈ before, (x != a) = true := fun x hx => bne_iff_ne.mpr (ne_of_mem_of_not_mem hx hnew)
  have hdrop : (before ++ a :: after).dropWhile (fun x => x != a) = a :: after := by
    rw [List.dropWhile_append_of_pos hother, List.dropWhile_cons_of_neg (by simp)]
  rw [following, hdrop, List.tail_cons]

theorem leftPollList_leavePollList {a : Address} {s t : State}
    (hlist : t.st.pollList = (leavePollList a s).st.pollList)
    (hcursor : t.ps.cursor = if s.ps.cursor = some a then following a s.st.pollList else s.ps.cursor) :
    LeftPollList a s t := by
  refine ⟨hlist, fun hc => ?_, fun before after hsplit hnew hc => ?_⟩
  · rw [hcursor, if_neg hc]
  · rw [hcursor, if_pos hc, hsplit, following_append hnew]

/-! ### REMOVE (R31, R32) -/

theorem removeAnswer_outOfRange {s : State} (hargs : s.rw.args.w0.toNat = 0 ∨ 126 < s.rw.args.w0.toNat) :
    removeAnswer s = plain .badArg s := by
  simp only [removeAnswer, stationAddress_eq_none.2 hargs]

theorem removeAnswer_of_noRecord {s : State} {a : Address} (haddr : stationAddress s.rw.args.w0 = some a)
    (hfind : s.st.find a = none) : removeAnswer s = plain .unknown s := by
  simp only [removeAnswer, haddr, hfind]

theorem removeAnswer_of_record {s : State} {a : Address} {r : StationRecord}
    (haddr : stationAddress s.rw.args.w0 = some a) (hfind : s.st.find a = some r) :
    removeAnswer s =
      if r.leave = .remove then plain .leaving s
      else if inTurn s a then plain .accepted (setLeave a .remove s) else plain .ok (removeStation a s) := by
  simp only [removeAnswer, haddr, hfind]

/-- The DONE records of a removal, with the station's address (R93, R100). -/
theorem removeStation_rq (a : Address) (s : State) :
    (removeStation a s).rq = s.rq ++ (s.oq.filter (fun e => e.destination == a)).map
      (fun e => .done a e.tag .removed e.attempts) := by
  refine congrArg (s.rq ++ ·) (List.map_congr_left (fun e he => ?_))
  rw [doneRecord, eq_of_beq (List.mem_filter.mp he).2]

/-- Settles O10: the equations of the answer, and what the removal does to the queues, the table and the poll list. -/
theorem removeAtOnce : Obligations.RemoveAtOnce := by
  intro s hrun
  refine ⟨fun hargs => takeCommand_plain hrun (removeAnswer_outOfRange hargs), fun a hw0 hlow hhigh => ?_⟩
  have haddr := stationAddress_eq_some.2 ⟨hw0, hlow, hhigh⟩
  refine ⟨fun hfind => takeCommand_plain hrun (removeAnswer_of_noRecord haddr hfind), fun r hfind => ?_⟩
  have hanswer := removeAnswer_of_record haddr hfind
  refine ⟨fun hleave => ?leaving, fun hleave hturn => ?ok⟩
  case leaving =>
    rw [if_pos hleave] at hanswer
    exact takeCommand_plain hrun hanswer
  case ok =>
    rw [if_neg hleave, hturn, if_neg Bool.false_ne_true] at hanswer
    obtain ⟨hgone, hothers⟩ := find_removeStation a s
    exact ⟨_, takeCommand_plain hrun hanswer, rfl, removeStation_rq a s, hgone, hothers,
      leftPollList_leavePollList rfl rfl, rfl⟩

/-! ### PARK (R33) -/

theorem parkAnswer_outOfRange {s : State} (hargs : s.rw.args.w0.toNat = 0 ∨ 126 < s.rw.args.w0.toNat) :
    parkAnswer s = plain .badArg s := by
  simp only [parkAnswer, stationAddress_eq_none.2 hargs]

theorem parkAnswer_of_noRecord {s : State} {a : Address} (haddr : stationAddress s.rw.args.w0 = some a)
    (hfind : s.st.find a = none) : parkAnswer s = plain .unknown s := by
  simp only [parkAnswer, haddr, hfind]

theorem parkAnswer_of_record {s : State} {a : Address} {r : StationRecord}
    (haddr : stationAddress s.rw.args.w0 = some a) (hfind : s.st.find a = some r) :
    parkAnswer s =
      if r.leave = .remove then plain .leaving s
      else if r.leave = .park ∨ r.state = .parked then plain .wrongState s
      else if inTurn s a then plain .accepted (setLeave a .park s) else plain .ok (parkStation a s) := by
  simp only [parkAnswer, haddr, hfind]

/-- A station with no leave pending that is not PARKED passes the checks of PARK. -/
theorem parkAnswer_admitted {s : State} {a : Address} {r : StationRecord}
    (haddr : stationAddress s.rw.args.w0 = some a) (hfind : s.st.find a = some r) (hleave : r.leave = .absent)
    (hstate : r.state ≠ .parked) :
    parkAnswer s =
      if inTurn s a then plain .accepted (setLeave a .park s) else plain .ok (parkStation a s) := by
  rw [parkAnswer_of_record haddr hfind, if_neg (by simp [hleave]), if_neg (by simp [hleave, hstate])]

/-- Settles O12: the equations of the answer, and what the park does to the record and the poll list. -/
theorem parkAtOnce : Obligations.ParkAtOnce := by
  intro s hrun
  refine ⟨fun hargs => takeCommand_plain hrun (parkAnswer_outOfRange hargs), fun a hw0 hlow hhigh => ?_⟩
  have haddr := stationAddress_eq_some.2 ⟨hw0, hlow, hhigh⟩
  refine ⟨fun hfind => takeCommand_plain hrun (parkAnswer_of_noRecord haddr hfind), fun r hfind => ?_⟩
  have hanswer := parkAnswer_of_record haddr hfind
  refine ⟨fun hleave => ?leaving, fun hrefused => ?wrongState, fun hleave hstate hturn => ?ok⟩
  case leaving =>
    rw [if_pos hleave] at hanswer
    exact takeCommand_plain hrun hanswer
  case wrongState =>
    have hnot : r.leave ≠ .remove := by
      rcases hrefused with hl | ⟨hl, -⟩ <;> simp [hl]
    rw [if_neg hnot, if_pos (hrefused.imp_right And.right)] at hanswer
    exact takeCommand_plain hrun hanswer
  case ok =>
    have hok := parkAnswer_admitted haddr hfind hleave hstate
    rw [hturn, if_neg Bool.false_ne_true] at hok
    obtain ⟨hparked, hothers⟩ := find_parkStation hfind
    have hsame : ({ r with state := .parked, missCount := 0, leave := .absent } : StationRecord) =
        { r with state := .parked, missCount := 0 } := by rw [← hleave]
    exact ⟨_, takeCommand_plain hrun hok, hsame ▸ hparked, hothers, leftPollList_leavePollList rfl rfl, rfl⟩

/-! ### A leave held while the station is in turn (R32, R33) -/

/-- A leave pending is set in one record, and nothing else changes. -/
theorem setLeave_does {a : Address} {l : Leave} {s : State} {r : StationRecord} (hfind : s.st.find a = some r) :
    (setLeave a l s).st.find a = some { r with leave := l } ∧ OtherRecordsKept a s (setLeave a l s) ∧
      (setLeave a l s).st.pollList = s.st.pollList ∧ { setLeave a l s with st := s.st } = s :=
  ⟨find_updateStation_same (fun _ => rfl) hfind,
    othersKept_updateStation a (fun r => { r with leave := l }) (fun _ => rfl) s, rfl, rfl⟩

/-- Settles O11: both commands set the leave pending of the station in turn. -/
theorem leaveHeldWhileInTurn : Obligations.LeaveHeldWhileInTurn := by
  intro s a r hrun hw0 hlow hhigh hfind hturn hleave
  have haddr := stationAddress_eq_some.2 ⟨hw0, hlow, hhigh⟩
  refine ⟨?remove, fun habsent hstate => ?park⟩
  case remove =>
    have hanswer := removeAnswer_of_record haddr hfind
    rw [if_neg hleave, hturn, if_pos rfl] at hanswer
    exact ⟨_, takeCommand_plain hrun hanswer, setLeave_does hfind⟩
  case park =>
    have hanswer := parkAnswer_admitted haddr hfind habsent hstate
    rw [hturn, if_pos rfl] at hanswer
    exact ⟨_, takeCommand_plain hrun hanswer, setLeave_does hfind⟩

/-! ### SYNC (R60) -/

theorem syncAnswer_outOfRange {s : State} (hargs : 126 < s.rw.args.w0.toNat) : syncAnswer s = plain .badArg s := by
  have hne : s.rw.args.w0 ≠ 0 := fun h => by simp [h] at hargs
  simp only [syncAnswer, if_neg hne, stationAddress_eq_none.2 (.inr hargs)]

section
variable {s : State} {a : Address} (haddr : stationAddress s.rw.args.w0 = some a)
include haddr

theorem syncAnswer_of_noRecord (hfind : s.st.find a = none) : syncAnswer s = plain .unknown s := by
  simp only [syncAnswer, if_neg (ne_zero_of_stationAddress haddr), haddr, hfind]

theorem syncAnswer_of_record {r : StationRecord} (hfind : s.st.find a = some r) :
    syncAnswer s = plain .ok (updateStation a (fun r => { r with syncPending := true }) s) := by
  simp only [syncAnswer, if_neg (ne_zero_of_stationAddress haddr), haddr, hfind]

end

/-- Settles O15: one equation per answer. -/
theorem syncMarksRecords : Obligations.SyncMarksRecords := by
  intro s hrun
  refine ⟨fun hargs => takeCommand_plain hrun (syncAnswer_outOfRange hargs),
    fun hall => takeCommand_plain (body := syncAnswer) hrun (if_pos hall), fun a hw0 hlow hhigh => ?_⟩
  have haddr := stationAddress_eq_some.2 ⟨hw0, hlow, hhigh⟩
  refine ⟨fun hfind => takeCommand_plain hrun (syncAnswer_of_noRecord haddr hfind), fun r hfind => ?_⟩
  exact ⟨_, takeCommand_plain hrun (syncAnswer_of_record haddr hfind), find_updateStation_same (fun _ => rfl) hfind,
    othersKept_updateStation a (fun r => { r with syncPending := true }) (fun _ => rfl) s, rfl, rfl⟩

end Sys2Proof.Machine

/-! SUPPORT. The queue of commands, the commands that complete, the resets and CLEAR, and the writes of the configuration and of
the window's own registers (log 1, log 10; R63, R64, R168, R177 to R184). -/

namespace Sys2Proof.Machine

/-! ### The queue of commands (log 1) -/

/-- Settles O1: the two branches of a step. -/
theorem stepTakesFrontCommand : Obligations.StepTakesFrontCommand := by
  refine ⟨fun _ _ _ => rfl, fun s hempty => ?_⟩
  unfold step
  rw [hempty]

theorem keptByTimer_pending (waiting : List Instr) : KeptByTimer (fun s => s.pending = waiting) where
  toKeptByLine := .ofTableFree (fun s t happart h => (apart_pending happart).trans h) (fun _ _ h => h) (fun _ _ h => h)
    (fun _ _ h => h) (fun _ _ _ h => h) (fun _ _ h => h) (fun _ _ _ h => h) (fun _ _ _ _ h => h)
    (fun s t a payload ht h => by
      rw [admitReport_eq] at ht
      split at ht
      · cases ht; exact h
      · cases ht)
    (fun _ _ _ _ _ _ h => h) (fun _ h => h)
  timer _ _ h := h
  supervisionHold _ h := h
  withdraw _ h := h

/-- No act touches the queue of commands. -/
theorem Act.pending {c : Instr} {s u : State} (hact : Act s c u) : u.pending = s.pending := by
  cases hact with
  | moved hcourse => exact (keptByTimer_pending s.pending).act hcourse rfl
  | nothing | enrolled | leaveSet | removed | parked | unparked | recordMarked | allSynced | lineZeroed | submitted
  | purged | returnTaken | attnTaken | serviceEnded | dismissed | unitWritten | holdEntered | holdLeft | cleared
  | settingsWritten | limitsWritten | windowAccessed | reset | resetEnded => rfl

theorem exec_pending {c : Instr} {s t : State} (h : exec c s = .next t) : t.pending = s.pending := by
  obtain ⟨u, hact, hleaves⟩ := exec_act h
  obtain ⟨w, -, -, rfl⟩ := hleaves.window
  exact hact.pending

/-! ### Commands that complete (log 10) -/

theorem exists_takeCommand (code : Byte) (body : State → Answer) (s : State) :
    ∃ t, takeCommand code body s = .next t := by
  unfold takeCommand
  split <;> exact ⟨_, rfl⟩

/-- A well-formed term is taken, while a reset lasts and otherwise. -/
theorem exists_exec {c : Instr} (hc : c.wellFormed = true) (s : State) : ∃ t, exec c s = .next t := by
  cases c with
  | badCmd value =>
    obtain ⟨t, ht⟩ := exists_takeCommand (value.setWidth 8) (plain .badCmd) s
    exact ⟨t, (if_pos hc).trans ht⟩
  | registerWrite offset value =>
    exact ⟨_, if_pos hc⟩
  | clear => exact exists_takeCommand 0x3F (fun s => plain .ok (clearedState s)) s
  | enrol | remove | park | unpark | zero | sync | submit | purge | takeReturn | takeAttn | endService | dismiss
  | lineStart | lineStop | holdEnter | holdLeave | supSet | service => exact exists_takeCommand _ _ s
  | rateWrite | timingWrite | limitsWrite | tickdivWrite | pauseWrite | amaskWrite | wselWrite | wdataRead | wdataWrite
  | causeWrite | enableWrite | statusWrite | rstcauseWrite | powerOn | pinReset | resetEnd | tick | pauseExpiry
  | settleEnd | characterDelivered | echoMissing | faultedAttemptEnd | replyTimeout | gapTimeout | quietEnd
  | watchExpiry | graceExpiry | startBitFound | falseStart | lineReturnsTo1 | endOfLastStopBit => exact ⟨_, rfl⟩

/-- Settles O2: a well-formed term is taken and no act touches the queue; the two rows with ill-formed terms refuse
them. -/
theorem wellFormedCommandsComplete : Obligations.WellFormedCommandsComplete := by
  refine fun c s => ⟨fun hc => ?_, fun hc => ?_⟩
  · obtain ⟨t, ht⟩ := exists_exec hc s
    exact ⟨t, ht, exec_pending ht⟩
  · cases c with
    | badCmd value => exact ⟨_, if_neg (Bool.eq_false_iff.mp hc)⟩
    | registerWrite offset value => exact ⟨_, if_neg (Bool.eq_false_iff.mp hc)⟩
    | _ => cases hc

/-! ### The resets (R168, R181, R182) -/

/-- While a reset lasts every well-formed command or event but the resets and the read of WDATA is lost (log 6). -/
theorem exec_lost {c : Instr} {s : State} (hreset : s.inReset = true) (hc : c.wellFormed = true)
    (hpower : c ≠ .powerOn) (hpin : c ≠ .pinReset) (hend : c ≠ .resetEnd) (hread : c ≠ .wdataRead) :
    exec c s = .next s := by
  cases c with
  | powerOn => exact absurd rfl hpower
  | pinReset => exact absurd rfl hpin
  | resetEnd => exact absurd rfl hend
  | wdataRead => exact absurd rfl hread
  | badCmd value => exact (if_pos hc).trans (takeCommand_inReset hreset)
  | registerWrite offset value => exact (if_pos hc).trans (whenRunning_inReset hreset)
  | enrol | remove | park | unpark | zero | sync | submit | purge | takeReturn | takeAttn | endService | dismiss
  | lineStart | lineStop | holdEnter | holdLeave | supSet | service => exact takeCommand_inReset hreset
  | clear => exact takeCommand_inReset (body := fun s => plain .ok (clearedState s)) hreset
  | rateWrite | timingWrite | limitsWrite | tickdivWrite | pauseWrite | amaskWrite | wselWrite | wdataWrite
  | causeWrite | enableWrite | statusWrite | rstcauseWrite | tick | pauseExpiry | settleEnd | characterDelivered
  | echoMissing | faultedAttemptEnd | replyTimeout | gapTimeout | quietEnd | watchExpiry | graceExpiry | startBitFound
  | falseStart | lineReturnsTo1 | endOfLastStopBit =>
    exact congrArg Host.Outcome.next (if_pos hreset)

theorem readWord_inReset {s : State} (hreset : s.inReset = true) (offset : BitVec 5) : readWord s offset = 0 :=
  if_pos hreset

/-- Settles O3: the states the two resets leave, and what is lost while one lasts. -/
theorem resetBeginsLastsAndEnds : Obligations.ResetBeginsLastsAndEnds := by
  intro s
  refine ⟨rfl, rfl, rfl, fun c t hc ht => ?_, fun hreset => ⟨?_, readWord_inReset hreset, ?_,
    fun c hc hpower hpin hend hread => exec_lost hreset hc hpower hpin hend hread⟩⟩
  · rcases hc with rfl | rfl <;> cases ht <;> exact ⟨rfl, rfl, rfl⟩
  · rw [irqAsserted, hreset]
    rfl
  · show Host.Outcome.next _ = _
    rw [readWord_inReset hreset, hreset]
    rfl

/-- An Attention Unit with an empty queue presents nothing (R126). -/
theorem presented_empty {u : AttentionUnit} (h : u.queue = []) : presented u = none :=
  presented_none.mpr (by simp [h])

/-- A block whose collections are empty and whose scheduler, engine and line stand at their starting state; the level mask
is `mask`. -/
structure StartsOver (mask : BitVec 3) (t : State) : Prop where
  table : t.st = StationTable.reset
  scheduler : t.ps = Scheduler.reset
  engine : t.ee = Engine.reset
  entries : t.oq = []
  returns : t.rq = []
  latch : t.latch = none
  attention : t.au = { AttentionUnit.reset with mask := mask }
  line : t.lc.mode = .off ∧ t.lc.stopCause = .none ∧ t.lc.inFlight = none
  lineCause : t.rw.latched.line = false

/-- The three resets start the block over; CLEAR keeps the level mask (R138, R184). -/
theorem startsOver_of_reset {s : State} {c : Instr}
    (hc : c = .powerOn ∨ c = .pinReset ∨ (c = .clear ∧ s.inReset = false)) :
    ∃ t, exec c s = .next t ∧ StartsOver (if c = .clear then s.au.mask else 0) t := by
  rcases hc with rfl | rfl | ⟨rfl, hrun⟩
  · exact ⟨_, rfl, rfl, rfl, rfl, rfl, rfl, rfl, rfl, ⟨rfl, rfl, rfl⟩, rfl⟩
  · exact ⟨_, rfl, rfl, rfl, rfl, rfl, rfl, rfl, rfl, ⟨rfl, rfl, rfl⟩, rfl⟩
  · exact ⟨_, takeCommand_plain (body := fun s => plain .ok (clearedState s)) hrun rfl,
      rfl, rfl, rfl, rfl, rfl, rfl, rfl, ⟨rfl, rfl, rfl⟩, rfl⟩

/-- Settles O7: the three resets start the block over. -/
theorem resetsEmptyTheCollections : Obligations.ResetsEmptyTheCollections := by
  intro s c hc
  obtain ⟨t, ht, htable, hscheduler, hengine, hentries, hreturns, hlatch, hattention, ⟨hmode, hcause, hflight⟩, hline⟩ :=
    startsOver_of_reset hc
  have hpresented : presented t.au = none := presented_empty (by rw [hattention]; rfl)
  have hattn : attnCause t = false := by rw [attnCause, hpresented]; rfl
  have hsum : sharedSum t = 0 := by rw [sharedSum, hentries, hreturns]; rfl
  have hreturn : returnCause t = false := by rw [returnCause, hreturns]; rfl
  have hidle : txdIdle t = true := by rw [txdIdle, hengine]; rfl
  refine ⟨t, ht, ?_⟩
  rw [htable, hscheduler, hengine]
  exact ⟨rfl, rfl, hentries, hreturns, hlatch, hsum, hattention, hpresented, hattn, hreturn, rfl, rfl, rfl, rfl, hidle,
    rfl, rfl, rfl, rfl, rfl, rfl, rfl, rfl, rfl, rfl, hmode, hcause, hflight, hline⟩

/-- Settles O8: every block's part of CLEAR. -/
theorem clearResult : Obligations.ClearResult := by
  intro s hrun
  refine (takeCommand_plain (body := fun s => plain .ok (clearedState s)) hrun rfl).trans ?_
  obtain ⟨⟩ := s
  cases hrun
  rfl

/-! ### The writes that are always taken (R57, R123, R125, R169, R177, R179, R181) -/

/-- A 1 written to the bit of a flag clears it. -/
theorem and_not_eq_ite (flag bit : Bool) : (flag && !bit) = if bit then false else flag := by
  cases bit
  · exact Bool.and_true flag
  · exact Bool.and_false flag

theorem clearCauses_eq (value : Word) (l : LatchedCauses) : clearCauses value l =
    { line := if value.getLsbD 2 then false else l.line
      table := if value.getLsbD 3 then false else l.table
      holdSent := if value.getLsbD 4 then false else l.holdSent
      cfg := if value.getLsbD 5 then false else l.cfg } := by
  simp only [clearCauses, and_not_eq_ite]

theorem clearResetCauses_eq (value : Word) (r : ResetCauses) : clearResetCauses value r =
    { power := if value.getLsbD 0 then false else r.power
      pin := if value.getLsbD 1 then false else r.pin
      clear := if value.getLsbD 2 then false else r.clear } := by
  simp only [clearResetCauses, and_not_eq_ite]

/-- A write to an offset that is neither ARG0 to ARG3 nor a register with a row of its own has no effect (R168). -/
theorem exec_registerWrite_idle {s : State} {offset : BitVec 5} {value : Word} (hrun : s.inReset = false)
    (hoffset : offset ∈ ([0x00, 0x09, 0x0A, 0x0B, 0x0C, 0x0D, 0x16, 0x17, 0x18, 0x1A, 0x1B, 0x1C, 0x1D, 0x1E, 0x1F] :
      List (BitVec 5))) : exec (.registerWrite offset value) s = .next s := by
  have hplain : isPlainOffset offset = true ∧ ∀ a, plainWrite offset value a = a := by
    simp only [List.mem_cons, List.not_mem_nil, or_false] at hoffset
    rcases hoffset with rfl | rfl | rfl | rfl | rfl | rfl | rfl | rfl | rfl | rfl | rfl | rfl | rfl | rfl | rfl <;>
      exact ⟨by decide, fun _ => rfl⟩
  refine ((if_pos hplain.1).trans (whenRunning_running hrun)).trans ?_
  rw [hplain.2]

/-- A code outside the table of spec/11 11.8 names no command. -/
theorem namesNoCommand_of_code {value : Word}
    (hcode : value.toNat % 256 ∉ [1, 2, 3, 4, 5, 6, 16, 17, 24, 32, 33, 34, 40, 41, 42, 43, 48, 49, 63]) :
    namesNoCommand value = true := by
  have hnumber : (value.setWidth 8).toNat = value.toNat % 256 := BitVec.toNat_setWidth 8 value
  have hcodes : commandCodes.map BitVec.toNat =
      [1, 2, 3, 4, 5, 6, 16, 17, 24, 32, 33, 34, 40, 41, 42, 43, 48, 49, 63] := by decide
  rw [← hnumber, ← hcodes] at hcode
  have hnot : value.setWidth 8 ∉ commandCodes := fun hmem => hcode (List.mem_map_of_mem hmem)
  simpa [namesNoCommand] using hnot

/-- Settles O36: each write on a running part. -/
theorem writesAlwaysTaken : Obligations.WritesAlwaysTaken := by
  intro s value hrun
  have taken {x : State} : (Host.Outcome.next (if s.inReset then s else x) : StepResult) = .next x :=
    congrArg Host.Outcome.next (if_neg (Bool.eq_false_iff.mp hrun))
  have written {offset : BitVec 5} (hplain : isPlainOffset offset = true) : exec (.registerWrite offset value) s =
      .next { s with rw := { s.rw with args := plainWrite offset value s.rw.args } } :=
    (if_pos hplain).trans (whenRunning_running hrun)
  refine ⟨taken, taken, ?_, taken, ?_, ?_, written rfl, written rfl, written rfl, written rfl,
    fun offset hoffset => exec_registerWrite_idle hrun hoffset, fun hcode => ?_⟩
  · rw [← and_not_eq_ite]
    exact taken
  · rw [← clearCauses_eq]
    exact taken
  · rw [← clearResetCauses_eq]
    exact taken
  · exact (if_pos (namesNoCommand_of_code hcode)).trans (takeCommand_plain (body := plain .badCmd) hrun rfl)

/-! ### The configuration registers (R61, R63, R64, R180) -/

/-- A configuration write is taken as a whole, or latches CFG and changes nothing else (R63, R180). -/
theorem exec_configWrite {c : Instr} {s : State} {taken : State → Bool} {f : State → State} (hrun : s.inReset = false)
    (hc : exec c s = whenRunning (fun s => configWrite (taken s) f s) s) :
    (taken s = true → exec c s = .next (f s)) ∧ (taken s = false → exec c s = .next (latchCfg s)) :=
  ⟨fun h => (hc.trans (whenRunning_running hrun)).trans (congrArg Host.Outcome.next (if_pos h)),
    fun h => (hc.trans (whenRunning_running hrun)).trans
      (congrArg Host.Outcome.next (if_neg (Bool.eq_false_iff.mp h)))⟩

theorem lineIsOff_iff {s : State} : lineIsOff s = true ↔ s.lc.mode = .off := by
  rw [lineIsOff, beq_iff_eq]

/-- The low twelve bits of a value are 0 as a number and as a field. -/
theorem setWidth_rate_eq_zero {value : Word} : (value.setWidth 12 : BitVec 12) = 0 ↔ value.toNat % 4096 = 0 := by
  rw [BitVec.toNat_eq, BitVec.toNat_setWidth]
  rfl

/-- Settles O34: each write is one configuration write, with its condition as a proposition. -/
theorem configurationWrites : Obligations.ConfigurationWrites := by
  intro s value hrun
  have rate := exec_configWrite (c := .rateWrite value) (f := setRate value)
    (taken := fun s => lineIsOff s && (value.setWidth 12 : BitVec 12) != 0) hrun rfl
  have timing := exec_configWrite (c := .timingWrite value) (f := setTiming value)
    (taken := fun s => lineIsOff s && value.extractLsb' 0 4 != 0 && value.extractLsb' 8 6 != 0) hrun rfl
  have tickdiv := exec_configWrite (c := .tickdivWrite value)
    (f := fun s => { s with cfg := { s.cfg with tickDiv := value } })
    (taken := fun s => lineIsOff s && !s.sv.lock && value != 0) hrun rfl
  simp only [Bool.and_eq_true, Bool.and_eq_false_iff, bne_iff_ne, bne_eq_false_iff_eq, lineIsOff_iff, ne_eq,
    Bool.not_eq_true', Bool.not_eq_false', ← Bool.not_eq_true (lineIsOff s), setWidth_rate_eq_zero] at rate timing tickdiv
  refine ⟨fun hoff hvalue => rate.1 ⟨hoff, hvalue⟩, rate.2, ?_, fun hoff hlock hvalue => tickdiv.1 ⟨⟨hoff, hlock⟩, hvalue⟩,
    fun h => tickdiv.2 (or_assoc.mpr h)⟩
  rintro _ _ rfl rfl
  exact ⟨fun hoff hturn hwait => timing.1 ⟨⟨hoff, hturn⟩, hwait⟩, fun h => timing.2 (or_assoc.mpr h)⟩

/-! ### The causes and IRQN (R113, R127, R177, R179) -/

/-- Two sets of bits meet exactly when some bit is in both. -/
theorem and_ne_zero_iff {n : Nat} {x y : BitVec n} :
    x &&& y ≠ 0 ↔ ∃ i, i < n ∧ x.getLsbD i = true ∧ y.getLsbD i = true := by
  rw [ne_eq, ← not_forall_not.trans Iff.rfl, not_iff_not, BitVec.eq_of_getLsbD_eq_iff]
  simp only [BitVec.getLsbD_and, BitVec.ofNat_eq_ofNat, BitVec.getLsbD_zero, Bool.and_eq_false_iff]
  grind

/-- Six flags laid side by side, read bit by bit. -/
theorem getLsbD_six_flags : ∀ a b c d e f : Bool,
    let set := BitVec.ofBool a ++ BitVec.ofBool b ++ BitVec.ofBool c ++ BitVec.ofBool d ++ BitVec.ofBool e ++
      BitVec.ofBool f
    set.getLsbD 0 = f ∧ set.getLsbD 1 = e ∧ set.getLsbD 2 = d ∧ set.getLsbD 3 = c ∧ set.getLsbD 4 = b ∧
      set.getLsbD 5 = a := by
  decide

/-- Settles O37: the bits of the cause set one by one; a conjunction of two sets is not 0 exactly when they share a
bit. -/
theorem causesAndInterruptRequest : Obligations.CausesAndInterruptRequest := by
  intro s
  obtain ⟨hattn, hreturn, hline, htable, hsent, hcfg⟩ := getLsbD_six_flags s.rw.latched.cfg s.rw.latched.holdSent
    s.rw.latched.table s.rw.latched.line (returnCause s) (attnCause s)
  refine ⟨?_, ?_, hline, htable, hsent, hcfg, ?_, fun hrun => ?_⟩
  · rw [causeSet, hattn, attnCause, Option.isSome_iff_exists]
  · rw [causeSet, hreturn, returnCause, Bool.not_eq_true', List.isEmpty_eq_false_iff]
  · rw [irqAsserted, Bool.and_eq_true, Bool.not_eq_true', bne_iff_ne, and_ne_zero_iff]
  · exact ⟨(if_neg (Bool.eq_false_iff.mp hrun)).trans (field_zero _),
      (if_neg (Bool.eq_false_iff.mp hrun)).trans (field_zero _)⟩

end Sys2Proof.Machine

/-! SUPPORT. PURGE, the arrivals of the Attention Unit, SUP-SET and the two supervision stages (R101, R118 to R123, R148,
R156 to R158, R164). -/

namespace Sys2Proof.Machine

/-! ### PURGE (R101) -/

theorem purgeSelects_all : purgeSelects 255 = some (fun _ => true) := if_pos rfl

theorem purgeSelects_none {w : Word} (hlarge : 126 < w.toNat) (hall : w ≠ 255) : purgeSelects w = none := by
  rw [purgeSelects, if_neg hall, lineAddress_eq_none.2 hlarge]
  rfl

theorem purgeSelects_address {w : Word} {a : Address} (hw : w = a.setWidth 16) (ha : a.toNat ≤ 126) :
    purgeSelects w = some (fun e => e.destination == a) := by
  have hall : w ≠ 255 := by
    rintro rfl
    have := lineAddress_eq_none.2 (show 126 < (255 : Word).toNat by decide)
    rw [lineAddress_eq_some.2 ⟨hw, ha⟩] at this
    cases this
  rw [purgeSelects, if_neg hall, lineAddress_eq_some.2 ⟨hw, ha⟩]
  rfl

/-- A PURGE completes the QUEUED entries its selector takes. -/
theorem purgeAnswer_selects {s : State} {selects : OutboundEntry → Bool}
    (h : purgeSelects s.rw.args.w0 = some selects) :
    purgeAnswer s = okWith (count (s.oq.countP (fun e => selects e && e.status == .queued)) 0)
      (completeWhere (fun e => selects e && e.status == .queued) .purged s) := by
  rw [purgeAnswer, h]

/-- The DONE records of entries that used no attempt. -/
theorem map_doneRecord_unused {o : MessageOutcome} {entries : List OutboundEntry} (h : ∀ e ∈ entries, e.attempts = 0) :
    entries.map (doneRecord o) = entries.map (fun e => .done e.destination e.tag o 0) := by
  refine List.map_congr_left fun e he => ?_
  rw [doneRecord, h e he]

/-- Settles O17: the entries named are the QUEUED ones of the selector. -/
theorem purgeCompletesQueuedEntries : Obligations.PurgeCompletesQueuedEntries := by
  refine fun s hrun => ⟨fun hlarge hall => ?_, fun named hnamed hunused => ?_⟩
  · refine takeCommand_plain hrun ?_
    rw [purgeAnswer, purgeSelects_none hlarge hall]
  · have hanswer : purgeAnswer s = okWith (count (s.oq.countP named) 0) (completeWhere named .purged s) := by
      rcases hnamed with ⟨hw, hqueued⟩ | ⟨a, hw, ha, hqueued⟩
      · have hsame : named = fun e => true && e.status == .queued := by
          funext e
          rw [Bool.eq_iff_iff, hqueued, Bool.true_and, beq_iff_eq]
        rw [hsame]
        exact purgeAnswer_selects (hw ▸ purgeSelects_all)
      · have hsame : named = fun e => e.destination == a && e.status == .queued := by
          funext e
          rw [Bool.eq_iff_iff, hqueued, Bool.and_eq_true, beq_iff_eq, beq_iff_eq]
        rw [hsame]
        exact purgeAnswer_selects (purgeSelects_address hw ha)
    have hstatus : ∀ e ∈ s.oq.filter named, e.attempts = 0 := by
      intro e he
      obtain ⟨hmem, htrue⟩ := List.mem_filter.mp he
      refine hunused e hmem ?_
      rcases hnamed with ⟨-, hqueued⟩ | ⟨a, -, -, hqueued⟩
      · exact (hqueued e).mp htrue
      · exact ((hqueued e).mp htrue).2
    rw [completeWhere, map_doneRecord_unused hstatus, count_zero] at hanswer
    exact takeCommand_answer hrun hanswer

/-! ### The arrivals of the Attention Unit (R118 to R123) -/

/-- The repeat count holds at 15. -/
theorem satInc_repeats (x : BitVec 4) : satInc x = if x = 15 then 15 else x + 1 := by
  change (if x = 15 then x else x + 1) = _
  split
  · next h => exact h
  · rfl

theorem arrive_merges {u : AttentionUnit} {a : Address} {l : BitVec 2} {c : Byte} {before after : List AttentionEntry}
    {e : AttentionEntry} (hqueue : u.queue = before ++ e :: after) (he : e.sameAs a l c = true)
    (hothers : ∀ f ∈ before ++ after, f.sameAs a l c = false) :
    u.arrive a l c = some { u with queue := before ++ { e with repeats := satInc e.repeats } :: after } := by
  have hany : u.queue.any (fun e => e.sameAs a l c) = true :=
    List.any_eq_true.2 ⟨e, by rw [hqueue]; exact List.mem_append_cons_self, he⟩
  have hkept (part : List AttentionEntry) (hpart : ∀ f ∈ part, f.sameAs a l c = false) :
      part.map (fun e => if e.sameAs a l c then { e with repeats := satInc e.repeats } else e) = part :=
    (List.map_congr_left fun f hf => if_neg (Bool.eq_false_iff.mp (hpart f hf))).trans (List.map_id part)
  rw [AttentionUnit.arrive, if_pos hany, hqueue, List.map_append, List.map_cons, if_pos he,
    hkept before fun f hf => hothers f (List.mem_append_left _ hf),
    hkept after fun f hf => hothers f (List.mem_append_right _ hf)]

theorem arrive_appends {u : AttentionUnit} {a : Address} {l : BitVec 2} {c : Byte}
    (hnone : ∀ e ∈ u.queue, e.sameAs a l c = false) (hroom : attentionRoom u.queue l = true) :
    u.arrive a l c = some { u with
      queue := u.queue ++ [{ source := a, level := l, code := c, repeats := 0, stamp := u.arrivals + 1 }]
      arrivals := u.arrivals + 1 } := by
  have hany : ¬u.queue.any (fun e => e.sameAs a l c) = true := by
    rw [List.any_eq_true]
    rintro ⟨e, he, hsame⟩
    exact Bool.false_ne_true ((hnone e he).symm.trans hsame)
  rw [AttentionUnit.arrive, if_neg hany, if_pos hroom]

theorem attentionRoom_iff {q : List AttentionEntry} {l : BitVec 2} :
    attentionRoom q l = true ↔ q.length < 16 ∧ (l = 3 ∨ q.countP (fun e => e.level != 3) < 12) := by
  rw [attentionRoom, Bool.and_eq_true, Bool.or_eq_true, decide_eq_true_iff, decide_eq_true_iff, beq_iff_eq]
  rfl

/-- Settles O22: the three ends of an arrival, and what a controller event does with each. -/
theorem arrivalsMergeAppendOrFail : Obligations.ArrivalsMergeAppendOrFail := by
  intro s a l code
  have differs {e : AttentionEntry} (h : ¬(e.source = a ∧ e.level = l ∧ e.code = code)) : e.sameAs a l code = false :=
    Bool.eq_false_iff.mpr (mt sameAs_iff.mp h)
  refine ⟨⟨fun before e after hqueue he hothers => ?_, fun hnone hroom => ?_, fun hnone hroom => ?_⟩,
    fun u hu => ?_, fun hlost => ?_⟩
  · rw [← satInc_repeats]
    exact arrive_merges hqueue (sameAs_iff.mpr he) fun f hf => differs (hothers f hf)
  · exact arrive_appends (fun e he => differs (hnone e he)) (attentionRoom_iff.mpr hroom)
  · exact arrive_none_iff.mpr ⟨fun e he => differs (hnone e he), Bool.eq_false_iff.mpr (mt attentionRoom_iff.mp hroom)⟩
  · rw [controllerEvent, hu]
    rfl
  · rw [controllerEvent, hlost]
    rfl

/-! ### SUP-SET (R148, R164) -/

/-- Settles O29: the refusals in their order, and the configuration that is taken. -/
theorem supSetConfigures : Obligations.SupSetConfigures := by
  refine fun s hrun => ⟨fun hlock => takeCommand_plain hrun (supSetAnswer_locked hlock), fun hlock => ⟨fun hargs => ?_,
    fun mode hmode hperiod hgrace hflag => ?_⟩⟩
  · refine takeCommand_plain hrun ?_
    rw [supSetAnswer, if_neg (Bool.eq_false_iff.mp hlock)]
    split
    · rfl
    · next mode hmode =>
      refine if_pos ?_
      rcases hargs with hlarge | hargs
      · rw [supervisionModeOf_eq_none.mpr hlarge] at hmode
        cases hmode
      · exact hargs
  · have hnamed : supervisionModeOf s.rw.args.w0 = some mode := by
      rcases hmode with ⟨hw, rfl⟩ | ⟨hw, rfl⟩ | ⟨hw, rfl⟩ <;> rw [hw] <;> rfl
    have hrange : ¬(s.rw.args.w1 = 0 ∨ 255 < s.rw.args.w2.toNat ∨ 1 < s.rw.args.w3.toNat) := by
      have hsmall : ¬1 < s.rw.args.w3.toNat := by
        rcases hflag with h | h <;> rw [h] <;> decide
      exact not_or.mpr ⟨hperiod, not_or.mpr ⟨Nat.not_lt.mpr hgrace, hsmall⟩⟩
    have hanswer : supSetAnswer s = okWith s.sv.token
        (configureSupervision mode s.rw.args.w1 (s.rw.args.w2.setWidth 8) (s.rw.args.w3 == 1) s) := by
      rw [supSetAnswer, if_neg (Bool.eq_false_iff.mp hlock), hnamed]
      exact if_neg hrange
    refine (takeCommand_answer hrun hanswer).trans ?_
    cases mode <;> rfl

/-! ### The two stages of the Supervision Timer (R121, R148, R156 to R158) -/

theorem secondStage_off {s : State} (h : s.sv.mode = .off) : secondStage s = s := by
  rw [secondStage, h]

theorem secondStage_warn {s : State} (h : s.sv.mode = .warn) : secondStage s = { s with
    au := (controllerEvent 0 3 0x05 s).au, sv := { s.sv with state := .watch, remaining := s.sv.period } } := by
  rw [secondStage, h]
  rfl

theorem secondStage_hold {s : State} (h : s.sv.mode = .hold) : secondStage s = { s with
    lc := s.lc.supervisionHold, sv := { s.sv with state := .expired, remaining := 0 } } := by
  rw [secondStage, h]

/-- With no grace the first stage goes straight on to the second (R157). -/
theorem firstStage_of_noGrace {s : State} (h : s.sv.grace = 0) : firstStage s = secondStage { s with
    au := (controllerEvent 0 3 0x04 s).au
    sv := { s.sv with state := .grace, remaining := s.sv.grace.setWidth 16 } } :=
  if_pos h

theorem exec_graceExpiry_due {s : State} (hrun : s.inReset = false) (hgrace : s.sv.state = .grace)
    (hdue : s.sv.lastTick = true) : exec .graceExpiry s = .next (secondStage s) := by
  change whenRunning _ s = _
  rw [whenRunning_running hrun, if_pos ⟨hgrace, hdue⟩]

theorem exec_tick {s : State} (hrun : s.inReset = false) : exec .tick s = .next (tickSupervision (tickPause s)) :=
  whenRunning_running (f := fun s => tickSupervision (tickPause s)) hrun

/-- Two states that agree in what the supervision stages read and write. -/
def SupervisionAgrees (s t : State) : Prop :=
  t.sv = s.sv ∧ t.au = s.au ∧ { t.lc with inFlight := none } = { s.lc with inFlight := none }

namespace SupervisionAgrees

theorem of_apart {s t : State} (h : apartFromScheduler t = apartFromScheduler s) : SupervisionAgrees s t :=
  ⟨(congrArg State.sv h :), (congrArg State.au h :), (congrArg State.lc h :)⟩

theorem secondStage {s t : State} (h : SupervisionAgrees s t) :
    SupervisionAgrees (Machine.secondStage s) (Machine.secondStage t) := by
  obtain ⟨hsv, hau, hlc⟩ := h
  cases hmode : s.sv.mode with
  | off =>
    rw [secondStage_off hmode, secondStage_off ((congrArg Supervision.mode hsv).trans hmode)]
    exact ⟨hsv, hau, hlc⟩
  | warn =>
    rw [secondStage_warn hmode, secondStage_warn ((congrArg Supervision.mode hsv).trans hmode), controllerEvent,
      controllerEvent, hsv, hau]
    exact ⟨rfl, rfl, hlc⟩
  | hold =>
    rw [secondStage_hold hmode, secondStage_hold ((congrArg Supervision.mode hsv).trans hmode), hsv]
    refine ⟨rfl, hau, ?_⟩
    have := congrArg LineControl.supervisionHold hlc
    exact this

theorem firstStage {s t : State} (h : SupervisionAgrees s t) :
    SupervisionAgrees (Machine.firstStage s) (Machine.firstStage t) := by
  obtain ⟨hsv, hau, hlc⟩ := h
  by_cases hgrace : s.sv.grace = 0
  · rw [firstStage_of_noGrace hgrace, firstStage_of_noGrace ((congrArg Supervision.grace hsv).trans hgrace),
      controllerEvent, controllerEvent, hsv, hau]
    exact secondStage ⟨rfl, rfl, hlc⟩
  · rw [firstStage_of_grace hgrace, firstStage_of_grace fun h => hgrace ((congrArg Supervision.grace hsv).symm.trans h),
      controllerEvent, controllerEvent, hsv, hau]
    exact ⟨rfl, rfl, hlc⟩

end SupervisionAgrees

/-- The pause timer's part of a tick reaches nothing the stages read. -/
theorem tickPause_supervisionAgrees (s : State) : SupervisionAgrees s (tickPause s) := .of_apart (apart_tickPause s)

/-- Settles O31: the stages by their equations; a tick runs the stage after the pause timer's part, which the stages do not
read. -/
theorem supervisionStages : Obligations.SupervisionStages := by
  intro s hrun
  have last (h : s.sv.remaining.toNat ≤ 1) : s.sv.lastTick = true := decide_eq_true h
  refine ⟨fun hwatch hdue => ?_, fun hgrace hdue => ?_, fun c u hc hdue hu => ?_, fun hnot => ?_, fun hnot => ?_⟩
  · have hfirst := exec_watchExpiry_due hrun hwatch (last hdue)
    refine ⟨fun hgrace => ?_, fun hgrace hmode => ?_, fun hgrace hmode => ?_⟩
    · rw [hfirst, firstStage_of_grace hgrace]
    · rw [hfirst, firstStage_of_noGrace hgrace, secondStage_warn]
      · rfl
      · exact hmode
    · rw [hfirst, firstStage_of_noGrace hgrace, secondStage_hold]
      · rfl
      · exact hmode
  · have hsecond := exec_graceExpiry_due hrun hgrace (last hdue)
    refine ⟨fun hmode => ?_, fun hmode => ?_⟩
    · rw [hsecond, secondStage_warn hmode]
    · rw [hsecond, secondStage_hold hmode]
      rfl
  · have hpause := tickPause_supervisionAgrees s
    obtain ⟨t, ht, hsv, hau, hlc⟩ : ∃ t, exec .tick s = .next t ∧ SupervisionAgrees u t := by
      rcases hc with ⟨hwatch, rfl⟩ | ⟨hgrace, rfl⟩
      · rw [exec_watchExpiry_due hrun hwatch (last hdue)] at hu
        cases hu
        refine ⟨_, exec_tick hrun, ?_⟩
        rw [tickSupervision_ends_watch (by rw [hpause.1, hwatch]) (by rw [hpause.1]; exact hdue)]
        exact hpause.firstStage
      · rw [exec_graceExpiry_due hrun hgrace (last hdue)] at hu
        cases hu
        refine ⟨_, exec_tick hrun, ?_⟩
        rw [tickSupervision_ends_grace (by rw [hpause.1, hgrace]) (by rw [hpause.1]; exact hdue)]
        exact hpause.secondStage
    exact ⟨t, ht, hsv, hau, (congrArg LineControl.holdInForce hlc :), (congrArg LineControl.causeHost hlc :),
      (congrArg LineControl.causeSupervision hlc :), (congrArg LineControl.announcement hlc :)⟩
  · refine (whenRunning_running hrun).trans (congrArg Host.Outcome.next (if_neg fun h => hnot ?_))
    exact ⟨h.1, of_decide_eq_true h.2⟩
  · refine (whenRunning_running hrun).trans (congrArg Host.Outcome.next (if_neg fun h => hnot ?_))
    exact ⟨h.1, of_decide_eq_true h.2⟩

end Sys2Proof.Machine

/-! SUPPORT. How a cycle opens and what its first visit does (R41 to R52, R57, R141, R142, R156). -/

namespace Sys2Proof.Machine

/-! ### What the scheduler's acts leave of the cycle number -/

theorem handStage_cycle (t : Turn) (s : State) : (handStage t s).ps.cycle = s.ps.cycle := by
  rw [handStage]
  split
  · rfl
  · split <;> rfl
  · rfl

theorem decideTurn_cycle (t : Turn) (s : State) : (decideTurn t s).ps.cycle = s.ps.cycle := by
  rw [decideTurn]
  split
  · rfl
  · exact handStage_cycle t s

/-- A walk keeps the cycle number where its tail does. -/
theorem walkFrom_cycle {tail : State → State} (htail : ∀ s, (tail s).ps.cycle = s.ps.cycle) :
    ∀ (l : List Address) (s : State), (walkFrom tail l s).ps.cycle = s.ps.cycle
  | [], _ => htail _
  | a :: rest, s => by
    rw [walkFrom]
    split
    · exact walkFrom_cycle htail rest _
    · split
      · exact walkFrom_cycle htail rest _
      · split
        · exact decideTurn_cycle _ _
        · exact walkFrom_cycle htail rest _
      all_goals
        split
        · exact decideTurn_cycle _ _
        · exact walkFrom_cycle htail rest _

theorem passTailUnhanded_cycle (s : State) : (passTailUnhanded s).ps.cycle = s.ps.cycle := by
  rw [passTailUnhanded]
  split <;> rfl

theorem openingMessage_cycle {tail : State → State} (htail : ∀ s, (tail s).ps.cycle = s.ps.cycle) (s : State) :
    (openingMessage tail s).ps.cycle = s.ps.cycle := by
  rw [openingMessage]
  split
  · split <;> rfl
  · exact walkFrom_cycle htail _ _

/-- A cycle that opens has the next number (R41). -/
theorem startCycle_cycle (s : State) : (startCycle s).ps.cycle = s.ps.cycle + 1 := by
  rw [startCycle_eq]
  split
  · rfl
  · split
    · rfl
    · exact openingMessage_cycle passTailUnhanded_cycle (cycleOpened s)

/-! ### The opening of a cycle (R41 to R43) -/

theorem startCycle_announces {s : State} (h : s.lc.announcement ≠ .none) :
    startCycle s = handAnnouncement (cycleOpened s) :=
  if_pos h

theorem startCycle_repeatsHold {s : State} (h : s.lc.announcement = .none) (hhold : s.lc.holdInForce = true) :
    startCycle s = handExchange .hold 0 none (fullAllowance s) (cycleOpened s) :=
  (if_neg (not_not_intro h)).trans (if_pos hhold)

theorem startCycle_opensWithMessage {s : State} (h : s.lc.announcement = .none) (hhold : s.lc.holdInForce = false) :
    startCycle s = openingMessage passTailUnhanded (cycleOpened s) :=
  (if_neg (not_not_intro h)).trans (if_neg (Bool.eq_false_iff.mp hhold))

theorem openingMessage_sends {tail : State → State} {s : State} {e : OutboundEntry} (h : s.lc.announcement = .none)
    (hhold : s.lc.holdInForce = false) (he : oldestBroadcast s = some e) :
    openingMessage tail s = handExchange .write 0 (some e.tag) (fullAllowance s) (sendEntry e.tag s) := by
  rw [openingMessage, if_neg (Bool.eq_false_iff.mp hhold), he]
  exact if_neg (not_not_intro h)

theorem openingMessage_walks {tail : State → State} {s : State} (hhold : s.lc.holdInForce = false)
    (hnone : oldestBroadcast s = none) :
    openingMessage tail s = walkFrom tail (toVisit s) { s with ps := { s.ps with phase := .walking } } := by
  rw [openingMessage, if_neg (Bool.eq_false_iff.mp hhold), hnone]

theorem startCycle_broadcasts {s : State} {e : OutboundEntry} (h : s.lc.announcement = .none)
    (hhold : s.lc.holdInForce = false) (he : oldestBroadcast s = some e) :
    startCycle s = handExchange .write 0 (some e.tag) (fullAllowance s) (sendEntry e.tag (cycleOpened s)) :=
  (startCycle_opensWithMessage h hhold).trans (openingMessage_sends (s := cycleOpened s) h hhold he)

/-- The cycle whose opening hands nothing: the walk begins at the head of the poll list (R45). -/
def walkBegun (s : State) : State := { cycleOpened s with ps := { (cycleOpened s).ps with phase := .walking } }

theorem toVisit_cycleOpened (s : State) : toVisit (cycleOpened s) = s.st.pollList := by
  cases hlist : s.st.pollList with
  | nil => simp only [toVisit, cycleOpened, hlist, List.head?_nil]
  | cons a rest =>
    simp only [toVisit, cycleOpened, hlist, List.head?_cons]
    exact List.dropWhile_cons_of_neg (by simp)

theorem startCycle_walks {s : State} (h : s.lc.announcement = .none) (hhold : s.lc.holdInForce = false)
    (hnone : ∀ e ∈ s.oq, ¬(e.destination = 0 ∧ e.status = .queued)) :
    startCycle s = walkFrom passTailUnhanded s.st.pollList (walkBegun s) := by
  have hopened : oldestBroadcast (cycleOpened s) = none := by
    refine List.find?_eq_none.2 fun e he => ?_
    rw [Bool.and_eq_true, beq_iff_eq, beq_iff_eq]
    exact hnone e he
  rw [startCycle_opensWithMessage h hhold, openingMessage_walks (s := cycleOpened s) hhold hopened, toVisit_cycleOpened]
  rfl

theorem passTailUnhanded_pauses {s : State} (h : s.lc.announcement = .none) :
    passTailUnhanded s = startPause (if s.cfg.pause = 0 then 1 else s.cfg.pause) s :=
  if_neg (not_not_intro h)

/-- A walk that has handed nothing ends in the pause (R57). -/
theorem walkFrom_end_pauses {s : State} (h : s.lc.announcement = .none) : walkFrom passTailUnhanded [] s = { s with
    ps := { s.ps with
      phase := .pausing, cursor := none, pauseTimer := some (if s.cfg.pause = 0 then 1 else s.cfg.pause) } } :=
  passTailUnhanded_pauses (s := { s with ps := { s.ps with cursor := none } }) h

/-- The entry that a broadcast carries is IN-FLIGHT with no attempt used (R92). -/
theorem sendEntry_sends (tag : Byte) (s : State) :
    ∀ d ∈ (sendEntry tag s).oq, d.tag = tag → d.status = .inFlight ∧ d.attempts = 0 := by
  intro d hd htag
  obtain ⟨e, -, rfl⟩ := List.mem_map.mp hd
  split at htag <;> split
  · exact ⟨rfl, rfl⟩
  · contradiction
  · contradiction
  · next hother _ => exact absurd (beq_iff_eq.mpr htag) hother

/-- The oldest entry that a test selects. -/
theorem find?_oldest {p : OutboundEntry → Bool} {older newer : List OutboundEntry} {e : OutboundEntry}
    (he : p e = true) (holder : ∀ d ∈ older, ¬p d = true) : (older ++ e :: newer).find? p = some e :=
  List.find?_eq_some_iff_append.mpr ⟨he, older, newer, rfl, fun d hd => by simpa using holder d hd⟩

/-- A cycle opens as R41 to R43 and R57 state it. -/
theorem cycleOpens_startCycle (s : State) : CycleOpens s (startCycle s) := by
  refine ⟨startCycle_cycle s, apart_mode (apart_startCycle s), fun h => ?_, fun h hhold => ?_, fun h hhold => ⟨?_, ?_⟩⟩
  · rw [startCycle_announces h]
    refine ⟨?_, rfl, rfl, rfl⟩
    cases hpending : s.lc.announcement with
    | none => exact absurd hpending h
    | hold => simp only [handAnnouncement, handExchange, cycleOpened, hpending]; rfl
    | free => simp only [handAnnouncement, handExchange, cycleOpened, hpending]; rfl
  · rw [startCycle_repeatsHold h hhold]
    exact ⟨rfl, rfl, rfl, rfl⟩
  · intro older e newer hoq hdestination hstatus holder
    have he : oldestBroadcast s = some e := by
      rw [oldestBroadcast, hoq]
      refine find?_oldest (by rw [hdestination, hstatus]; rfl) fun d hd => ?_
      rw [Bool.and_eq_true, beq_iff_eq, beq_iff_eq]
      exact holder d hd
    rw [startCycle_broadcasts h hhold he]
    exact ⟨rfl, rfl, rfl, sendEntry_sends e.tag (cycleOpened s)⟩
  · intro hnone hempty
    rw [startCycle_walks h hhold hnone, hempty]
    exact walkFrom_end_pauses (s := walkBegun s) h

/-! ### LINE-START and LINE-STOP (R141, R142) -/

/-- Without a turn in progress the abandonment of a cycle is the scheduler's rest alone (R59). -/
theorem abandonCycle_of_noTurn {s : State} (h : s.ps.turn = none) : abandonCycle s = { s with
    ps := { s.ps with phase := .none, cursor := none, pauseTimer := none } } := by
  have hturn : endTurn .unfinished s = s := by rw [endTurn, h]
  rw [abandonCycle, hturn]

/-- Settles O23: the answers by the line mode; a start from OFF opens a cycle. -/
theorem lineStartAndLineStop : Obligations.LineStartAndLineStop := by
  refine fun s hrun => ⟨fun hmode => takeCommand_plain hrun ?_, fun hmode => takeCommand_plain hrun ?_, fun hmode => ?_,
    fun hmode => takeCommand_plain hrun ?_, fun hmode hexchange => takeCommand_plain hrun ?_,
    fun hmode hexchange hturn => takeCommand_plain hrun ?_⟩
  · rw [lineStartAnswer, hmode]
  · rw [lineStartAnswer, hmode]
  · refine ⟨startLine s, takeCommand_plain hrun (by rw [lineStartAnswer, hmode]), ?_⟩
    have hapart := apart_startCycle { s with
      lc := { s.lc with mode := .run, stopCause := .none }, ee := { s.ee with faultStreak := 0 } }
    exact ⟨apart_mode hapart, apart_stopCause hapart, apart_faultStreak hapart,
      (apart_holdInForce hapart :),
      cycleOpens_startCycle _⟩
  · rcases hmode with hmode | hmode <;> rw [lineStopAnswer, hmode]
  · rw [lineStopAnswer, hmode]
    exact if_pos (Option.isSome_iff_ne_none.mpr hexchange)
  · rw [lineStopAnswer, hmode, hexchange]
    exact congrArg (plain .ok) (abandonCycle_of_noTurn (s := lineOff .host s) hturn)

/-! ### The tick (R57, R62, R156) -/

/-- The Supervision Timer's part of a tick is its expiry, when one is due. -/
theorem next_tickSupervision {u : State} (hrun : u.inReset = false) : Host.Outcome.next (tickSupervision u) =
    if u.sv.state = .watch ∧ u.sv.remaining.toNat ≤ 1 then exec .watchExpiry u
    else if u.sv.state = .grace ∧ u.sv.remaining.toNat ≤ 1 then exec .graceExpiry u
    else if u.sv.state = .watch ∨ u.sv.state = .grace then
      .next { u with sv := { u.sv with remaining := u.sv.remaining - 1 } }
    else .next u := by
  split
  · next h => rw [exec_watchExpiry_due hrun h.1 (decide_eq_true h.2), tickSupervision_ends_watch h.1 h.2]
  · next hwatch =>
    split
    · next h => rw [exec_graceExpiry_due hrun h.1 (decide_eq_true h.2), tickSupervision_ends_grace h.1 h.2]
    · next hgrace =>
      split
      · next h =>
        refine congrArg Host.Outcome.next (tickSupervision_counts h ?_)
        rcases h with h | h
        · exact not_le.mp fun hlast => hwatch ⟨h, hlast⟩
        · exact not_le.mp fun hlast => hgrace ⟨h, hlast⟩
      · next h =>
        obtain ⟨hnoWatch, hnoGrace⟩ := not_or.mp h
        refine congrArg Host.Outcome.next (tickSupervision_at_rest ?_)
        cases hstate : u.sv.state with
        | idle => exact .inl rfl
        | expired => exact .inr rfl
        | watch => exact absurd hstate hnoWatch
        | grace => exact absurd hstate hnoGrace

theorem pauseDue_iff {s : State} :
    pauseDue s = true ↔ (∃ n, s.ps.pauseTimer = some n ∧ n.toNat ≤ 1) ∧ s.ps.phase = .pausing ∧ s.lc.mode = .run := by
  rw [pauseDue, Bool.and_eq_true, Bool.and_eq_true, beq_iff_eq, beq_iff_eq, Option.any_eq_true, and_assoc]
  simp only [decide_eq_true_eq]

theorem exec_pauseExpiry {s : State} (hrun : s.inReset = false) :
    exec .pauseExpiry s = .next (if pauseDue s then startCycle s else s) :=
  whenRunning_running (f := fun s => if pauseDue s then startCycle s else s) hrun

theorem exec_pauseExpiry_due {s : State} {n : Byte} (hrun : s.inReset = false) (htimer : s.ps.pauseTimer = some n)
    (hlast : n.toNat ≤ 1) (hphase : s.ps.phase = .pausing) (hmode : s.lc.mode = .run) :
    exec .pauseExpiry s = .next (startCycle s) := by
  rw [exec_pauseExpiry hrun, if_pos (pauseDue_iff.mpr ⟨⟨n, htimer, hlast⟩, hphase, hmode⟩)]

/-- Settles O24: a tick is the pause timer's part, then the Supervision Timer's. -/
theorem tickAndPauseExpiry : Obligations.TickAndPauseExpiry := by
  refine fun s hrun => ⟨fun htimer => ?_, fun n htimer hmore => ?_, fun n htimer hlast hphase hmode => ?_, fun hnot => ?_⟩
  · rw [exec_tick hrun, tickPause_stopped htimer]
    exact next_tickSupervision hrun
  · rw [exec_tick hrun, tickPause_counts htimer hmore]
    exact next_tickSupervision hrun
  · refine ⟨startCycle s, exec_pauseExpiry_due hrun htimer hlast hphase hmode, cycleOpens_startCycle s, ?_⟩
    rw [exec_tick hrun, tickPause_ends htimer hlast hphase hmode]
    exact next_tickSupervision ((apart_inReset (apart_startCycle s)).trans hrun)
  · rw [exec_pauseExpiry hrun, if_neg]
    rw [pauseDue_iff]
    rintro ⟨⟨n, htimer, hlast⟩, hphase, hmode⟩
    rcases hnot with hmore | hother | hother
    · exact absurd (hmore n htimer) (by omega)
    · exact hother hphase
    · exact hother hmode

/-! ### The first visit of a cycle (R45 to R52) -/

theorem walkFrom_due {tail : State → State} {a : Address} {rest : List Address} {s : State} {r : StationRecord}
    (hfind : s.st.find a = some r) (hstate : r.state = .new ∨ r.state = .online ∨ r.state = .suspect)
    (hcountdown : r.countdown = 0) : walkFrom tail (a :: rest) s =
      beginTurn r .ordinary
        (updateStation a (fun r => { r with countdown := r.skip }) { s with ps := { s.ps with cursor := rest.head? } }) := by
  rw [walkFrom]
  simp only [hfind]
  rcases hstate with h | h | h <;> simp only [h, if_pos hcountdown]

theorem walkFrom_notDue {tail : State → State} {a : Address} {rest : List Address} {s : State} {r : StationRecord}
    (hfind : s.st.find a = some r) (hstate : r.state = .new ∨ r.state = .online ∨ r.state = .suspect)
    (hcountdown : r.countdown ≠ 0) : walkFrom tail (a :: rest) s =
      walkFrom tail rest
        (updateStation a (fun r => { r with countdown := r.countdown - 1 })
          { s with ps := { s.ps with cursor := rest.head? } }) := by
  rw [walkFrom]
  simp only [hfind]
  rcases hstate with h | h | h <;> simp only [h, if_neg hcountdown]

theorem walkFrom_lost {tail : State → State} {a : Address} {rest : List Address} {s : State} {r : StationRecord}
    (hfind : s.st.find a = some r) (hstate : r.state = .lost) : walkFrom tail (a :: rest) s =
      if recoveryCycle s then beginTurn r .recovery { s with ps := { s.ps with cursor := rest.head? } }
      else walkFrom tail rest { s with ps := { s.ps with cursor := rest.head? } } := by
  rw [walkFrom]
  simp only [hfind, hstate]
  rfl

theorem beginTurn_unannounced {r : StationRecord} {kind : TurnKind} {s : State} (h : s.lc.announcement = .none) :
    beginTurn r kind s = handStage (newTurn r kind) { s with ps := { s.ps with turn := some (newTurn r kind) } } :=
  if_neg (not_not_intro h)

theorem handStage_sync {t : Turn} {s : State} (hnext : t.next = .sync) :
    handStage t s = handExchange .sync t.address none (fullAllowance s) (atStage .sync s) := by
  rw [handStage, hnext]

theorem handStage_write {t : Turn} {s : State} {e : OutboundEntry} (hnext : t.next = .write)
    (he : writeStageEntry s t.address = some e) : handStage t s =
      handExchange .write t.address (some e.tag) (fullAllowance s) (sendEntry e.tag (atStage .write s)) := by
  rw [handStage, hnext]
  simp only [he]

theorem handStage_poll {t : Turn} {s : State} (hnext : t.next = .write) (he : writeStageEntry s t.address = none) :
    handStage t s = handPoll t s := by
  rw [handStage, hnext]
  simp only [he]

/-- The state in which a station on the poll list is first visited, with the rest of the list before the cursor. -/
def firstVisited (s : State) (rest : List Address) : State :=
  { walkBegun s with ps := { (walkBegun s).ps with cursor := rest.head? } }

/-- A station found due: its countdown is reloaded and its turn begins (R46). -/
def dueVisited (s : State) (a : Address) (rest : List Address) (t : Turn) : State :=
  { updateStation a (fun r => { r with countdown := r.skip }) (firstVisited s rest) with
    ps := { (firstVisited s rest).ps with turn := some t } }

theorem recoveryCycle_firstVisited {s : State} {rest : List Address} :
    recoveryCycle (firstVisited s rest) = true ↔ (s.ps.cycle + 1).toNat % 8 = 0 := by
  rw [recoveryCycle, beq_iff_eq]
  rfl

theorem find_dueVisited {s : State} {a : Address} {rest : List Address} {t : Turn} {r : StationRecord}
    (hfind : s.st.find a = some r) : (dueVisited s a rest t).st.find a = some { r with countdown := r.skip } :=
  find_updateStation_same (s := firstVisited s rest) (f := fun r => { r with countdown := r.skip }) (fun _ => rfl) hfind

theorem dueVisited_oq (s : State) (a : Address) (rest : List Address) (t : Turn) : (dueVisited s a rest t).oq = s.oq := rfl

theorem dueVisited_cfg (s : State) (a : Address) (rest : List Address) (t : Turn) : (dueVisited s a rest t).cfg = s.cfg :=
  rfl

theorem handExchange_atStage_oq (kind : FrameKind) (a : Address) (entry : Option Byte) (n : Nat) (stage : Stage)
    (s : State) : (handExchange kind a entry n (atStage stage s)).oq = s.oq := rfl

/-- An exchange of a turn with every attempt allowed is the broadcast's with the station's address. -/
theorem exchange_dueVisited (s : State) (a : Address) (rest : List Address) (t : Turn) (kind : FrameKind)
    (entry : Option Byte) (u : State) :
    (handExchange kind a entry (fullAllowance (dueVisited s a rest t)) u).ee.exchange =
      some { broadcastExchange s kind entry with address := a } := by
  rw [fullAllowance, dueVisited_cfg]
  rfl

/-- What a visit that finds a station due leaves, whichever stage its turn begins with. -/
def DueOutcome (s : State) (a : Address) (rest : List Address) (r : StationRecord) (stage : Stage) (t : State) : Prop :=
  t.ps.phase = .walking ∧ t.ps.cursor = rest.head? ∧ t.ps.exchangeHanded = true ∧ t.ee.state = .settle ∧
    t.st.find a = some { r with countdown := r.skip } ∧ OtherRecordsKept a s t ∧
    t.ps.turn = some { address := a, kind := .ordinary, stage := some stage, next := stage }

/-- A due station's turn: a SYNC where sync is pending, else a WRITE of its oldest entry, else a POLL (R49 to R51). -/
def DueTurn (s : State) (a : Address) (rest : List Address) (r : StationRecord) (t : State) : Prop :=
  ∃ stage, DueOutcome s a rest r stage t ∧
    (r.syncPending = true → stage = .sync ∧ t.oq = s.oq ∧
      t.ee.exchange = some { broadcastExchange s .sync none with address := a }) ∧
    (r.syncPending = false →
      (oldestEntryFor s a = none → stage = .poll ∧ t.oq = s.oq ∧
        t.ee.exchange = some { broadcastExchange s .poll none with address := a }) ∧
      ∀ e, oldestEntryFor s a = some e → stage = .write ∧
        t.ee.exchange = some { broadcastExchange s .write (some e.tag) with address := a } ∧
        ∀ d ∈ t.oq, d.tag = e.tag → d.status = .inFlight ∧ d.attempts = 0)

section

variable {s : State} {a : Address} {rest : List Address} {r : StationRecord} (hfind : s.st.find a = some r)
include hfind

/-- A turn hands an exchange of its station at a stage. -/
theorem dueOutcome_handExchange {kind : FrameKind} {entry : Option Byte} {n : Nat} {stage : Stage} {u : State}
    (hst : u.st = (dueVisited s a rest ⟨a, .ordinary, some stage, stage⟩).st)
    (hps : u.ps = (dueVisited s a rest ⟨a, .ordinary, some stage, stage⟩).ps) :
    DueOutcome s a rest r stage (handExchange kind a entry n u) := by
  have hfound : u.st.find a = some { r with countdown := r.skip } := by rw [hst]; exact find_dueVisited hfind
  refine ⟨(congrArg Scheduler.phase hps :), (congrArg Scheduler.cursor hps :), rfl, rfl, hfound, fun b hb => ?_,
    (congrArg Scheduler.turn hps :)⟩
  have hother : u.st.find b = (firstVisited s rest).st.find b := by
    rw [hst]
    exact othersKept_updateStation a (fun r => { r with countdown := r.skip }) (fun _ => rfl) (firstVisited s rest) b hb
  exact hother

/-- The station in turn is due and not LOST, so its WRITE stage carries its oldest entry (R51). -/
theorem writeStageEntry_dueVisited {t : Turn} (hhold : s.lc.holdInForce = false) (hlost : r.state ≠ .lost) :
    writeStageEntry (dueVisited s a rest t) a = oldestEntryFor s a := by
  have hfound : (dueVisited s a rest t).st.find a = some { r with countdown := r.skip } :=
    find_dueVisited hfind
  have hheld : (dueVisited s a rest t).lc.holdInForce = false := hhold
  rw [writeStageEntry, hfound, hheld, if_neg]
  · rfl
  · rintro (h | h)
    · cases h
    · exact hlost (Option.some.inj h)

theorem dueTurn_sync (hsync : r.syncPending = true) :
    DueTurn s a rest r (handStage ⟨a, .ordinary, none, .sync⟩ (dueVisited s a rest ⟨a, .ordinary, none, .sync⟩)) := by
  rw [handStage_sync rfl]
  have hoqKept := (handExchange_atStage_oq .sync a none (fullAllowance (dueVisited s a rest ⟨a, .ordinary, none, .sync⟩))
    .sync _).trans (dueVisited_oq s a rest ⟨a, .ordinary, none, .sync⟩)
  refine ⟨.sync, dueOutcome_handExchange hfind rfl rfl, fun _ => ⟨rfl, hoqKept, exchange_dueVisited s a rest _ _ _ _⟩, fun h => ?_⟩
  exact absurd (hsync.symm.trans h) (by decide)

/-- Without sync pending the turn begins with a WRITE of the oldest entry, or with a POLL (R50, R51). -/
theorem dueTurn_unsynced (hhold : s.lc.holdInForce = false) (hlost : r.state ≠ .lost) (hsync : r.syncPending = false) :
    DueTurn s a rest r (handStage ⟨a, .ordinary, none, .write⟩ (dueVisited s a rest ⟨a, .ordinary, none, .write⟩)) := by
  have hnoSync {p : Prop} (h : r.syncPending = true) : p := absurd (hsync.symm.trans h) (by decide)
  have hentry := writeStageEntry_dueVisited (rest := rest) (t := ⟨a, .ordinary, none, .write⟩) hfind hhold hlost
  cases hoq : oldestEntryFor s a with
  | none =>
    rw [handStage_poll rfl (hentry.trans hoq)]
    have hoqKept := (handExchange_atStage_oq .poll a none
      (fullAllowance (dueVisited s a rest ⟨a, .ordinary, none, .write⟩)) .poll _).trans
        (dueVisited_oq s a rest ⟨a, .ordinary, none, .write⟩)
    refine ⟨.poll, dueOutcome_handExchange hfind rfl rfl, hnoSync, fun _ => ⟨fun _ => ⟨rfl, hoqKept, exchange_dueVisited s a rest _ _ _ _⟩, fun e he => ?_⟩⟩
    cases hoq.symm.trans he
  | some e =>
    rw [handStage_write rfl (hentry.trans hoq)]
    refine ⟨.write, dueOutcome_handExchange hfind rfl rfl, hnoSync, fun _ => ⟨fun hempty => ?_, fun d hd => ?_⟩⟩
    · cases hoq.symm.trans hempty
    · cases hoq.symm.trans hd
      exact ⟨rfl, exchange_dueVisited s a rest _ _ _ _, sendEntry_sends e.tag (atStage .write (dueVisited s a rest ⟨a, .ordinary, none, .write⟩))⟩

theorem dueTurn_begins (hhold : s.lc.holdInForce = false) (hlost : r.state ≠ .lost) (haddress : r.address = a) :
    DueTurn s a rest r (handStage (newTurn r .ordinary) (dueVisited s a rest (newTurn r .ordinary))) := by
  have hnewTurn : newTurn r .ordinary = ⟨a, .ordinary, none, if r.syncPending then .sync else .write⟩ := by
    rw [newTurn, haddress]
    rfl
  cases hsync : r.syncPending with
  | true =>
    rw [hnewTurn, hsync]
    exact dueTurn_sync hfind hsync
  | false =>
    rw [hnewTurn, hsync]
    exact dueTurn_unsynced hfind hhold hlost hsync

end

/-- Settles O25: the cycle walks to the station at the head of the poll list, which is due or passed over. -/
theorem firstVisitOfACycle : Obligations.FirstVisitOfACycle := by
  intro s a rest r hrun htimer hphase hmode hannounced hhold hnone hlist hfind
  refine ⟨startCycle s, exec_pauseExpiry_due hrun htimer (by decide) hphase hmode, startCycle_cycle s, ?_⟩
  have haddress : r.address = a := by simpa using List.find?_some hfind
  have hvisited : startCycle s = walkFrom passTailUnhanded (a :: rest) (walkBegun s) := by
    rw [startCycle_walks hannounced hhold hnone, hlist]
  have hfound : (walkBegun s).st.find a = some r := hfind
  refine ⟨fun hstate hcountdown => ?_, fun hlost hrecovery => ?_, ?_⟩
  · have hnotLost : r.state ≠ .lost := by rcases hstate with h | h | h <;> rw [h] <;> decide
    obtain ⟨stage, ⟨hwalking, hcursor, hhanded, hsettle, hcounted, hothers, hturn⟩, hsync, hunsynced⟩ :=
      dueTurn_begins (rest := rest) hfind hhold hnotLost haddress
    have ht : startCycle s = handStage (newTurn r .ordinary) (dueVisited s a rest (newTurn r .ordinary)) := by
      rw [hvisited, walkFrom_due hfound hstate hcountdown]
      exact beginTurn_unannounced hannounced
    rw [ht]
    refine ⟨hwalking, hcursor, hhanded, hsettle, hcounted, hothers, stage, hturn, hsync, fun h => ?_⟩
    obtain ⟨hpoll, hwrite⟩ := hunsynced h
    refine ⟨fun hempty => hpoll (List.find?_eq_none.2 fun e he => ?_), fun older e newer hoq he holder => hwrite e ?_⟩
    · rw [beq_iff_eq]
      exact hempty e he
    · rw [oldestEntryFor, hoq]
      refine find?_oldest (beq_iff_eq.mpr he) fun d hd => ?_
      rw [beq_iff_eq]
      exact holder d hd
  · have ht : startCycle s = handStage (newTurn r .recovery)
        { firstVisited s rest with ps := { (firstVisited s rest).ps with turn := some (newTurn r .recovery) } } := by
      rw [hvisited, walkFrom_lost hfound hlost]
      exact (if_pos (recoveryCycle_firstVisited.mpr hrecovery)).trans (beginTurn_unannounced hannounced)
    rw [ht, ← haddress]
    exact ⟨rfl, rfl, rfl, rfl, rfl, rfl⟩
  · rintro rfl
    refine ⟨fun hstate hcountdown => ?_, fun hlost hrecovery => ?_⟩
    · have ht : startCycle s = _ := (hvisited.trans (walkFrom_notDue hfound hstate hcountdown)).trans
        (walkFrom_end_pauses
          (s := updateStation a (fun r => { r with countdown := r.countdown - 1 }) (firstVisited s [])) hannounced)
      rw [ht]
      refine ⟨find_updateStation_same (s := s) (f := fun r => { r with countdown := r.countdown - 1 }) (fun _ => rfl) hfind,
        othersKept_updateStation a (fun r => { r with countdown := r.countdown - 1 }) (fun _ => rfl) s, ?_⟩
      simp only [hphase]
      rfl
    · have hnoRecovery : ¬recoveryCycle (firstVisited s []) = true := fun h => hrecovery (recoveryCycle_firstVisited.mp h)
      rw [hvisited, walkFrom_lost hfound hlost]
      refine (if_neg hnoRecovery).trans ((walkFrom_end_pauses (s := firstVisited s []) hannounced).trans ?_)
      simp only [hphase]
      rfl

end Sys2Proof.Machine

/-! SUPPORT. Who begins and ends hold, who passes the line to OFF, and who latches LINE (R145 to R154). -/

namespace Sys2Proof.Machine

/-! ### Hold in the rows of the line and in the supervision stages -/

/-- Hold and whether the Supervision Timer is among its causes. -/
def holdOf (s : State) : Bool × Bool := (s.lc.holdInForce, s.lc.causeSupervision)

/-- Nothing in the rows of the line touches hold. -/
theorem keptByLine_holdOf (hold : Bool × Bool) : KeptByLine (fun s => holdOf s = hold) :=
  .ofTableFree
    (fun s t happart h => by
      rw [holdOf, apart_holdInForce happart, apart_causeSupervision happart]
      exact h)
    (fun _ _ h => h) (fun _ _ h => h) (fun _ _ h => h) (fun _ _ _ h => h) (fun _ _ h => h) (fun _ _ _ h => h)
    (fun _ _ _ _ h => h)
    (fun s t a payload ht h => by
      rw [admitReport_eq] at ht
      split at ht
      · cases ht; exact h
      · cases ht)
    (fun _ _ _ _ _ _ h => h) (fun _ h => h)

theorem secondStage_lc (s : State) :
    (secondStage s).lc = s.lc ∨ s.sv.mode = .hold ∧ (secondStage s).lc = s.lc.supervisionHold := by
  cases hmode : s.sv.mode with
  | off => exact .inl (by rw [secondStage_off hmode])
  | warn => exact .inl (by rw [secondStage_warn hmode])
  | hold => exact .inr ⟨rfl, by rw [secondStage_hold hmode]⟩

theorem firstStage_lc (s : State) :
    (firstStage s).lc = s.lc ∨ s.sv.mode = .hold ∧ (firstStage s).lc = s.lc.supervisionHold := by
  by_cases hgrace : s.sv.grace = 0
  · rw [firstStage_of_noGrace hgrace]
    exact secondStage_lc _
  · rw [firstStage_of_grace hgrace]
    exact .inl rfl

theorem wrongService_lc (s : State) :
    (wrongService s).lc = s.lc ∨ s.sv.mode = .hold ∧ (wrongService s).lc = s.lc.supervisionHold := by
  by_cases hwatch : s.sv.state = .watch
  · rw [wrongService_watched hwatch]
    exact firstStage_lc _
  · rw [wrongService_unwatched hwatch]
    exact .inl rfl

theorem tickSupervision_lc (s : State) :
    (tickSupervision s).lc = s.lc ∨ s.sv.mode = .hold ∧ (tickSupervision s).lc = s.lc.supervisionHold := by
  unfold tickSupervision stageExpires
  split
  · split
    · split
      · exact firstStage_lc s
      · exact secondStage_lc s
      · exact .inl rfl
      · exact .inl rfl
    · exact .inl rfl
  · exact .inl rfl

theorem withdrawSupervision_holdInForce (l : LineControl) : l.withdrawSupervision.holdInForce = l.holdInForce := by
  unfold LineControl.withdrawSupervision
  split <;> rfl

/-! ### Hold in every row (R147 to R154) -/

/-- What a row does to hold and to the cause SUPERVISION. -/
inductive HoldStep (s : State) (c : Instr) (t : State) : Prop
  | kept : holdOf t = holdOf s → HoldStep s c t
  | entered : c = .holdEnter → t.lc.holdInForce = true → t.lc.causeSupervision = s.lc.causeSupervision → HoldStep s c t
  | left : c = .holdLeave → s.lc.causeSupervision = false → t.lc.holdInForce = false → HoldStep s c t
  | withdrawn : c = .service ∨ c = .supSet → t.lc.holdInForce = s.lc.holdInForce → HoldStep s c t
  | expired : c = .tick ∨ c = .graceExpiry ∨ c = .watchExpiry ∨ c = .service → s.sv.mode = .hold →
      t.lc.holdInForce = true → t.lc.causeSupervision = true → HoldStep s c t
  | reset : c = .powerOn ∨ c = .pinReset → t.lc.holdInForce = false → HoldStep s c t

/-- A stage of the Supervision Timer keeps hold, or in HOLD mode puts it in force with cause SUPERVISION. -/
theorem HoldStep.stage {s u : State} {c : Instr}
    (hc : c = .tick ∨ c = .graceExpiry ∨ c = .watchExpiry ∨ c = .service)
    (hlc : u.lc = s.lc ∨ s.sv.mode = .hold ∧ u.lc = s.lc.supervisionHold) : HoldStep s c u := by
  rcases hlc with hlc | ⟨hmode, hlc⟩
  · exact .kept (by rw [holdOf, hlc]; rfl)
  · exact .expired hc hmode (by rw [hlc]; rfl) (by rw [hlc]; rfl)

theorem CourseAct.holdStep {c : Instr} {s u : State} (hact : CourseAct s c u) : HoldStep s c u := by
  have line := keptByLine_holdOf (holdOf s)
  cases hact with
  | lineStarted =>
    refine .kept (line.startCycle ?_)
    rfl
  | lineResumed | lineStopping => exact .kept rfl
  | lineStopped => exact .kept (line.abandonCycle (line.lineOff rfl))
  | supervisionSet => exact .withdrawn (.inr rfl) (withdrawSupervision_holdInForce s.lc)
  | served => exact .withdrawn (.inl rfl) (withdrawSupervision_holdInForce s.lc)
  | servedWrongly => exact .stage (.inr (.inr (.inr rfl))) (wrongService_lc s)
  | ticked =>
    obtain ⟨hsv, -, -⟩ := tickPause_supervisionAgrees s
    have hpause : holdOf (tickPause s) = holdOf s := line.tickPause rfl
    rcases tickSupervision_lc (tickPause s) with hlc | ⟨hmode, hlc⟩
    · refine .kept (Eq.trans ?_ hpause)
      rw [holdOf, hlc]
      rfl
    · rw [hsv] at hmode
      exact .expired (.inl rfl) hmode (by rw [hlc]; rfl) (by rw [hlc]; rfl)
  | watchEnded => exact .stage (.inr (.inr (.inl rfl))) (firstStage_lc s)
  | graceEnded => exact .stage (.inr (.inl rfl)) (secondStage_lc s)
  | lineMoved hrow hexec => exact .kept (line.lineEvent hexec hrow rfl)

theorem Act.holdStep {c : Instr} {s u : State} (hact : Act s c u) : HoldStep s c u := by
  cases hact with
  | moved hcourse => exact hcourse.holdStep
  | holdEntered => exact .entered rfl rfl rfl
  | holdLeft _ hcause => exact .left rfl hcause rfl
  | reset hc => exact .reset hc rfl
  | nothing | enrolled | leaveSet | removed | parked | unparked | recordMarked | allSynced | lineZeroed | submitted
  | purged | returnTaken | attnTaken | serviceEnded | dismissed | unitWritten | cleared | settingsWritten
  | limitsWritten | windowAccessed | resetEnded => exact .kept rfl

theorem exec_holdStep {c : Instr} {s t : State} (h : exec c s = .next t) : HoldStep s c t := by
  obtain ⟨u, hact, hleaves⟩ := exec_act h
  obtain ⟨w, -, -, rfl⟩ := hleaves.window
  cases hact.holdStep with
  | kept hkept => exact .kept hkept
  | entered hc hhold hcause => exact .entered hc hhold hcause
  | left hc hcause hhold => exact .left hc hcause hhold
  | withdrawn hc hhold => exact .withdrawn hc hhold
  | expired hc hmode hhold hcause => exact .expired hc hmode hhold hcause
  | reset hc hhold => exact .reset hc hhold

/-- Settles O26: the two commands by their answers, and who changes hold by what each row does to it. -/
theorem holdBeginsAndEnds : Obligations.HoldBeginsAndEnds := by
  refine ⟨fun s hrun => ⟨takeCommand_plain (body := holdEnterAnswer) hrun rfl, fun hrefused => takeCommand_plain hrun ?_,
    fun hhold hcause => takeCommand_plain hrun ?_, rfl⟩, fun c s t h => ⟨fun hbefore hafter => ?_,
    fun hbefore hafter => ?_, fun hbefore hafter => ?_⟩⟩
  · refine if_pos (hrefused.imp_left fun hhold => ?_)
    rw [hhold]
    rfl
  · refine if_neg (not_or.mpr ⟨?_, Bool.eq_false_iff.mp hcause⟩)
    rw [hhold]
    decide
  · cases exec_holdStep h with
    | kept hkept => cases hafter.symm.trans ((congrArg Prod.fst hkept).trans hbefore)
    | entered _ hhold => cases hafter.symm.trans hhold
    | left hc => exact .inl hc
    | withdrawn _ hhold => cases hafter.symm.trans (hhold.trans hbefore)
    | expired _ _ hhold => cases hafter.symm.trans hhold
    | reset hc => exact .inr hc
  · cases exec_holdStep h with
    | kept hkept => cases hafter.symm.trans ((congrArg Prod.fst hkept).trans hbefore)
    | entered hc => exact .inl hc
    | left _ _ hhold => cases hafter.symm.trans hhold
    | withdrawn _ hhold => cases hafter.symm.trans (hhold.trans hbefore)
    | expired hc hmode => exact .inr ⟨hc, hmode⟩
    | reset _ hhold => cases hafter.symm.trans hhold
  · cases exec_holdStep h with
    | kept hkept => cases hafter.symm.trans ((congrArg Prod.snd hkept).trans hbefore)
    | entered _ _ hcause => cases hafter.symm.trans (hcause.trans hbefore)
    | left _ hcause => cases hcause.symm.trans hbefore
    | withdrawn hc =>
      rcases hc with hc | hc
      · exact .inl hc
      · exact .inr (.inl hc)
    | expired _ _ _ hcause => cases hafter.symm.trans hcause
    | reset hc => exact .inr (.inr hc)

/-! ### The rows of the line, by the operations they come to -/

/-- What carries a property `P` of the states in a row of the line to a property `Q` of the state the row leaves. -/
structure LineRowsLead (P Q : State → Prop) : Prop where
  engine : ∀ s e, e.exchange = s.ee.exchange → P s → P { s with ee := e }
  rests : ∀ s, P s → Q s
  opens : ∀ s, P s → Q (startCycle s)
  settles : ∀ s, P s → Q (settleEnds s)
  fails : ∀ s reason, P s → Q (attemptFails reason s)
  faults : ∀ s, P s → Q (faultEnds s)
  evaluates : ∀ s ending, P s → Q (evaluateReply ending s)
  ends : ∀ s, P s → Q (endGood s)

namespace LineRowsLead

variable {P Q : State → Prop} (k : LineRowsLead P Q) {s : State} (h : P s)
include k h

theorem changes (e : Engine) (he : e.exchange = s.ee.exchange) : Q { s with ee := e } := k.rests _ (k.engine s e he h)

theorem faultIsFound (b : Bool) : Q (faultIsFound b s) := by
  unfold Machine.faultIsFound
  split
  · exact k.changes h _ rfl
  · exact k.faults s h

theorem echoCheck (c : RxChar) (begun : Nat) : Q (echoCheck c begun s) := by
  unfold Machine.echoCheck Machine.echoMatches
  split
  · simp only
    split
    · split
      · exact k.changes h _ rfl
      · exact k.changes h _ rfl
    · exact k.changes h _ rfl
  · exact k.faultIsFound h _

theorem receiveChar (c : RxChar) : Q (receiveChar c s) := by
  unfold Machine.receiveChar
  split
  · exact k.evaluates s _ h
  · have hgrown := k.engine s { s.ee with buffer := s.ee.buffer ++ [c], gapTimer := .running } rfl h
    simp only
    split
    · exact k.evaluates _ _ hgrown
    · split
      · exact k.evaluates _ _ hgrown
      · exact k.rests _ hgrown

theorem deliver (c : RxChar) (begun : Nat) : Q (deliver c begun s) := by
  have heard := k.engine s { s.ee with
    receiver := receiverAfter c, noise := if c.noise then satInc s.ee.noise else s.ee.noise } rfl h
  unfold Machine.deliver
  simp only
  split
  · exact k.changes heard _ rfl
  · exact k.changes heard _ rfl
  · exact k.changes heard _ rfl
  · split
    · exact k.rests _ heard
    · exact k.echoCheck heard c begun
  · split
    · exact k.changes heard _ rfl
    · split
      · refine k.fails _ _ ?_
        exact k.engine _ _ rfl heard
      · exact k.changes heard _ rfl
  · exact k.receiveChar heard c

theorem falseStartFound : Q (falseStartFound s) := by
  have hunted := k.engine s { s.ee with receiver := .hunting } rfl h
  unfold Machine.falseStartFound
  simp only
  split
  · split
    · exact k.settles _ hunted
    · exact k.rests _ hunted
  · split
    · exact k.fails _ _ hunted
    · exact k.rests _ hunted
  · split
    · exact k.evaluates _ _ hunted
    · exact k.rests _ hunted
  all_goals exact k.rests _ hunted

theorem lineRow {c : Instr} {t : State} (hc : LineRow c) (ht : exec c s = .next t) : Q t := by
  have running {f : State → State} (hf : Q (f s)) (hw : whenRunning f s = .next t) : Q t := by
    obtain ⟨-, rfl⟩ | ⟨-, rfl⟩ := whenRunning_next hw
    · exact k.rests _ h
    · exact hf
  rcases hc with rfl | ⟨cause, rfl⟩ | ⟨delivery, rfl⟩ | rfl | rfl | rfl | rfl | rfl | rfl | rfl | rfl | rfl
  all_goals refine running ?_ ht
  · split
    · exact k.opens s h
    · exact k.rests s h
  · unfold settleEvent
    split
    · split
      · exact k.changes h _ rfl
      · exact k.settles s h
    · exact k.rests s h
  · split
    · split
      · exact k.falseStartFound h
      · exact k.deliver h _ _
    · exact k.rests s h
  · split
    · exact k.faultIsFound h _
    · exact k.rests s h
  · split
    · exact k.faults s h
    · exact k.rests s h
  · split
    · split
      · exact k.changes h _ rfl
      · exact k.fails s _ h
    · exact k.rests s h
  · split
    · split
      · exact k.changes h _ rfl
      · exact k.evaluates s _ h
    · exact k.rests s h
  · split
    · exact k.ends s h
    · exact k.rests s h
  · split
    · exact k.changes h _ rfl
    · exact k.rests s h
  · split
    · exact k.falseStartFound h
    · exact k.rests s h
  · split
    · exact k.changes h _ rfl
    · exact k.rests s h
  · split
    · unfold lastStopBit
      split
      · exact k.changes h _ rfl
      · split
        · exact k.changes h _ rfl
        · exact k.rests s h
    · exact k.rests s h

end LineRowsLead

/-! ### The passages of the line to OFF (R142 to R145) -/

/-- The line mode, the stop cause and the LINE cause. -/
def passageOf (s : State) : LineMode × StopCause × Bool := (s.lc.mode, s.lc.stopCause, s.rw.latched.line)

/-- The line keeps its mode with stop cause and LINE cause, or passes to OFF by a stop or by faults, with LINE latched. -/
def PassesProperly (s t : State) : Prop :=
  passageOf t = passageOf s ∨
    (s.lc.mode ≠ .off ∧ t.lc.mode = .off ∧ t.rw.latched.line = true ∧ (t.lc.stopCause = .host ∨ t.lc.stopCause = .fault))

namespace PassesProperly

theorem refl (s : State) : PassesProperly s s := .inl rfl

theorem mode_of_eq {s t : State} (h : passageOf t = passageOf s) : t.lc.mode = s.lc.mode := congrArg Prod.fst h

theorem trans {s u t : State} (h : PassesProperly s u) (h' : PassesProperly u t) : PassesProperly s t := by
  rcases h' with hkept' | ⟨hmode', hoff', hline', hcause'⟩
  · rcases h with hkept | ⟨hmode, hoff, hline, hcause⟩
    · exact .inl (hkept'.trans hkept)
    · have hline' : t.rw.latched.line = u.rw.latched.line := congrArg (fun p => p.2.2) hkept'
      have hcause' : t.lc.stopCause = u.lc.stopCause := congrArg (fun p => p.2.1) hkept'
      exact .inr ⟨hmode, (mode_of_eq hkept').trans hoff, hline'.trans hline, hcause'.symm ▸ hcause⟩
  · rcases h with hkept | ⟨-, hoff, -, -⟩
    · exact .inr ⟨mode_of_eq hkept ▸ hmode', hoff', hline', hcause'⟩
    · exact absurd hoff hmode'

theorem lineOff {s : State} {cause : StopCause} (hmode : s.lc.mode ≠ .off) (hcause : cause = .host ∨ cause = .fault) :
    PassesProperly s (lineOff cause s) := .inr ⟨hmode, rfl, rfl, hcause⟩

/-- The end of an exchange completes a stop and does nothing else to the line (R143). -/
theorem endExchange (x : Exchange) (o : ExchangeOutcome) (s : State) : PassesProperly s (endExchange x o s) := by
  have hsettled := (settled_endExchange x o s).1
  obtain ⟨st, ps, oq, rq, au, table, hshape, -⟩ := lineSettled_shape x o s
  rw [hshape] at hsettled
  have hlc := hsettled.lc
  have hline := congrArg (fun w => w.latched.line) hsettled.rw'
  have hmode := congrArg LineControl.mode hlc
  have hcause := congrArg LineControl.stopCause hlc
  simp only at hmode hcause hline
  cases hbefore : s.lc.mode with
  | run =>
    rw [hbefore] at hmode hcause hline
    exact .inl (Prod.ext (hmode.trans hbefore.symm) (Prod.ext hcause (hline.trans (Bool.or_false _))))
  | stopping =>
    rw [hbefore] at hmode hcause hline
    exact .inr ⟨hbefore ▸ nofun, hmode, hline.trans (Bool.or_true _), .inl hcause⟩
  | off =>
    rw [hbefore] at hmode hcause hline
    exact .inl (Prod.ext (hmode.trans hbefore.symm) (Prod.ext hcause (hline.trans (Bool.or_false _))))

theorem attemptCourse (x : Exchange) (s : State) : PassesProperly s (attemptCourse x s) := by
  unfold Machine.attemptCourse
  split
  · exact endExchange _ _ _
  · split
    · exact endExchange _ _ _
    · split
      · exact endExchange _ _ _
      · exact .inl rfl

theorem countFailed (x : Exchange) (s : State) : PassesProperly s (countFailed x s) := by
  unfold Machine.countFailed
  split <;> exact .inl rfl

theorem replyEffect (x : Exchange) (k : ReplyKind) (r : Reply) (s : State) : PassesProperly s (replyEffect x k r s) := by
  unfold Machine.replyEffect
  split
  · exact .inl rfl
  · split <;> exact .inl rfl
  · split
    · exact .inl rfl
    · rw [newReport, admitReport_eq]
      split
      · next hroom => split at hroom <;> cases hroom; exact .inl rfl
      · exact .inl rfl
  · split
    · exact .inl rfl
    · rw [newAlert]
      split <;> exact .inl rfl
  · simp only
    split <;> exact .inl rfl
  · split
    · exact .inl rfl
    · unfold deferEntry
      simp only
      split <;> exact .inl rfl

theorem attemptFails (reason : FailReason) (s : State) : PassesProperly s (attemptFails reason s) := by
  unfold Machine.attemptFails
  split
  · exact .refl s
  · next x _ => exact ((countFailed x s).trans (.inl rfl)).trans (attemptCourse x _)

theorem updateStation (a : Address) (f : StationRecord → StationRecord) (s : State) :
    PassesProperly s (updateStation a f s) := .inl rfl

theorem replyGood (x : Exchange) (r : Reply) (s : State) : PassesProperly s (replyGood x r s) := by
  unfold Machine.replyGood
  exact ((replyEffect x _ r s).trans (updateStation _ _ _)).trans (endExchange x .good _)

/-- The third line fault in a row passes a line that is not OFF to OFF (R71, R144). -/
theorem faultEnds {s : State} (hrunning : s.lc.mode = .off → s.ee.exchange = none) :
    PassesProperly s (faultEnds s) := by
  unfold Machine.faultEnds
  split
  · exact .refl s
  · next x hx =>
    have hmode : s.lc.mode ≠ .off := fun hoff => nomatch (hrunning hoff).symm.trans hx
    have counted (u : State) (hu : PassesProperly s u) (hsame : u.lc = s.lc) :
        PassesProperly s (lineFaultEvent (Machine.countFailed x u)) ∧
          (lineFaultEvent (Machine.countFailed x u)).lc = s.lc := by
      refine ⟨(hu.trans (countFailed x u)).trans (.inl rfl), ?_⟩
      rw [← hsame]
      unfold Machine.countFailed
      split <;> rfl
    obtain ⟨hpasses, hlc⟩ := counted { s with
      ee := { s.ee.releaseLine with
        faults := satInc s.ee.faults, faultStreak := satInc s.ee.faultStreak
        lastFailure := { reason := .fault, address := x.address } } } (.inl rfl) rfl
    refine PassesProperly.trans ?_ (attemptCourse x _)
    split
    · exact hpasses.trans (lineOff (hlc.symm ▸ hmode) (.inr rfl))
    · exact hpasses

end PassesProperly

/-- A line that is OFF has no exchange, and the line has passed from `s` properly. -/
def PassedFrom (s u : State) : Prop := PassesProperly s u ∧ (u.lc.mode = .off → u.ee.exchange = none)

/-- Every row of the line passes the line to OFF properly. -/
theorem lineRowsLead_passes (s : State) : LineRowsLead (PassedFrom s) (PassesProperly s) where
  engine u e he h := ⟨h.1, fun hoff => he.trans (h.2 hoff)⟩
  rests u h := h.1
  opens u h := by
    have happart := apart_startCycle u
    refine h.1.trans (.inl ?_)
    rw [passageOf, apart_mode happart, apart_stopCause happart, apart_rw happart]
    rfl
  settles u h := by
    refine h.1.trans ?_
    unfold settleEnds
    split
    · exact .refl u
    · split
      · exact .endExchange _ _ _
      · split
        · exact .endExchange _ _ _
        · unfold beginAttempt
          simp only
          split <;> exact .inl rfl
  fails u reason h := h.1.trans (.attemptFails reason u)
  faults u h := h.1.trans (.faultEnds h.2)
  evaluates u ending h := by
    refine h.1.trans ?_
    unfold evaluateReply
    split
    · exact .refl u
    · simp only
      split
      · exact .replyGood _ _ u
      · exact .attemptFails _ u
  ends u h := by
    refine h.1.trans ?_
    unfold endGood
    split
    · exact .refl u
    · exact .endExchange _ _ _

/-- What a row does to the line mode, the stop cause and the LINE cause. -/
inductive PassageStep (s : State) (c : Instr) (t : State) : Prop
  | passes : PassesProperly s t → PassageStep s c t
  /-- LINE-START and LINE-STOP between RUN and STOPPING, and LINE-START from OFF. -/
  | runs : t.lc.mode ≠ .off → (s.lc.mode ≠ .off → t.lc.stopCause = s.lc.stopCause) →
      (s.lc.mode = .off → t.lc.stopCause = .none) → t.rw.latched.line = s.rw.latched.line → PassageStep s c t
  | unlatched {value : Word} : c = .causeWrite value → value.getLsbD 2 = true → t.lc = s.lc →
      t.rw.latched.line = false → PassageStep s c t
  | reset : c = .clear ∨ c = .powerOn ∨ c = .pinReset → t.lc.mode = .off → t.rw.latched.line = false → PassageStep s c t

theorem passageOf_eq_of_stage {s u : State} (hrw : u.rw = s.rw) (hlc : u.lc = s.lc ∨ u.lc = s.lc.supervisionHold) :
    passageOf u = passageOf s := by
  rcases hlc with hlc | hlc <;> rw [passageOf, hlc, hrw] <;> rfl

/-- The Supervision Timer leaves the line's passage as it is. -/
theorem keptByStages_passage (p : LineMode × StopCause × Bool) : KeptByStages (fun s => passageOf s = p) where
  event _ _ _ _ h := h
  timer _ _ h := h
  supervisionHold _ h := h
  withdraw s h := by
    unfold LineControl.withdrawSupervision
    split <;> exact h

theorem CourseAct.passageStep {c : Instr} {s u : State} (hact : CourseAct s c u)
    (hoff : s.lc.mode = .off → s.ee.exchange = none) : PassageStep s c u := by
  have stages := keptByStages_passage (passageOf s)
  cases hact with
  | lineStarted hmode =>
    have happart := apart_startCycle { s with
      lc := { s.lc with mode := .run, stopCause := .none }, ee := { s.ee with faultStreak := 0 } }
    have hrun : (startLine s).lc.mode = .run := apart_mode happart
    exact .runs (hrun ▸ nofun) (fun h => absurd hmode h) (fun _ => apart_stopCause happart)
      (congrArg (fun w => w.latched.line) (apart_rw happart) :)
  | lineResumed hmode => exact .runs nofun (fun _ => rfl) (fun h => nomatch hmode.symm.trans h) rfl
  | lineStopping hmode => exact .runs nofun (fun _ => rfl) (fun h => nomatch hmode.symm.trans h) rfl
  | lineStopped hmode =>
    obtain ⟨st, ps, oq, rq, au, table, hended, -⟩ := endTurn_shape .unfinished (lineOff .host s)
    refine .passes (.inr ⟨hmode ▸ nofun, ?_⟩)
    rw [abandonCycle, hended]
    exact ⟨rfl, rfl, .inl rfl⟩
  | supervisionSet => exact .passes (.inl (stages.configureSupervision rfl))
  | served => exact .passes (.inl (stages.correctService rfl))
  | servedWrongly => exact .passes (.inl (stages.wrongService rfl))
  | ticked =>
    refine .passes (.inl (stages.tickSupervision ?_))
    have happart := apart_tickPause s
    rw [passageOf, apart_mode happart, apart_stopCause happart, apart_rw happart]
    rfl
  | watchEnded => exact .passes (.inl (stages.firstStage rfl))
  | graceEnded => exact .passes (.inl (stages.secondStage rfl))
  | lineMoved hrow hexec => exact .passes ((lineRowsLead_passes s).lineRow ⟨.refl s, hoff⟩ hrow hexec)

theorem Act.passageStep {c : Instr} {s u : State} (hact : Act s c u) (hoff : s.lc.mode = .off → s.ee.exchange = none) :
    PassageStep s c u := by
  cases hact with
  | moved hcourse => exact hcourse.passageStep hoff
  | cleared => exact .reset (.inl rfl) rfl rfl
  | reset hc => exact .reset (.inr hc) rfl rfl
  | windowAccessed hline _ =>
    rcases hline with hkept | ⟨value, hc, hbit, hline⟩
    · exact .passes (.inl (Prod.ext rfl (Prod.ext rfl hkept)))
    · exact .unlatched hc hbit rfl hline
  | nothing | enrolled | leaveSet | removed | parked | unparked | recordMarked | allSynced | lineZeroed | submitted
  | purged | returnTaken | attnTaken | serviceEnded | dismissed | unitWritten | holdEntered | holdLeft | settingsWritten
  | limitsWritten | resetEnded => exact .passes (.inl rfl)

theorem PassesProperly.window {s u : State} {w : Window} (h : PassesProperly s u) (hlatched : w.latched = u.rw.latched) :
    PassesProperly s { u with rw := w } :=
  h.trans (.inl (Prod.ext rfl (Prod.ext rfl (congrArg LatchedCauses.line hlatched))))

theorem exec_passageStep {c : Instr} {s t : State} (hoff : s.lc.mode = .off → s.ee.exchange = none)
    (h : exec c s = .next t) : PassageStep s c t := by
  obtain ⟨u, hact, hleaves⟩ := exec_act h
  obtain ⟨w, hlatched, -, rfl⟩ := hleaves.window
  have hline : w.latched.line = u.rw.latched.line := congrArg LatchedCauses.line hlatched
  cases hact.passageStep hoff with
  | passes hpasses => exact .passes (hpasses.window hlatched)
  | runs hmode hcause hstarted hkept => exact .runs hmode hcause hstarted (hline.trans hkept)
  | unlatched hc hbit hlc hfalse => exact .unlatched hc hbit hlc (hline.trans hfalse)
  | reset hc hmode hfalse => exact .reset hc hmode (hline.trans hfalse)

/-- Settles O28: each clause is read off what the row does to the line mode, the stop cause and the LINE cause. -/
theorem lineCauseFollowsPassagesToOff : Obligations.LineCauseFollowsPassagesToOff := by
  intro c s t hoff h
  cases exec_passageStep hoff h with
  | passes hpasses =>
    rcases hpasses with hkept | ⟨hmode, hafter, hline, hcause⟩
    · have hmode : t.lc.mode = s.lc.mode := congrArg Prod.fst hkept
      have hcause : t.lc.stopCause = s.lc.stopCause := congrArg (fun p => p.2.1) hkept
      have hline : t.rw.latched.line = s.rw.latched.line := congrArg (fun p => p.2.2) hkept
      exact ⟨fun hbefore hafter => absurd (hmode.symm.trans hafter) hbefore,
        fun hfalse htrue => (nomatch hfalse.symm.trans (hline.symm.trans htrue)),
        fun htrue hfalse => (nomatch hfalse.symm.trans (hline.trans htrue)),
        fun hnone hafter => hcause.trans (hnone (hmode ▸ hafter))⟩
    · exact ⟨fun _ _ _ _ _ => ⟨hline, hcause⟩, fun _ _ => ⟨hmode, hafter⟩,
        fun _ hfalse => (nomatch hfalse.symm.trans hline), fun _ hother => absurd hafter hother⟩
  | runs hmode hcause hstarted hline =>
    refine ⟨fun _ hafter => absurd hafter hmode, fun hfalse htrue => (nomatch hfalse.symm.trans (hline.symm.trans htrue)),
      fun htrue hfalse => (nomatch hfalse.symm.trans (hline.trans htrue)), fun hnone _ => ?_⟩
    by_cases hbefore : s.lc.mode = .off
    · exact hstarted hbefore
    · exact (hcause hbefore).trans (hnone hbefore)
  | unlatched hc hbit hlc hline =>
    exact ⟨fun hbefore hafter => absurd (hlc ▸ hafter) hbefore, fun _ htrue => (nomatch hline.symm.trans htrue),
      fun _ _ => .inl ⟨_, hc, hbit⟩, fun hnone hafter => (congrArg LineControl.stopCause hlc).trans (hnone (hlc ▸ hafter))⟩
  | reset hc hmode hline =>
    refine ⟨fun _ _ hclear hpower hpin => ?_, fun _ htrue => (nomatch hline.symm.trans htrue), fun _ _ => .inr hc,
      fun _ hother => absurd hmode hother⟩
    rcases hc with hc | hc | hc
    · exact absurd hc hclear
    · exact absurd hc hpower
    · exact absurd hc hpin

end Sys2Proof.Machine

/-! SUPPORT. The copies of the window as numbers, the write of WSEL and the commands that leave the latch alone (R170, R171,
spec/11 11.4 and 11.6). -/

namespace Sys2Proof.Machine

/-! ### Words laid out in fields, as sums -/

/-- A word reads as a number below a power of 2. -/
def Spells (w : Word) (width value : Nat) : Prop := w.toNat = value ∧ value < 2 ^ width

namespace Spells

theorem mono {w : Word} {k j v : Nat} (h : Spells w k v) (hkj : k ≤ j) : Spells w j v :=
  ⟨h.1, h.2.trans_le (Nat.pow_le_pow_right (by decide) hkj)⟩

/-- A code placed above what a word spells adds to its number. -/
theorem or_shift {w c : Word} {k v j m pos : Nat} (h : Spells w k v) (hc : Spells c j m) (hpos : k ≤ pos)
    (hfit : pos + j ≤ 16) : Spells (w ||| c <<< pos) (pos + j) (v + 2 ^ pos * m) := by
  obtain ⟨rfl, hm⟩ := hc
  obtain ⟨rfl, hv⟩ := h.mono hpos
  have hsum : w.toNat + 2 ^ pos * c.toNat < 2 ^ (pos + j) := by
    rw [pow_add]
    nlinarith
  have hshift : (c <<< pos).toNat = 2 ^ pos * c.toNat := by
    rw [BitVec.toNat_shiftLeft, Nat.shiftLeft_eq, Nat.mul_comm, Nat.mod_eq_of_lt]
    exact (Nat.le_add_left _ _).trans_lt (hsum.trans_le (Nat.pow_le_pow_right (by decide) hfit))
  refine ⟨?_, hsum⟩
  rw [BitVec.toNat_or, hshift, Nat.or_comm, ← Nat.two_pow_add_eq_or_of_lt hv, Nat.add_comm]

theorem setWidth {n : Nat} (x : BitVec n) (hn : n ≤ 16) : Spells (x.setWidth 16) n x.toNat := by
  refine ⟨?_, x.isLt⟩
  rw [BitVec.toNat_setWidth, Nat.mod_eq_of_lt (x.isLt.trans_le (Nat.pow_le_pow_right (by decide) hn))]

theorem ofNat {n j : Nat} (hn : n < 2 ^ j) (hj : j ≤ 16) : Spells (BitVec.ofNat 16 n) j n := by
  refine ⟨?_, hn⟩
  rw [BitVec.toNat_ofNat, Nat.mod_eq_of_lt (hn.trans_le (Nat.pow_le_pow_right (by decide) hj))]

theorem ofBool (b : Bool) (n : Nat) : 2 ^ n * (BitVec.ofBool b).toNat = bitValue b (2 ^ n) := by
  cases b
  · rfl
  · exact Nat.mul_one _

theorem field {n : Nat} (x : BitVec n) (hn : n ≤ 16) : Spells (field x 0) n x.toNat := field_zero x ▸ setWidth x hn

theorem count {n j : Nat} (hn : n < 2 ^ j) (hj : j ≤ 16) : Spells (count n 0) j n := count_zero n ▸ ofNat hn hj

theorem flag (b : Bool) : Spells (flag b 0) 1 (bitValue b 1) := by
  have hvalue := ofBool b 0
  rw [pow_zero, Nat.one_mul] at hvalue
  exact hvalue ▸ field (BitVec.ofBool b) (by decide)

variable {w : Word} {k v pos : Nat} (h : Spells w k v)
include h

theorem or_field {n : Nat} (x : BitVec n) (hpos : k ≤ pos) (hfit : pos + n ≤ 16) :
    Spells (w ||| Machine.field x pos) (pos + n) (v + 2 ^ pos * x.toNat) :=
  h.or_shift (setWidth x (by omega)) hpos hfit

theorem or_count {n j : Nat} (hn : n < 2 ^ j) (hpos : k ≤ pos) (hfit : pos + j ≤ 16) :
    Spells (w ||| Machine.count n pos) (pos + j) (v + 2 ^ pos * n) :=
  h.or_shift (ofNat hn (by omega)) hpos hfit

theorem or_flag (b : Bool) (hpos : k ≤ pos) (hfit : pos + 1 ≤ 16) :
    Spells (w ||| Machine.flag b pos) (pos + 1) (v + bitValue b (2 ^ pos)) :=
  ofBool b pos ▸ h.or_field (BitVec.ofBool b) hpos hfit

end Spells

/-! ### The codes as numbers (spec/11 11.4) -/

theorem spells_stationStateCode (x : StationState) : Spells (stationStateCode x) 4
    (match x with | .new => 0 | .online => 1 | .suspect => 2 | .lost => 3 | .parked => 4) := by
  cases x <;> exact ⟨rfl, by decide⟩

theorem spells_leaveCode (x : Leave) : Spells (leaveCode x) 4 (match x with | .absent => 0 | .remove => 1 | .park => 2) := by
  cases x <;> exact ⟨rfl, by decide⟩

theorem spells_inToggleCode (x : Option Bool) : Spells (inToggleCode x) 2
    (match x with | none => 0 | some false => 2 | some true => 3) := by
  rcases x with _ | _ | _ <;> exact ⟨rfl, by decide⟩

theorem spells_replyKindCode (x : ReplyKind) : Spells (replyKindCode x) 4
    (match x with | .none => 0 | .nil => 1 | .report => 2 | .alert => 3 | .taken => 4 | .defer => 5) := by
  cases x <;> exact ⟨rfl, by decide⟩

theorem spells_failReasonCode (x : FailReason) : Spells (failReasonCode x) 8
    (match x with
      | .none => 0 | .timeout => 1 | .framing => 2 | .broken => 3 | .truncated => 4 | .wrong => 5 | .length => 6
      | .check => 7 | .protocol => 8 | .stale => 9 | .fault => 10) := by
  cases x <;> exact ⟨rfl, by decide⟩

theorem spells_outcomeCode (x : MessageOutcome) : Spells (outcomeCode x) 8
    (match x with
      | .taken => 1 | .sent => 2 | .failed => 3 | .refused => 4 | .stranded => 5 | .removed => 6 | .purged => 7) := by
  cases x <;> exact ⟨rfl, by decide⟩

/-! ### The copies (R171) -/

/-- The words of a copy, as numbers. -/
def numbers (words : List Word) : List Nat := words.map (fun w => w.toNat)

theorem numbers_absent (n : Nat) : numbers (List.replicate n 0) = List.replicate n 0 := List.map_replicate

/-- A byte in bits 7 to 0 and one in bits 15 to 8. -/
theorem bytePair_toNat (low high : Byte) : (field low 0 ||| field high 8).toNat = low.toNat + 0x100 * high.toNat :=
  ((Spells.field low (by decide)).or_field high (pos := 8) le_rfl (by decide)).1

theorem packWords_eq (n : Nat) : ∀ bytes : List Byte, packWords n bytes =
    (List.range n).map (fun p => field (bytes.getD (2 * p) 0) 0 ||| field (bytes.getD (2 * p + 1) 0) 8) := by
  induction n with
  | zero => exact fun _ => rfl
  | succ n ih =>
    intro bytes
    rw [packWords, ih, List.range_succ_eq_map, List.map_cons, List.map_map]
    refine congrArg₂ List.cons rfl (List.map_congr_left fun p _ => ?_)
    simp only [Function.comp, List.getD_eq_getElem?_getD, List.getElem?_drop]
    congr 4 <;> omega

theorem numbers_packWords (bytes : List Byte) : numbers (packWords 16 bytes) = payloadLayout bytes := by
  rw [packWords_eq, numbers, List.map_map]
  exact List.map_congr_left fun p _ => bytePair_toNat _ _

theorem numbers_stationWords {s : State} {r : StationRecord} (hoq : s.oq.length ≤ 16) :
    numbers (stationWords s r) = stationLayout r (s.oq.countP (fun e => e.destination == r.address)) := by
  have hqueued : queuedOutbound s r.address < 2 ^ 8 :=
    (List.countP_le_length.trans hoq).trans_lt (by decide)
  have hword0 := (Spells.field r.address (by decide)).or_flag true (pos := 15) (by decide) (by decide)
  have hword1 := ((((spells_stationStateCode r.state).or_shift (spells_leaveCode r.leave) (pos := 4) le_rfl
    (by decide)).or_flag r.syncPending (pos := 8) le_rfl (by decide)).or_flag r.outToggle (pos := 9) le_rfl
    (by decide)).or_shift (spells_inToggleCode r.inToggle) (pos := 12) (by decide) (by decide)
  have hword2 := ((Spells.field r.skip (by decide)).or_field r.countdown (pos := 4) le_rfl (by decide)).or_field r.ceiling
    (pos := 8) le_rfl (by decide)
  have hword3 := ((Spells.field r.missCount (by decide)).or_shift (spells_replyKindCode r.lastReply) (pos := 4) le_rfl
    (by decide)).or_count hqueued (pos := 8) le_rfl (by decide)
  have hword6 := Spells.field r.duplicates (by decide)
  have hword7 := Spells.field r.refusals (by decide)
  simp only [numbers, stationWords, List.map_cons, List.map_nil, hword0.1, hword1.1, hword2.1, hword3.1, hword6.1,
    hword7.1]
  rfl

theorem numbers_outboundWords {e : OutboundEntry} (hlength : e.payload.length ≤ 32) (hattempts : e.attempts ≤ 8) :
    numbers ([flag (e.status == .inFlight) 0 ||| flag true 15, field e.tag 0,
      field e.destination 0 ||| count e.payload.length 8, count e.attempts 0 ||| field e.defers 8] ++
        packWords 16 e.payload) = outboundLayout e := by
  have hword0 := (Spells.flag (e.status == .inFlight)).or_flag true (pos := 15) (by decide) (by decide)
  have hword1 := Spells.field e.tag (by decide)
  have hword2 := (Spells.field e.destination (by decide)).or_count (n := e.payload.length) (j := 8) (pos := 8)
    (by omega) (by decide) (by decide)
  have hword3 := (Spells.count (n := e.attempts) (j := 8) (by omega) (by decide)).or_field e.defers (pos := 8) le_rfl
    (by decide)
  have hpayload := numbers_packWords e.payload
  simp only [numbers] at hpayload
  simp only [numbers, List.map_append, List.map_cons, List.map_nil, hpayload, hword0.1, hword1.1, hword2.1, hword3.1]
  rfl

theorem numbers_report {a : Address} {payload : List Byte} {cycle : Word} (hlength : payload.length ≤ 32) :
    numbers ([1, field a 0, count payload.length 0, cycle] ++ packWords 16 payload) =
      returnLayout (.report a payload cycle) := by
  have hword1 := Spells.field a (by decide)
  have hword2 := Spells.count (n := payload.length) (j := 8) (by omega) (by decide)
  have hpayload := numbers_packWords payload
  simp only [numbers] at hpayload
  simp only [numbers, List.map_append, List.map_cons, List.map_nil, hpayload, hword1.1, hword2.1]
  rfl

theorem numbers_done {a : Address} {tag : Byte} {outcome : MessageOutcome} {attempts : Nat} (hattempts : attempts ≤ 8) :
    numbers ([2, field a 0, field tag 0, outcomeCode outcome ||| count attempts 8] ++ packWords 16 []) =
      returnLayout (.done a tag outcome attempts) := by
  have hword1 := Spells.field a (by decide)
  have hword2 := Spells.field tag (by decide)
  have hword3 := (spells_outcomeCode outcome).or_count (n := attempts) (j := 8) (pos := 8) (by omega) le_rfl (by decide)
  simp only [numbers, List.map_append, List.map_cons, List.map_nil, hword1.1, hword2.1, hword3.1]
  rfl

/-- The three numbers of a stack entry. -/
def entryNumbers (e : AttentionEntry) : List Nat :=
  [e.source.toNat, e.level.toNat + 0x10 * e.repeats.toNat + 0x100 * e.code.toNat, e.stamp.toNat]

theorem numbers_stackEntryWords (e : AttentionEntry) : numbers (stackEntryWords e) = entryNumbers e := by
  have hword0 := Spells.field e.source (by decide)
  have hword1 := ((Spells.field e.level (by decide)).or_field e.repeats (pos := 4) (by decide) (by decide)).or_field e.code
    (pos := 8) le_rfl (by decide)
  simp only [numbers, stackEntryWords, List.map_cons, List.map_nil, hword0.1, hword1.1]
  rfl

/-- The entries of a stack of at most four, bottom first, filled up with 0. -/
theorem entryNumbers_padded : ∀ entries : List AttentionEntry, entries.length ≤ 4 →
    (entries.map entryNumbers).flatten ++ List.replicate (12 - 3 * entries.length) 0 =
      ([0, 1, 2, 3].map (stackEntryLayout entries)).flatten
  | [], _ | [_], _ | [_, _], _ | [_, _, _], _ | [_, _, _, _], _ => rfl
  | _ :: _ :: _ :: _ :: _ :: _, hlength => by simp only [List.length_cons] at hlength; omega

theorem numbers_stackSnapshot {s : State} (hstack : s.au.stack.length ≤ 4) : numbers (stackSnapshot s) =
    s.au.stack.length :: ([0, 1, 2, 3].map (stackEntryLayout s.au.stack.reverse)).flatten := by
  have hlength : (s.au.stack.reverse.map stackEntryWords).flatten.length = 3 * s.au.stack.reverse.length := by
    generalize s.au.stack.reverse = entries
    induction entries with
    | nil => rfl
    | cons e entries ih => simp only [List.map_cons, List.flatten_cons, List.length_append, ih, stackEntryWords,
        List.length_cons, List.length_nil]; omega
  have hentries : numbers (s.au.stack.reverse.map stackEntryWords).flatten =
      (s.au.stack.reverse.map entryNumbers).flatten := by
    rw [numbers, List.map_flatten, List.map_map]
    exact congrArg List.flatten (List.map_congr_left fun e _ => numbers_stackEntryWords e)
  have hpadded := entryNumbers_padded s.au.stack.reverse (by rwa [List.length_reverse])
  have hcount := (Spells.count (n := s.au.stack.length) (j := 3) (by omega) (by decide)).1
  rw [← hpadded, ← hentries, ← hlength, ← numbers_absent]
  simp only [stackSnapshot, numbers, List.map_cons, List.map_append, hcount]

theorem numbers_lineStatsSnapshot (s : State) : numbers (lineStatsSnapshot s) = lineStatsLayout s.ee := by
  have hword3 := Spells.field s.ee.faultStreak (by decide)
  have hword4 := (spells_failReasonCode s.ee.lastFailure.reason).or_field s.ee.lastFailure.address (pos := 8) le_rfl
    (by decide)
  simp only [numbers, lineStatsSnapshot, List.map_cons, List.map_nil, hword3.1, hword4.1]
  rfl

/-! ### The copy of each selection (R170, R171) -/

theorem stationSnapshot_absent {s : State} {index : Byte}
    (h : index = 0 ∨ 126 < index.toNat ∨ s.st.find (index.setWidth 7) = none) :
    stationSnapshot s index = List.replicate 8 0 := by
  have hnone : (stationAddress (index.setWidth 16)).bind s.st.find = none := by
    have hindex := (Spells.setWidth index (by decide)).1
    cases haddress : stationAddress (index.setWidth 16) with
    | none => rfl
    | some a =>
      obtain ⟨hw, hlow, hhigh⟩ := stationAddress_eq_some.mp haddress
      have ha : index.toNat = a.toNat := by
        rw [← hindex, hw, (Spells.setWidth a (by decide)).1]
      have hsame : index.setWidth 7 = a := by
        refine BitVec.eq_of_toNat_eq ?_
        rw [BitVec.toNat_setWidth, ha]
        omega
      rcases h with rfl | hlarge | hfind
      · have hzero : a.toNat = 0 := ha.symm
        omega
      · omega
      · exact hsame ▸ hfind
  rw [stationSnapshot, hnone]

theorem stationSnapshot_record {s : State} {index : Byte} {r : StationRecord} (hlow : 1 ≤ index.toNat)
    (hhigh : index.toNat ≤ 126) (hfind : s.st.find (index.setWidth 7) = some r) :
    stationSnapshot s index = stationWords s r := by
  have haddress : stationAddress (index.setWidth 16) = some (index.setWidth 7) := by
    refine stationAddress_eq_some.mpr ?_
    have hnumber : (index.setWidth 7 : Address).toNat = index.toNat := by
      rw [BitVec.toNat_setWidth]
      omega
    refine ⟨BitVec.eq_of_toNat_eq ?_, by omega, by omega⟩
    rw [(Spells.setWidth index (by decide)).1, (Spells.setWidth _ (by decide)).1, hnumber]
  rw [stationSnapshot, haddress, Option.bind_some, hfind]

theorem outboundSnapshot_absent {s : State} {index : Byte} (h : s.oq.length ≤ index.toNat) :
    outboundSnapshot s index = List.replicate 20 0 := by
  rw [outboundSnapshot, List.getElem?_eq_none h]

theorem outboundSnapshot_entry {s : State} {index : Byte} {e : OutboundEntry} (h : s.oq[index.toNat]? = some e)
    (hlength : e.payload.length ≤ 32) (hattempts : e.attempts ≤ 8) :
    numbers (outboundSnapshot s index) = outboundLayout e := by
  rw [outboundSnapshot, h]
  exact numbers_outboundWords hlength hattempts

theorem returnSnapshot_of_latch {s : State} {r : ReturnRecord} (h : s.latch = some r) : returnSnapshot s =
    [(returnHeader r).w0, (returnHeader r).w1, (returnHeader r).w2, (returnHeader r).w3] ++
      packWords 16 (returnPayload r) := by
  rw [returnSnapshot, h]

theorem exec_wselWrite {s : State} {value : Word} (hrun : s.inReset = false) :
    exec (.wselWrite value) s = .next (selectWindow value s) :=
  whenRunning_running hrun

/-- A code that names a selection selects it with the index written, and takes its copy (R170). -/
theorem selectWindow_named {s : State} {value : Word} {index : Byte} {selection : Selection}
    (hselection : selectionOf value = selection) (hnamed : selection ≠ .nothing) (hindex : value.extractLsb' 8 8 = index) :
    selectWindow value s = { s with rw := { s.rw with
      selection := selection, index := index, pointer := 0, snapshot := snapshotOf s selection index } } := by
  subst hselection hindex
  rw [selectWindow]
  simp only [if_neg hnamed, indexOf]

/-- The word of the staging buffer at the pointer, as a number. -/
theorem stagingWord_toNat (staging : Vector Byte 32) (p : Nat) : (stagingWord staging p).toNat =
    ((staging[2 * p]?).getD 0).toNat + 0x100 * ((staging[2 * p + 1]?).getD 0).toNat :=
  bytePair_toNat _ _

theorem readWord_data {s : State} (hrun : s.inReset = false) : readWord s 0x0F = dataWord s.rw :=
  if_neg (Bool.eq_false_iff.mp hrun)

theorem readWord_wsel {s : State} (hrun : s.inReset = false) : readWord s 0x0E = wselWord s.rw :=
  if_neg (Bool.eq_false_iff.mp hrun)

/-- Under STAGE the data port shows the staging buffer itself (R171). -/
theorem readWord_stage {s : State} {p : Nat} (hrun : s.inReset = false) (hstage : s.rw.selection = .stage)
    (hpointer : s.rw.pointer = p) (hp : p < 16) : (readWord s 0x0F).toNat =
      ((s.rw.staging[2 * p]?).getD 0).toNat + 0x100 * ((s.rw.staging[2 * p + 1]?).getD 0).toNat := by
  subst hpointer
  rw [readWord_data hrun, dataWord, hstage]
  simp only
  rw [if_pos (show s.rw.pointer < Config.stagingWords from hp), stagingWord_toNat]

/-- The six selections by their codes (spec/11 11.6). -/
theorem selectionOf_code {value : Word} {code : Nat} {selection : Selection}
    (hcode : (code, selection) ∈ [(1, Selection.stage), (2, .station), (3, .outbound), (4, .returned), (5, .stack),
      (6, .lineStats)]) (hvalue : value.toNat % 16 = code) :
    selectionOf value = selection ∧ selection ≠ .nothing ∧ selectionCode selection = BitVec.ofNat 16 code := by
  have hbits : (value.setWidth 4).toNat = code := by rw [BitVec.toNat_setWidth]; exact hvalue
  rw [selectionOf, hbits]
  simp only [List.mem_cons, Prod.mk.injEq, List.not_mem_nil, or_false] at hcode
  rcases hcode with ⟨rfl, rfl⟩ | ⟨rfl, rfl⟩ | ⟨rfl, rfl⟩ | ⟨rfl, rfl⟩ | ⟨rfl, rfl⟩ | ⟨rfl, rfl⟩ <;>
    exact ⟨rfl, nofun, rfl⟩

theorem selectionOf_nothing {value : Word} (hvalue : value.toNat % 16 = 0 ∨ 6 < value.toNat % 16) :
    selectionOf value = .nothing := by
  have hbits : (value.setWidth 4).toNat = value.toNat % 16 := BitVec.toNat_setWidth 4 value
  rw [selectionOf, hbits]
  split
  case h_7 => rfl
  all_goals omega

/-! ### The latch in every row (R171) -/

theorem keptByTimer_snapshot (words : List Word) : KeptByTimer (fun s => s.rw.snapshot = words) where
  toKeptByLine := .ofTableFree
    (fun s t happart h => (congrArg Window.snapshot (apart_rw happart)).trans h) (fun _ _ h => h) (fun _ _ h => h)
    (fun _ _ h => h) (fun _ _ _ h => h) (fun _ _ h => h) (fun _ _ _ h => h) (fun _ _ _ _ h => h)
    (fun s t a payload ht h => by
      rw [admitReport_eq] at ht
      split at ht
      · cases ht; exact h
      · cases ht)
    (fun _ _ _ _ _ _ h => h) (fun _ h => h)
  timer _ _ h := h
  supervisionHold _ h := h
  withdraw _ h := h

/-- The latch changes by a write of WSEL, by CLEAR and by the two resets alone. -/
theorem exec_snapshot {c : Instr} {s t : State} (h : exec c s = .next t) (hwsel : ∀ value, c ≠ .wselWrite value)
    (hclear : c ≠ .clear) (hpower : c ≠ .powerOn) (hpin : c ≠ .pinReset) : t.rw.snapshot = s.rw.snapshot := by
  obtain ⟨u, hact, hleaves⟩ := exec_act h
  obtain ⟨w, -, hsnapshot, rfl⟩ := hleaves.window
  refine hsnapshot.trans ?_
  cases hact with
  | moved hcourse => exact (keptByTimer_snapshot s.rw.snapshot).act hcourse rfl
  | cleared => exact absurd rfl hclear
  | reset hc => exact (hc.elim hpower hpin).elim
  | windowAccessed _ hkept =>
    rcases hkept with hkept | ⟨value, hc⟩
    · exact hkept
    · exact absurd hc (hwsel value)
  | nothing | enrolled | leaveSet | removed | parked | unparked | recordMarked | allSynced | lineZeroed | submitted
  | purged | returnTaken | attnTaken | serviceEnded | dismissed | unitWritten | holdEntered | holdLeft
  | settingsWritten | limitsWritten | resetEnded => rfl

/-- The window after a write of a code that names no selection (R170). -/
def unselected (s : State) : State :=
  { s with rw := { s.rw with selection := .nothing, index := 0, pointer := 0, snapshot := [] } }

/-- Settles O38: the write selects and takes the copy of its selection, read as numbers; every other row but CLEAR and the
two resets keeps the latch. -/
theorem wselWriteFollowsR170 : Obligations.WselWriteFollowsR170 := by
  refine ⟨fun s value index hrun hindex => ⟨fun code selection hcode hvalue => ?_, fun hvalue => ?_⟩,
    fun c s t h hwsel hclear hpower hpin => exec_snapshot h hwsel hclear hpower hpin⟩
  · obtain ⟨hselection, hnamed, hselectionCode⟩ := selectionOf_code hcode hvalue
    refine ⟨_, exec_wselWrite hrun, ?_⟩
    rw [selectWindow_named hselection hnamed hindex]
    refine ⟨rfl, rfl, rfl, ?_, ?_, ?_, ?_, ?_, ?_, ?_, rfl⟩
    · rintro rfl
      exact ⟨rfl, fun p hp => readWord_stage hrun rfl rfl hp⟩
    · rintro rfl
      refine ⟨fun habsent => ?_, fun r hlow hhigh hfind hoq => ?_⟩
      · exact (congrArg numbers (stationSnapshot_absent habsent)).trans (numbers_absent 8)
      · exact (congrArg numbers (stationSnapshot_record hlow hhigh hfind)).trans (numbers_stationWords hoq)
    · rintro rfl
      refine ⟨fun habsent => ?_, fun e he hlength hattempts => outboundSnapshot_entry he hlength hattempts⟩
      exact (congrArg numbers (outboundSnapshot_absent habsent)).trans (numbers_absent 20)
    · rintro rfl
      refine ⟨fun habsent => ?_, fun a payload cycle hlatch hlength => ?_, fun a tag outcome attempts hlatch hattempts => ?_⟩
      · have hzero : returnSnapshot s = List.replicate 20 0 := by rw [returnSnapshot, habsent]
        exact (congrArg numbers hzero).trans (numbers_absent 20)
      · exact (congrArg numbers (returnSnapshot_of_latch hlatch)).trans (numbers_report hlength)
      · exact (congrArg numbers (returnSnapshot_of_latch hlatch)).trans (numbers_done hattempts)
    · rintro rfl hstack
      exact numbers_stackSnapshot hstack
    · rintro rfl
      exact numbers_lineStatsSnapshot s
    · rw [readWord_wsel]
      · exact congrArg (fun w => w ||| (index.setWidth 16 <<< 8)) hselectionCode
      · exact hrun
  · have ht : selectWindow value s = unselected s := by
      rw [selectWindow, selectionOf_nothing hvalue]
      rfl
    refine ⟨_, exec_wselWrite hrun, ht, ?_⟩
    rw [ht]
    have hcode : wselWord (unselected s).rw = 0 := (by decide : selectionCode .nothing ||| field (0 : Byte) 8 = 0)
    refine ⟨(readWord_wsel (s := unselected s) hrun).trans hcode, readWord_data (s := unselected s) hrun, fun word u hu => ?_⟩
    cases hu.symm.trans (whenRunning_running (f := writeData word) (s := unselected s) hrun)
    have hstage : ¬((unselected s).rw.selection = .stage ∧ (unselected s).rw.pointer < Config.stagingWords) :=
      fun h => nomatch h.1
    refine ⟨?_, rfl⟩
    rw [writeData, if_neg hstage]

end Sys2Proof.Machine

/-! SUPPORT. The receiver, the characters it delivers and where each goes by the state of the engine (R1 to R3, R68 to R75,
R80). -/

namespace Sys2Proof.Machine

/-! ### The rows of the receiver and of the engine's timers, while no reset lasts -/

section

variable {s : State} (hrun : s.inReset = false)
include hrun

theorem exec_startBitFound : exec .startBitFound s =
    .next (if s.ee.receiver = .hunting then { s with ee := { s.ee with receiver := .assembling } } else s) :=
  congrArg Host.Outcome.next (if_neg (Bool.eq_false_iff.mp hrun))

theorem exec_lineReturnsTo1 : exec .lineReturnsTo1 s =
    .next (if s.ee.receiver = .waitingForOne then { s with ee := { s.ee with receiver := .hunting } } else s) :=
  congrArg Host.Outcome.next (if_neg (Bool.eq_false_iff.mp hrun))

theorem exec_falseStart : exec .falseStart s =
    .next (if s.ee.receiver = .assembling then falseStartFound s else s) :=
  congrArg Host.Outcome.next (if_neg (Bool.eq_false_iff.mp hrun))

theorem exec_characterDelivered (delivery : Delivery) : exec (.characterDelivered delivery) s =
    .next (if s.ee.receiver = .assembling then
      if startIsFalse delivery.samples then falseStartFound s
      else deliver (receivedChar delivery.samples) delivery.begun s
    else s) :=
  congrArg Host.Outcome.next (if_neg (Bool.eq_false_iff.mp hrun))

theorem exec_settleEnd (cause : SettleCause) : exec (.settleEnd cause) s = .next (settleEvent cause s) :=
  congrArg Host.Outcome.next (if_neg (Bool.eq_false_iff.mp hrun))

theorem exec_replyTimeout_listens (hlisten : s.ee.state = .listen) : exec .replyTimeout s =
    .next (if s.ee.receiver = .assembling then { s with ee := { s.ee with replyTimer := .expired } }
      else attemptFails .timeout s) :=
  congrArg Host.Outcome.next ((if_neg (Bool.eq_false_iff.mp hrun)).trans (if_pos hlisten))

theorem exec_gapTimeout_receives (hreceive : s.ee.state = .receive) : exec .gapTimeout s =
    .next (if s.ee.receiver = .assembling then { s with ee := { s.ee with gapTimer := .expired } }
      else evaluateReply .truncated s) :=
  congrArg Host.Outcome.next ((if_neg (Bool.eq_false_iff.mp hrun)).trans (if_pos hreceive))

theorem exec_faultedAttemptEnd (hsend : s.ee.state = .send) (hfound : s.ee.faultFound = true) :
    exec .faultedAttemptEnd s = .next (faultEnds s) :=
  congrArg Host.Outcome.next ((if_neg (Bool.eq_false_iff.mp hrun)).trans (if_pos ⟨hsend, hfound⟩))

theorem exec_echoMissing : exec .echoMissing s =
    .next (if sendingSound s ∧ s.ee.echoed < s.ee.frame.length then
      faultIsFound (decide (s.ee.echoed + 1 < s.ee.frame.length)) s
    else s) :=
  congrArg Host.Outcome.next (if_neg (Bool.eq_false_iff.mp hrun))

theorem exec_endOfLastStopBit : exec .endOfLastStopBit s =
    .next (if sendingSound s then lastStopBit s else s) :=
  congrArg Host.Outcome.next (if_neg (Bool.eq_false_iff.mp hrun))

theorem exec_quietEnd (hquiet : s.ee.state = .quiet) : exec .quietEnd s = .next (endGood s) :=
  congrArg Host.Outcome.next ((if_neg (Bool.eq_false_iff.mp hrun)).trans (if_pos hquiet))

/-- A character in assembly whose start bit reads 0 is delivered. -/
theorem exec_delivers {samples : CharSamples} {begun : Nat} {c : RxChar} (hassembling : s.ee.receiver = .assembling)
    (hstart : startIsFalse samples = false) (hc : receivedChar samples = c) :
    exec (.characterDelivered ⟨samples, begun⟩) s = .next (deliver c begun s) := by
  rw [exec_characterDelivered hrun, if_pos hassembling, if_neg (Bool.eq_false_iff.mp hstart), hc]

end

/-! ### A false start (R2) -/

/-- The state in which a false start has ended the assembly. -/
def hunted (s : State) : State := { s with ee := { s.ee with receiver := .hunting } }

theorem falseStartFound_eq (s : State) : falseStartFound s =
    match s.ee.state with
    | .settle => if s.ee.turnCount = .expired then settleEnds (hunted s) else hunted s
    | .listen => if s.ee.replyTimer = .expired then attemptFails .timeout (hunted s) else hunted s
    | .receive => if s.ee.gapTimer = .expired then evaluateReply .truncated (hunted s) else hunted s
    | .idle | .send | .quiet => hunted s := rfl

theorem falseStartFound_hunts {s : State} (hsettle : s.ee.turnCount ≠ .expired) (hreply : s.ee.replyTimer ≠ .expired)
    (hgap : s.ee.gapTimer ≠ .expired) : falseStartFound s = hunted s := by
  rw [falseStartFound_eq]
  cases s.ee.state with
  | settle => exact if_neg hsettle
  | listen => exact if_neg hreply
  | receive => exact if_neg hgap
  | idle | send | quiet => rfl

theorem falseStartFound_settle {s : State} (hstate : s.ee.state = .settle) (hexpired : s.ee.turnCount = .expired) :
    falseStartFound s = settleEnds (hunted s) := by
  rw [falseStartFound_eq, hstate]
  exact if_pos hexpired

theorem falseStartFound_listen {s : State} (hstate : s.ee.state = .listen) (hexpired : s.ee.replyTimer = .expired) :
    falseStartFound s = attemptFails .timeout (hunted s) := by
  rw [falseStartFound_eq, hstate]
  exact if_pos hexpired

theorem falseStartFound_receive {s : State} (hstate : s.ee.state = .receive) (hexpired : s.ee.gapTimer = .expired) :
    falseStartFound s = evaluateReply .truncated (hunted s) := by
  rw [falseStartFound_eq, hstate]
  exact if_pos hexpired

/-! ### Where a delivered character goes (R68, R72, R75, R80) -/

/-- The engine that has heard a character: the receiver goes on, and a noise flag is counted. -/
def Engine.heard (e : Engine) (c : RxChar) : Engine :=
  { e with receiver := receiverAfter c, noise := if c.noise then satInc e.noise else e.noise }

/-- The state that has heard a character. -/
def heardBy (c : RxChar) (s : State) : State := { s with ee := s.ee.heard c }

theorem deliver_eq (c : RxChar) (begun : Nat) (s : State) : deliver c begun s =
    match s.ee.state with
    | .idle | .quiet => countStray (heardBy c s)
    | .settle => countStray { heardBy c s with ee := { (heardBy c s).ee with turnCount := .running } }
    | .send => if s.ee.faultFound then heardBy c s else echoCheck c begun (heardBy c s)
    | .listen =>
      if c.mark then replyHead c (heardBy c s)
      else if s.ee.replyTimer = .expired then attemptFails .timeout (countStray (heardBy c s))
      else countStray (heardBy c s)
    | .receive => receiveChar c (heardBy c s) := rfl

section

variable {c : RxChar} {begun : Nat} {s : State}

theorem deliver_resting (hstate : s.ee.state = .idle ∨ s.ee.state = .quiet) :
    deliver c begun s = countStray (heardBy c s) := by
  rcases hstate with hstate | hstate <;> rw [deliver_eq, hstate]

theorem deliver_settling (hstate : s.ee.state = .settle) : deliver c begun s =
    countStray { heardBy c s with ee := { (heardBy c s).ee with turnCount := .running } } := by
  rw [deliver_eq, hstate]

theorem deliver_faulted (hstate : s.ee.state = .send) (hfound : s.ee.faultFound = true) :
    deliver c begun s = heardBy c s := by
  rw [deliver_eq, hstate]
  exact if_pos hfound

theorem deliver_sending (hstate : s.ee.state = .send) (hfound : s.ee.faultFound = false) :
    deliver c begun s = echoCheck c begun (heardBy c s) := by
  rw [deliver_eq, hstate]
  exact if_neg (Bool.eq_false_iff.mp hfound)

theorem deliver_head (hstate : s.ee.state = .listen) (hmark : c.mark = true) :
    deliver c begun s = replyHead c (heardBy c s) := by
  rw [deliver_eq, hstate]
  exact if_pos hmark

theorem deliver_listening (hstate : s.ee.state = .listen) (hmark : c.mark = false) : deliver c begun s =
    if s.ee.replyTimer = .expired then attemptFails .timeout (countStray (heardBy c s))
    else countStray (heardBy c s) := by
  rw [deliver_eq, hstate]
  exact if_neg (Bool.eq_false_iff.mp hmark)

theorem deliver_receiving (hstate : s.ee.state = .receive) : deliver c begun s = receiveChar c (heardBy c s) := by
  rw [deliver_eq, hstate]

end

/-! ### The samples of a character (R1 to R3) -/

theorem majorityBits_getLsbD (c : CharSamples) (i : Nat) : (majorityBits c).getLsbD i =
    ((c.s7.getLsbD i && c.s8.getLsbD i) || (c.s7.getLsbD i && c.s9.getLsbD i) ||
      (c.s8.getLsbD i && c.s9.getLsbD i)) := by
  simp only [majorityBits, BitVec.getLsbD_or, BitVec.getLsbD_and]

theorem samplesDisagree_eq_false {c : CharSamples} : samplesDisagree c = false ↔ c.s7 = c.s8 ∧ c.s8 = c.s9 := by
  rw [samplesDisagree, Bool.not_eq_false', Bool.and_eq_true, beq_iff_eq, beq_iff_eq]

theorem xor_eq_self {n : Nat} {x y : BitVec n} : x ^^^ y = x ↔ y = 0 := by
  constructor
  · intro h
    have hzero := congrArg (fun z => x ^^^ z) h
    rwa [← BitVec.xor_assoc, BitVec.xor_self, BitVec.zero_xor] at hzero
  · rintro rfl
    exact BitVec.xor_zero

/-- One sample of three may be wrong in any bit: the majority is the line, and the noise flag says so. -/
theorem hearing_one_wrong {line wrong : BitVec 11} {samples : CharSamples}
    (h : samples ∈ [(⟨line ^^^ wrong, line, line⟩ : CharSamples), ⟨line, line ^^^ wrong, line⟩,
      ⟨line, line, line ^^^ wrong⟩]) :
    majorityBits samples = line ∧ samplesDisagree samples = (wrong != 0) := by
  simp only [List.mem_cons, List.not_mem_nil, or_false] at h
  constructor
  · refine BitVec.eq_of_getLsbD_eq fun i _ => ?_
    rcases h with rfl | rfl | rfl <;> simp only [majorityBits_getLsbD, BitVec.getLsbD_xor] <;>
      cases line.getLsbD i <;> cases wrong.getLsbD i <;> rfl
  · have hagree : samplesDisagree samples = false ↔ wrong = 0 := by
      rcases h with rfl | rfl | rfl <;> rw [samplesDisagree_eq_false]
      · simp only [and_true, xor_eq_self]
      · rw [eq_comm (a := line), and_self_iff, xor_eq_self]
      · simp only [true_and, eq_comm (a := line), xor_eq_self]
    by_cases hwrong : wrong = 0
    · rw [hagree.mpr hwrong, hwrong]
      rfl
    · rw [bne_iff_ne.mpr hwrong]
      exact Bool.eq_true_of_not_eq_false (mt hagree.mp hwrong)

/-- A character sent as R1 states reads back from its eleven bits. -/
theorem receivedChar_of_bits {sent : LineChar} {samples : CharSamples}
    (hline : ∀ i, i < 11 → (characterBits sent)[i]? = some ((majorityBits samples).getLsbD i)) :
    startIsFalse samples = false ∧ receivedChar samples =
      { data := sent.data, mark := sent.mark, noise := samplesDisagree samples, framing := false } := by
  have hstart : false = (majorityBits samples).getLsbD 0 := Option.some.inj (hline 0 (by decide))
  have hmark : sent.mark = (majorityBits samples).getLsbD 9 := Option.some.inj (hline 9 (by decide))
  have hstop : true = (majorityBits samples).getLsbD 10 := Option.some.inj (hline 10 (by decide))
  have hdata : (majorityBits samples).extractLsb' 1 8 = sent.data := by
    refine BitVec.eq_of_getLsbD_eq fun i hi => ?_
    have hbit := hline (1 + i) (by omega)
    rw [BitVec.getLsbD_extractLsb', decide_eq_true hi, Bool.true_and]
    refine (Option.some.inj (Eq.trans ?_ hbit)).symm
    rw [characterBits, List.getElem?_append_left, List.getElem?_append_right]
    · simp [hi]
    · simp
    · simp; omega
  refine ⟨hstart.symm, ?_⟩
  rw [receivedChar, hdata, ← hmark, ← hstop]
  rfl

/-- Settles O40: the rows of the receiver by its state, and the samples bit by bit. -/
theorem receiverAndSampling : Obligations.ReceiverAndSampling := by
  refine ⟨fun s hrun => ?_, majorityBits_getLsbD, fun c => samplesDisagree_eq_false,
    fun sent line wrong hline samples hsamples => ?_⟩
  · refine ⟨fun h => ?_, fun h => ?_, fun h => ?_, fun h => ?_, fun h => ⟨?_, fun delivery => ?_⟩, fun h => ?_⟩
    · rw [exec_startBitFound hrun, if_pos h]
    · rw [exec_startBitFound hrun, if_neg h]
    · rw [exec_lineReturnsTo1 hrun, if_pos h]
    · rw [exec_lineReturnsTo1 hrun, if_neg h]
    · rw [exec_falseStart hrun, if_neg h]
    · rw [exec_characterDelivered hrun, if_neg h]
    · have hfalse : exec .falseStart s = .next (falseStartFound s) := by rw [exec_falseStart hrun, if_pos h]
      have hnot : (hunted s).ee.receiver ≠ .assembling := nofun
      refine ⟨fun hsettle hreply hgap => ?_, fun hstate hexpired => ?_, fun hstate hexpired => ?_,
        fun hstate hexpired => ?_, fun samples begun hstart => ?_⟩
      · rw [hfalse, falseStartFound_hunts hsettle hreply hgap]
        rfl
      · rw [hfalse, falseStartFound_listen hstate hexpired]
        exact ((exec_replyTimeout_listens (s := hunted s) hrun hstate).trans
          (congrArg Host.Outcome.next (if_neg hnot))).symm
      · rw [hfalse, falseStartFound_receive hstate hexpired]
        exact ((exec_gapTimeout_receives (s := hunted s) hrun hstate).trans
          (congrArg Host.Outcome.next (if_neg hnot))).symm
      · rw [hfalse, falseStartFound_settle hstate hexpired]
        refine ((exec_settleEnd (s := hunted s) hrun .quiet).trans (congrArg Host.Outcome.next ?_)).symm
        exact (if_pos hstate).trans (if_neg fun hquiet => hnot hquiet.2)
      · rw [hfalse, exec_characterDelivered hrun, if_pos h]
        exact congrArg Host.Outcome.next (if_pos hstart)
  · obtain ⟨hmajority, hnoise⟩ := hearing_one_wrong hsamples
    rw [← hnoise]
    refine receivedChar_of_bits fun i hi => ?_
    rw [hmajority]
    exact hline i hi

/-! ### Strays (R80) -/

/-- Settles O41: a stray is counted on the state that has heard it. -/
theorem strayCharacters : Obligations.StrayCharacters := by
  refine ⟨fun x => satInc_toNat x, fun s samples begun c hrun hassembling hstart hc => ?_⟩
  have hdelivers := exec_delivers (begun := begun) hrun hassembling hstart hc
  refine ⟨fun hstate => ?_, fun hstate => ?_, fun hstate hmark hexpired => ?_⟩
  · rw [hdelivers]
    rcases hstate with hstate | hstate | ⟨hstate, hmark, hrunning⟩
    · rw [deliver_resting (.inl hstate)]
      rfl
    · rw [deliver_resting (.inr hstate)]
      rfl
    · rw [deliver_listening hstate hmark, if_neg hrunning]
      rfl
  · rw [hdelivers, deliver_settling hstate]
    rfl
  · rw [hdelivers, deliver_listening hstate hmark, if_pos hexpired]
    have hnot : (countStray (heardBy c s)).ee.receiver ≠ .assembling := by
      change receiverAfter c ≠ .assembling
      unfold receiverAfter
      split <;> nofun
    exact ((exec_replyTimeout_listens (s := countStray (heardBy c s)) hrun hstate).trans
      (congrArg Host.Outcome.next (if_neg hnot))).symm

/-! ### Echoes and line faults (R69, R70) -/

theorem sendingSound_iff {s : State} : sendingSound s = true ↔ s.ee.state = .send ∧ s.ee.faultFound = false := by
  rw [sendingSound, Bool.and_eq_true, beq_iff_eq, Bool.not_eq_true']

theorem receiverAfter_sound {c : RxChar} (h : c.framing = false) : receiverAfter c = .hunting :=
  if_neg (Bool.eq_false_iff.mp h)

theorem echoCheck_agrees {c : RxChar} {begun : Nat} {s : State} {sent : LineChar}
    (hawaited : awaitedEcho s.ee begun = some sent) (hagrees : echoAgrees sent c = true) :
    echoCheck c begun s = echoMatches s := by
  rw [echoCheck, hawaited]
  exact if_pos hagrees

theorem echoCheck_differs {c : RxChar} {begun : Nat} {s : State}
    (h : ∀ sent, awaitedEcho s.ee begun = some sent → echoAgrees sent c = false) :
    echoCheck c begun s = faultIsFound (!s.ee.lastStopEnded) s := by
  rw [echoCheck]
  refine if_neg ?_
  rw [Option.any_eq_true]
  rintro ⟨sent, hawaited, hagrees⟩
  exact Bool.false_ne_true ((h sent hawaited).symm.trans hagrees)

theorem awaitedEcho_of_begun {e : Engine} {begun : Nat} (h : e.echoed = 0 ∨ e.echoed < begun ∨ e.lastStopEnded = true) :
    awaitedEcho e begun = e.frame[e.echoed]? := if_pos h

theorem echoAgrees_iff {sent : LineChar} {c : RxChar} :
    echoAgrees sent c = true ↔ c.data = sent.data ∧ c.mark = sent.mark ∧ c.framing = false := by
  rw [echoAgrees, Bool.and_eq_true, Bool.and_eq_true, beq_iff_eq, beq_iff_eq, Bool.not_eq_true', and_assoc]

/-- The frame of an exchange is sent: a broadcast waits out the reply window, any other listens (R69, R72, R76). -/
theorem frameSent_of_exchange {s : State} {x : Exchange} (hx : s.ee.exchange = some x) : frameSent s = { s with
    ee := { s.ee with
      driverEnable := false, frame := [], echoed := 0, faultFound := false, lastStopEnded := false
      state := if x.address = 0 then .quiet else .listen
      replyTimer := if x.address = 0 then .stopped else .running } } := by
  have hbroadcast : (s.ee.exchange.map (·.address) = some 0) = (x.address = 0) := by
    rw [hx, Option.map_some, Option.some.injEq]
  simp only [frameSent, hbroadcast]
  rfl

theorem echoMatches_more {s : State} (h : s.ee.echoed + 1 < s.ee.frame.length) :
    echoMatches s = { s with ee := { s.ee with echoed := s.ee.echoed + 1 } } :=
  if_neg h.ne

theorem echoMatches_last {s : State} (h : s.ee.echoed + 1 = s.ee.frame.length) (hstop : s.ee.lastStopEnded = false) :
    echoMatches s = { s with ee := { s.ee with echoed := s.ee.echoed + 1, faultStreak := 0 } } :=
  (if_pos h).trans (if_neg (Bool.eq_false_iff.mp hstop))

theorem echoMatches_late {s : State} (h : s.ee.echoed + 1 = s.ee.frame.length) (hstop : s.ee.lastStopEnded = true) :
    echoMatches s = frameSent { s with ee := { s.ee with echoed := s.ee.echoed + 1, faultStreak := 0 } } :=
  (if_pos h).trans (if_pos hstop)

/-- Settles O42: an agreeing echo is taken on the state that has heard it, and the end of the last stop bit by the number of
echoes taken. -/
theorem echoesAndEndOfFrame : Obligations.EchoesAndEndOfFrame := by
  intro s x hrun hsend hsound hx
  refine ⟨fun samples begun sent noise hassembling hstart hsent hbegun hc => ?_, fun hall => ?_, fun hlast => ?_⟩
  · have hdelivers := exec_delivers (begun := begun) hrun hassembling hstart hc
    have hawaited : awaitedEcho (heardBy ⟨sent.data, sent.mark, noise, false⟩ s).ee begun = some sent :=
      (awaitedEcho_of_begun hbegun).trans hsent
    rw [deliver_sending hsend hsound, echoCheck_agrees hawaited (echoAgrees_iff.mpr ⟨rfl, rfl, rfl⟩)] at hdelivers
    refine ⟨fun hmore => ?_, fun hlast hstop => ?_, fun hlast hstop => ?_⟩
    · rw [hdelivers]
      exact congrArg Host.Outcome.next (echoMatches_more (s := heardBy _ s) hmore)
    · rw [hdelivers]
      exact congrArg Host.Outcome.next (echoMatches_last (s := heardBy _ s) hlast hstop)
    · rw [hdelivers, echoMatches_late (s := heardBy _ s) hlast hstop]
      refine congrArg Host.Outcome.next (frameSent_of_exchange ?_)
      exact hx
  · rw [exec_endOfLastStopBit hrun, if_pos (sendingSound_iff.mpr ⟨hsend, hsound⟩), lastStopBit, if_pos hall,
      frameSent_of_exchange hx]
  · rw [exec_endOfLastStopBit hrun, if_pos (sendingSound_iff.mpr ⟨hsend, hsound⟩), lastStopBit, if_neg (by omega),
      if_pos hlast]

/-- The state in which a line fault is counted and LINE-FAULT is handed (R36, R70). -/
def faultCounted (x : Exchange) (s : State) : State :=
  lineFaultEvent (countFailed x { s with
    ee := { s.ee.releaseLine with
      faults := satInc s.ee.faults, faultStreak := satInc s.ee.faultStreak
      lastFailure := { reason := .fault, address := x.address } } })

theorem faultEnds_of_exchange {s : State} {x : Exchange} (hx : s.ee.exchange = some x) : faultEnds s =
    attemptCourse x (if (faultCounted x s).ee.faultStreak = Config.faultStreakLimit then lineOff .fault (faultCounted x s)
      else faultCounted x s) := by
  unfold faultEnds
  rw [hx]
  rfl

/-- The end of a faulted attempt does not read the note that the fault was found. -/
theorem faultEnds_found {s : State} (hx : s.ee.exchange ≠ none) :
    faultEnds { s with ee := { s.ee with faultFound := true } } = faultEnds s := by
  obtain ⟨x, hx⟩ := Option.ne_none_iff_exists'.mp hx
  have hfound := faultEnds_of_exchange (s := { s with ee := { s.ee with faultFound := true } }) hx
  rw [hfound, faultEnds_of_exchange hx]
  rfl

/-- A fault found with no character on TXD ends the attempt as FAULTED_ATTEMPT_END does (R70). -/
theorem next_faultEnds {s : State} (hrun : s.inReset = false) (hsend : s.ee.state = .send)
    (hx : s.ee.exchange ≠ none) : Host.Outcome.next (faultEnds s) =
    exec .faultedAttemptEnd { s with ee := { s.ee with faultFound := true } } := by
  rw [exec_faultedAttemptEnd (s := { s with ee := { s.ee with faultFound := true } }) hrun hsend rfl, faultEnds_found hx]

/-- Settles O43: where no transmitted character agrees, or none is awaited, or its echo is missing. -/
theorem lineFaultIsFound : Obligations.LineFaultIsFound := by
  intro s hrun hsend hx
  refine ⟨fun samples begun c hassembling hstart hc => ⟨fun hfound => ?_, fun hsound hdiffers => ?_⟩, fun hsound => ?_,
    fun hfound => ?_⟩
  · rw [exec_delivers hrun hassembling hstart hc, deliver_faulted hsend hfound]
    rfl
  · have hdelivers := exec_delivers (begun := begun) hrun hassembling hstart hc
    have hnone : ∀ sent, awaitedEcho (heardBy c s).ee begun = some sent → echoAgrees sent c = false := by
      intro sent hawaited
      rcases hdiffers with ⟨hechoed, hbegun, hstop⟩ | hdiffers
      · have hnotBegun : ¬(s.ee.echoed = 0 ∨ s.ee.echoed < begun ∨ s.ee.lastStopEnded = true) := by
          rintro (h | h | h)
          · exact hechoed h
          · omega
          · exact Bool.false_ne_true (hstop.symm.trans h)
        cases ((if_neg hnotBegun).symm.trans hawaited : none = some sent)
      · by_cases hbegun : s.ee.echoed = 0 ∨ s.ee.echoed < begun ∨ s.ee.lastStopEnded = true
        · refine Bool.eq_false_iff.mpr fun hagrees => ?_
          obtain ⟨hdata, hmark, hframing⟩ := echoAgrees_iff.mp hagrees
          rcases hdiffers sent ((awaitedEcho_of_begun hbegun).symm.trans hawaited) with h | h | h
          · exact h hdata
          · exact h hmark
          · exact Bool.false_ne_true (hframing.symm.trans h)
        · cases ((if_neg hbegun).symm.trans hawaited : none = some sent)
    rw [deliver_sending hsend hsound, echoCheck_differs hnone] at hdelivers
    have hkept : (heardBy c s).ee.lastStopEnded = s.ee.lastStopEnded := rfl
    refine ⟨fun hstop => ?_, fun hstop => ?_⟩
    · rw [hdelivers, hkept, hstop]
      rfl
    · rw [hdelivers, hkept, hstop]
      exact next_faultEnds (s := heardBy c s) hrun hsend hx
  · have hsending := sendingSound_iff.mpr ⟨hsend, hsound⟩
    refine ⟨fun hmore => ?_, fun hlast => ?_⟩
    · rw [exec_echoMissing hrun, if_pos ⟨hsending, by omega⟩, decide_eq_true hmore]
      rfl
    · rw [exec_echoMissing hrun, if_pos ⟨hsending, by omega⟩, decide_eq_false (by omega)]
      exact next_faultEnds hrun hsend hx
  · rw [exec_echoMissing hrun, if_neg]
    rintro ⟨hsending, -⟩
    exact Bool.false_ne_true ((sendingSound_iff.mp hsending).2.symm.trans hfound)

/-! ### The assembly of a reply (R72, R73, R75) -/

theorem replyOf_len (buffer : List RxChar) :
    (replyOf buffer).len.toNat = (buffer[2]?.map (fun ch => ch.data.toNat)).getD 0 := by
  simp only [replyOf, List.getD_eq_getElem?_getD, List.getElem?_map]
  cases buffer[2]? <;> rfl

theorem lengthTooLong_iff {buffer : List RxChar} : lengthTooLong buffer = true ↔
    buffer.length = 3 ∧ 32 < (replyOf buffer).len.toNat := by
  rw [lengthTooLong, Bool.and_eq_true, beq_iff_eq, decide_eq_true_iff]
  rfl

theorem frameComplete_iff {buffer : List RxChar} : frameComplete buffer = true ↔
    3 ≤ buffer.length ∧ (replyOf buffer).len.toNat ≤ 32 ∧ buffer.length = (replyOf buffer).len.toNat + 5 := by
  rw [frameComplete, Bool.and_eq_true, Bool.and_eq_true, beq_iff_eq, decide_eq_true_iff, decide_eq_true_iff, and_assoc]
  rfl

/-- The state whose buffer has grown by a character (R73). -/
def appendedBy (c : RxChar) (s : State) : State :=
  { s with ee := { s.ee with buffer := s.ee.buffer ++ [c], gapTimer := .running } }

section

variable {c : RxChar} {s : State}

theorem receiveChar_marked (h : c.mark = true) : receiveChar c s = evaluateReply .broken s := if_pos h

theorem receiveChar_unmarked (h : c.mark = false) : receiveChar c s =
    if lengthTooLong (s.ee.buffer ++ [c]) then evaluateReply .length (appendedBy c s)
    else if frameComplete (s.ee.buffer ++ [c]) then evaluateReply .complete (appendedBy c s)
    else appendedBy c s :=
  if_neg (Bool.eq_false_iff.mp h)

/-- The last check character ends the assembly (R73). -/
theorem receiveChar_complete (h : c.mark = false) (hcomplete : frameComplete (s.ee.buffer ++ [c]) = true) :
    receiveChar c s = evaluateReply .complete (appendedBy c s) := by
  obtain ⟨-, hlen, -⟩ := frameComplete_iff.mp hcomplete
  rw [receiveChar_unmarked h, if_neg, if_pos hcomplete]
  rw [lengthTooLong_iff]
  omega

end

/-- Settles O48: what a character does in LISTEN and in RECEIVE, by the length of the buffer and its LEN. -/
theorem replyAssembly : Obligations.ReplyAssembly := by
  intro s samples begun c hrun hassembling hstart hc
  have hdelivers := exec_delivers (begun := begun) hrun hassembling hstart hc
  refine ⟨fun hlisten hmark => ?_, fun hreceive => ?_⟩
  · rw [hdelivers, deliver_head hlisten hmark]
    rfl
  · rw [deliver_receiving hreceive] at hdelivers
    rw [hdelivers]
    have hlen := replyOf_len (s.ee.buffer ++ [c])
    have hgrown : (s.ee.buffer ++ [c]).length = s.ee.buffer.length + 1 := List.length_append
    refine ⟨fun hmark => ?_, fun hmark htwo hlong => ?_, fun hmark htwo hfits hlast => ?_, fun hmark hmore => ?_⟩
    · rw [receiveChar_marked hmark]
      rfl
    · have htoo : lengthTooLong (s.ee.buffer ++ [c]) = true := lengthTooLong_iff.mpr ⟨by omega, by omega⟩
      rw [receiveChar_unmarked hmark]
      exact congrArg Host.Outcome.next (if_pos htoo)
    · have hcomplete : frameComplete (s.ee.buffer ++ [c]) = true :=
        frameComplete_iff.mpr ⟨by omega, by omega, by omega⟩
      exact congrArg Host.Outcome.next (receiveChar_complete (s := heardBy c s) hmark hcomplete)
    · have hshort : ¬lengthTooLong (s.ee.buffer ++ [c]) = true := by
        rw [lengthTooLong_iff]
        omega
      have hopen : ¬frameComplete (s.ee.buffer ++ [c]) = true := by
        rw [frameComplete_iff]
        omega
      rw [receiveChar_unmarked hmark]
      exact congrArg Host.Outcome.next ((if_neg hshort).trans (if_neg hopen))

end Sys2Proof.Machine

/-! SUPPORT. How attempts and exchanges end: the counters and the attention queue that the end of an exchange leaves, and the
course of a failed attempt (R36, R70 to R77, R143). -/

namespace Sys2Proof.Machine

/-! ### The counters of a record that an outcome leaves -/

/-- The end of an exchange leaves the failed counters and the last reply kinds, and a record with no leave pending stays. -/
structure Tallied (s t : State) : Prop where
  counted : ∀ b q, t.st.find b = some q → ∃ r, s.st.find b = some r ∧ q.failed = r.failed ∧ q.lastReply = r.lastReply
  stays : ∀ b r, s.st.find b = some r → r.leave = .absent → ∃ q, t.st.find b = some q ∧ q.leave = .absent

namespace Tallied

theorem of_st {s t : State} (h : t.st = s.st) : Tallied s t :=
  ⟨fun _ q hq => ⟨q, h ▸ hq, rfl, rfl⟩, fun _ r hr hleave => ⟨r, h ▸ hr, hleave⟩⟩

theorem refl (s : State) : Tallied s s := of_st rfl

theorem trans {s u t : State} (h : Tallied s u) (h' : Tallied u t) : Tallied s t := by
  refine ⟨fun b q hq => ?_, fun b r hr hleave => ?_⟩
  · obtain ⟨p, hp, hfailed, hreply⟩ := h'.counted b q hq
    obtain ⟨r, hr, hfailed', hreply'⟩ := h.counted b p hp
    exact ⟨r, hr, hfailed.trans hfailed', hreply.trans hreply'⟩
  · obtain ⟨p, hp, hleave'⟩ := h.stays b r hr hleave
    exact h'.stays b p hp hleave'

/-- A change of a record that is no count of failures or replies. -/
theorem updateStation {a : Address} {f : StationRecord → StationRecord} (s : State)
    (hf : ∀ r, (f r).address = r.address ∧ (f r).failed = r.failed ∧ (f r).lastReply = r.lastReply ∧
      (r.leave = .absent → (f r).leave = .absent)) : Tallied s (updateStation a f s) := by
  have haddress : ∀ r, (f r).address = r.address := fun r => (hf r).1
  have other {b : Address} (hb : b ≠ a) : (Machine.updateStation a f s).st.find b = s.st.find b :=
    find_update_other haddress hb
  have same : (Machine.updateStation a f s).st.find a = (s.st.find a).map f := find_update_same haddress
  refine ⟨fun b q hq => ?_, fun b r hr hleave => ?_⟩
  · by_cases hb : b = a
    · subst hb
      rw [same, Option.map_eq_some_iff] at hq
      obtain ⟨r, hr, rfl⟩ := hq
      exact ⟨r, hr, (hf r).2.1, (hf r).2.2.1⟩
    · exact ⟨q, (other hb).symm.trans hq, rfl, rfl⟩
  · by_cases hb : b = a
    · subst hb
      exact ⟨f r, by rw [same, hr]; rfl, (hf r).2.2.2 hleave⟩
    · exact ⟨r, (other hb).trans hr, hleave⟩

theorem of_update {a : Address} {f : StationRecord → StationRecord} {s t : State} (ht : t.st = s.st.update a f)
    (hf : ∀ r, (f r).address = r.address ∧ (f r).failed = r.failed ∧ (f r).lastReply = r.lastReply ∧
      (r.leave = .absent → (f r).leave = .absent)) : Tallied s t :=
  (updateStation s hf).trans (of_st ht)

/-- The scheduler counts down and no more. -/
theorem scheduler {s t : State} (h : apartFromScheduler t = apartFromScheduler s) : Tallied s t := by
  have hfind := apart_find h
  have uncounted {p q : StationRecord} (hpq : p.uncounted = q.uncounted) :
      p.failed = q.failed ∧ p.lastReply = q.lastReply ∧ p.leave = q.leave :=
    ⟨(congrArg StationRecord.failed hpq :), (congrArg StationRecord.lastReply hpq :), (congrArg StationRecord.leave hpq :)⟩
  refine ⟨fun b q hq => ?_, fun b r hr hleave => ?_⟩
  · have hb := hfind b
    rw [hq, Option.map_some, eq_comm, Option.map_eq_some_iff] at hb
    obtain ⟨r, hr, hsame⟩ := hb
    obtain ⟨hfailed, hreply, -⟩ := uncounted hsame
    exact ⟨r, hr, hfailed.symm, hreply.symm⟩
  · have hb := hfind b
    rw [hr, Option.map_some, Option.map_eq_some_iff] at hb
    obtain ⟨q, hq, hsame⟩ := hb
    exact ⟨q, hq, (uncounted hsame).2.2.trans hleave⟩

theorem applyTurnResult (result : TurnResult) (a : Address) (s : State) : Tallied s (applyTurnResult result a s) := by
  unfold Machine.applyTurnResult
  split
  · exact .refl s
  · split
    · unfold turnSuccess
      simp only
      split
      · exact of_update rfl fun _ => ⟨rfl, rfl, rfl, id⟩
      · exact updateStation s fun _ => ⟨rfl, rfl, rfl, id⟩
    · unfold turnMiss
      split
      · exact .refl s
      · split
        · exact of_update rfl fun _ => ⟨rfl, rfl, rfl, id⟩
        · exact updateStation s fun _ => ⟨rfl, rfl, rfl, id⟩
    · exact .refl s

theorem completeLeave (a : Address) (s : State) : Tallied s (completeLeave a s) := by
  unfold Machine.completeLeave
  split
  · exact .refl s
  · next r hr =>
    split
    · exact .refl s
    · next hleave =>
      obtain ⟨hgone, hothers⟩ := find_removeStation a s
      refine Tallied.trans ?_ (.of_st rfl)
      refine ⟨fun b q hq => ?_, fun b p hp habsent => ?_⟩
      · have hb : b ≠ a := by
          rintro rfl
          cases hgone.symm.trans hq
        exact ⟨q, (hothers b hb).symm.trans hq, rfl, rfl⟩
      · have hb : b ≠ a := by
          rintro rfl
          cases hr.symm.trans hp
          cases hleave.symm.trans habsent
        exact ⟨p, (hothers b hb).trans hp, habsent⟩
    · refine Tallied.trans (s := s) (u := leavePollList a s) ⟨fun _ q hq => ⟨q, hq, rfl, rfl⟩, fun _ r hr h => ⟨r, hr, h⟩⟩ ?_
      exact of_update rfl fun _ => ⟨rfl, rfl, rfl, fun _ => rfl⟩

theorem endTurn (result : TurnResult) (s : State) : Tallied s (endTurn result s) := by
  unfold Machine.endTurn
  split
  · exact .refl s
  · exact ((applyTurnResult result _ s).trans (completeLeave _ _)).trans (.of_st rfl)

theorem turnCourse (kind : FrameKind) (o : ExchangeOutcome) (s : State) : Tallied s (turnCourse kind o s) := by
  unfold Machine.turnCourse
  split
  · exact endTurn _ s
  · exact endTurn _ s
  · exact .of_st rfl
  · exact .of_st rfl
  · exact .of_st rfl
  · exact endTurn _ s
  · exact endTurn _ s

theorem broadcastEnded (o : ExchangeOutcome) (s : State) : Tallied s (broadcastEnded o s) := by
  rw [broadcastEnded_does]
  exact .of_st rfl

theorem abandonCycle (s : State) : Tallied s (abandonCycle s) := (endTurn .unfinished s).trans (.of_st rfl)

theorem schedulerTakes (x : Exchange) (o : ExchangeOutcome) (s : State) : Tallied s (schedulerTakes x o s) := by
  unfold Machine.schedulerTakes
  simp only
  have htaken : Tallied s (if x.address = 0 then Machine.broadcastEnded o s else Machine.turnCourse x.kind o s) := by
    split
    · exact broadcastEnded o s
    · exact turnCourse x.kind o s
  refine htaken.trans ?_
  generalize (if x.address = 0 then Machine.broadcastEnded o s else Machine.turnCourse x.kind o s) = u
  split
  · exact scheduler (apart_resume x _)
  · exact (Tallied.of_st (s := u) (t := lineOff .host u) rfl).trans (abandonCycle (lineOff .host u))
  · exact abandonCycle _

theorem endExchange (x : Exchange) (o : ExchangeOutcome) (s : State) : Tallied s (endExchange x o s) := by
  have hentry : Tallied s (entryOutcome x o s) := by
    rw [entryOutcome_does]
    split
    · exact of_update rfl fun _ => ⟨rfl, rfl, rfl, id⟩
    · exact .of_st rfl
  have hdiscarded : Tallied (entryOutcome x o s) (discardExchange (entryOutcome x o s)) := .of_st rfl
  exact (hentry.trans hdiscarded).trans (schedulerTakes x o _)

theorem attemptCourse (x : Exchange) (s : State) : Tallied s (attemptCourse x s) := by
  unfold Machine.attemptCourse
  split
  · exact endExchange _ _ s
  · split
    · exact endExchange _ _ s
    · split
      · exact endExchange _ _ s
      · exact .of_st rfl

end Tallied

/-! ### The ends of an exchange that hand no event -/

theorem endTurn_unfinished_au (s : State) : (endTurn .unfinished s).au = s.au := by
  unfold endTurn
  split
  · rfl
  · rw [applyTurnResult_unfinished]
    unfold completeLeave
    split
    · rfl
    · split <;> rfl

/-- An exchange that is cut or withdrawn, and a broadcast, end without an event (R98, R121). -/
theorem endExchange_au {x : Exchange} {o : ExchangeOutcome} (h : o = .cut ∨ o = .withdrawn ∨ x.address = 0) (s : State) :
    (endExchange x o s).au = s.au := by
  have hsettled := (settled_endExchange x o s).1.au
  have htaken : (outcomeTaken x o s).au = s.au := by
    unfold outcomeTaken
    split
    · rw [broadcastEnded_does]
      exact outcomeFinds_au x o s
    · next haddress =>
      refine Eq.trans ?_ (outcomeFinds_au x o s)
      unfold turnCourse
      rcases h with rfl | rfl | h
      · exact endTurn_unfinished_au _
      · cases x.kind with
        | write => rfl
        | poll | sync | hold | free => exact endTurn_unfinished_au _
      · exact absurd h haddress
  rw [hsettled]
  unfold lineSettled
  split
  · exact htaken
  · exact (endTurn_unfinished_au _).trans htaken
  · exact (endTurn_unfinished_au _).trans htaken

theorem attemptCourse_au {x : Exchange} {u : State}
    (h : u.lc.mode ≠ .run ∨ holdForbids u x = true ∨ x.begun ≠ x.allowance ∨ x.address = 0) :
    (attemptCourse x u).au = u.au := by
  unfold attemptCourse
  split
  · exact endExchange_au (.inl rfl) u
  · next hrun =>
    split
    · exact endExchange_au (.inr (.inl rfl)) u
    · next hfree =>
      split
      · next hlast =>
        refine endExchange_au (.inr (.inr ?_)) u
        rcases h with h | h | h | h
        · exact absurd h hrun
        · exact absurd h hfree
        · exact absurd hlast h
        · exact h
      · rfl

/-! ### The course of a failed attempt (R77) -/

theorem attemptFails_of_exchange {s : State} {x : Exchange} (hx : s.ee.exchange = some x) (reason : FailReason) :
    attemptFails reason s = attemptCourse x (failureCounted reason x s) := by
  rw [← countFailed_does]
  unfold attemptFails
  rw [hx]

theorem evaluateReply_of_fault {s : State} {x : Exchange} {ending : AssemblyEnd} {reason : FailReason}
    (hx : s.ee.exchange = some x) (hfault : replyFault s x ending s.ee.buffer = reason) (hreason : reason ≠ .none) :
    evaluateReply ending s = attemptFails reason s := by
  unfold evaluateReply
  rw [hx]
  simp only [hfault]
  exact if_neg hreason

theorem evaluateReply_of_good {s : State} {x : Exchange} {ending : AssemblyEnd} (hx : s.ee.exchange = some x)
    (hgood : replyFault s x ending s.ee.buffer = .none) :
    evaluateReply ending s = replyGood x (replyOf s.ee.buffer) s := by
  unfold evaluateReply
  rw [hx]
  exact if_pos hgood

/-- A truncated reply is TRUNCATED, or FRAMING where a character of the buffer carries the flag (R74). -/
theorem replyFault_of_truncated (s : State) (x : Exchange) (buffer : List RxChar) : replyFault s x .truncated buffer =
    if buffer.any (fun ch => ch.framing) then .framing else .truncated := rfl

/-- Settles O46: a timer held off by a character in assembly, or the failed attempt's course. -/
theorem timeoutsFailTheAttempt : Obligations.TimeoutsFailTheAttempt := by
  intro s x c reason hrun hx hc
  rcases hc with ⟨rfl, hlisten, rfl⟩ | ⟨rfl, hreceive, rfl⟩
  · refine ⟨fun hassembling => ?_, fun hassembling => ⟨_, ?_, courseAfterFailure_attemptCourse x _⟩⟩
    · rw [exec_replyTimeout_listens hrun hlisten, if_pos hassembling]
      rfl
    · rw [exec_replyTimeout_listens hrun hlisten, if_neg hassembling, attemptFails_of_exchange hx]
  · refine ⟨fun hassembling => ?_, fun hassembling => ⟨_, ?_, courseAfterFailure_attemptCourse x _⟩⟩
    · rw [exec_gapTimeout_receives hrun hreceive, if_pos hassembling]
      rfl
    · rw [exec_gapTimeout_receives hrun hreceive, if_neg hassembling,
        evaluateReply_of_fault hx (replyFault_of_truncated s x s.ee.buffer) (by split <;> decide),
        attemptFails_of_exchange hx]

/-- Settles O47: the end of QUIET is the good end of the exchange. -/
theorem quietEndsTheBroadcast : Obligations.QuietEndsTheBroadcast := by
  intro s x hrun hquiet hx _
  refine ⟨endExchange x .good s, ?_, exchangeEnds_endExchange nofun⟩
  rw [exec_quietEnd hrun hquiet, endGood, hx]

/-! ### The end of SETTLE (R68) -/

theorem settleEnds_of_exchange {s : State} {x : Exchange} (hx : s.ee.exchange = some x) : settleEnds s =
    if s.lc.mode ≠ .run then endExchange x .cut s
    else if holdForbids s x then endExchange x .withdrawn s
    else beginAttempt x s := by
  unfold settleEnds
  rw [hx]

theorem holdForbids_iff {s : State} {x : Exchange} : holdForbids s x = true ↔
    (x.kind = .write ∧ s.lc.holdInForce = true) ∨ (x.kind = .hold ∧ s.lc.holdInForce = false) := by
  simp [holdForbids]

/-- What the end of SETTLE leaves, however it comes about. -/
def SettleLeaves (s t : State) : Prop :=
  t.ee.faults = s.ee.faults ∧ t.ee.strays = s.ee.strays ∧ t.ee.noise = s.ee.noise ∧
    t.ee.faultStreak = s.ee.faultStreak ∧ t.ee.lastFailure = s.ee.lastFailure ∧ t.au = s.au ∧
    ∀ b q, t.st.find b = some q → ∃ r, s.st.find b = some r ∧ q.failed = r.failed

theorem endExchange_settleLeaves {x : Exchange} {o : ExchangeOutcome} (h : o = .cut ∨ o = .withdrawn ∨ x.address = 0)
    (hkind : o = .withdrawn → x.kind = .write ∨ x.kind = .hold) (s : State) : SettleLeaves s (endExchange x o s) := by
  have hengine := (exchangeEnds_endExchange (s := s) hkind).engine
  refine ⟨by rw [hengine], by rw [hengine], by rw [hengine], by rw [hengine], by rw [hengine], endExchange_au h s,
    fun b q hq => ?_⟩
  obtain ⟨r, hr, hfailed, -⟩ := (Tallied.endExchange x o s).counted b q hq
  exact ⟨r, hr, hfailed⟩

/-- The count of an attempt is no part of the frame composed. -/
theorem composeFrame_updateEntry (tag : Byte) {f : OutboundEntry → OutboundEntry} (hf : KeepsMessage f) (s : State)
    (x : Exchange) : composeFrame (updateEntry tag f s) x = composeFrame s x := by
  have hsum : sharedSum (updateEntry tag f s) = sharedSum s :=
    congrArg (fun n => s.rq.length + n) (length_updateEntry tag f s)
  have hpayload : writePayload (updateEntry tag f s) x = writePayload s x := by
    unfold writePayload
    split
    · rfl
    · next carried _ =>
      have hsame (g : OutboundEntry → OutboundEntry) (hg : KeepsMessage g) :
          (fun e => e.tag == carried) ∘ g = fun e => e.tag == carried := by
        funext e
        exact congrArg (fun t => t == carried) (hg e).1
      have hchange : KeepsMessage fun e => if e.tag == tag then f e else e := by
        intro e
        simp only
        split
        · exact hf e
        · exact ⟨rfl, rfl, rfl⟩
      simp only [updateEntry, List.find?_map, hsame _ hchange, Option.map_map]
      refine congrArg (fun p => Option.getD p []) (Option.map_congr fun e _ => ?_)
      exact (hchange e).2.2
  unfold composeFrame
  cases x.kind with
  | poll => simp only [pollQ, hsum]; rfl
  | write => simp only [hpayload]; rfl
  | sync | hold | free => rfl

/-- An attempt begins as R67, R68 and R92 state it. -/
theorem beginAttempt_does (x : Exchange) (s : State) : beginAttempt x s = { s with
    oq := s.oq.map (fun e => if x.entry = some e.tag then { e with attempts := e.attempts + 1 } else e)
    ee := { s.ee with
      state := .send, exchange := some { x with begun := x.begun + 1 }, driverEnable := true
      frame := composeFrame s x, echoed := 0, faultFound := false, lastStopEnded := false
      turnCount := .stopped, settleTimer := .stopped } } := by
  unfold beginAttempt
  cases hentry : x.entry with
  | none =>
    simp only [reduceCtorEq, if_false, List.map_id']
  | some tag =>
    have hframe := composeFrame_updateEntry tag (f := fun e => { e with attempts := e.attempts + 1 })
      (fun _ => ⟨rfl, rfl, rfl⟩) s x
    simp only [hframe]
    simp only [updateEntry, Option.some.injEq, beq_iff_eq, eq_comm (a := tag)]

/-- Settles O45: the exchange is cut, withdrawn or goes on with an attempt. -/
theorem settleEnds_holds : Obligations.SettleEnds := by
  intro s x cause hrun hsettle hx hcause
  have hexec : exec (.settleEnd cause) s = .next (settleEnds s) := by
    rw [exec_settleEnd hrun, settleEvent, if_pos hsettle, if_neg]
    rintro ⟨rfl, hassembling⟩
    exact hcause.elim nofun fun h => h hassembling
  have hsplit := settleEnds_of_exchange hx
  have hcut (h : s.lc.mode ≠ .run) : settleEnds s = endExchange x .cut s := hsplit.trans (if_pos h)
  have hwithdrawn (h : s.lc.mode = .run) (hforbids : holdForbids s x = true) : settleEnds s = endExchange x .withdrawn s :=
    hsplit.trans ((if_neg (not_not_intro h)).trans (if_pos hforbids))
  have hbegins (h : s.lc.mode = .run) (hfree : ¬holdForbids s x = true) : settleEnds s = beginAttempt x s :=
    hsplit.trans ((if_neg (not_not_intro h)).trans (if_neg hfree))
  have hleaves : SettleLeaves s (settleEnds s) := by
    by_cases hmode : s.lc.mode = .run
    · by_cases hforbids : holdForbids s x = true
      · rw [hwithdrawn hmode hforbids]
        exact endExchange_settleLeaves (.inr (.inl rfl)) (fun _ => (holdForbids_iff.mp hforbids).imp And.left And.left) s
      · rw [hbegins hmode hforbids, beginAttempt_does]
        exact ⟨rfl, rfl, rfl, rfl, rfl, rfl, fun b q hq => ⟨q, hq, rfl⟩⟩
    · rw [hcut hmode]
      exact endExchange_settleLeaves (.inl rfl) nofun s
  obtain ⟨hfaults, hstrays, hnoise, hstreak, hlast, hau, hfind⟩ := hleaves
  refine ⟨settleEnds s, hexec, hfaults, hstrays, hnoise, hstreak, hlast, hau, hfind, fun hmode => ?_,
    fun hmode hforbids => ?_, fun hmode hwrite hhold => ?_⟩
  · rw [hcut (hmode ▸ nofun)]
    exact exchangeEnds_endExchange nofun
  · rw [hwithdrawn hmode (holdForbids_iff.mpr hforbids)]
    exact exchangeEnds_endExchange fun _ => hforbids.imp And.left And.left
  · rw [hbegins hmode (mt holdForbids_iff.mp (not_or.mpr ⟨hwrite, hhold⟩))]
    exact beginAttempt_does x s

/-! ### The tests of a reply (R74) -/

/-- A reason is the one of the first test of a list that applies, and NONE when no test does. -/
def FirstNamed (tests : List (Prop × FailReason)) (result : FailReason) : Prop :=
  (∀ before test reason after, tests = before ++ (test, reason) :: after → test → (∀ p ∈ before, ¬p.1) →
    result = reason) ∧ ((∀ p ∈ tests, ¬p.1) → result = .none)

theorem firstNamed_nil : FirstNamed [] .none :=
  ⟨fun before _ _ after h => absurd h (by simp), fun _ => rfl⟩

theorem firstNamed_cons {test decided : Prop} [Decidable decided] {reason result : FailReason}
    {rest : List (Prop × FailReason)} (htest : decided ↔ test) (hrest : FirstNamed rest result) :
    FirstNamed ((test, reason) :: rest) (if decided then reason else result) := by
  refine ⟨fun before named reason' after hlist hnamed hbefore => ?_, fun hnone => ?_⟩
  · cases before with
    | nil =>
      cases hlist
      exact if_pos (htest.mpr hnamed)
    | cons p before =>
      cases hlist
      have hnot : ¬decided := fun h => hbefore _ List.mem_cons_self (htest.mp h)
      exact (if_neg hnot).trans (hrest.1 before _ _ after rfl hnamed fun q hq => hbefore q (List.mem_cons_of_mem _ hq))
  · have hnot : ¬decided := fun h => hnone _ List.mem_cons_self (htest.mp h)
    exact (if_neg hnot).trans (hrest.2 fun q hq => hnone q (List.mem_cons_of_mem _ hq))

theorem replyStale_iff {s : State} {x : Exchange} {r : Reply} : replyStale s x r = true ↔
    r.ctrl.toNat / 16 = 0xB ∧ r.ctrl.getLsbD 3 ≠ writeT s x.address := by
  rw [replyStale, Bool.and_eq_true, beq_iff_eq, bne_iff_ne, replyKindOf_eq_some_iff, replyCode, Option.some.injEq]
  rfl

theorem setWidth_ne_iff {head : Byte} {a : Address} : head ≠ a.setWidth 8 ↔ head.toNat ≠ a.toNat := by
  rw [ne_eq, BitVec.toNat_eq, BitVec.toNat_setWidth, Nat.mod_eq_of_lt (by omega)]

/-- Settles O49: the nested tests are the list's in its order, and a reason fails the attempt. -/
theorem replyTestsFollowR74 : Obligations.ReplyTestsFollowR74 := by
  refine ⟨fun s x ending buffer => ?_, fun s x ending reason hx hfault hreason => ?_⟩
  · exact firstNamed_cons List.any_eq_true <| firstNamed_cons Iff.rfl <| firstNamed_cons Iff.rfl <|
      firstNamed_cons setWidth_ne_iff <| firstNamed_cons Iff.rfl <| firstNamed_cons bne_iff_ne <|
      firstNamed_cons (iff_of_eq (Bool.not_eq_true' _)) <| firstNamed_cons replyStale_iff firstNamed_nil
  · rw [evaluateReply_of_fault hx hfault hreason, attemptFails_of_exchange hx]
    exact courseAfterFailure_attemptCourse x _

end Sys2Proof.Machine

/-! SUPPORT. The end of a faulted attempt, whole (R36, R70, R71, R77, R144). -/

namespace Sys2Proof.Machine

/-! ### What the course of an exchange does not read -/

/-- The end of an exchange does not read whether the transmitter has been released. -/
theorem endExchange_releaseLine (x : Exchange) (o : ExchangeOutcome) (s : State) :
    endExchange x o { s with ee := s.ee.releaseLine } = endExchange x o s := by
  unfold endExchange
  rw [entryOutcome_does, entryOutcome_does]
  rfl

theorem attemptCourse_releaseLine (x : Exchange) (s : State) :
    attemptCourse x { s with ee := s.ee.releaseLine } = attemptCourse x s := by
  unfold attemptCourse
  rw [endExchange_releaseLine, endExchange_releaseLine, endExchange_releaseLine]
  rfl

/-! ### The count of a line fault (R36, R70, R71) -/

/-- The streak holds at 3. -/
theorem satInc_streak (x : BitVec 2) : satInc x = if x = 3 then 3 else x + 1 := by
  change (if x = 3 then x else x + 1) = _
  split
  · next h => exact h
  · rfl

/-- A line fault counted, with the transmitter as it stands. -/
def faultTallied (x : Exchange) (s : State) : State :=
  { failureCounted .fault x s with
    au := (controllerEvent 0 3 0x03 s).au
    ee := { (failureCounted .fault x s).ee with faults := satInc s.ee.faults, faultStreak := satInc s.ee.faultStreak } }

theorem faultCounted_eq (x : Exchange) (s : State) :
    faultCounted x s = { faultTallied x s with ee := (faultTallied x s).ee.releaseLine } := by
  rw [faultTallied, ← countFailed_does]
  unfold faultCounted countFailed
  split <;> rfl

/-- The state from which the course of a faulted attempt goes on: at the third fault in a row the line is OFF (R144). -/
def faultReached (x : Exchange) (s : State) : State :=
  let streak := satInc s.ee.faultStreak
  { faultTallied x s with
    lc := if streak = 3 then { s.lc with mode := .off, stopCause := .fault } else s.lc
    rw := { s.rw with latched := { s.rw.latched with line := s.rw.latched.line || streak == 3 } } }

theorem faultEnds_reaches {s : State} {x : Exchange} (hx : s.ee.exchange = some x) :
    faultEnds s = attemptCourse x (faultReached x s) := by
  rw [faultEnds_of_exchange hx, faultCounted_eq, ← attemptCourse_releaseLine x (faultReached x s)]
  refine congrArg (attemptCourse x) ?_
  by_cases hstreak : satInc s.ee.faultStreak = 3
  · refine (if_pos hstreak).trans ?_
    simp only [faultReached, hstreak, if_true, beq_self_eq_true, Bool.or_true]
    rfl
  · refine (if_neg hstreak).trans ?_
    have hbeq : (satInc s.ee.faultStreak == 3) = false := beq_eq_false_iff_ne.mpr hstreak
    simp only [faultReached, hstreak, if_false, hbeq, Bool.or_false]
    rfl

/-- The failed counter of the addressed station advances (R36). -/
theorem find_failureCounted {x : Exchange} {s : State} {r : StationRecord} (haddress : x.address ≠ 0)
    (hfind : s.st.find x.address = some r) (reason : FailReason) :
    (failureCounted reason x s).st.find x.address = some { r with failed := satInc r.failed } := by
  have hcounted : (countFailed x s).st.find x.address = some { r with failed := satInc r.failed } := by
    rw [countFailed, if_neg haddress]
    exact find_updateStation_same (f := fun r => { r with failed := satInc r.failed }) (fun _ => rfl) hfind
  rw [← countFailed_does]
  exact hcounted

/-- Settles O44: the fault is counted, and the exchange takes the course of a failed attempt. -/
theorem faultedAttemptEnds : Obligations.FaultedAttemptEnds := by
  intro s x hrun hsend hfound hx
  rw [← satInc_streak]
  have hexec : exec .faultedAttemptEnd s = .next (attemptCourse x (faultReached x s)) := by
    rw [exec_faultedAttemptEnd hrun hsend hfound, faultEnds_reaches hx]
  have hhold : (faultReached x s).lc.holdInForce = s.lc.holdInForce := by
    change (if satInc s.ee.faultStreak = 3 then _ else s.lc : LineControl).holdInForce = _
    split <;> rfl
  refine ⟨_, hexec, courseAfterFailure_attemptCourse x (faultReached x s), fun r haddress hfind hleave => ?_, fun h => ?_⟩
  · have hcounted := find_failureCounted haddress hfind .fault
    have htallied := Tallied.attemptCourse x (faultReached x s)
    obtain ⟨q, hq, -⟩ := htallied.stays x.address _ hcounted hleave
    obtain ⟨r', hr', hfailed, hreply⟩ := htallied.counted x.address q hq
    cases hcounted.symm.trans hr'
    exact ⟨q, hq, hfailed, hreply⟩
  · refine (attemptCourse_au (u := faultReached x s) ?_).trans rfl
    have hmode : satInc s.ee.faultStreak = 3 ∨ s.lc.mode ≠ .run → (faultReached x s).lc.mode ≠ .run := by
      intro hstop
      change (if satInc s.ee.faultStreak = 3 then _ else s.lc : LineControl).mode ≠ .run
      split
      · nofun
      · next hstreak => exact hstop.resolve_left hstreak
    rcases h with h | h | h | h | h
    · exact .inl (hmode (.inr h))
    · exact .inl (hmode (.inl h))
    · refine .inr (.inl (holdForbids_iff.mpr ?_))
      rw [hhold]
      exact h
    · exact .inr (.inr (.inl h))
    · exact .inr (.inr (.inr h))

end Sys2Proof.Machine

/-! SUPPORT. Frames: what is framed is read back, and what each frame of the controller holds (R4 to R11, R92). -/

namespace Sys2Proof.Machine

/-! ### The characters of a frame (R4, R6) -/

/-- The data of a frame's characters: head, control character, LEN, payload and check. -/
def frameData (address : Address) (ctrl : Byte) (payload : List Byte) : List Byte :=
  let head : Byte := address.setWidth 8
  let len := BitVec.ofNat 8 payload.length
  let check := crc (head :: ctrl :: len :: payload)
  head :: ctrl :: len :: (payload ++ [check.extractLsb' 8 8, check.setWidth 8])

theorem frameOf_eq (address : Address) (ctrl : Byte) (payload : List Byte) : frameOf address ctrl payload =
    ⟨address.setWidth 8, true⟩ :: ((frameData address ctrl payload).tail.map (fun d => ⟨d, false⟩)) := rfl

theorem frameData_length (address : Address) (ctrl : Byte) (payload : List Byte) :
    (frameData address ctrl payload).length = payload.length + 5 := by
  simp only [frameData, List.length_cons, List.length_append, List.length_nil]

/-- A frame as a receiver hears it with every sample right. -/
def heardRight (frame : List LineChar) : List RxChar :=
  frame.map (fun ch => { data := ch.data, mark := ch.mark, noise := false, framing := false })

theorem heardRight_data (address : Address) (ctrl : Byte) (payload : List Byte) :
    (heardRight (frameOf address ctrl payload)).map (·.data) = frameData address ctrl payload := by
  rw [heardRight, List.map_map, frameOf_eq, List.map_cons, List.map_map]
  exact congrArg (List.cons _) (List.map_id _)

section

variable {address : Address} {ctrl : Byte} {payload : List Byte} (hpayload : payload.length ≤ 32)

theorem len_toNat (hpayload : payload.length ≤ 32) : (BitVec.ofNat 8 payload.length).toNat = payload.length := by
  rw [BitVec.toNat_ofNat]
  omega

include hpayload

/-- The parts of a frame, read back (R4). -/
theorem replyOf_frame : replyOf (heardRight (frameOf address ctrl payload)) =
    { head := address.setWidth 8, ctrl := ctrl, len := BitVec.ofNat 8 payload.length, payload := payload
      check := let check := crc (address.setWidth 8 :: ctrl :: BitVec.ofNat 8 payload.length :: payload)
        [check.extractLsb' 8 8, check.setWidth 8] } := by
  have hlen := len_toNat hpayload
  simp only [replyOf, heardRight_data]
  simp only [frameData, List.getD_cons_zero, List.getD_cons_succ, List.drop_succ_cons, List.drop_zero, hlen,
    List.take_left, List.drop_left]

/-- A frame cut short is neither complete nor too long (R73). -/
theorem frame_cut_short {n : Nat} (hn : n < payload.length + 5) :
    let heard := (heardRight (frameOf address ctrl payload)).take n
    frameComplete heard = false ∧ lengthTooLong heard = false := by
  intro heard
  have hfull : (heardRight (frameOf address ctrl payload)).length = payload.length + 5 := by
    rw [← frameData_length address ctrl payload, ← heardRight_data, List.length_map]
  have hlength : heard.length = n := by rw [List.length_take, hfull]; omega
  have hlen : 3 ≤ n → (replyOf heard).len.toNat = payload.length := by
    intro hthree
    have hcut : heard.map (·.data) = (frameData address ctrl payload).take n := by
      rw [← heardRight_data, List.map_take]
    simp only [replyOf, hcut, List.getD_eq_getElem?_getD, List.getElem?_take_of_lt (show 2 < n by omega)]
    exact len_toNat hpayload
  constructor
  · rw [Bool.eq_false_iff, ne_eq, frameComplete_iff, hlength]
    rintro ⟨hthree, -, hlast⟩
    rw [hlen hthree] at hlast
    omega
  · rw [Bool.eq_false_iff, ne_eq, lengthTooLong_iff, hlength]
    rintro ⟨hthree, hlong⟩
    rw [hlen hthree.ge] at hlong
    omega

end

/-- Settles O53: the parts are read back from the data of the frame, and every shorter frame is incomplete. -/
theorem frameReadsBack : Obligations.FrameReadsBack := by
  intro address ctrl payload hpayload frame heard
  have hlength : frame.length = payload.length + 5 := by
    rw [← frameData_length address ctrl payload, ← heardRight_data, List.length_map, heardRight, List.length_map]
  have hreply : replyOf heard = _ := replyOf_frame (address := address) (ctrl := ctrl) hpayload
  have hlen := len_toNat hpayload
  refine ⟨hlength, fun i ch hch => ?_, ?_, ?_, ?_, ?_, ?_, ?_, fun n hn => ?_⟩
  · cases i with
    | zero =>
      cases hch
      exact ⟨fun _ => rfl, fun _ => rfl⟩
    | succ i =>
      have htail : ((frameData address ctrl payload).tail.map (fun d => (⟨d, false⟩ : LineChar)))[i]? = some ch := hch
      rw [List.getElem?_map, Option.map_eq_some_iff] at htail
      obtain ⟨d, -, rfl⟩ := htail
      exact ⟨nofun, nofun⟩
  · rw [hreply]
  · rw [hreply]
  · rw [hreply]
  · rw [hreply]
    exact hlen
  · have hheard : heard.length = payload.length + 5 := (List.length_map _).trans hlength
    rw [frameComplete_iff, hreply, hheard, hlen]
    exact ⟨by omega, hpayload, rfl⟩
  · rw [hreply, checkDiffers, bne_eq_false_iff_eq]
  · exact frame_cut_short hpayload (hn.trans_eq hlength)

/-! ### The control character and the payload (R7, R9, R11) -/

theorem ctrlByte_poll : ∀ a q : Bool, ctrlByte 0x1 false a q =
    BitVec.ofNat 8 (0x10 + (if a then 4 else 0) + (if q then 2 else 0)) := by decide

theorem ctrlByte_write : ∀ t : Bool, ctrlByte 0x2 t false false = BitVec.ofNat 8 (0x20 + (if t then 8 else 0)) := by
  decide

theorem holdCauseByte : ∀ host supervision : Bool,
    (BitVec.ofBool supervision ++ BitVec.ofBool host).setWidth 8 =
      BitVec.ofNat 8 ((if host then 1 else 0) + (if supervision then 2 else 0)) := by decide

theorem pollQ_eq (s : State) : pollQ s = decide (s.rq.length + s.oq.length = 24) := rfl

/-- A WRITE without an entry carries nothing, and no entry bears the tag it does not have (R92). -/
theorem writePayload_eq (s : State) (x : Exchange) : writePayload s x =
    ((s.oq.find? (fun e => x.entry == some e.tag)).map (fun e => e.payload)).getD [] := by
  unfold writePayload
  cases x.entry with
  | none =>
    have hnone : s.oq.find? (fun e => (none : Option Byte) == some e.tag) = none := List.find?_eq_none.2 nofun
    rw [hnone]
    rfl
  | some tag =>
    have hsame : (fun e : OutboundEntry => e.tag == tag) = fun e => some tag == some e.tag := by
      funext e
      rw [Bool.eq_iff_iff, beq_iff_eq, beq_iff_eq, Option.some.injEq, eq_comm]
    simp only [hsame]

/-- Settles O54: the control character of each kind bit by bit, its payload, and the check one character at a time. -/
theorem controlCharacterAndCheck : Obligations.ControlCharacterAndCheck := by
  refine ⟨fun s x => ?_, rfl, fun bytes b => ?_, fun r => ?_, by decide, by decide, by decide⟩
  · cases hkind : x.kind with
    | poll =>
      simp only [composeFrame, hkind, ctrlByte_poll, pollQ_eq, pollA]
      cases (s.st.find x.address).bind fun r => r.inToggle with
      | none => rfl
      | some t => rfl
    | write =>
      simp only [composeFrame, hkind, ctrlByte_write, writePayload_eq, writeT]
      have haddressed : (x.address != 0) = decide (x.address ≠ 0) := by
        rw [Bool.eq_iff_iff, bne_iff_ne, decide_eq_true_iff]
      rw [haddressed]
      cases s.st.find x.address with
      | none => rfl
      | some r => rfl
    | sync | free => simp only [composeFrame, hkind]; rfl
    | hold => simp only [composeFrame, hkind, holdCauseCode, holdCauseByte]; rfl
  · rw [crc, List.foldl_append]
    rfl
  · rfl

end Sys2Proof.Machine

/-! SUPPORT. What a good reply does, and the delivery of its last character (R12 to R15, R36, R49, R78, R94, R95, R107,
R119). -/

namespace Sys2Proof.Machine

/-! ### The effects of a reply by its kind (R78 step 1) -/

section

variable {s : State} {a : Address} {t : Bool} {payload : List Byte}

theorem isDuplicate_iff {r : StationRecord} (hfind : s.st.find a = some r) :
    isDuplicate s a t = true ↔ r.inToggle = some t := by
  rw [isDuplicate, hfind, Option.bind_some, beq_iff_eq]

theorem newReport_admitted (hroom : sharedSum s < 24) : newReport a t payload s =
    acceptUpstream a t { s with rq := s.rq ++ [.report a payload s.ps.cycle] } := by
  rw [newReport, admitReport_eq, if_pos hroom]

theorem newReport_refused (hfull : ¬sharedSum s < 24) : newReport a t payload s = refuseUpstream a s := by
  rw [newReport, admitReport_eq, if_neg hfull]

theorem newAlert_arrives {u : AttentionUnit}
    (h : s.au.arrive a (effectiveLevel s a (payload.getD 0 0)) (payload.getD 1 0) = some u) :
    newAlert a t payload s = acceptUpstream a t { s with au := u } := by
  rw [newAlert, h]

theorem newAlert_refused (h : s.au.arrive a (effectiveLevel s a (payload.getD 0 0)) (payload.getD 1 0) = none) :
    newAlert a t payload s = refuseUpstream a s := by
  rw [newAlert, h]

theorem newReport_engine (e : Engine) :
    newReport a t payload { s with ee := e } = { newReport a t payload s with ee := e } := by
  by_cases hroom : sharedSum s < 24
  · rw [newReport_admitted hroom, newReport_admitted (s := { s with ee := e }) hroom]
    rfl
  · rw [newReport_refused hroom, newReport_refused (s := { s with ee := e }) hroom]
    rfl

theorem newAlert_engine (e : Engine) :
    newAlert a t payload { s with ee := e } = { newAlert a t payload s with ee := e } := by
  cases hu : s.au.arrive a (effectiveLevel s a (payload.getD 0 0)) (payload.getD 1 0) with
  | some u =>
    rw [newAlert_arrives hu, newAlert_arrives (s := { s with ee := e }) hu]
    rfl
  | none =>
    rw [newAlert_refused hu, newAlert_refused (s := { s with ee := e }) hu]
    rfl

end

section

variable {x : Exchange} {reply : Reply} {s : State}

theorem replyEffect_sync (hsync : x.kind = .sync) : replyEffect x .nil reply s =
    updateStation x.address (fun r => { r with outToggle := false, inToggle := none, syncPending := false }) s :=
  if_pos hsync

theorem replyEffect_nil (hother : x.kind ≠ .sync) : replyEffect x .nil reply s = s := if_neg hother

theorem replyEffect_duplicate {k : ReplyKind} (hk : k = .report ∨ k = .alert)
    (hduplicate : isDuplicate s x.address (ctrlT reply.ctrl) = true) :
    replyEffect x k reply s = countDuplicate x.address s := by
  rcases hk with rfl | rfl <;> exact if_pos hduplicate

theorem replyEffect_report (hnew : ¬isDuplicate s x.address (ctrlT reply.ctrl) = true) :
    replyEffect x .report reply s = newReport x.address (ctrlT reply.ctrl) reply.payload s := if_neg hnew

theorem replyEffect_alert (hnew : ¬isDuplicate s x.address (ctrlT reply.ctrl) = true) :
    replyEffect x .alert reply s = newAlert x.address (ctrlT reply.ctrl) reply.payload s := if_neg hnew

/-- The out-toggle of a station turned by a TAKEN (R94). -/
def outTurned (a : Address) (s : State) : State := updateStation a (fun r => { r with outToggle := !r.outToggle }) s

theorem replyEffect_taken : replyEffect x .taken reply s =
    match x.entry with
    | none => outTurned x.address s
    | some tag => completeTag tag .taken (outTurned x.address s) := rfl

theorem replyEffect_defer : replyEffect x .defer reply s =
    match x.entry with
    | none => s
    | some tag => deferEntry tag s := rfl

/-- A DEFER counted on its entry (R95). -/
def deferCounted (tag : Byte) (s : State) : State := updateEntry tag (fun e => { e with defers := satInc e.defers }) s

/-- With the DEFER counted, the entry is at the defer limit (R95). -/
def DeferLimitReached (tag : Byte) (s : State) : Prop :=
  s.cfg.deferLimit ≠ 0 ∧ (deferCounted tag s).oq.any (fun e => e.tag == tag && s.cfg.deferLimit ≤ e.defers)

theorem deferEntry_at_limit {tag : Byte} (h : DeferLimitReached tag s) :
    deferEntry tag s = completeTag tag .refused (deferCounted tag s) := if_pos h

theorem deferEntry_below_limit {tag : Byte} (h : ¬DeferLimitReached tag s) :
    deferEntry tag s = requeueEntry tag (deferCounted tag s) := if_neg h

theorem deferEntry_engine {tag : Byte} (e : Engine) :
    deferEntry tag { s with ee := e } = { deferEntry tag s with ee := e } := by
  by_cases hlimit : DeferLimitReached tag s
  · rw [deferEntry_at_limit hlimit, deferEntry_at_limit (s := { s with ee := e }) hlimit]
    rfl
  · rw [deferEntry_below_limit hlimit, deferEntry_below_limit (s := { s with ee := e }) hlimit]
    rfl

end

/-- A reply's effect does not read the engine. -/
theorem replyEffect_engine (x : Exchange) (k : ReplyKind) (reply : Reply) (s : State) (e : Engine) :
    replyEffect x k reply { s with ee := e } = { replyEffect x k reply s with ee := e } := by
  cases k with
  | none => rfl
  | nil =>
    by_cases hsync : x.kind = .sync
    · rw [replyEffect_sync hsync, replyEffect_sync hsync]
      rfl
    · rw [replyEffect_nil hsync, replyEffect_nil hsync]
  | report =>
    by_cases hold : isDuplicate s x.address (ctrlT reply.ctrl) = true
    · rw [replyEffect_duplicate (.inl rfl) hold, replyEffect_duplicate (s := { s with ee := e }) (.inl rfl) hold]
      rfl
    · rw [replyEffect_report hold, replyEffect_report (s := { s with ee := e }) hold, newReport_engine]
  | alert =>
    by_cases hold : isDuplicate s x.address (ctrlT reply.ctrl) = true
    · rw [replyEffect_duplicate (.inr rfl) hold, replyEffect_duplicate (s := { s with ee := e }) (.inr rfl) hold]
      rfl
    · rw [replyEffect_alert hold, replyEffect_alert (s := { s with ee := e }) hold, newAlert_engine]
  | taken =>
    rw [replyEffect_taken, replyEffect_taken]
    cases x.entry <;> rfl
  | defer =>
    rw [replyEffect_defer, replyEffect_defer]
    cases x.entry with
    | none => rfl
    | some tag => exact deferEntry_engine e

/-! ### A TAKEN and a DEFER of an entry (R94, R95) -/

/-- A change of an entry keeps what a DONE record shows of it. -/
def KeepsDone (f : OutboundEntry → OutboundEntry) : Prop :=
  ∀ e, (f e).tag = e.tag ∧ ∀ o, doneRecord o (f e) = doneRecord o e

/-- A change of entries that keeps the tags passes a selection by the tag. -/
theorem filter_tag_map {g : OutboundEntry → OutboundEntry} (hg : ∀ e, (g e).tag = e.tag) (p : Byte → Bool)
    (l : List OutboundEntry) : (l.map g).filter (fun e => p e.tag) = (l.filter (fun e => p e.tag)).map g := by
  rw [List.filter_map]
  exact congrArg _ (List.filter_congr fun e _ => congrArg p (hg e))

/-- An entry completed is completed alike after a change that its DONE record does not show. -/
theorem completeTag_updateEntry {f : OutboundEntry → OutboundEntry} (hf : KeepsDone f) (tag : Byte) (o : MessageOutcome)
    (s : State) : completeTag tag o (updateEntry tag f s) = completeTag tag o s := by
  have htag (e : OutboundEntry) : (if e.tag == tag then f e else e).tag = e.tag := by
    split
    · exact (hf e).1
    · rfl
  have hdone (e : OutboundEntry) : doneRecord o (if e.tag == tag then f e else e) = doneRecord o e := by
    split
    · exact (hf e).2 o
    · rfl
  have hrest : (s.oq.filter (fun e => !(e.tag == tag))).map (fun e => if e.tag == tag then f e else e) =
      s.oq.filter (fun e => !(e.tag == tag)) := by
    refine (List.map_congr_left (g := id) fun e he => if_neg ?_).trans (List.map_id _)
    exact Bool.eq_false_iff.mp (by simpa using (List.mem_filter.mp he).2)
  unfold completeTag completeWhere updateEntry
  simp only [filter_tag_map htag (fun b => !(b == tag)), filter_tag_map htag (fun b => b == tag), hrest, List.map_map,
    Function.comp_def, hdone]

section

variable {s : State} {tag : Byte} {e : OutboundEntry} (hbears : s.oq.filter (fun d => d.tag == tag) = [e])
include hbears

theorem tag_of_bears : e.tag = tag :=
  beq_iff_eq.mp (List.mem_filter.mp (hbears.symm ▸ List.mem_singleton_self e :
    e ∈ s.oq.filter fun d => d.tag == tag)).2

theorem mem_of_bears : e ∈ s.oq :=
  (List.mem_filter.mp (hbears.symm ▸ List.mem_singleton_self e : e ∈ s.oq.filter fun d => d.tag == tag)).1

theorem eq_of_bears {d : OutboundEntry} (hd : d ∈ s.oq) (htag : d.tag = tag) : d = e :=
  List.mem_singleton.mp (hbears ▸ List.mem_filter.mpr ⟨hd, beq_iff_eq.mpr htag⟩)

/-- The one entry that bears a tag is completed (R93). -/
theorem completeTag_of_bears (o : MessageOutcome) : completeTag tag o s = { s with
    oq := s.oq.filter (fun d => d.tag != tag)
    rq := s.rq ++ [.done e.destination tag o e.attempts] } := by
  have hdone : doneRecord o e = .done e.destination tag o e.attempts :=
    congrArg (fun g => ReturnRecord.done e.destination g o e.attempts) (tag_of_bears hbears)
  unfold completeTag completeWhere
  rw [hbears, List.map_singleton, hdone]
  rfl

/-- A DEFER refuses its entry at the defer limit (R95). -/
theorem deferEntry_refuses (hlimit : s.cfg.deferLimit ≠ 0) (hreached : s.cfg.deferLimit ≤ satInc e.defers) :
    deferEntry tag s = completeTag tag .refused s := by
  rw [deferEntry_at_limit]
  · exact completeTag_updateEntry (f := fun d => { d with defers := satInc d.defers }) (fun _ => ⟨rfl, fun _ => rfl⟩)
      tag .refused s
  refine ⟨hlimit, List.any_eq_true.mpr ⟨{ e with defers := satInc e.defers }, ?_, ?_⟩⟩
  · exact List.mem_map.mpr ⟨e, mem_of_bears hbears, if_pos (beq_iff_eq.mpr (tag_of_bears hbears))⟩
  · have htag := tag_of_bears hbears
    exact Bool.and_eq_true_iff.mpr ⟨beq_iff_eq.mpr htag, decide_eq_true hreached⟩

/-- Below the defer limit a DEFER returns its entry to QUEUED (R95). -/
theorem deferEntry_requeues (hbelow : s.cfg.deferLimit = 0 ∨ ¬s.cfg.deferLimit ≤ satInc e.defers) :
    deferEntry tag s = { s with
      oq := s.oq.map (fun d =>
        if d.tag = tag then { d with defers := satInc e.defers, status := .queued, attempts := 0 } else d) } := by
  rw [deferEntry_below_limit]
  · simp only [deferCounted, requeueEntry, updateEntry, List.map_map]
    congr 1
    refine List.map_congr_left fun d hd => ?_
    by_cases htag : d.tag = tag
    · cases eq_of_bears hbears hd htag
      simp [htag]
    · simp [htag]
  · rintro ⟨hlimit, hany⟩
    obtain ⟨_, hchanged, hreached⟩ := List.any_eq_true.mp hany
    obtain ⟨d, hd, rfl⟩ := List.mem_map.mp hchanged
    rw [Bool.and_eq_true, beq_iff_eq, decide_eq_true_iff] at hreached
    obtain ⟨htag, hreached⟩ := hreached
    by_cases hd' : d.tag = tag
    · rw [if_pos (beq_iff_eq.mpr hd'), eq_of_bears hbears hd hd'] at hreached
      exact hbelow.elim hlimit fun h => h hreached
    · rw [if_neg (mt beq_iff_eq.mp hd')] at htag
      exact hd' htag

end

/-! ### The level of an alert (R119) -/

theorem effectiveLevel_of_find {s : State} {a : Address} {r : StationRecord} {level : Byte}
    (hfind : s.st.find a = some r) (hlevel : level.toNat ≤ 2) : effectiveLevel s a level =
      if level.toNat < r.ceiling.toNat then level.setWidth 2 else r.ceiling := by
  have hnumber : (level.setWidth 2).toNat = level.toNat := by
    rw [BitVec.toNat_setWidth]
    omega
  rw [effectiveLevel, hfind]
  simp only [BitVec.lt_def, hnumber]

/-! ### What a reply's effect leaves -/

/-- What the effect of a reply of a kind to the station at an address can change: its record, the two queues, and by an
ALERT the Attention Unit. -/
def EffectLeaves (a : Address) (k : ReplyKind) (s u : State) : Prop :=
  (∃ st oq rq au, u = { s with st := st, oq := oq, rq := rq, au := au }) ∧ OtherRecordsKept a s u ∧
    (k ≠ .alert → u.au = s.au)

theorem effectLeaves_refl (a : Address) (k : ReplyKind) (s : State) : EffectLeaves a k s s :=
  ⟨⟨s.st, s.oq, s.rq, s.au, rfl⟩, fun _ _ => rfl, fun _ => rfl⟩

/-- The record changes after the queues, or after the Attention Unit takes an ALERT. -/
theorem effectLeaves_update {a : Address} {k : ReplyKind} {s : State} {f : StationRecord → StationRecord}
    (hf : ∀ r, (f r).address = r.address) (oq : List OutboundEntry) (rq : List ReturnRecord) {au : AttentionUnit}
    (hau : k ≠ .alert → au = s.au) :
    EffectLeaves a k s (updateStation a f { s with oq := oq, rq := rq, au := au }) :=
  ⟨⟨s.st.update a f, oq, rq, au, rfl⟩, othersKept_updateStation a f hf { s with oq := oq, rq := rq, au := au }, hau⟩

theorem effectLeaves_replyEffect (x : Exchange) (k : ReplyKind) (reply : Reply) (s : State) :
    EffectLeaves x.address k s (replyEffect x k reply s) := by
  have hkept {f : StationRecord → StationRecord} (hf : ∀ r, (f r).address = r.address) :
      EffectLeaves x.address k s (updateStation x.address f s) :=
    effectLeaves_update (s := s) hf s.oq s.rq (au := s.au) fun _ => rfl
  cases k with
  | none => exact effectLeaves_refl _ _ s
  | nil =>
    by_cases hsync : x.kind = .sync
    · rw [replyEffect_sync hsync]
      exact hkept fun _ => rfl
    · rw [replyEffect_nil hsync]
      exact effectLeaves_refl _ _ s
  | report =>
    by_cases hold : isDuplicate s x.address (ctrlT reply.ctrl) = true
    · rw [replyEffect_duplicate (.inl rfl) hold]
      exact hkept fun _ => rfl
    · rw [replyEffect_report hold]
      by_cases hroom : sharedSum s < 24
      · rw [newReport_admitted hroom]
        exact effectLeaves_update (s := s) (f := fun r => { r with inToggle := some (ctrlT reply.ctrl) })
          (fun _ => rfl) s.oq _ (au := s.au) fun _ => rfl
      · rw [newReport_refused hroom]
        exact hkept fun _ => rfl
  | alert =>
    by_cases hold : isDuplicate s x.address (ctrlT reply.ctrl) = true
    · rw [replyEffect_duplicate (.inr rfl) hold]
      exact hkept fun _ => rfl
    · rw [replyEffect_alert hold, newAlert]
      split
      · exact effectLeaves_update (s := s) (f := fun r => { r with inToggle := some (ctrlT reply.ctrl) })
          (fun _ => rfl) s.oq s.rq fun h => absurd rfl h
      · exact hkept fun _ => rfl
  | taken =>
    rw [replyEffect_taken]
    cases x.entry with
    | none => exact hkept fun _ => rfl
    | some tag =>
      exact effectLeaves_update (s := s) (f := fun r => { r with outToggle := !r.outToggle }) (fun _ => rfl)
        (completeTag tag .taken s).oq (completeTag tag .taken s).rq (au := s.au) fun _ => rfl
  | defer =>
    rw [replyEffect_defer]
    cases x.entry with
    | none => exact effectLeaves_refl _ _ s
    | some tag =>
      simp only
      by_cases hlimit : DeferLimitReached tag s
      · rw [deferEntry_at_limit hlimit]
        exact ⟨⟨s.st, _, _, s.au, rfl⟩, fun _ _ => rfl, fun _ => rfl⟩
      · rw [deferEntry_below_limit hlimit]
        exact ⟨⟨s.st, _, _, s.au, rfl⟩, fun _ _ => rfl, fun _ => rfl⟩

theorem EffectLeaves.ee {a : Address} {k : ReplyKind} {s u : State} (h : EffectLeaves a k s u) : u.ee = s.ee := by
  obtain ⟨⟨st, oq, rq, au, rfl⟩, -, -⟩ := h
  rfl

theorem EffectLeaves.cfg {a : Address} {k : ReplyKind} {s u : State} (h : EffectLeaves a k s u) : u.cfg = s.cfg := by
  obtain ⟨⟨st, oq, rq, au, rfl⟩, -, -⟩ := h
  rfl

theorem EffectLeaves.ps {a : Address} {k : ReplyKind} {s u : State} (h : EffectLeaves a k s u) : u.ps = s.ps := by
  obtain ⟨⟨st, oq, rq, au, rfl⟩, -, -⟩ := h
  rfl

theorem EffectLeaves.lc {a : Address} {k : ReplyKind} {s u : State} (h : EffectLeaves a k s u) : u.lc = s.lc := by
  obtain ⟨⟨st, oq, rq, au, rfl⟩, -, -⟩ := h
  rfl

/-! ### The delivery of the last character of a good reply (R73, R74, R78) -/

/-- The end of an exchange stops the gap timer, however it stands. -/
theorem endExchange_gapTimer (x : Exchange) (o : ExchangeOutcome) (w : State) (timer : Timer) :
    endExchange x o { w with ee := { w.ee with gapTimer := timer } } = endExchange x o w := by
  unfold endExchange
  rw [entryOutcome_does, entryOutcome_does]
  rfl

/-- A reply with a framing flag in it is not good (R74). -/
theorem framing_of_good {s : State} {x : Exchange} {ending : AssemblyEnd} {buffer : List RxChar} {c : RxChar}
    (hgood : replyFault s x ending buffer = .none) (hc : c ∈ buffer) : c.framing = false := by
  by_contra hframing
  have hany : (buffer.any fun ch => ch.framing) = true :=
    List.any_eq_true.mpr ⟨c, hc, (Bool.not_eq_false _).mp hframing⟩
  have hfault : replyFault s x ending buffer = .framing := if_pos hany
  rw [hfault] at hgood
  cases hgood

/-- The record's part of a good reply. -/
def recordCounted (k : ReplyKind) (r : StationRecord) : StationRecord :=
  { r with accepted := satInc r.accepted, lastReply := k }

theorem replyCounted_st (x : Exchange) (k : ReplyKind) (c : RxChar) (u : State) :
    (replyCounted x k c u).st = u.st.update x.address (recordCounted k) := by
  simp only [replyCounted, StationTable.update, beq_iff_eq, recordCounted]

theorem find_replyCounted {x : Exchange} {k : ReplyKind} {c : RxChar} {u : State} {r : StationRecord}
    (hfind : u.st.find x.address = some r) :
    (replyCounted x k c u).st.find x.address = some (recordCounted k r) := by
  rw [replyCounted_st]
  exact find_updateStation_same (f := recordCounted k) (fun _ => rfl) hfind

section

variable {s : State} {x : Exchange} {samples : CharSamples} {begun : Nat} {c : RxChar} {k : ReplyKind}

/-- The state in which a good reply is counted, with the gap timer as the last character left it. -/
theorem counted_of_delivery (hframing : c.framing = false) (u : State) (hee : u.ee = s.ee) :
    updateStation x.address (recordCounted k) { u with ee := (appendedBy c (heardBy c s)).ee } =
      { replyCounted x k c u with ee := { (replyCounted x k c u).ee with gapTimer := .running } } := by
  have hengine : (appendedBy c (heardBy c s)).ee = { (replyCounted x k c u).ee with gapTimer := .running } := by
    simp only [appendedBy, heardBy, Engine.heard, replyCounted, receiverAfter_sound hframing, hee]
  rw [hengine]
  exact congrArg (fun st => ({ u with st := st, ee := _ } : State)) (replyCounted_st x k c u).symm

/-- The last character of a good reply has its effect, is counted, and ends the exchange GOOD. -/
theorem exec_delivers_good (hrun : s.inReset = false) (hassembling : s.ee.receiver = .assembling)
    (hreceive : s.ee.state = .receive) (hstart : startIsFalse samples = false) (hc : receivedChar samples = c)
    (hmark : c.mark = false) (hx : s.ee.exchange = some x) (hcomplete : frameComplete (s.ee.buffer ++ [c]) = true)
    (hgood : replyFault s x .complete (s.ee.buffer ++ [c]) = .none)
    (hk : replyKindOf (replyOf (s.ee.buffer ++ [c])).ctrl = some k) :
    exec (.characterDelivered ⟨samples, begun⟩) s = .next (endExchange x .good
      (replyCounted x k c (replyEffect x k (replyOf (s.ee.buffer ++ [c])) s))) := by
  have hleaves := effectLeaves_replyEffect x k (replyOf (s.ee.buffer ++ [c])) s
  have hframing := framing_of_good hgood (List.mem_append_right _ (List.mem_singleton_self c))
  have hevaluated : evaluateReply .complete (appendedBy c (heardBy c s)) =
      replyGood x (replyOf (s.ee.buffer ++ [c])) (appendedBy c (heardBy c s)) :=
    evaluateReply_of_good (s := appendedBy c (heardBy c s)) hx hgood
  rw [exec_delivers hrun hassembling hstart hc, deliver_receiving hreceive,
    receiveChar_complete (s := heardBy c s) hmark hcomplete, hevaluated, replyGood]
  simp only [hk, Option.getD_some]
  have heffect := replyEffect_engine x k (replyOf (s.ee.buffer ++ [c])) s (appendedBy c (heardBy c s)).ee
  have hcounted := counted_of_delivery (x := x) (k := k) hframing _ hleaves.ee
  refine congrArg Host.Outcome.next ?_
  refine (congrArg (fun v => endExchange x .good (updateStation x.address (recordCounted k) v)) heffect).trans ?_
  rw [hcounted, endExchange_gapTimer]

end

/-! ### A turn that goes on after a good exchange (R49) -/

section

variable {x : Exchange} {w : State} (haddress : x.address ≠ 0)
include haddress

theorem outcomeFinds_good_oq : (outcomeFinds x .good w).oq = w.oq := by
  rw [outcomeFinds_oq, entriesAfter, messageOutcomeOf, if_neg haddress]
  rfl

theorem outcomeFinds_good_rq : (outcomeFinds x .good w).rq = w.rq := by
  rw [outcomeFinds_rq, donesAfter, messageOutcomeOf, if_neg haddress]
  exact List.append_nil w.rq

end

theorem outcomeFinds_good_st (x : Exchange) (w : State) : (outcomeFinds x .good w).st = w.st := by
  rw [outcomeFinds_st]
  exact if_neg fun h => nomatch h.1

/-- The state `z` in which the scheduler decides a turn anew, as `next`, after an exchange that ended GOOD in `w`. -/
structure DecidesAnew (x : Exchange) (turn : Turn) (w : State) (next : Turn) (z : State) : Prop where
  address : next.address = turn.address
  kind : next.kind = turn.kind
  poll : x.kind = .write → next.next = .poll
  turn : z.ps.turn = some next
  st : z.st = w.st
  oq : z.oq = w.oq
  rq : z.rq = w.rq
  au : z.au = w.au
  announcement : z.lc.announcement = w.lc.announcement
  cfg : z.cfg = w.cfg

/-- After a good SYNC or WRITE the scheduler decides the turn anew, after a WRITE at the stage POLL. -/
theorem endExchange_decides {x : Exchange} {w : State} {turn : Turn} (haddress : x.address ≠ 0)
    (hkind : x.kind = .write ∨ x.kind = .sync) (hrun : w.lc.mode = .run) (hphase : w.ps.phase = .walking)
    (hturn : w.ps.turn = some turn) :
    ∃ next z, DecidesAnew x turn w next z ∧ endExchange x .good w = decideTurn next z := by
  have hgoes : turnResultOf .run .good x = none := by
    rcases hkind with h | h <;> simp [turnResultOf, h]
  obtain ⟨-, stage, hstage, hpoll⟩ :=
    (turnCourse_of_result (o := .good) (w := outcomeFinds x .good w) haddress (.inr hkind) nofun).2 hgoes
  have htaken : outcomeTaken x .good w = toStage stage (outcomeFinds x .good w) := (if_neg haddress).trans hstage
  have hfound : (toStage stage (outcomeFinds x .good w)).ps.turn = some { turn with next := stage } := by
    rw [toStage, outcomeFinds_ps, hturn]
    rfl
  have hwalking : (toStage stage (outcomeFinds x .good w)).ps.phase = .walking := by
    rw [toStage, outcomeFinds_ps]
    exact hphase
  refine ⟨{ turn with next := stage }, toStage stage (outcomeFinds x .good w),
    { address := rfl, kind := rfl, poll := hpoll, turn := hfound
      st := outcomeFinds_good_st x w, oq := outcomeFinds_good_oq haddress, rq := outcomeFinds_good_rq haddress
      au := outcomeFinds_au x .good w, announcement := by rw [toStage_lc, outcomeFinds_lc]
      cfg := outcomeFinds_cfg x .good w }, ?_⟩
  rw [((settled_endExchange x .good w).2.1 hrun).2, htaken, resume, hwalking]
  simp only [hfound]

theorem handStage_next_poll {t : Turn} {z : State} (hnext : t.next = .poll) : handStage t z = handPoll t z := by
  rw [handStage, hnext]

/-- After a WRITE the POLL is handed where no announcement is pending (R49). -/
theorem decideTurn_handsPoll {t : Turn} {z : State} (hnext : t.next = .poll) (hnone : z.lc.announcement = .none) :
    decideTurn t z = handPoll t z := by
  rw [decideTurn, if_neg (not_not_intro hnone), handStage_next_poll hnext]

/-- The POLL of a turn, from its first attempt (R49, R52). -/
theorem handPoll_exchange (t : Turn) (z : State) : (handPoll t z).ee.exchange = some
    { kind := .poll, address := t.address, entry := none, begun := 0
      allowance := if t.kind = .recovery then 1 else z.cfg.retryLimit.toNat + 1 } := rfl

/-! ### The two obligations -/

/-- The effects of a TAKEN and a DEFER of the entry carried (R94, R95). -/
theorem entryEffects {s : State} {x : Exchange} {reply : Reply} {r : StationRecord} {tag : Byte} {e : OutboundEntry}
    (hfind : s.st.find x.address = some r) (htag : x.entry = some tag)
    (hbears : s.oq.filter (fun d => d.tag == tag) = [e]) :
    ((replyEffect x .taken reply s).st.find x.address = some { r with outToggle := !r.outToggle } ∧
      { replyEffect x .taken reply s with st := s.st } = { s with
        oq := s.oq.filter (fun d => d.tag != tag)
        rq := s.rq ++ [.done e.destination tag .taken e.attempts] }) ∧
    ∀ defers : BitVec 4, defers = (if e.defers = 15 then 15 else e.defers + 1) →
      (s.cfg.deferLimit ≠ 0 → s.cfg.deferLimit.toNat ≤ defers.toNat →
        replyEffect x .defer reply s = { s with
          oq := s.oq.filter (fun d => d.tag != tag)
          rq := s.rq ++ [.done e.destination tag .refused e.attempts] }) ∧
      (s.cfg.deferLimit = 0 ∨ defers.toNat < s.cfg.deferLimit.toNat →
        replyEffect x .defer reply s = { s with
          oq := s.oq.map (fun d =>
            if d.tag = tag then { d with defers := defers, status := .queued, attempts := 0 } else d) }) := by
  have htaken : replyEffect x .taken reply s = completeTag tag .taken (outTurned x.address s) := by
    rw [replyEffect_taken, htag]
  have hdefer : replyEffect x .defer reply s = deferEntry tag s := by
    rw [replyEffect_defer, htag]
  refine ⟨⟨?_, ?_⟩, fun defers hdefers => ⟨fun hlimit hreached => ?_, fun hbelow => ?_⟩⟩
  · rw [htaken]
    exact find_updateStation_same (f := fun r => { r with outToggle := !r.outToggle }) (fun _ => rfl) hfind
  · rw [htaken, completeTag_of_bears (s := outTurned x.address s) hbears]
    rfl
  · rw [← satInc_repeats] at hdefers
    subst hdefers
    rw [hdefer, deferEntry_refuses hbears hlimit (BitVec.le_def.mpr hreached), completeTag_of_bears hbears]
  · rw [← satInc_repeats] at hdefers
    subst hdefers
    rw [hdefer, deferEntry_requeues hbears]
    exact hbelow.imp_right fun h hle => absurd (BitVec.le_def.mp hle) (by omega)

/-- The effects of a new REPORT and a new ALERT (R14, R107, R119). -/
theorem upstreamEffects {s : State} {x : Exchange} {reply : Reply} {r : StationRecord}
    (hfind : s.st.find x.address = some r) (hnew : r.inToggle ≠ some (ctrlT reply.ctrl)) :
    (s.rq.length + s.oq.length < 24 →
      (replyEffect x .report reply s).st.find x.address = some { r with inToggle := some (ctrlT reply.ctrl) } ∧
      { replyEffect x .report reply s with st := s.st } =
        { s with rq := s.rq ++ [.report x.address reply.payload s.ps.cycle] }) ∧
    (24 ≤ s.rq.length + s.oq.length →
      (replyEffect x .report reply s).st.find x.address = some { r with refusals := satInc r.refusals } ∧
      { replyEffect x .report reply s with st := s.st } = s) ∧
    ∀ level code : Byte, reply.payload = [level, code] → level.toNat ≤ 2 →
      let effective : BitVec 2 := if level.toNat < r.ceiling.toNat then level.setWidth 2 else r.ceiling
      (∀ u, s.au.arrive x.address effective code = some u →
        (replyEffect x .alert reply s).st.find x.address = some { r with inToggle := some (ctrlT reply.ctrl) } ∧
        { replyEffect x .alert reply s with st := s.st } = { s with au := u }) ∧
      (s.au.arrive x.address effective code = none →
        (replyEffect x .alert reply s).st.find x.address = some { r with refusals := satInc r.refusals } ∧
        { replyEffect x .alert reply s with st := s.st } = s) := by
  have hnot := mt (isDuplicate_iff hfind).mp hnew
  have haccepted (v : State) (hv : v.st.find x.address = some r) :
      (acceptUpstream x.address (ctrlT reply.ctrl) v).st.find x.address =
        some { r with inToggle := some (ctrlT reply.ctrl) } :=
    find_updateStation_same (f := fun r => { r with inToggle := some (ctrlT reply.ctrl) }) (fun _ => rfl) hv
  have hrefused : (refuseUpstream x.address s).st.find x.address = some { r with refusals := satInc r.refusals } :=
    find_updateStation_same (f := fun r => { r with refusals := satInc r.refusals }) (fun _ => rfl) hfind
  refine ⟨fun hroom => ?_, fun hfull => ?_, fun level code hpayload hlevel => ⟨fun u hu => ?_, fun hnone => ?_⟩⟩
  · rw [replyEffect_report hnot, newReport_admitted hroom]
    exact ⟨haccepted _ hfind, rfl⟩
  · rw [replyEffect_report hnot, newReport_refused (not_lt_of_ge hfull)]
    exact ⟨hrefused, rfl⟩
  · rw [replyEffect_alert hnot, newAlert_arrives (u := u)]
    · exact ⟨haccepted { s with au := u } hfind, rfl⟩
    · rw [hpayload, List.getD_cons_zero, List.getD_cons_succ, List.getD_cons_zero, effectiveLevel_of_find hfind hlevel]
      exact hu
  · rw [replyEffect_alert hnot, newAlert_refused]
    · exact ⟨hrefused, rfl⟩
    · rw [hpayload, List.getD_cons_zero, List.getD_cons_succ, List.getD_cons_zero, effectiveLevel_of_find hfind hlevel]
      exact hnone

/-- Settles O51: the effects by the reply's kind; its delivery ends the exchange GOOD, and the turn is decided anew. -/
theorem goodReplyEffects : Obligations.GoodReplyEffects := by
  refine ⟨fun s x reply r hfind => ⟨fun hsync => ?_, replyEffect_nil, fun k hk hduplicate => ?_,
    upstreamEffects hfind, fun tag e htag hbears => entryEffects hfind htag hbears⟩, ?_⟩
  · rw [replyEffect_sync hsync]
    exact find_updateStation_same (f := fun r => { r with outToggle := false, inToggle := none, syncPending := false })
      (fun _ => rfl) hfind
  · rw [replyEffect_duplicate hk ((isDuplicate_iff hfind).mpr hduplicate)]
    exact ⟨find_updateStation_same (f := fun r => { r with duplicates := satInc r.duplicates }) (fun _ => rfl) hfind, rfl⟩
  · intro s x turn r samples begun c k hrun hassembling hreceive hstart hc hmark hx hkind haddress hturn hphase hcomplete
      hgood hk u hfind
    have hleaves : EffectLeaves x.address k s u := effectLeaves_replyEffect x k _ s
    have hanswers := kindAnswers_of_good hgood
    rw [hk, Option.getD_some, kindAnswers_iff] at hanswers
    have hlc : (replyCounted x k c u).lc = s.lc := hleaves.lc
    have hps : (replyCounted x k c u).ps = s.ps := hleaves.ps
    have hdecides (hmode : s.lc.mode = .run) := endExchange_decides (w := replyCounted x k c u) haddress hkind
      (hlc ▸ hmode) (hps ▸ hphase) (hps ▸ hturn)
    refine ⟨_, exec_delivers_good hrun hassembling hreceive hstart hc hmark hx hcomplete hgood hk,
      exchangeEnds_endExchange nofun, fun hmode => ?_, fun hmode hnone hwrite => ?_⟩
    · obtain ⟨next, z, hz, hends⟩ := hdecides hmode
      have hturn' := decideTurn_goes hz.turn
      have happart := apart_decideTurn next z
      have hau : u.au = s.au := by
        refine hleaves.2.2 ?_
        rintro rfl
        rcases hkind with h | h <;> simp [h] at hanswers
      rw [hends, hturn'.1, hz.st]
      refine ⟨find_replyCounted hfind, fun b hb => ?_, ?_, ?_, ?_⟩
      · rw [hturn'.1, hz.st, replyCounted_st, find_update_other (f := recordCounted k) (fun _ => rfl) hb]
        exact hleaves.2.1 b hb
      · exact (apart_rq happart).trans hz.rq
      · exact ((apart_au happart).trans hz.au).trans hau
      · exact hturn'.2.trans (congrArg some hz.address)
    · obtain ⟨next, z, hz, hends⟩ := hdecides hmode
      have hpoll := decideTurn_handsPoll (hz.poll hwrite) (hz.announcement.trans ((congrArg _ hlc).trans hnone))
      have hcfg : z.cfg = s.cfg := hz.cfg.trans hleaves.cfg
      rw [hends, hpoll]
      refine ⟨hz.oq, ?_⟩
      simp only [handPoll_exchange, hz.address, hz.kind, hcfg, broadcastExchange]

/-- The effect of a reply to a POLL changes three fields of the record at most. -/
def PollCounted (r r' : StationRecord) : Prop :=
  r' = { r with inToggle := r'.inToggle, duplicates := r'.duplicates, refusals := r'.refusals }

theorem pollCounted_replyEffect {s : State} {x : Exchange} {k : ReplyKind} {reply : Reply} {r r' : StationRecord}
    (hpoll : x.kind = .poll) (hk : k = .nil ∨ k = .report ∨ k = .alert) (hfind : s.st.find x.address = some r)
    (hfind' : (replyEffect x k reply s).st.find x.address = some r') : PollCounted r r' := by
  have hof {f : StationRecord → StationRecord} {v : State} (hf : ∀ r, (f r).address = r.address)
      (hcounted : PollCounted r (f r)) (hv : v.st.find x.address = some r)
      (heffect : replyEffect x k reply s = updateStation x.address f v) : PollCounted r r' := by
    rw [heffect, find_updateStation_same hf hv] at hfind'
    cases hfind'
    exact hcounted
  have hduplicate := hof (f := fun r => { r with duplicates := satInc r.duplicates }) (fun _ => rfl) rfl hfind
  have hrefused := hof (f := fun r => { r with refusals := satInc r.refusals }) (fun _ => rfl) rfl hfind
  have haccepted {v : State} := hof (f := fun r => { r with inToggle := some (ctrlT reply.ctrl) }) (v := v)
    (fun _ => rfl) rfl
  by_cases hold : isDuplicate s x.address (ctrlT reply.ctrl) = true ∧ k ≠ .nil
  · exact hduplicate (replyEffect_duplicate (hk.resolve_left hold.2) hold.1)
  rcases hk with rfl | rfl | rfl
  · rw [replyEffect_nil (hpoll ▸ nofun), hfind] at hfind'
    cases hfind'
    rfl
  · have hnew := replyEffect_report fun h => hold ⟨h, nofun⟩
    by_cases hroom : sharedSum s < 24
    · exact haccepted (v := { s with rq := s.rq ++ [.report x.address reply.payload s.ps.cycle] }) hfind
        (hnew.trans (newReport_admitted hroom))
    · exact hrefused (hnew.trans (newReport_refused hroom))
  · have hnew := replyEffect_alert fun h => hold ⟨h, nofun⟩
    cases hu : s.au.arrive x.address (effectiveLevel s x.address (reply.payload.getD 0 0)) (reply.payload.getD 1 0) with
    | some u => exact haccepted (v := { s with au := u }) hfind (hnew.trans (newAlert_arrives hu))
    | none => exact hrefused (hnew.trans (newAlert_refused hu))

/-- Settles O52: a NIL, a REPORT or an ALERT changes at most three fields of the record before the reply is counted, and
the exchange's end is the turn's success. -/
theorem goodPollIsASuccess : Obligations.GoodPollIsASuccess := by
  intro s x turn r r' samples begun c k hrun hassembling hreceive hstart hc hmark hx hpoll haddress _ _ hfind _ hcomplete
    hgood hk u hfind'
  have hanswers := kindAnswers_of_good hgood
  rw [hk, Option.getD_some, kindAnswers_iff] at hanswers
  have hkinds : k = .nil ∨ k = .report ∨ k = .alert := by simpa [hpoll] using hanswers
  have hcounted : PollCounted r r' := pollCounted_replyEffect hpoll hkinds hfind hfind'
  have haccepted : r'.accepted = r.accepted := by rw [hcounted]
  refine ⟨_, exec_delivers_good hrun hassembling hreceive hstart hc hmark hx hcomplete hgood hk, hkinds, hcounted, ?_, ?_,
    exchangeEnds_endExchange nofun⟩
  · rw [find_replyCounted hfind', recordCounted, haccepted]
  · simp only [turnResultOf, if_neg haddress, hpoll, if_true]
    split <;> rfl

end Sys2Proof.Machine
